-- ==== Sys2Proof/Word.lean ====
section
/-!
DEFINITION. The word types of the block: 32-bit register words (R11), bytes, and bit ranges written [hi:lo] (R8).
-/
namespace Sys2Proof

/-- A register word or a 32-bit mailbox data word (R11). -/
abbrev Word := BitVec 32

/-- One byte of a frame, a table or a memory. -/
abbrev Byte := BitVec 8

end Sys2Proof
end

