-- ==== Sys2Proof/Syntax.lean ====
section
/-!
DEFINITION. The commands of the block: one constructor per row of spec/opcode_table.json, in its order, with the operands
the command arrives with. A verdict of the world outside the model (a received FCS, a trained lane, a signature engine)
is an operand.
-/
namespace Sys2Proof

/-- The two requesters of register pages (R54, R60). -/
inductive Requester | host | holtarun
  deriving DecidableEq, Repr

/-- A read of a page's register as it reaches the page (R52): page, byte enables. -/
structure PageRead where
  page : Nat
  be : Nat
  deriving DecidableEq, Repr

/-- What comes back for the words of a read (R327, R328): the bits found in error, as word of the atoms read and 72-bit mask, and
whether a command/address parity error was reported. -/
structure ReadBits where
  errs : List (Nat × Nat)
  parity : Bool
  deriving DecidableEq, Repr

/-- A command: an operation on a register, an event of the protocol, or a step of one of the device's engines. -/
inductive Instr
  /-- REGISTER_WRITE (R52): requester, page, byte offset, byte enables, value. -/
  | registerWrite (req : Requester) (page : Nat) (off : Nat) (be : Nat) (v : Word)
  /-- UNLOCK (R61): requester, page, value written to UNLOCK. -/
  | unlock (req : Requester) (page : Nat) (v : Word)
  /-- UPD_GROUP_WRITE (R59): requester, page, value. -/
  | updGroupWrite (req : Requester) (page : Nat) (v : Word)
  /-- INJECT_WRITE (R58): requester, page, value. -/
  | injectWrite (req : Requester) (page : Nat) (v : Word)
  /-- MAILBOX_READ (R74): requester, page, value written to MBX_CTRL. -/
  | mailboxRead (req : Requester) (page : Nat) (v : Word)
  /-- MAILBOX_WRITE (R74): requester, page, value written to MBX_CTRL. -/
  | mailboxWrite (req : Requester) (page : Nat) (v : Word)
  /-- MAILBOX_COMPLETE (R76): page. -/
  | mailboxComplete (page : Nat)
  /-- MAILBOX_TIMEOUT (R76): page. -/
  | mailboxTimeout (page : Nat)
  /-- MBX_CTRL_READ (R52, R74): requester, page and byte enables. -/
  | mbxCtrlRead (req : Requester) (r : PageRead)
  /-- STROBE_REQUEST (R67): requester, value written to GLB.UPDATE_STROBE. -/
  | strobeRequest (req : Requester) (v : Word)
  /-- FLIP (R68): which waiting flip, in order of request. -/
  | flip (n : Nat)
  /-- TIMED_STROBE_FIRE (R72): which timed strobe. -/
  | timedStrobeFire (n : Nat)
  /-- CFG_CRC_SWEEP (R78). -/
  | cfgCrcSweep
  /-- PCS_LAYOUT_WRITE (R86): requester, port group, value. -/
  | pcsLayoutWrite (req : Requester) (g : Nat) (v : Word)
  /-- FRAME_RECEIVE (R94): port, tenths of ns after the core clock, bytes received so far. -/
  | frameReceive (p : Nat) (sub : Nat) (bytes : List Byte)
  /-- FRAME_TAIL (R38): port, the remaining bytes through the FCS, FCS verdict. -/
  | frameTail (p : Nat) (bytes : List Byte) (fcsOk : Bool)
  /-- PAUSE_FRAME (R97): port, quanta. -/
  | pauseFrame (p : Nat) (quanta : Nat)
  /-- PFC_FRAME (R97): port, class-enable vector, quanta of classes 0-7. -/
  | pfcFrame (p : Nat) (en : Nat) (quanta : List Nat)
  /-- PAUSE_EXPIRY (R97): port, class. -/
  | pauseExpiry (p : Nat) (cls : Nat)
  /-- PAUSE_REPEAT (R99): port. -/
  | pauseRepeat (p : Nat)
  /-- LPI_ENTRY (R100): port. -/
  | lpiEntry (p : Nat)
  /-- LPI_WAKE (R100): port. -/
  | lpiWake (p : Nat)
  /-- PARK_WINDOW_END (R105): port. -/
  | parkWindowEnd (p : Nat)
  /-- PARK_REQ (R105): port, VERSION and SEQ of the received park frame. -/
  | parkReq (p : Nat) (ver : Nat) (seq : Nat)
  /-- PARK_ACK (R105): port, VERSION and SEQ of the received park frame. -/
  | parkAck (p : Nat) (ver : Nat) (seq : Nat)
  /-- PARK_NAK (R105): port, VERSION and SEQ of the received park frame. -/
  | parkNak (p : Nat) (ver : Nat) (seq : Nat)
  /-- PARK_READY (R105): port, VERSION and SEQ of the received park frame. -/
  | parkReady (p : Nat) (ver : Nat) (seq : Nat)
  /-- WAKE_REQ (R105): port, VERSION and SEQ of the received park frame. -/
  | wakeReq (p : Nat) (ver : Nat) (seq : Nat)
  /-- WAKE_READY (R105): port, VERSION and SEQ of the received park frame. -/
  | wakeReady (p : Nat) (ver : Nat) (seq : Nat)
  /-- PARK_DRAIN_DONE (R105): port. -/
  | parkDrainDone (p : Nat)
  /-- RECEIVER_REALIGNED (R105): port. -/
  | receiverRealigned (p : Nat)
  /-- WAKE_CONDITION (R105): port. -/
  | wakeCondition (p : Nat)
  /-- WAKE_LANES_LOCKED (R105): port. -/
  | wakeLanesLocked (p : Nat)
  /-- WAKE_TIMEOUT (R105): port. -/
  | wakeTimeout (p : Nat)
  /-- WAKE_RETEST (R105): port. -/
  | wakeRetest (p : Nat)
  /-- PARK_RTO (R105): port. -/
  | parkRto (p : Nat)
  /-- LINK_LOSS (R108): port. -/
  | linkLoss (p : Nat)
  /-- LINK_UP (R109): port. -/
  | linkUp (p : Nat)
  /-- CODEWORD_DECODE (R89): port, symbols corrected on lanes 0-7 of the group, whether it decoded. -/
  | codewordDecode (p : Nat) (syms : List Nat) (ok : Bool)
  /-- FEC_WINDOW_END (R110): port. -/
  | fecWindowEnd (p : Nat)
  /-- RETRAIN_START (R111): port. -/
  | retrainStart (p : Nat)
  /-- TRAINING_ATTEMPT_END (R517): lane, outcome, eye height in mV, trained taps. -/
  | trainingAttemptEnd (lane : Nat) (locked : Bool) (eye : Nat) (taps : Word)
  /-- HOLDING_BUFFER_EXIT (R35): slice. -/
  | holdingBufferExit (sl : Nat)
  /-- PARSE_STEP (R119): head. -/
  | parseStep (id : Nat)
  /-- PARSE_END (R117): head. -/
  | parseEnd (id : Nat)
  /-- GRAPH_SWEEP (R137). -/
  | graphSweep
  /-- CLASSIFY (R141): head. -/
  | classify (id : Nat)
  /-- RELOAD_ATTEMPT (R157): bank page, quarantine slot or 4 for an entry excluded without a slot, whether the row reads back as written. -/
  | reloadAttempt (page : Nat) (slot : Nat) (ok : Bool)
  /-- RADISH_SCRUB (R161): bank page, entry, whether the array row differs from its verify copy. -/
  | radishScrub (page : Nat) (entry : Nat) (differs : Bool)
  /-- BANK_SYNC (R155): bank page. -/
  | bankSync (page : Nat)
  /-- BANK_SYNC_END (R155): bank page. -/
  | bankSyncEnd (page : Nat)
  /-- OLD_READERS_CLEAR (R168): pair. -/
  | oldReadersClear (k : Nat)
  /-- TBL_CFG_WRITE (R154): requester, slice, table, value. -/
  | tblCfgWrite (req : Requester) (sl : Nat) (t : Nat) (v : Word)
  /-- FORWARDING_LOOKUP (R175): head. -/
  | forwardingLookup (id : Nat)
  /-- ADD (R188): which command port: Chard or Leek. -/
  | add (chard : Bool)
  /-- DELETE (R188): which command port: Chard or Leek. -/
  | delete (chard : Bool)
  /-- CLEAR_TENANT (R188): which command port: Chard or Leek. -/
  | clearTenant (chard : Bool)
  /-- FLUSH_LEARNED (R188). -/
  | flushLearned
  /-- LEEK_SYNC (R179). -/
  | leekSync
  /-- LEEK_SYNC_END (R179). -/
  | leekSyncEnd
  /-- DEFERRED_APPLY (R186). -/
  | deferredApply
  /-- LEARN (R195): target the message reaches: pair 0-3, or 4 Holtarun. -/
  | learn (target : Nat)
  /-- REFRESH (R195): target the message reaches: pair 0-3, or 4 Holtarun. -/
  | refresh (target : Nat)
  /-- AGE (R195): target the message reaches: pair 0-3, or 4 Holtarun. -/
  | age (target : Nat)
  /-- WITHDRAW (R195): target the message reaches: pair 0-3, or 4 Holtarun. -/
  | withdraw (target : Nat)
  /-- AGING_SWEEP (R196): pair. -/
  | agingSweep (k : Nat)
  /-- LEARN_FILTER_EXPIRY (R192): pair. -/
  | learnFilterExpiry (k : Nat)
  /-- NHP_HALF_COPY (R204): pair. -/
  | nhpHalfCopy (k : Nat)
  /-- PORT_DOWN_SET (R206): port. -/
  | portDownSet (p : Nat)
  /-- PORT_DOWN_CLEAR (R208): port. -/
  | portDownClear (p : Nat)
  /-- RESTEER (R207): slice whose re-steer engine takes a packet. -/
  | resteer (sl : Nat)
  /-- RESTEER_JOIN (R306): backup slice. -/
  | resteerJoin (sl : Nat)
  /-- POLICE (R233): head. -/
  | police (id : Nat)
  /-- ADMISSION_VERDICT (R257): head. -/
  | admissionVerdict (id : Nat)
  /-- KEEPER_SWEEP (R250): slice. -/
  | keeperSweep (sl : Nat)
  /-- CARRY_END (R264): port, class. -/
  | carryEnd (p : Nat) (cls : Nat)
  /-- CHK_CTL_GO (R270): requester, slice, value. -/
  | chkCtlGo (req : Requester) (sl : Nat) (v : Word)
  /-- CONSERVATION_CHECK (R270): slice. -/
  | conservationCheck (sl : Nat)
  /-- STAGE_A_TRANSFER (R278): ingress slice. -/
  | stageATransfer (sl : Nat)
  /-- STAGE_B_TRANSFER (R277): middle lane. -/
  | stageBTransfer (lane : Nat)
  /-- IMBALANCE_WINDOW (R285): slice. -/
  | imbalanceWindow (sl : Nat)
  /-- REPLICATION_PASS (R298): packet, egress slice. -/
  | replicationPass (id : Nat) (es : Nat)
  /-- RESIDUE_REEXAMINE (R299): egress slice. -/
  | residueReexamine (es : Nat)
  /-- MULTICAST_RESIDUE_EXPIRED (R300): item. -/
  | multicastResidueExpired (it : Nat)
  /-- STAGING_FLUSH (R301): port, class. -/
  | stagingFlush (p : Nat) (cls : Nat)
  /-- SPILL_WRITE_RESPONSE (R304, R305): request; a command/address parity error was reported (R328). -/
  | spillWriteResponse (id : Nat) (parity : Bool)
  /-- PREFETCH_READ_ISSUE (R303): egress slice. -/
  | prefetchReadIssue (es : Nat)
  /-- PREFETCH_RETURN (R304, R305): request; bits found in error: word of the atoms read, 72-bit mask; a parity error was reported (R328). -/
  | prefetchReturn (id : Nat) (back : ReadBits)
  /-- EXTERNAL_READ_TIMEOUT (R305): item. -/
  | externalReadTimeout (it : Nat)
  /-- MIRROR_RECORD_WRITE (R309). -/
  | mirrorRecordWrite
  /-- BURLAP_REQUEST (R322): requester of Table 10-2, address, bytes to read, bytes to write (none for a read). -/
  | burlapRequest (who : Nat) (addr : Nat) (len : Nat) (data : List Byte)
  /-- BURLAP_COMMAND_ISSUE (R323): channel instance, pseudo-channel. -/
  | burlapCommandIssue (i : Nat) (pc : Nat)
  /-- BURLAP_RESPONSE (R327): request; bits found in error: word of the atoms read, 72-bit mask; a parity error was reported (R328). -/
  | burlapResponse (id : Nat) (back : ReadBits)
  /-- READ_RETRY (R328): request, bits found in error on the re-read. -/
  | readRetry (id : Nat) (errs : List (Nat × Nat))
  /-- REFPB (R324): channel instance, pseudo-channel, bank, all-bank refresh needed. -/
  | refpb (i : Nat) (pc : Nat) (bank : Nat) (all : Bool)
  /-- SCRUB_READ (R325): channel instance, atom. -/
  | scrubRead (i : Nat) (atom : Nat)
  /-- CONTAIN (R337): requester, channel instance, value written to CH_CTL. -/
  | contain (req : Requester) (i : Nat) (v : Word)
  /-- TEMPERATURE_REPORT (R338): stack, degrees C. -/
  | temperatureReport (stack : Nat) (temp : Nat)
  /-- TRAINING_RUN (R339): requester, channel instance, value written to TRN_CTL. -/
  | trainingRun (req : Requester) (i : Nat) (v : Word)
  /-- TRAINING_RUN_DONE (R339): channel instance, errors of each bit of the pseudo-channel. -/
  | trainingRunDone (i : Nat) (errs : List Nat)
  /-- TRAINING_TIMEOUT (R339): channel instance. -/
  | trainingTimeout (i : Nat)
  /-- IN_SERVICE (R336): requester, channel instance, value written to CH_CTL. -/
  | inService (req : Requester) (i : Nat) (v : Word)
  /-- BURLAP_ENABLE (R336): requester, value written to BRL.CTL. -/
  | burlapEnable (req : Requester) (v : Word)
  /-- LOG_CLR (R330): requester, channel instance, value. -/
  | logClr (req : Requester) (i : Nat) (v : Word)
  /-- TAP_STEP (R340): requester, channel instance, value written to MBX_CTRL. -/
  | tapStep (req : Requester) (i : Nat) (v : Word)
  /-- SCHEDULER_DECISION (R349): port. -/
  | schedulerDecision (p : Nat)
  /-- EDT_HALF_COPY (R213): slice. -/
  | edtHalfCopy (sl : Nat)
  /-- EDT_COPY_END (R213): slice. -/
  | edtCopyEnd (sl : Nat)
  /-- TRANSMIT_END (R41): port. -/
  | transmitEnd (p : Nat)
  /-- SHAPER_REFILL (R357): port, class shaper 0-8 or port shaper 9. -/
  | shaperRefill (p : Nat) (q : Nat)
  /-- HIERARCHICAL_EXIT (R353): port. -/
  | hierarchicalExit (p : Nat)
  /-- GATE_CHANGE (R359): port. -/
  | gateChange (p : Nat)
  /-- QUEUE_FLUSH_STEP (R364): port, queue. -/
  | queueFlushStep (p : Nat) (q : Nat)
  /-- QUEUE_SAMPLE (R366): port group. -/
  | queueSample (g : Nat)
  /-- LOAD (R370): requester, value written to LOAD_CTL. -/
  | load (req : Requester) (v : Word)
  /-- LOAD_CANCEL (R370): requester, value written to LOAD_CTL. -/
  | loadCancel (req : Requester) (v : Word)
  /-- LOAD_APPLY (R370). -/
  | loadApply
  /-- TIMESTAMP_FIFO_POP (R375): requester, value written to MBX_CTRL. -/
  | timestampFifoPop (req : Requester) (v : Word)
  /-- PPS_OUT_EDGE (R377). -/
  | ppsOutEdge
  /-- PPS_IN_EDGE (R378): tenths of ns after the core clock. -/
  | ppsInEdge (sub : Nat)
  /-- PPS_IN_LOST (R378). -/
  | ppsInLost
  /-- PPS_CAPTURE_READ (R378): requester, value written to MBX_CTRL. -/
  | ppsCaptureRead (req : Requester) (v : Word)
  /-- TOD_SEND (R379). -/
  | todSend
  /-- TOD_RECEIVE (R379): bytes of the message. -/
  | todReceive (bytes : List Byte)
  /-- HISTOGRAM_WINDOW_END (R382): slice. -/
  | histogramWindowEnd (sl : Nat)
  /-- MUSLIN_RECORD_WRITE (R386). -/
  | muslinRecordWrite
  /-- LEDGER_SNAPSHOT (R388): slice. -/
  | ledgerSnapshot (sl : Nat)
  /-- RECORD_SUBMIT (R390): requester, slice, value written to MBX_CTRL. -/
  | recordSubmit (req : Requester) (sl : Nat) (v : Word)
  /-- WFE (R397): thread. -/
  | wfe (h : Nat)
  /-- WFE_WAKE (R397): thread. -/
  | wfeWake (h : Nat)
  /-- WFE_TIMEOUT (R397): thread. -/
  | wfeTimeout (h : Nat)
  /-- EVSIG (R398): thread. -/
  | evsig (h : Nat)
  /-- FORK (R399): thread. -/
  | fork (h : Nat)
  /-- JOIN_W (R400): thread. -/
  | joinW (h : Nat)
  /-- JOIN_X (R400): thread. -/
  | joinX (h : Nat)
  /-- TSREAD_NS (R401): thread. -/
  | tsreadNs (h : Nat)
  /-- TSREAD_HI (R401): thread. -/
  | tsreadHi (h : Nat)
  /-- BCOPY (R402): thread. -/
  | bcopy (h : Nat)
  /-- BFILL (R402): thread. -/
  | bfill (h : Nat)
  /-- BCRC (R402): thread. -/
  | bcrc (h : Nat)
  /-- INSTRUCTION_RETIRE (R393): thread. -/
  | instructionRetire (h : Nat)
  /-- HART_INTERRUPT (R404): thread. -/
  | hartInterrupt (h : Nat)
  /-- EV_SIG (R403): requester, value. -/
  | evSig (req : Requester) (v : Word)
  /-- CLEAN (R407): thread. -/
  | clean (h : Nat)
  /-- INVALIDATE (R407): thread. -/
  | invalidate (h : Nat)
  /-- CLEAN_AND_INVALIDATE (R407): thread. -/
  | cleanAndInvalidate (h : Nat)
  /-- CLUSTER_TIMER_EXPIRY (R403): timer. -/
  | clusterTimerExpiry (i : Nat)
  /-- PUNT_RECORD_WRITE (R409): punt queue. -/
  | puntRecordWrite (q : Nat)
  /-- INJECT_DESCRIPTOR (R410): inject queue. -/
  | injectDescriptor (q : Nat)
  /-- LEARNING_MESSAGE_INJECT (R411): requester, value written to MBX_CTRL. -/
  | learningMessageInject (req : Requester) (v : Word)
  /-- CONTROL_PLANE_RESTART (R416): requester, value. -/
  | controlPlaneRestart (req : Requester) (v : Word)
  /-- CLUSTER_RESTART_DONE (R416). -/
  | clusterRestartDone
  /-- DMA_GO (R423): requester, channel, value. -/
  | dmaGo (req : Requester) (c : Nat) (v : Word)
  /-- DMA_STOP (R431): requester, channel, value. -/
  | dmaStop (req : Requester) (c : Nat) (v : Word)
  /-- DESCRIPTOR_FETCH (R424): channel, descriptor bytes, whether it completes a request that had timed out. -/
  | descriptorFetch (c : Nat) (bytes : List Byte) (late : Bool)
  /-- DMA_BURST (R421): channel. -/
  | dmaBurst (c : Nat)
  /-- DMA_READ_COMPLETION (R422): channel, data, whether it completes a request that had timed out. -/
  | dmaReadCompletion (c : Nat) (bytes : List Byte) (late : Bool)
  /-- DMA_COMPLETION_TIMEOUT (R427): channel. -/
  | dmaCompletionTimeout (c : Nat)
  /-- TABLE_RECORD_WRITE (R420): channel. -/
  | tableRecordWrite (c : Nat)
  /-- CHAIN_END (R426): channel. -/
  | chainEnd (c : Nat)
  /-- CH_TMO_WRITE (R429): requester, channel, value. -/
  | chTmoWrite (req : Requester) (c : Nat) (v : Word)
  /-- TRANSMIT_DESCRIPTOR (R438): priority. -/
  | transmitDescriptor (pr : Nat)
  /-- PERRUN_ACK (R442): arrival port, frame bytes. -/
  | perrunAck (p : Nat) (bytes : List Byte)
  /-- PERRUN_HELLO (R445): arrival port, frame bytes. -/
  | perrunHello (p : Nat) (bytes : List Byte)
  /-- PERRUN_LEARN (R440): arrival port, frame bytes. -/
  | perrunLearn (p : Nat) (bytes : List Byte)
  /-- PERRUN_AGE (R440): arrival port, frame bytes. -/
  | perrunAge (p : Nat) (bytes : List Byte)
  /-- PERRUN_WITHDRAW (R440): arrival port, frame bytes. -/
  | perrunWithdraw (p : Nat) (bytes : List Byte)
  /-- PERRUN_PROT (R440): arrival port, frame bytes. -/
  | perrunProt (p : Nat) (bytes : List Byte)
  /-- PERRUN_TELEM (R440): arrival port, frame bytes. -/
  | perrunTelem (p : Nat) (bytes : List Byte)
  /-- PERRUN_EPOCH (R448): arrival port, frame bytes. -/
  | perrunEpoch (p : Nat) (bytes : List Byte)
  /-- RETRANSMIT (R443): message. -/
  | retransmit (id : Nat)
  /-- MESSAGE_DEADLINE (R443): message. -/
  | messageDeadline (id : Nat)
  /-- HELLO_SEND (R445). -/
  | helloSend
  /-- ROUTE_DOWN (R445): peer, route. -/
  | routeDown (peer : Nat) (rt : Nat)
  /-- ACK_ONLY (R441): peer, priority. -/
  | ackOnly (peer : Nat) (pr : Nat)
  /-- CONTAINMENT_COMPLETE (R457): which containing unit, in order of firing. -/
  | containmentComplete (n : Nat)
  /-- AUTO_WARM (R459). -/
  | autoWarm
  /-- WARM_RESET (R479): requester and value of a RESET_CTL write, or the pin. -/
  | warmReset (req : Requester) (pin : Bool) (v : Word)
  /-- WARM_RESET_COMPLETE (R465). -/
  | warmResetComplete
  /-- POR_N_ASSERT (R494). -/
  | porNAssert
  /-- POR_N_RELEASE (R466). -/
  | porNRelease
  /-- FUSE_SENSE (R466): fuse CRC verdict, ordering code, core voltages. -/
  | fuseSense (ok : Bool) (code : Nat) (mv0 : Nat) (mv1 : Nat)
  /-- ROOT_PLL_LOCK (R466). -/
  | rootPllLock
  /-- PLL_LOCK_TIMEOUT (R466). -/
  | pllLockTimeout
  /-- PLL_LOSS_OF_LOCK (R32): 0 root PLL, 1-8 SerDes chiplet, 9-14 HBM PHY of a stack. -/
  | pllLossOfLock (which : Nat)
  /-- DIE_LINK_REPLAY (R23). -/
  | dieLinkReplay
  /-- DIE_LINK_FAILURE (R23). -/
  | dieLinkFailure
  /-- THERMAL_SENSOR_PASS (R507): highest die sensor reading. -/
  | thermalSensorPass (tj : Nat)
  /-- CORE_RAIL_FAULT (R486). -/
  | coreRailFault
  /-- FLASH_DIRECTORY_READ (R468): directory bytes. -/
  | flashDirectoryRead (bytes : List Byte)
  /-- CONTAINER_CHECK (R471): source copy, container bytes, and the verdicts of the hash, signature and decryption engines. -/
  | containerCheck (src : Nat) (bytes : List Byte) (keyOk : Bool) (sigOk : Bool) (tagOk : Bool)
  /-- HOST_BUNDLE_GO (R469): requester, value. -/
  | hostBundleGo (req : Requester) (v : Word)
  /-- DATA_PLANE_RELEASE (R474). -/
  | dataPlaneRelease
  /-- LIMITED_MODE_ENTRY (R473). -/
  | limitedModeEntry
  /-- GRAVE_LATCH_CLEAR (R492). -/
  | graveLatchClear
  /-- PERST_N (R496). -/
  | perstN
  /-- SMBUS_BLOCK_READ (R502): command code. -/
  | smbusBlockRead (code : Nat)
  /-- SMBUS_WRITE (R503): bytes written. -/
  | smbusWrite (bytes : List Byte)
  /-- SMBUS_TIMEOUT (R502). -/
  | smbusTimeout
  /-- LOSS_OF_BLOCK_LOCK (R108): port, lane of its group that lost lock, whether CDR lock was lost. -/
  | lossOfBlockLock (p : Nat) (lane : Nat) (cdr : Bool)
  /-- BLOCK_LOCK_ACQUIRED (R109): port. -/
  | blockLockAcquired (p : Nat)
  /-- REMOTE_FAULT_RECEIVED (R108): port, started or stopped. -/
  | remoteFaultReceived (p : Nat) (on : Bool)
  /-- DIE_LINK_REPLAY_END (R23). -/
  | dieLinkReplayEnd
  /-- PCIE_LINK_DOWN (R496). -/
  | pcieLinkDown
  /-- PCIE_LINK_UP (R429): rate generation, width, replay budget in ns. -/
  | pcieLinkUp (gen : Nat) (width : Nat) (replay : Nat)
  /-- D3HOT_ENTRY (R500). -/
  | d3hotEntry
  /-- DEBUG_HALT (R394): thread, resume. -/
  | debugHalt (h : Nat) (resume : Bool)
  deriving DecidableEq, Repr

end Sys2Proof
end

