-- ==== Sys2Proof/WellFormed.lean ====
section
/-!
DEFINITION. Well-formed commands: each operand names something the device has (Table 0-4, Table 2-1): a port P000-P383, a
slice S0-S7, a queue, a lane, a channel, a field value that fits its field. What a command does when its event's moment
has not come is its meaning's business, not this file's.
-/
namespace Sys2Proof

/-- The operands name what the device has. -/
def Instr.wf : Instr → Bool
  | .registerWrite _ page off be _ => page < 32768 && off < 4096 && off % 4 == 0 && be < 16
  | .unlock _ page _ => page < 32768
  | .updGroupWrite _ page _ => page < 32768
  | .injectWrite _ page _ => page < 32768
  | .mailboxRead _ page _ => page < 32768
  | .mailboxWrite _ page _ => page < 32768
  | .mailboxComplete page => page < 32768
  | .mailboxTimeout page => page < 32768
  | .mbxCtrlRead _ r => r.page < 32768 && r.be < 16
  | .strobeRequest _ _ => true
  | .flip n => n < 16
  | .timedStrobeFire n => n < 4
  | .cfgCrcSweep => true
  | .pcsLayoutWrite _ g _ => g < 48
  | .frameReceive p sub _ => p < 384 && sub < 7
  | .frameTail p _ _ => p < 384
  | .pauseFrame p quanta => p < 384 && quanta < 65536
  | .pfcFrame p en quanta => p < 384 && en < 256 && quanta.length == 8 && quanta.all (· < 65536)
  | .pauseExpiry p cls => p < 384 && cls < 8
  | .pauseRepeat p => p < 384
  | .lpiEntry p => p < 384
  | .lpiWake p => p < 384
  | .parkWindowEnd p => p < 384
  | .parkReq p ver seq => p < 384 && ver < 256 && seq < 256
  | .parkAck p ver seq => p < 384 && ver < 256 && seq < 256
  | .parkNak p ver seq => p < 384 && ver < 256 && seq < 256
  | .parkReady p ver seq => p < 384 && ver < 256 && seq < 256
  | .wakeReq p ver seq => p < 384 && ver < 256 && seq < 256
  | .wakeReady p ver seq => p < 384 && ver < 256 && seq < 256
  | .parkDrainDone p => p < 384
  | .receiverRealigned p => p < 384
  | .wakeCondition p => p < 384
  | .wakeLanesLocked p => p < 384
  | .wakeTimeout p => p < 384
  | .wakeRetest p => p < 384
  | .parkRto p => p < 384
  | .linkLoss p => p < 384
  | .linkUp p => p < 384
  | .codewordDecode p syms _ => p < 384 && syms.length == 8 && syms.all (· < 16)
  | .fecWindowEnd p => p < 384
  | .retrainStart p => p < 384
  | .trainingAttemptEnd lane _ eye _ => lane < 384 && eye < 256
  | .holdingBufferExit sl => sl < 8
  | .parseStep _ => true
  | .parseEnd _ => true
  | .graphSweep => true
  | .classify _ => true
  | .reloadAttempt page slot _ => 320 <= page && page < 448 && slot < 5
  | .radishScrub page entry _ => 320 <= page && page < 448 && entry < 2048
  | .bankSync page => 320 <= page && page < 448
  | .bankSyncEnd page => 320 <= page && page < 448
  | .oldReadersClear k => k < 4
  | .tblCfgWrite _ sl t _ => sl < 8 && t < 16
  | .forwardingLookup _ => true
  | .add _ => true
  | .delete _ => true
  | .clearTenant _ => true
  | .flushLearned => true
  | .leekSync => true
  | .leekSyncEnd => true
  | .deferredApply => true
  | .learn target => target < 5
  | .refresh target => target < 5
  | .age target => target < 5
  | .withdraw target => target < 5
  | .agingSweep k => k < 4
  | .learnFilterExpiry k => k < 4
  | .nhpHalfCopy k => k < 4
  | .portDownSet p => p < 384
  | .portDownClear p => p < 384
  | .resteer sl => sl < 8
  | .resteerJoin sl => sl < 8
  | .police _ => true
  | .admissionVerdict _ => true
  | .keeperSweep sl => sl < 8
  | .carryEnd p cls => p < 384 && cls < 8
  | .chkCtlGo _ sl _ => sl < 8
  | .conservationCheck sl => sl < 8
  | .stageATransfer sl => sl < 8
  | .stageBTransfer lane => lane < 8
  | .imbalanceWindow sl => sl < 8
  | .replicationPass _ es => es < 8
  | .residueReexamine es => es < 8
  | .multicastResidueExpired _ => true
  | .stagingFlush p cls => p < 384 && cls < 8
  | .spillWriteResponse _ _ => true
  | .prefetchReadIssue es => es < 8
  | .prefetchReturn _ _ => true
  | .externalReadTimeout _ => true
  | .mirrorRecordWrite => true
  | .burlapRequest who _ _ _ => who < 9
  | .burlapCommandIssue i pc => i < 192 && pc < 2
  | .burlapResponse _ _ => true
  | .readRetry _ _ => true
  | .refpb i pc bank _ => i < 192 && pc < 2 && bank < 48
  | .scrubRead i atom => i < 192 && atom < 12582912
  | .contain _ i _ => i < 192
  | .temperatureReport stack temp => stack < 6 && temp < 256
  | .trainingRun _ i _ => i < 192
  | .trainingRunDone i _ => i < 192
  | .trainingTimeout i => i < 192
  | .inService _ i _ => i < 192
  | .burlapEnable _ _ => true
  | .logClr _ i _ => i < 192
  | .tapStep _ i _ => i < 192
  | .schedulerDecision p => p < 384
  | .edtHalfCopy sl => sl < 8
  | .edtCopyEnd sl => sl < 8
  | .transmitEnd p => p < 384
  | .shaperRefill p q => p < 384 && q < 10
  | .hierarchicalExit p => p < 384
  | .gateChange p => p < 384
  | .queueFlushStep p q => p < 384 && q < 9
  | .queueSample g => g < 48
  | .load _ _ => true
  | .loadCancel _ _ => true
  | .loadApply => true
  | .timestampFifoPop _ _ => true
  | .ppsOutEdge => true
  | .ppsInEdge sub => sub < 7
  | .ppsInLost => true
  | .ppsCaptureRead _ _ => true
  | .todSend => true
  | .todReceive _ => true
  | .histogramWindowEnd sl => sl < 8
  | .muslinRecordWrite => true
  | .ledgerSnapshot sl => sl < 8
  | .recordSubmit _ sl _ => sl < 8
  | .wfe h => h < 128
  | .wfeWake h => h < 128
  | .wfeTimeout h => h < 128
  | .evsig h => h < 128
  | .fork h => h < 128
  | .joinW h => h < 128
  | .joinX h => h < 128
  | .tsreadNs h => h < 128
  | .tsreadHi h => h < 128
  | .bcopy h => h < 128
  | .bfill h => h < 128
  | .bcrc h => h < 128
  | .instructionRetire h => h < 128
  | .hartInterrupt h => h < 128
  | .evSig _ _ => true
  | .clean h => h < 128
  | .invalidate h => h < 128
  | .cleanAndInvalidate h => h < 128
  | .clusterTimerExpiry i => i < 16
  | .puntRecordWrite q => q < 64
  | .injectDescriptor q => q < 64
  | .learningMessageInject _ _ => true
  | .controlPlaneRestart _ _ => true
  | .clusterRestartDone => true
  | .dmaGo _ c _ => c < 32
  | .dmaStop _ c _ => c < 32
  | .descriptorFetch c _ _ => c < 32
  | .dmaBurst c => c < 32
  | .dmaReadCompletion c _ _ => c < 32
  | .dmaCompletionTimeout c => c < 32
  | .tableRecordWrite c => c < 32
  | .chainEnd c => c < 32
  | .chTmoWrite _ c _ => c < 32
  | .transmitDescriptor pr => pr < 4
  | .perrunAck p _ => p < 384
  | .perrunHello p _ => p < 384
  | .perrunLearn p _ => p < 384
  | .perrunAge p _ => p < 384
  | .perrunWithdraw p _ => p < 384
  | .perrunProt p _ => p < 384
  | .perrunTelem p _ => p < 384
  | .perrunEpoch p _ => p < 384
  | .retransmit _ => true
  | .messageDeadline _ => true
  | .helloSend => true
  | .routeDown peer rt => peer < 64 && rt < 2
  | .ackOnly peer pr => peer < 64 && pr < 4
  | .containmentComplete n => n < 4096
  | .autoWarm => true
  | .warmReset _ _ _ => true
  | .warmResetComplete => true
  | .porNAssert => true
  | .porNRelease => true
  | .fuseSense _ code mv0 mv1 => code < 16 && mv0 < 1024 && mv1 < 1024
  | .rootPllLock => true
  | .pllLockTimeout => true
  | .pllLossOfLock which => which < 15
  | .dieLinkReplay => true
  | .dieLinkFailure => true
  | .thermalSensorPass tj => tj < 256
  | .coreRailFault => true
  | .flashDirectoryRead _ => true
  | .containerCheck src _ _ _ _ => src < 3
  | .hostBundleGo _ _ => true
  | .dataPlaneRelease => true
  | .limitedModeEntry => true
  | .graveLatchClear => true
  | .perstN => true
  | .smbusBlockRead code => code < 256
  | .smbusWrite _ => true
  | .smbusTimeout => true
  | .lossOfBlockLock p lane _ => p < 384 && lane < 8
  | .blockLockAcquired p => p < 384
  | .remoteFaultReceived p _ => p < 384
  | .dieLinkReplayEnd => true
  | .pcieLinkDown => true
  | .pcieLinkUp gen width replay => 3 <= gen && gen < 7 && width < 9 && replay < 4294967296
  | .d3hotEntry => true
  | .debugHalt h _ => h < 128

end Sys2Proof
end

