-- ==== Sys2Proof/Decode.lean ====
section
/-!
DEFINITION. The block has no instruction words: its commands arrive over its buses, pins and engines, and the operation
table gives no row any bits. So no word spells a command.
-/
namespace Sys2Proof

/-- The command a word of the table's bits spells: no row has bits. -/
def decodeTableWord (_nbits _w : Nat) : Option Instr := none

end Sys2Proof
end

