-- ==== Sys2Proof/Config.lean ====
section
/-!
DEFINITION. The free values: what the manual leaves open and the device nevertheless produces. Each is an opaque
constant with no body, so nothing can be proved of its value; `State.free` is the counter that makes each use a new one
(log entry 4).
-/
namespace Sys2Proof.Config

/-- The choice among free places the manual leaves to the device (a free Gauze cell, a free Burlap block, an idle
thread slot, an order of equals): the n-th choice, taken modulo the number of candidates. -/
opaque freeChoice : Nat → Nat

/-- A value the manual leaves undefined after an operation that goes on. -/
opaque freeWord : Nat → Nat

/-- OKR.BASE_VER, "per ROM" (Table 17-7), by Okra instance. -/
opaque okrBaseVer : Nat → Nat

/-- A word of the Okra base microcode: instance and address 0-3,071 (R476; the format is internal to the maker). -/
opaque okrBaseWord : Nat → Nat → Nat

/-- A byte of the Holtarun boot ROM at an offset (Table 13-5; the manual gives no contents). -/
opaque bootRomByte : Nat → Nat

/-- CHILD_BASE of a Leek child array (Table 6-3), by family, tenant, stage and path: the sequencer places the arrays (R178). -/
opaque leekBase : Nat → Nat → Nat → Nat → Nat

/-- The rolling activate count at which the mode registers of a stack ask for RFM (R324: reported by the stack). -/
opaque rfmThreshold : Nat → Nat

/-- The per-bank refresh interval in ns at a stack temperature (R324: JEDEC's, for the range the stack reports). -/
opaque refInterval : Nat → Nat

/-- Where a mailbox counter is kept (R76, R337; the manual does not say which counters are spilled): 0 on chip, else one more than
its offset in the counter-spill region of Burlap. -/
opaque counterHome : Nat → Nat

end Sys2Proof.Config
end

