-- ==== Sys2Proof/Machine/State.lean ====
section
/-!
DEFINITION. The state of the block as plain data, and the reasons a step can stop. Registers and mailbox objects live in
keyed stores (`act`, `shd`, `old`, `cnt`); everything the spec gives the machine beside them has a field of its own.
Values the spec numbers as registers are kept in the register itself, so each has one home.
-/
namespace Sys2Proof.Machine

/-- The blocks of Table 2-1 (HOL and DMA split where their pages' registers differ); `hdr` stands for the header every
page has. -/
inductive Blk
  | hdr | glb | boot | pcie | tim | brl | prn | holc | holx | dmac | dmax | okr | prs | cls | rdh | edt | pol | adm
  | lgr | gze | bpm | tel | tre | lek | chd | nhp | twl | pcs | egs | sds | mac | hch
  deriving DecidableEq, Repr

/-- Access codes of Table 0-5 as the registers combine them: `sh` is RW/SH, `ky` is RW/KY, `wk` is WO/KY. -/
inductive Acc | ro | rw | w1c | wo | sh | ky | wk
  deriving DecidableEq, Repr

/-- A register field: block, page within the instance (255: every page), offset of the first register, stride between
array elements, bits [hi:lo], access, and the range outside which a written value is a reserved encoding (R53). -/
structure Fld where
  blk : Blk
  page : Nat
  off : Nat
  stride : Nat
  hi : Nat
  lo : Nat
  acc : Acc
  min : Nat
  max : Nat
  deriving DecidableEq, Repr

/-- A register, or an array of `count` registers, with its reset value. -/
structure Reg where
  page : Nat
  off : Nat
  stride : Nat
  count : Nat
  reset : Nat
  flds : List Fld
  deriving DecidableEq, Repr

/-- What a mailbox object is: shadowed, plain, counters, read only, write only. -/
inductive ObjKind | sh | rw | cnt | ro | wo
  deriving DecidableEq, Repr

/-- A mailbox object type of a block's page: how many there are and how many 32-bit words each has (R75). -/
structure Obj where
  page : Nat
  obj : Nat
  count : Nat
  words : Nat
  kind : ObjKind
  deriving DecidableEq, Repr

/-- A row of the page directory (Table 2-1, R516). -/
structure DirRow where
  blk : Blk
  code : Nat
  first : Nat
  insts : Nat
  pages : Nat
  base : Nat
  group : Nat
  dataPlane : Bool
  deriving DecidableEq, Repr

/-- Checker kinds of R454; the two ECC sources differ in what an injection does (R463). -/
inductive Checker | mon | crc | cmp | evt | eccC | eccU
  deriving DecidableEq, Repr

/-- A fault source: reset severity, whether INJECT may name it, its checker. -/
structure Src where
  sev : Nat
  inj : Bool
  chk : Checker
  deriving DecidableEq, Repr

/-- A key-value store in canonical form: keys strictly rising (`storeSorted`). -/
abbrev Store (α : Type) := List (Nat × α)

/-- A mailbox operation in progress (R74-R76). `todo` is true while a write waits for its target to accept it. -/
structure MbxOp where
  owner : Requester
  obj : Nat
  idx : Nat
  write : Bool
  clr : Bool
  words : Nat
  data : List Word
  todo : Bool
  start : Nat
  deriving DecidableEq, Repr

/-- A requested flip not yet taken (R66-R69): the groups it names, the sets of groups its requests named with the clocks
they arrived, the earliest clock it may be taken, and the timed strobes that asked for it with their clocks (R72). -/
structure FlipReq where
  groups : Nat
  reqs : List (Nat × Nat)
  ready : Nat
  timed : List (Nat × Nat)
  deriving DecidableEq, Repr

/-- Containment units of Table 16-3. -/
inductive Cunit
  | slice (n : Nat) | pair (n : Nat) | lane (j : Nat) | sched (g : Nat) | port (p : Nat) | chan (i : Nat)
  | core (c : Nat) | dma (c : Nat)
  deriving DecidableEq, Repr

/-- Where a packet came from (R27, Table 4-4). -/
inductive Source | port (n : Nat) | inject (q : Nat)
  deriving DecidableEq, Repr

/-- Stages of a head (Table 1-6): in the holding buffer, in the parser, parsed, classified (stage 5 next), forwarded
(stage 7 next), metered (at the gate), accepted (only its frame remains, for its items). -/
inductive Stage | holding | parsing | parsed | classified | forwarded | metered | accepted
  deriving DecidableEq, Repr

/-- The merged classification result of a head (R147-R150). -/
structure Merged where
  tenant : Nat
  tc : Nat
  dlp : Option Nat
  policer : Option Nat
  mirror : Option Nat
  edit : Option Nat
  redirect : Option Nat
  counters : List Nat
  deriving DecidableEq, Repr

/-- A frame and its head (R34-R42, R119-R131): received bytes (the FCS last once the tail is in), arrival time in 0.1 ns
of the time base, latched epochs, parser state, key vector and what the later stages found. `rcvd`: the length received once the
tail is in, also where the bytes kept are fewer (R94, R269); `gated`: it has waited at the gate (R280);
`lane`: the middle lane its cells cross by (R284); `copies`: items accepted of it. -/
structure Pkt where
  id : Nat
  slice : Nat
  src : Source
  data : List Byte
  tail : Bool
  rcvd : Nat
  fcsBad : Bool
  oversize : Bool
  arr : Nat
  stage : Stage
  since : Nat
  ep : List Nat
  epLow : Nat
  known : Bool
  node : Nat
  ptr : Nat
  steps : Nat
  exts : Nat
  extHit : Bool
  kv : List Byte
  slots : List (Option Nat)
  endOk : Bool
  mal : Nat
  unparsed : Bool
  res : Merged
  nh : Nat
  tmpl : Nat
  hash : Nat
  list : Option Nat
  flooded : Bool
  staged : Bool
  tsMode : Nat
  tsTag : Nat
  tsOff : Nat
  gated : Bool
  lane : Nat
  copies : Nat
  deriving DecidableEq, Repr

/-- Where an accepted item is: its first cell still on the way, in its queue, in the multicast residue, being sent, or
being re-steered. -/
inductive Place | transit | queued | residue | sending | resteer
  deriving DecidableEq, Repr

/-- An accepted item, with what its descriptor (Table 9-1) holds, the finish time it was accepted under and the pass of its cells
through Twill (R277: 0, then one more for each re-steer). Of a
transmission: the edited bytes, how many received bytes they cover, the bytes of an awaited tail counted in, node data. -/
structure Item where
  id : Nat
  pkt : Nat
  islice : Nat
  src : Source
  tenant : Nat
  es : Nat
  port : Nat
  cls : Nat
  desc : Nat
  mc : Bool
  brl : Bool
  cut : Bool
  resteered : Bool
  dl : Nat
  vft : Nat
  nh : Nat
  tmpl : Nat
  hash : Nat
  len : Nat
  growth : Nat
  cells : Nat
  pass : Nat
  place : Place
  sent : Nat
  txEnd : Nat
  bad : Bool
  out : List Byte
  upTo : Nat
  pad : Nat
  node : List Byte
  deriving DecidableEq, Repr

/-- A Gauze cell of a chain: its number, its reference count (R296) and whether its bytes have been written. -/
structure Cell where
  loc : Nat
  ref : Nat
  here : Bool
  deriving DecidableEq, Repr

/-- The chain of one packet and pass in one egress slice (R288, R296), the owner it is charged to, the copies a later
replication pass still has to serve (R298) and whether the engine holds a reference. -/
structure Chain where
  pkt : Nat
  es : Nat
  pass : Nat
  owner : Nat
  cells : List Cell
  later : List Nat
  engine : Bool
  deriving DecidableEq, Repr

/-- A cell under way through Twill: packet, index, egress slice, pass (R277), and the clock it reaches the place it is in. -/
structure Tag where
  pkt : Nat
  idx : Nat
  es : Nat
  pass : Nat
  ready : Nat
  deriving DecidableEq, Repr

/-- A stage-A queue of an ingress slice for a middle lane: kind 0 re-steer, 1 unicast, 2 multicast (R278): the cells in
it and, behind them, those of accepted packets that have still to enter. -/
structure StageA where
  slice : Nat
  lane : Nat
  kind : Nat
  cells : List Tag
  deriving DecidableEq, Repr

/-- How far a spilled cell has come: awaited, in the staging block, in Burlap, being read, in the prefetch pool. -/
inductive SpillPos | awaited | staged | burlap | reading | gauze
  deriving DecidableEq, Repr

/-- A cell position of a queue's spill stream (R301): item, cell index, stream position. -/
structure SpillCell where
  item : Nat
  idx : Nat
  pos : Nat
  st : SpillPos
  deriving DecidableEq, Repr

/-- Derivations of a queue's rate on one clock (R348): the clock, the rate and carry before the first of them, and whether one of
them is an edge that carries (R264). -/
structure RateEdge where
  at_ : Nat
  rate : Nat
  carry : Option (Nat × Nat)
  carries : Bool
  deriving DecidableEq, Repr

/-- A queue of a port: keeper state (R249-R250, R264, R274), scheduler state (R345, R357), gate and flush state, the
spill stream with its blocks (stream block, Burlap block) and staging blocks (stream block, first arrival). `edge`: the
last derivation that changed the rate (R348); `shp`: words 1 and 2 of the shaper in force until its first refill
after a flip (R358). -/
structure QueueSt where
  v : Nat
  idle : Bool
  spill : Bool
  lost : Bool
  carry : Option (Nat × Nat)
  rate : Nat
  fifo : List Nat
  deficit : Int
  credited : Bool
  tok : Int
  gateWait : Bool
  flushDone : Bool
  next : Nat
  stream : List SpillCell
  blks : List (Nat × Nat)
  staging : List (Nat × Nat)
  badCfg : Bool
  edge : Option RateEdge
  shp : Option (Nat × Nat)
  deriving DecidableEq, Repr

/-- Lane parking states of Table 3-10. -/
inductive Park | full | parking | parked | waking
  deriving DecidableEq, Repr

/-- The dynamic state of a logical port: the packet being received, or the bytes of a frame kept from the slice with their
arrival time and whether they are only counted; pause ends per class (units of 0.04 ns), LPI, parking machine (`parkSeq` the SEQ of its last own request, `parkAns` the SEQ its
answers echo), link-loss and
link-up holds, FEC window, retrain, scheduler, port shaper in force until its first refill after a flip (R358), hierarchical holds and transmitter: the items on the wire, oldest first, and the
moment the line is free (units of 0.04 ns). -/
structure PortSt where
  rx : Option Nat
  rxCtl : List Byte
  rxAt : Nat
  rxDrop : Bool
  pauseEnd : List Nat
  pauseAll : Nat
  xoffAt : Nat
  idleAt : Nat
  wakeAt : Option Nat
  park : Park
  parkHeld : Option (Nat × Nat)
  parkSeq : Nat
  parkAns : Nat
  reqs : Nat
  parkAt : Nat
  agreed : Bool
  readySent : Bool
  readyRcvd : Bool
  recorded : Nat
  winBytes : Nat
  winAt : Nat
  lowWins : Nat
  failAt : Option Nat
  wakeReq : Bool
  conds : List (Option Nat)
  upSince : Option Nat
  loss : Bool
  lossSeen : Bool
  winErr : Nat
  winWhole : Bool
  winMs : Nat
  retrainDue : Option Nat
  downAt : Option Nat
  clearAt : Option Nat
  cur : Nat
  tok : Int
  shp : Option (Nat × Nat)
  hier : Bool
  recUntil : Option Nat
  upUntil : Option Nat
  tx : List Nat
  txFree : Nat
  gatePos : Nat
  lpiTx : Bool
  deriving DecidableEq, Repr

/-- A token bucket refilled when it is used: units of 2⁻¹⁶ and the clock of the last update. -/
structure Bucket where
  c : Nat
  p : Nat
  last : Nat
  deriving DecidableEq, Repr

/-- A Leek route: family (0 IPv4, 1 IPv6), tenant, length, address of 32 or 128 bits, next hop. -/
structure Route where
  fam : Nat
  tenant : Nat
  len : Nat
  addr : Nat
  nh : Nat
  deriving DecidableEq, Repr

/-- A Chard entry of one pair's copy (Tables 6-4 and 6-5): key, slots, position (way 4 is the stash), data word. -/
structure ChdEnt where
  pair : Nat
  typ : Nat
  key : List Byte
  way : Nat
  slot : Nat
  nh : Nat
  hit : Bool
  stat : Bool
  learned : Bool
  state : Nat
  ebit : Nat
  origin : Nat
  misses : Nat
  ltime : Nat
  deriving DecidableEq, Repr

/-- A learning ring message on its way to a target: 0-3 a pair, 4 Holtarun (Table 6-7). -/
structure RingMsg where
  target : Nat
  typ : Nat
  origin : Nat
  seq : Nat
  scope : Nat
  tenant : Nat
  mac : Nat
  nh : Nat
  ltime : Nat
  crcOk : Bool
  deriving DecidableEq, Repr

/-- A table command waiting in a command port (R188): the 64-byte record. -/
structure TblCmd where
  chard : Bool
  record : List Byte
  deriving DecidableEq, Repr

/-- A mirror record on its way to the writer (R308, Table 9-2), the packet whose staging slot it reads and the clock it arrives. -/
structure MirRec where
  ring : Nat
  slice : Nat
  pkt : Nat
  since : Nat
  bytes : List Byte
  deriving DecidableEq, Repr

/-- A Burlap request (R322): requester of Table 10-2, address, bytes to write (empty for a read of `len`), what it is
for, its pseudo-channel, whether it waits to be accepted (R322), whether its column command has issued, with the words a read then
found or the response code of a write, and retries used. -/
structure BReq where
  id : Nat
  who : Nat
  addr : Nat
  len : Nat
  write : Bool
  data : List Byte
  chan : Nat
  pc : Nat
  held : Bool
  issued : Bool
  got : List Nat
  code : Nat
  tries : Nat
  since : Nat
  late : Bool
  tag : List Nat
  deriving DecidableEq, Repr

/-- Okra store of one sequencer: patch words, hooks (base, patch, in slot order), restarts. -/
structure OkraSt where
  inst : Nat
  patch : List (Nat × Nat)
  hooks : List Nat
  deriving DecidableEq, Repr

/-- A quarantine slot is a register (RDH.QUAR); this is what its repair needs beside it: attempts made and clock. -/
structure Repair where
  page : Nat
  slot : Nat
  half : Nat
  entry : Nat
  tries : Nat
  deriving DecidableEq, Repr
/-- The time base (R369): core-clock unit at which the root PLL locked, value and tick of the last load; the load due at a
tick (R370); the transmit timestamp FIFO (R375), the PPS_IN capture and silence (R378), PPS_OUT (R377), ToD (R379) and
the squelched SyncE outputs (R376). -/
structure TimeSt where
  lockU : Nat
  base : Nat
  baseTick : Nat
  loadDue : Option Nat
  fifo : List (List Nat)
  cap : List Nat
  ppsInAt : Nat
  ppsLost : Bool
  ppsOutSec : Nat
  ppsRise : Option Nat
  todDue : Option (Nat × Nat)
  tod : List Byte
  squelch : List Nat
  deriving DecidableEq, Repr

/-- Histogram and window accumulator of an egress queue (R380, R381), a memory error the next record shows, and whether the window
met one (R383, R384). -/
structure Hist where
  bins : List Nat
  sum : Nat
  cnt : Nat
  sat : Bool
  memErr : Bool
  bad : Bool
  deriving DecidableEq, Repr

/-- A record waiting for the Muslin writer of a slice (R386): its order of precedence 1-5 and its 128 bytes. -/
structure TelRec where
  slice : Nat
  prio : Nat
  bytes : List Byte
  deriving DecidableEq, Repr

/-- Telemetry: histograms (key 432 x slice + queue), waiting records, lost counts (key 8 x slice + type), SEQ per slice,
submission halves (key 2 x slice + requester), postcard candidates per port, last window, snapshot and sample moments, and the
slices whose window ends with this core clock (R382). -/
structure TelSt where
  hist : Store Hist
  pend : List TelRec
  lost : Store Nat
  seq : Store Nat
  half : Store (List Byte)
  cand : Store Nat
  winAt : Store Nat
  snapAt : Store Nat
  sampAt : Store Nat
  closing : List Nat
  deriving DecidableEq, Repr

/-- Thread states of Table 13-1. -/
inductive HState | idle | ready | waitEvent | waitJoin | waitMem | halted
  deriving DecidableEq, Repr

/-- A Holtarun thread (R393-R404): state, mode, pc, registers, CSRs that are not zero at reset or have been written, the
PMP entries (configuration byte, address), generation, exit value, reservation, TSREAD latch, its wait with the instruction word
that waits, the state before a debug halt, and whether a bulk instruction has done an element. -/
structure Hart where
  st : HState
  user : Bool
  pc : Nat
  x : List Nat
  csr : Store Nat
  pmp : List (Nat × Nat)
  gen : Nat
  exitV : Option Nat
  resv : Option Nat
  tsHi : Nat
  waitAt : Nat
  waitArg : Nat
  waitEnd : Option Nat
  rd : Nat
  was : HState
  bulk : Bool
  raw : Nat
  deriving DecidableEq, Repr

/-- A line of the window cache (R407): line number in the window, 64 bytes, written since it was filled. -/
structure Line where
  line : Nat
  data : List Byte
  dirty : Bool
  deriving DecidableEq, Repr

/-- A punted frame in CPU-owner cells (R409): queue, packet, record without its frame fields, the key vector. -/
structure Punt where
  q : Nat
  slice : Nat
  pkt : Nat
  cells : Nat
  reason : Nat
  mal : Nat
  tenant : Nat
  tc : Nat
  nh : Nat
  action : Nat
  data : List Byte
  src : Nat
  arr : Nat
  kv : List Byte
  tailAt : Option Nat
  deriving DecidableEq, Repr

/-- What a core's issue wheel gave in a CLK_CTL cycle (R395): the cycle, its thread, instructions issued, the register the first
writes, whether that was a load, store, AMO or Xhol instruction, and whether what follows depends on where it led. -/
structure Issue where
  cycle : Nat
  th : Nat
  n : Nat
  regs : List Nat
  mem : Bool
  flow : Bool
  deriving DecidableEq, Repr

/-- The Holtarun cluster: threads by mhartid, memory bytes that are not zero (TCM and shared memory, by address), the
window cache, due times of timers (units of 0.04 ns), punts, punt rate buckets, the inject queue served last and the turns
of this round used, the moment its rate lets the next frame through (same units), sampler counts and lost flags, restart in progress
since, and what each core's wheel gave last. -/
structure HolSt where
  harts : Store Hart
  mem : List Host.Cell
  cache : List Line
  tmrAt : Store Nat
  punts : List Punt
  rate : Store Bucket
  iqTurn : Nat
  iqUsed : Store Nat
  feFree : Nat
  sampCnt : Store Nat
  sampLost : Store Nat
  restartAt : Option Nat
  wheel : Store Issue
  deriving DecidableEq, Repr

/-- A DMA channel's work beside its registers (R418-R431): generation, phase (0 none, 1 descriptor awaited, 2 burst ready,
3 read outstanding, 4 table records to stage, 5 finished chain), the descriptor and its address, bytes moved, bytes of
the burst, the clock of its read, timed-out reads that may still complete, moved bytes not yet staged and records staged,
a record ignored, retries used, a STOP waiting, bursts waited and ready since, and the clock a stall began. -/
structure Chan where
  gen : Nat
  phase : Nat
  desc : List Byte
  loc : Nat
  moved : Nat
  len : Nat
  reqAt : Nat
  late : Nat
  buf : List Byte
  recs : Nat
  ignored : Bool
  tries : Nat
  stop : Bool
  waited : Nat
  since : Nat
  stallAt : Option Nat
  deriving DecidableEq, Repr

/-- The DMA engine: its channels, the clock of the last burst granted, and the channel granted last of each level. -/
structure DmaSt where
  chans : Store Chan
  lastBurst : Option Nat
  turn : Store Nat
  deriving DecidableEq, Repr

/-- A Perrun message taken from a ring and not yet final (R438-R443): descriptor address, body, sequence number, deadline
in admission time, retransmissions, the route last used, and the clock of its last transmission (none: it waits unsent
with its timer stopped). -/
structure PMsg where
  id : Nat
  peer : Nat
  prio : Nat
  typ : Nat
  desc : Nat
  body : List Byte
  seq : Nat
  dl : Nat
  retx : Nat
  route : Nat
  sentAt : Option Nat
  deriving DecidableEq, Repr

/-- A received message in a reorder store (R440). -/
structure PHeld where
  peer : Nat
  prio : Nat
  seq : Nat
  typ : Nat
  route : Nat
  dl : Nat
  arr : Nat
  body : List Byte
  deriving DecidableEq, Repr

/-- A Perrun frame the engine has still to hand over (R436): rank 0 ACK-only, 1 HELLO, 2 + p a message of priority p. -/
structure PFrame where
  rank : Nat
  bytes : List Byte
  deriving DecidableEq, Repr

/-- The Perrun engine. Keys are peer, 2 x peer + route, or 4 x peer + priority. `seen` is the last INCARN of a peer,
`hello` the clock of the last HELLO received on a route, `helloAt` that of the last one sent, `ackDue` a change not yet
acknowledged (clock, route of arrival); `failed` the messages (peer, priority, sequence) that failed and have not been
acknowledged since (R442). -/
structure PrnSt where
  msgs : List PMsg
  nextMsg : Nat
  sendSeq : Store Nat
  incarn : Store Nat
  seen : Store Nat
  expSeq : Store Nat
  held : List PHeld
  hello : Store Nat
  helloAt : Store Nat
  ackDue : Store (Nat × Nat)
  outq : List PFrame
  failed : List (Nat × Nat × Nat)
  deriving DecidableEq, Repr

/-- An image applied (R471-R474): its type, VERSION, compat entries (KIND, VERSION), load range and entry address. -/
structure Image where
  typ : Nat
  version : Nat
  compat : List (Nat × Nat)
  load : Nat
  len : Nat
  entry : Nat
  deriving DecidableEq, Repr

/-- Boot, pins and the PCIe link (R466-R480, R492-R503): the management and the data plane run, the clock of the release;
POR_N high and the clock it rose; fuses (0 not sensed, 1 good, 2 unusable); root PLL locked; flash directory entries
not yet tried (type, copy, offset, length) and whether it has been read; images applied, types that had a candidate, the
type being tried, bundle bytes left; program memory of the SerDes chiplets; link, D3hot. -/
structure BootSt where
  mgmtUp : Bool
  dpUp : Bool
  relAt : Nat
  por : Bool
  porAt : Nat
  fuses : Nat
  locked : Bool
  dir : List (Nat × Nat × Nat × Nat)
  dirRead : Bool
  images : List Image
  cands : List Nat
  typ : Nat
  hostLeft : Nat
  serdes : List Byte
  link : Bool
  d3 : Bool
  deriving DecidableEq, Repr


/-- What leaves the block on its pins and buses, oldest first (log entry 7). -/
inductive Emit
  | msix (vector : Nat)
  | frame (port : Nat) (bytes : List Byte) (inverted : Bool)
  | pause (port : Nat) (quanta : Nat)
  | remoteFault (port : Nat)
  | parkFrame (port : Nat) (bytes : List Byte)
  | hostWrite (addr : Nat) (bytes : List Byte)
  | hostRead (chan : Nat) (addr : Nat) (len : Nat)
  | ppsOut
  | tod (bytes : List Byte)
  | smbus (bytes : List Byte)
  | smbusAck
  | hbm (chan : Nat) (cmd : Nat) (arg : Nat)
  | retrain (lane : Nat)
  deriving DecidableEq, Repr

/-- Why a step stops. -/
inductive Fault
  /-- Raised by every meaning whose operand names an instance, queue, lane, channel or field value the device does not
  have (a port above P383, a slice above S7): the spec gives such a command no effect. Safe: the model stops. -/
  | noSuchInstance
  deriving DecidableEq, Repr

/-- Why a command has no meaning here. -/
inductive Refusal
  /-- Raised by the dispatch for a command the model has no meaning for yet. Safe. -/
  | notModelled (mnemonic : String)
  deriving DecidableEq, Repr

/-- Configuration: registers and objects in their versions (R64, R65). `act` lists the active words that differ from
their reset value; `shd` the shadow words written since the last flip; `old` the words of the previous epoch that the
last data-plane flip replaced; `cnt` the counters that are not zero. -/
structure CfgSt where
  act : Store Word
  shd : Store Word
  old : Store Word
  cnt : Store Nat
  deriving DecidableEq, Repr

/-- Page management: unlocked pages per requester (R60), mailboxes in use (R74), waiting flips (R67), data-plane flips
taken per group (R71), mismatch runs (R80; key 32768 the global one), the clock the running CRC sweep began, the clock of
each group's last flip, interrupt bits that hold INT_N (R55). Of the present core clock alone: the groups whose earlier epoch
was referenced when it began (R43), the sources that fired with whether their bit was set before (key 16 x page + source, R56),
the host commands whose write a Holtarun write has put before itself (R54), and the severity words and timed-strobe registers written
with the value they had when it began, and the strobes that Perrun armed (R72, R448, R451). -/
structure PageSt where
  unlocked : List Nat
  mbx : Store MbxOp
  flips : List FlipReq
  dpEp : Store Nat
  crcRun : Store Nat
  sweepAt : Nat
  flipAt : Store Nat
  intPin : Store Nat
  held : List Nat
  fired : List (Nat × Bool)
  early : Nat
  was : Store Nat
  deriving DecidableEq, Repr

/-- Faults and reset: contained and containing units (R456), FAULT_N, the grave latch and GRAVE_N, the clock of the first
SEV3 firing, warm reset in progress since, containments the SEV4 stop overtook. -/
structure FaultSt where
  contained : List Cunit
  containing : List (Cunit × Nat)
  faultN : Bool
  grave : Bool
  sev3At : Option Nat
  warmAt : Option Nat
  /-- The last pass read at or above THERM.WARN_C (R507). -/
  overWarn : Bool
  stopped : Bool
  deriving DecidableEq, Repr

/-- A conservation check requested at an edge (R270): its slice, trigger, time, the difference and the descriptors taken at
that edge, and whether it is skipped. -/
structure Check where
  slice : Nat
  trig : Nat
  time : Nat
  diff : Int
  held : Nat
  skip : Bool
  deriving DecidableEq, Repr

/-- The packets: heads and frames, accepted items, chains, queues, ports, owners' use and peak (key slice x 512 + owner),
Burlap blocks in use per slice, Twill queues, buckets, due conservation checks, last keeper sweeps, trained
lane taps (R114). `room`: the room bitmaps the lanes sent last (R279); `scan`, `cool`: the next bucket of each slice's scan and the lane
it moves to (R285); `decided`: decisions of the last clock per slice and, from 8, per port (R344); `mirIn`: mirror records the
writer has not taken (R309). `flight`: cells sent over a die crossing; `xferAt`: the last clock each end moved cells. `moved` keeps, per flowlet bucket, the lane it left and the clock of its last move (R286). -/
structure NetSt where
  nextId : Nat
  pkts : List Pkt
  items : List Item
  chains : List Chain
  queues : Store QueueSt
  ports : Store PortSt
  used : Store Nat
  peak : Store Nat
  blocks : List (Nat × Nat)
  stageA : List StageA
  laneQ : Store (List Tag)
  occSum : Store Nat
  occAt : Store Nat
  flowlet : Store (Nat × Nat)
  moved : Store (Nat × Nat)
  nodes : Store Bucket
  policers : Store Bucket
  tokens : Store Bucket
  checks : List Check
  keptAt : Store Nat
  quiet : Store Nat
  noCheck : List Nat
  mirIn : List MirRec
  mirq : List MirRec
  room : List Nat
  scan : Store Nat
  cool : Store Nat
  decided : Store (Nat × Nat)
  resteerSent : List Tag
  flight : List Tag
  xferAt : Store Nat
  linkStall : Option Nat
  linkErrAt : Option Nat
  taps : Store Nat
  deriving DecidableEq, Repr

/-- The lookup engines and their sequencers: Leek routes (R179, R180), per pair the active half, the half of the previous epoch
where it differs, the commands applied and the entries written since the pair's last flip and its sync (clock begun, entries);
the shadow half is one, since all four copies stage every command. Chard copies (R184), learning (R192, R194), command port,
MEM_LOST results that wait for room (R187), Radish repairs, exclusions (`unread` those for an uncorrectable verify copy, R160),
per bank the first clock whose re-search slot is free (R142) and syncs, tree searches, half copies. -/
structure TblSt where
  leekA : Store (List Route)
  leekS : List Route
  leekO : Store (List Route)
  leekLog : Store (List (List Byte))
  leekWrites : Store Nat
  leekSync : Store (Nat × Nat)
  lost : List (List Nat)
  chd : List ChdEnt
  filter : List (Nat × List Byte × Nat)
  learnWin : Store (Nat × Nat)
  ring : List RingMsg
  ringSeq : Store Nat
  ringSeen : Store Nat
  cmds : List TblCmd
  ageAt : Store Nat
  deferAt : Option Nat
  repairs : List Repair
  excluded : List (Nat × Nat × Nat)
  unread : List (Nat × Nat × Nat)
  spareAt : Store Nat
  syncs : Store Nat
  readers : Store Nat
  batches : Store Nat
  graphRun : Store Nat
  graphAt : Nat
  okr : List OkraSt
  deriving DecidableEq, Repr

/-- Burlap: stored 72-bit words that are not all zero (key: channel, atom, word), requests, the pseudo-channels in in-order mode at the
last clock (R323), the turns of the requester classes (R322), uncorrectable reads in the window of each channel, activate counts, scrub reads in progress, training runs, link errors. -/
structure HbmSt where
  mem : Store Nat
  reqs : List BReq
  inord : List Nat
  credit : Store Int
  ueWin : Store (Nat × Nat)
  activates : Store Nat
  rows : Store Nat
  refAt : Store Nat
  scrub : List (Nat × Bool)
  train : Store Nat
  deriving DecidableEq, Repr

/-- The machine: the commands waiting, the core clock, the free-value counter, what has left the block, and its parts. -/
structure State where
  pending : List Instr
  clk : Nat
  free : Nat
  out : List Emit
  cfg : CfgSt
  pg : PageSt
  flt : FaultSt
  net : NetSt
  tbl : TblSt
  hbm : HbmSt
  ev : Store Nat
  tim : TimeSt
  tel : TelSt
  hol : HolSt
  dma : DmaSt
  prn : PrnSt
  boot : BootSt
  deriving DecidableEq, Repr

/-! ### Reset -/

/-- No packets, empty queues, full buckets. -/
def netStart : NetSt :=
  { nextId := 0, pkts := [], items := [], chains := [], queues := [], ports := [], used := [], peak := [], blocks := [],
    stageA := [], laneQ := [], occSum := [], occAt := [], flowlet := [], moved := [], nodes := [], policers := [],
    tokens := [], checks := [], keptAt := [], quiet := [], noCheck := [], mirIn := [], mirq := [],
    room := [255, 255, 255, 255, 255, 255, 255, 255], scan := [], cool := [], decided := [], resteerSent := [], flight := [],
    xferAt := [], linkStall := none, linkErrAt := none, taps := [] }

/-- Empty tables; every Okra store without a patch. -/
def tblStart : TblSt :=
  { leekA := [], leekS := [], leekO := [], leekLog := [], leekWrites := [], leekSync := [],
    lost := [], chd := [], filter := [],
    learnWin := [], ring := [], ringSeq := [], ringSeen := [], cmds := [], ageAt := [], deferAt := none, repairs := [],
    excluded := [], unread := [], spareAt := [], syncs := [], readers := [], batches := [], graphRun := [], graphAt := 0, okr := [] }

/-- Burlap without contents or requests. -/
def hbmStart : HbmSt :=
  { mem := [], reqs := [], inord := [], credit := [], ueWin := [], activates := [], rows := [], refAt := [], scrub := [], train := [] }

/-- No telemetry. -/
def telStart : TelSt :=
  { hist := [], pend := [], lost := [], seq := [], half := [], cand := [], winAt := [], snapAt := [], sampAt := [], closing := [] }

/-- The machine right after reset: POR_N asserted (R494), every register at its reset value (an unlisted key of `act`
reads as that), nothing in any queue, no command waiting. -/
def State.reset : State :=
  { pending := [], clk := 0, free := 0, out := [],
    cfg := { act := [], shd := [], old := [], cnt := [] },
    pg := { unlocked := [], mbx := [], flips := [], dpEp := [], crcRun := [], sweepAt := 0, flipAt := [], intPin := [],
            held := [], fired := [], early := 0, was := [] },
    flt := { contained := [], containing := [], faultN := false, grave := false, sev3At := none, warmAt := none,
             stopped := false, overWarn := false },
    net := netStart, tbl := tblStart, hbm := hbmStart, ev := [],
    tim := { lockU := 0, base := 0, baseTick := 0, loadDue := none, fifo := [], cap := [], ppsInAt := 0, ppsLost := false,
             ppsOutSec := 0, ppsRise := none, todDue := none, tod := [], squelch := [] },
    tel := telStart,
    hol := { harts := [], mem := [], cache := [], tmrAt := [], punts := [], rate := [], iqTurn := 0, iqUsed := [],
             feFree := 0, sampCnt := [], sampLost := [], restartAt := none, wheel := [] },
    dma := { chans := [], lastBurst := none, turn := [] },
    prn := { msgs := [], nextMsg := 0, sendSeq := [], incarn := [], seen := [], expSeq := [], held := [], hello := [],
             helloAt := [], ackDue := [], outq := [], failed := [] },
    boot := { mgmtUp := false, dpUp := false, relAt := 0, por := false, porAt := 0, fuses := 0, locked := false,
              dir := [], dirRead := false, images := [], cands := [], typ := 1, hostLeft := 0, serdes := [], link := false,
              d3 := false } }
end Sys2Proof.Machine
end

