-- ==== Sys2Proof/Machine/Regs.lean ====
section
/-!
DEFINITION. Every register field the spec gives the pages, from the register tables of spec/02 to spec/18,
and the register, mailbox-object and fault-source tables built over them (R51, R75, R454).
A field is named block, register, field in the manual's words; `Fld` says where it stands and what a write may do.
-/
namespace Sys2Proof.Machine

/-- HDR.PAGE_ID.TYPE (spec/02, Table 2-2). -/
def hdrPageIdType : Fld := ⟨.hdr, 0, 0x0, 0x4, 31, 20, .ro, 0, 4095⟩
/-- HDR.PAGE_ID.INSTANCE (spec/02, Table 2-2). -/
def hdrPageIdInstance : Fld := ⟨.hdr, 0, 0x0, 0x4, 19, 8, .ro, 0, 4095⟩
/-- HDR.PAGE_ID.LAYOUT (spec/02, Table 2-2). -/
def hdrPageIdLayout : Fld := ⟨.hdr, 0, 0x0, 0x4, 7, 0, .ro, 0, 255⟩
/-- HDR.PAGE_CAP.PAGES (spec/02, Table 2-3). -/
def hdrPageCapPages : Fld := ⟨.hdr, 0, 0x4, 0x4, 23, 20, .ro, 0, 15⟩
/-- HDR.PAGE_CAP.PAGE_NUM (spec/02, Table 2-3). -/
def hdrPageCapPageNum : Fld := ⟨.hdr, 0, 0x4, 0x4, 19, 16, .ro, 0, 15⟩
/-- HDR.PAGE_CAP.NSRC (spec/02, Table 2-3). -/
def hdrPageCapNsrc : Fld := ⟨.hdr, 0, 0x4, 0x4, 8, 4, .ro, 0, 31⟩
/-- HDR.PAGE_CAP.DATA_PLANE (spec/02, Table 2-3). -/
def hdrPageCapDataPlane : Fld := ⟨.hdr, 0, 0x4, 0x4, 3, 3, .ro, 0, 1⟩
/-- HDR.PAGE_CAP.KEYED (spec/02, Table 2-3). -/
def hdrPageCapKeyed : Fld := ⟨.hdr, 0, 0x4, 0x4, 2, 2, .ro, 0, 1⟩
/-- HDR.PAGE_CAP.MAILBOX (spec/02, Table 2-3). -/
def hdrPageCapMailbox : Fld := ⟨.hdr, 0, 0x4, 0x4, 1, 1, .ro, 0, 1⟩
/-- HDR.PAGE_CAP.SHADOWED (spec/02, Table 2-3). -/
def hdrPageCapShadowed : Fld := ⟨.hdr, 0, 0x4, 0x4, 0, 0, .ro, 0, 1⟩
/-- HDR.PAGE_STATUS.LIMITED (spec/02, Table 2-4). -/
def hdrPageStatusLimited : Fld := ⟨.hdr, 0, 0x8, 0x4, 4, 4, .ro, 0, 1⟩
/-- HDR.PAGE_STATUS.SHADOW_DIRTY (spec/02, Table 2-4). -/
def hdrPageStatusShadowDirty : Fld := ⟨.hdr, 0, 0x8, 0x4, 3, 3, .ro, 0, 1⟩
/-- HDR.PAGE_STATUS.CRC_MISMATCH (spec/02, Table 2-4). -/
def hdrPageStatusCrcMismatch : Fld := ⟨.hdr, 0, 0x8, 0x4, 2, 2, .ro, 0, 1⟩
/-- HDR.PAGE_STATUS.CONTAINED (spec/02, Table 2-4). -/
def hdrPageStatusContained : Fld := ⟨.hdr, 0, 0x8, 0x4, 1, 1, .ro, 0, 1⟩
/-- HDR.PAGE_STATUS.READY (spec/02, Table 2-4). -/
def hdrPageStatusReady : Fld := ⟨.hdr, 0, 0x8, 0x4, 0, 0, .ro, 0, 1⟩
/-- HDR.INT_STATUS.SRC (spec/02, Table 2-5 R55). -/
def hdrIntStatusSrc : Fld := ⟨.hdr, 0, 0xc, 0x4, 15, 0, .w1c, 0, 65535⟩
/-- HDR.INT_ENABLE.EN (spec/02, Table 2-6). -/
def hdrIntEnableEn : Fld := ⟨.hdr, 0, 0x10, 0x4, 15, 0, .rw, 0, 65535⟩
/-- HDR.INT_VECTOR.PIN (spec/02, Table 2-7). -/
def hdrIntVectorPin : Fld := ⟨.hdr, 0, 0x14, 0x4, 16, 16, .rw, 0, 1⟩
/-- HDR.INT_VECTOR.VECTOR (spec/02, Table 2-7). -/
def hdrIntVectorVector : Fld := ⟨.hdr, 0, 0x14, 0x4, 10, 0, .rw, 0, 2047⟩
/-- HDR.SEV_MAP0.SEV (spec/02, Table 2-8 R57). -/
def hdrSevMap0Sev : Fld := ⟨.hdr, 0, 0x18, 0x4, 29, 0, .ky, 0, 1073741823⟩
/-- HDR.SEV_MAP1.SEV (spec/02, Table 2-9 R57). -/
def hdrSevMap1Sev : Fld := ⟨.hdr, 0, 0x1c, 0x4, 17, 0, .ky, 0, 262143⟩
/-- HDR.INJECT.COUNT (spec/02, Table 2-10 R58). -/
def hdrInjectCount : Fld := ⟨.hdr, 0, 0x20, 0x4, 23, 8, .ky, 0, 65535⟩
/-- HDR.INJECT.MODE (spec/02, Table 2-10 R58). -/
def hdrInjectMode : Fld := ⟨.hdr, 0, 0x20, 0x4, 5, 4, .ky, 0, 2⟩
/-- HDR.INJECT.SRC (spec/02, Table 2-10 R58). -/
def hdrInjectSrc : Fld := ⟨.hdr, 0, 0x20, 0x4, 3, 0, .ky, 0, 15⟩
/-- HDR.UPD_GROUP.SHADOW_PENDING (spec/02, Table 2-11 R59). -/
def hdrUpdGroupShadowPending : Fld := ⟨.hdr, 0, 0x24, 0x4, 8, 8, .ro, 0, 1⟩
/-- HDR.UPD_GROUP.GROUP (spec/02, Table 2-11 R59). -/
def hdrUpdGroupGroup : Fld := ⟨.hdr, 0, 0x24, 0x4, 3, 0, .rw, 0, 15⟩
/-- HDR.UNLOCK.KEY (spec/02, Table 2-12 R60). -/
def hdrUnlockKey : Fld := ⟨.hdr, 0, 0x28, 0x4, 15, 0, .wo, 0, 65535⟩
/-- HDR.LOCK_STATE.CTL (spec/02, Table 2-13). -/
def hdrLockStateCtl : Fld := ⟨.hdr, 0, 0x2c, 0x4, 1, 1, .ro, 0, 1⟩
/-- HDR.LOCK_STATE.HOST (spec/02, Table 2-13). -/
def hdrLockStateHost : Fld := ⟨.hdr, 0, 0x2c, 0x4, 0, 0, .ro, 0, 1⟩
/-- HDR.MBX_ADDR.OBJ (spec/02, Table 2-14). -/
def hdrMbxAddrObj : Fld := ⟨.hdr, 0, 0x30, 0x4, 31, 24, .rw, 0, 255⟩
/-- HDR.MBX_ADDR.INDEX (spec/02, Table 2-14). -/
def hdrMbxAddrIndex : Fld := ⟨.hdr, 0, 0x30, 0x4, 23, 0, .rw, 0, 16777215⟩
/-- HDR.MBX_CTRL.OWNER (spec/02, Table 2-15 R74). -/
def hdrMbxCtrlOwner : Fld := ⟨.hdr, 0, 0x34, 0x4, 13, 12, .ro, 0, 3⟩
/-- HDR.MBX_CTRL.TIMEOUT (spec/02, Table 2-15 R74). -/
def hdrMbxCtrlTimeout : Fld := ⟨.hdr, 0, 0x34, 0x4, 10, 10, .ro, 0, 1⟩
/-- HDR.MBX_CTRL.BUSY (spec/02, Table 2-15 R74). -/
def hdrMbxCtrlBusy : Fld := ⟨.hdr, 0, 0x34, 0x4, 9, 9, .ro, 0, 1⟩
/-- HDR.MBX_CTRL.VALID (spec/02, Table 2-15 R74). -/
def hdrMbxCtrlValid : Fld := ⟨.hdr, 0, 0x34, 0x4, 8, 8, .ro, 0, 1⟩
/-- HDR.MBX_CTRL.LEN (spec/02, Table 2-15 R74). -/
def hdrMbxCtrlLen : Fld := ⟨.hdr, 0, 0x34, 0x4, 7, 4, .rw, 0, 15⟩
/-- HDR.MBX_CTRL.CLR (spec/02, Table 2-15 R74). -/
def hdrMbxCtrlClr : Fld := ⟨.hdr, 0, 0x34, 0x4, 2, 2, .rw, 0, 1⟩
/-- HDR.MBX_CTRL.DIR (spec/02, Table 2-15 R74). -/
def hdrMbxCtrlDir : Fld := ⟨.hdr, 0, 0x34, 0x4, 1, 1, .rw, 0, 1⟩
/-- HDR.MBX_CTRL.GO (spec/02, Table 2-15 R74). -/
def hdrMbxCtrlGo : Fld := ⟨.hdr, 0, 0x34, 0x4, 0, 0, .wo, 0, 1⟩
/-- HDR.CFG_CRC_NOW.CRC (spec/02, Table 2-16 R78). -/
def hdrCfgCrcNowCrc : Fld := ⟨.hdr, 0, 0x38, 0x4, 31, 0, .ro, 0, 4294967295⟩
/-- HDR.CFG_CRC_REF.CRC (spec/02, Table 2-17 R80). -/
def hdrCfgCrcRefCrc : Fld := ⟨.hdr, 0, 0x3c, 0x4, 31, 0, .sh, 0, 4294967295⟩
/-- HDR.MBX_DATA.DATA (spec/02, Table 2-18). -/
def hdrMbxDataData : Fld := ⟨.hdr, 0, 0x40, 0x4, 31, 0, .rw, 0, 4294967295⟩
/-- GLB.DEV_ID.DEVICE (spec/02, Table 2-19). -/
def glbDevIdDevice : Fld := ⟨.glb, 0, 0x100, 0x4, 31, 16, .ro, 0, 65535⟩
/-- GLB.DEV_ID.VENDOR (spec/02, Table 2-19). -/
def glbDevIdVendor : Fld := ⟨.glb, 0, 0x100, 0x4, 15, 0, .ro, 0, 65535⟩
/-- GLB.REVISION.STEP (spec/02, Table 2-20). -/
def glbRevisionStep : Fld := ⟨.glb, 0, 0x104, 0x4, 7, 0, .ro, 0, 255⟩
/-- GLB.FUSE_SKU.CODE (spec/02, Table 2-21). -/
def glbFuseSkuCode : Fld := ⟨.glb, 0, 0x108, 0x4, 3, 0, .ro, 0, 15⟩
/-- GLB.PAGE_COUNT.HIGHEST (spec/02, Table 2-22). -/
def glbPageCountHighest : Fld := ⟨.glb, 0, 0x10c, 0x4, 31, 16, .ro, 0, 65535⟩
/-- GLB.PAGE_COUNT.COUNT (spec/02, Table 2-22). -/
def glbPageCountCount : Fld := ⟨.glb, 0, 0x10c, 0x4, 15, 0, .ro, 0, 65535⟩
/-- GLB.UPDATE_STROBE.GROUPS (spec/02, Table 2-23). -/
def glbUpdateStrobeGroups : Fld := ⟨.glb, 0, 0x110, 0x4, 15, 0, .wo, 0, 65535⟩
/-- GLB.TSTROBE_CTL.LATE (spec/02, Table 2-24). -/
def glbTstrobeCtlLate : Fld := ⟨.glb, 0, 0x120, 0x10, 18, 18, .w1c, 0, 1⟩
/-- GLB.TSTROBE_CTL.FIRED (spec/02, Table 2-24). -/
def glbTstrobeCtlFired : Fld := ⟨.glb, 0, 0x120, 0x10, 17, 17, .w1c, 0, 1⟩
/-- GLB.TSTROBE_CTL.ARM (spec/02, Table 2-24). -/
def glbTstrobeCtlArm : Fld := ⟨.glb, 0, 0x120, 0x10, 16, 16, .rw, 0, 1⟩
/-- GLB.TSTROBE_CTL.MASK (spec/02, Table 2-24). -/
def glbTstrobeCtlMask : Fld := ⟨.glb, 0, 0x120, 0x10, 15, 0, .rw, 0, 65535⟩
/-- GLB.TSTROBE_SEC_LO.SEC (spec/02, Table 2-25). -/
def glbTstrobeSecLoSec : Fld := ⟨.glb, 0, 0x124, 0x10, 31, 0, .rw, 0, 4294967295⟩
/-- GLB.TSTROBE_SEC_HI.SEC (spec/02, Table 2-25). -/
def glbTstrobeSecHiSec : Fld := ⟨.glb, 0, 0x128, 0x10, 15, 0, .rw, 0, 65535⟩
/-- GLB.TSTROBE_NS.NS (spec/02, Table 2-25). -/
def glbTstrobeNsNs : Fld := ⟨.glb, 0, 0x12c, 0x10, 29, 0, .rw, 0, 999999999⟩
/-- GLB.CRC_CTL.SWEEPS (spec/02, Table 2-26). -/
def glbCrcCtlSweeps : Fld := ⟨.glb, 0, 0x160, 0x4, 31, 8, .ro, 0, 16777215⟩
/-- GLB.CRC_CTL.ENABLE (spec/02, Table 2-26). -/
def glbCrcCtlEnable : Fld := ⟨.glb, 0, 0x160, 0x4, 0, 0, .rw, 0, 1⟩
/-- GLB.CRC_GLOBAL_NOW.CRC (spec/02, Table 2-27). -/
def glbCrcGlobalNowCrc : Fld := ⟨.glb, 0, 0x164, 0x4, 31, 0, .ro, 0, 4294967295⟩
/-- GLB.CRC_GLOBAL_REF.CRC (spec/02, Table 2-27). -/
def glbCrcGlobalRefCrc : Fld := ⟨.glb, 0, 0x168, 0x4, 31, 0, .sh, 0, 4294967295⟩
/-- GLB.RESET_CTL.WARM (spec/02, Table 2-28). -/
def glbResetCtlWarm : Fld := ⟨.glb, 0, 0x170, 0x4, 0, 0, .wk, 0, 1⟩
/-- GLB.FAULT_CAUSE.VALID (spec/16, Table 16-5). -/
def glbFaultCauseValid : Fld := ⟨.glb, 0, 0x180, 0x4, 31, 31, .w1c, 0, 1⟩
/-- GLB.FAULT_CAUSE.PAGE (spec/16, Table 16-5). -/
def glbFaultCausePage : Fld := ⟨.glb, 0, 0x180, 0x4, 27, 16, .ro, 0, 4095⟩
/-- GLB.FAULT_CAUSE.SRC (spec/16, Table 16-5). -/
def glbFaultCauseSrc : Fld := ⟨.glb, 0, 0x180, 0x4, 3, 0, .ro, 0, 15⟩
/-- GLB.GRAVE_CAUSE.VALID (spec/16, Table 16-5). -/
def glbGraveCauseValid : Fld := ⟨.glb, 0, 0x184, 0x4, 31, 31, .ro, 0, 1⟩
/-- GLB.GRAVE_CAUSE.PAGE (spec/16, Table 16-5). -/
def glbGraveCausePage : Fld := ⟨.glb, 0, 0x184, 0x4, 27, 16, .ro, 0, 4095⟩
/-- GLB.GRAVE_CAUSE.SRC (spec/16, Table 16-5). -/
def glbGraveCauseSrc : Fld := ⟨.glb, 0, 0x184, 0x4, 3, 0, .ro, 0, 15⟩
/-- GLB.FAULT_CTL.AUTO_WARM (spec/16, Table 16-6). -/
def glbFaultCtlAutoWarm : Fld := ⟨.glb, 0, 0x188, 0x4, 31, 31, .ky, 0, 1⟩
/-- GLB.FAULT_CTL.AUTO_DELAY_US (spec/16, Table 16-6). -/
def glbFaultCtlAutoDelayUs : Fld := ⟨.glb, 0, 0x188, 0x4, 15, 0, .ky, 1, 65535⟩
/-- GLB.THERM.TJ_C (spec/16, Table 16-7). -/
def glbThermTjC : Fld := ⟨.glb, 0, 0x18c, 0x4, 31, 24, .ro, 0, 255⟩
/-- GLB.THERM.WARN_C (spec/16, Table 16-7). -/
def glbThermWarnC : Fld := ⟨.glb, 0, 0x18c, 0x4, 7, 0, .rw, 60, 115⟩
/-- GLB.AVS.DIE1_MV (spec/18, Table 18-3). -/
def glbAvsDie1Mv : Fld := ⟨.glb, 0, 0x190, 0x4, 25, 16, .ro, 0, 1023⟩
/-- GLB.AVS.DIE0_MV (spec/18, Table 18-3). -/
def glbAvsDie0Mv : Fld := ⟨.glb, 0, 0x190, 0x4, 9, 0, .ro, 0, 1023⟩
/-- GLB.EPOCH_STAT.ABSORBED (spec/02, Table 2-29). -/
def glbEpochStatAbsorbed : Fld := ⟨.glb, 0, 0x200, 0x4, 15, 12, .rw, 0, 15⟩
/-- GLB.EPOCH_STAT.DATA_PLANE (spec/02, Table 2-29). -/
def glbEpochStatDataPlane : Fld := ⟨.glb, 0, 0x200, 0x4, 10, 10, .ro, 0, 1⟩
/-- GLB.EPOCH_STAT.WAITING (spec/02, Table 2-29). -/
def glbEpochStatWaiting : Fld := ⟨.glb, 0, 0x200, 0x4, 9, 9, .ro, 0, 1⟩
/-- GLB.EPOCH_STAT.PENDING (spec/02, Table 2-29). -/
def glbEpochStatPending : Fld := ⟨.glb, 0, 0x200, 0x4, 8, 8, .ro, 0, 1⟩
/-- GLB.EPOCH_STAT.CUR (spec/02, Table 2-29). -/
def glbEpochStatCur : Fld := ⟨.glb, 0, 0x200, 0x4, 7, 0, .ro, 0, 255⟩
/-- GLB.EPOCH_REFS.REFS (spec/02, Table 2-30). -/
def glbEpochRefsRefs : Fld := ⟨.glb, 0, 0x240, 0x4, 27, 0, .ro, 0, 268435455⟩
/-- PCS.LAYOUT.SP_W (spec/03, Table 3-3 R85). -/
def pcsLayoutSpW : Fld := ⟨.pcs, 0, 0x100, 0x4, 31, 8, .sh, 0, 16777215⟩
/-- PCS.LAYOUT.Q1_RATE (spec/03, Table 3-3 R85). -/
def pcsLayoutQ1Rate : Fld := ⟨.pcs, 0, 0x100, 0x4, 6, 4, .sh, 0, 7⟩
/-- PCS.LAYOUT.Q0_RATE (spec/03, Table 3-3 R85). -/
def pcsLayoutQ0Rate : Fld := ⟨.pcs, 0, 0x100, 0x4, 2, 0, .sh, 0, 7⟩
/-- PCS.FEC_MODE.FEC (spec/03, Table 3-4 R86). -/
def pcsFecModeFec : Fld := ⟨.pcs, 0, 0x104, 0x4, 31, 0, .sh, 0, 4294967295⟩
/-- PCS.LINK_CTL.SD_EN (spec/03, Table 3-12). -/
def pcsLinkCtlSdEn : Fld := ⟨.pcs, 0, 0x108, 0x4, 25, 25, .sh, 0, 1⟩
/-- PCS.LINK_CTL.RF_AS_DOWN (spec/03, Table 3-12). -/
def pcsLinkCtlRfAsDown : Fld := ⟨.pcs, 0, 0x108, 0x4, 24, 24, .sh, 0, 1⟩
/-- PCS.LINK_CTL.UP_HOLD_MS (spec/03, Table 3-12). -/
def pcsLinkCtlUpHoldMs : Fld := ⟨.pcs, 0, 0x108, 0x4, 23, 8, .sh, 0, 65535⟩
/-- PCS.LINK_CTL.DOWN_HOLD (spec/03, Table 3-12). -/
def pcsLinkCtlDownHold : Fld := ⟨.pcs, 0, 0x108, 0x4, 7, 0, .sh, 0, 255⟩
/-- PCS.ERR_CTL.RETRAIN_THRESH (spec/03, Table 3-13). -/
def pcsErrCtlRetrainThresh : Fld := ⟨.pcs, 0, 0x10c, 0x4, 31, 16, .sh, 0, 65535⟩
/-- PCS.ERR_CTL.SD_THRESH (spec/03, Table 3-13). -/
def pcsErrCtlSdThresh : Fld := ⟨.pcs, 0, 0x10c, 0x4, 15, 0, .sh, 0, 65535⟩
/-- PCS.PORT_STAT.UP_WAIT (spec/03, Table 3-14). -/
def pcsPortStatUpWait : Fld := ⟨.pcs, 0, 0x120, 0x4, 6, 6, .ro, 0, 1⟩
/-- PCS.PORT_STAT.RETRAIN (spec/03, Table 3-14). -/
def pcsPortStatRetrain : Fld := ⟨.pcs, 0, 0x120, 0x4, 5, 5, .ro, 0, 1⟩
/-- PCS.PORT_STAT.SD (spec/03, Table 3-14). -/
def pcsPortStatSd : Fld := ⟨.pcs, 0, 0x120, 0x4, 4, 4, .ro, 0, 1⟩
/-- PCS.PORT_STAT.RF (spec/03, Table 3-14). -/
def pcsPortStatRf : Fld := ⟨.pcs, 0, 0x120, 0x4, 3, 3, .ro, 0, 1⟩
/-- PCS.PORT_STAT.LF (spec/03, Table 3-14). -/
def pcsPortStatLf : Fld := ⟨.pcs, 0, 0x120, 0x4, 2, 2, .ro, 0, 1⟩
/-- PCS.PORT_STAT.ALIGNED (spec/03, Table 3-14). -/
def pcsPortStatAligned : Fld := ⟨.pcs, 0, 0x120, 0x4, 1, 1, .ro, 0, 1⟩
/-- PCS.PORT_STAT.LINK (spec/03, Table 3-14). -/
def pcsPortStatLink : Fld := ⟨.pcs, 0, 0x120, 0x4, 0, 0, .ro, 0, 1⟩
/-- PCS.LAT_INFO.TX_NS (spec/03, Table 3-6). -/
def pcsLatInfoTxNs : Fld := ⟨.pcs, 0, 0x140, 0x4, 31, 16, .ro, 0, 65535⟩
/-- PCS.LAT_INFO.RX_NS (spec/03, Table 3-6). -/
def pcsLatInfoRxNs : Fld := ⟨.pcs, 0, 0x140, 0x4, 15, 0, .ro, 0, 65535⟩
/-- MAC.CFG.MAX_FRAME (spec/03, Table 3-15). -/
def macCfgMaxFrame : Fld := ⟨.mac, 0, 0x100, 0x4, 29, 16, .sh, 64, 16128⟩
/-- MAC.CFG.ENABLE (spec/03, Table 3-15). -/
def macCfgEnable : Fld := ⟨.mac, 0, 0x100, 0x4, 0, 0, .sh, 0, 1⟩
/-- MAC.PAUSE_CTL.XOFF_KIB (spec/03, Table 3-16). -/
def macPauseCtlXoffKib : Fld := ⟨.mac, 0, 0x104, 0x4, 31, 16, .sh, 0, 2047⟩
/-- MAC.PAUSE_CTL.RX_PFC (spec/03, Table 3-16). -/
def macPauseCtlRxPfc : Fld := ⟨.mac, 0, 0x104, 0x4, 15, 8, .sh, 0, 255⟩
/-- MAC.PAUSE_CTL.TX_PAUSE (spec/03, Table 3-16). -/
def macPauseCtlTxPause : Fld := ⟨.mac, 0, 0x104, 0x4, 1, 1, .sh, 0, 1⟩
/-- MAC.PAUSE_CTL.RX_PAUSE (spec/03, Table 3-16). -/
def macPauseCtlRxPause : Fld := ⟨.mac, 0, 0x104, 0x4, 0, 0, .sh, 0, 1⟩
/-- MAC.STATION_LO.ADDR (spec/03, Table 3-17). -/
def macStationLoAddr : Fld := ⟨.mac, 0, 0x108, 0x4, 31, 0, .sh, 0, 4294967295⟩
/-- MAC.STATION_HI.ADDR (spec/03, Table 3-17). -/
def macStationHiAddr : Fld := ⟨.mac, 0, 0x10c, 0x4, 15, 0, .sh, 0, 65535⟩
/-- MAC.EEE_CTL.TW_TX_NS (spec/03, Table 3-18 R100). -/
def macEeeCtlTwTxNs : Fld := ⟨.mac, 0, 0x110, 0x4, 31, 16, .sh, 0, 65535⟩
/-- MAC.EEE_CTL.IDLE_US (spec/03, Table 3-18 R100). -/
def macEeeCtlIdleUs : Fld := ⟨.mac, 0, 0x110, 0x4, 15, 4, .sh, 0, 4095⟩
/-- MAC.EEE_CTL.EN (spec/03, Table 3-18 R100). -/
def macEeeCtlEn : Fld := ⟨.mac, 0, 0x110, 0x4, 0, 0, .sh, 0, 1⟩
/-- MAC.PARK_CTL.WAKE_DELAY (spec/03, Table 3-19). -/
def macParkCtlWakeDelay : Fld := ⟨.mac, 0, 0x114, 0x4, 31, 16, .sh, 0, 65535⟩
/-- MAC.PARK_CTL.DWELL_MS (spec/03, Table 3-19). -/
def macParkCtlDwellMs : Fld := ⟨.mac, 0, 0x114, 0x4, 15, 8, .sh, 1, 255⟩
/-- MAC.PARK_CTL.THRESH_PCT (spec/03, Table 3-19). -/
def macParkCtlThreshPct : Fld := ⟨.mac, 0, 0x114, 0x4, 7, 1, .sh, 1, 45⟩
/-- MAC.PARK_CTL.EN (spec/03, Table 3-19). -/
def macParkCtlEn : Fld := ⟨.mac, 0, 0x114, 0x4, 0, 0, .sh, 0, 1⟩
/-- MAC.PARK_TMR.WAKE_TO_US (spec/03, Table 3-20). -/
def macParkTmrWakeToUs : Fld := ⟨.mac, 0, 0x118, 0x4, 31, 16, .sh, 1, 65535⟩
/-- MAC.PARK_TMR.RTO_US (spec/03, Table 3-20). -/
def macParkTmrRtoUs : Fld := ⟨.mac, 0, 0x118, 0x4, 15, 0, .sh, 1, 65535⟩
/-- MAC.PARK_PEER.TW_NS (spec/03, Table 3-21). -/
def macParkPeerTwNs : Fld := ⟨.mac, 0, 0x11c, 0x4, 31, 16, .rw, 0, 65535⟩
/-- MAC.PARK_PEER.PEER_KZ (spec/03, Table 3-21). -/
def macParkPeerPeerKz : Fld := ⟨.mac, 0, 0x11c, 0x4, 0, 0, .rw, 0, 1⟩
/-- MAC.PORT_STAT.CUR_GBPS (spec/03, Table 3-22). -/
def macPortStatCurGbps : Fld := ⟨.mac, 0, 0x120, 0x4, 31, 16, .ro, 0, 65535⟩
/-- MAC.PORT_STAT.PAUSED (spec/03, Table 3-22). -/
def macPortStatPaused : Fld := ⟨.mac, 0, 0x120, 0x4, 15, 8, .ro, 0, 255⟩
/-- MAC.PORT_STAT.PARK_STATE (spec/03, Table 3-22). -/
def macPortStatParkState : Fld := ⟨.mac, 0, 0x120, 0x4, 5, 4, .ro, 0, 3⟩
/-- MAC.PORT_STAT.TX_XOFF (spec/03, Table 3-22). -/
def macPortStatTxXoff : Fld := ⟨.mac, 0, 0x120, 0x4, 3, 3, .ro, 0, 1⟩
/-- MAC.PORT_STAT.LPI_RX (spec/03, Table 3-22). -/
def macPortStatLpiRx : Fld := ⟨.mac, 0, 0x120, 0x4, 2, 2, .ro, 0, 1⟩
/-- MAC.PORT_STAT.LPI_TX (spec/03, Table 3-22). -/
def macPortStatLpiTx : Fld := ⟨.mac, 0, 0x120, 0x4, 1, 1, .ro, 0, 1⟩
/-- MAC.PORT_STAT.LINK (spec/03, Table 3-22). -/
def macPortStatLink : Fld := ⟨.mac, 0, 0x120, 0x4, 0, 0, .ro, 0, 1⟩
/-- SDS.LANE_CFG.LT_EN (spec/03, Table 3-23). -/
def sdsLaneCfgLtEn : Fld := ⟨.sds, 0, 0x100, 0x4, 5, 5, .sh, 0, 1⟩
/-- SDS.LANE_CFG.AN_EN (spec/03, Table 3-23). -/
def sdsLaneCfgAnEn : Fld := ⟨.sds, 0, 0x100, 0x4, 4, 4, .sh, 0, 1⟩
/-- SDS.LANE_CFG.LOOPBACK (spec/03, Table 3-23). -/
def sdsLaneCfgLoopback : Fld := ⟨.sds, 0, 0x100, 0x4, 3, 2, .sh, 0, 2⟩
/-- SDS.LANE_CFG.RX_POL (spec/03, Table 3-23). -/
def sdsLaneCfgRxPol : Fld := ⟨.sds, 0, 0x100, 0x4, 1, 1, .sh, 0, 1⟩
/-- SDS.LANE_CFG.TX_POL (spec/03, Table 3-23). -/
def sdsLaneCfgTxPol : Fld := ⟨.sds, 0, 0x100, 0x4, 0, 0, .sh, 0, 1⟩
/-- SDS.TX_FIR.POST1 (spec/03, Table 3-24). -/
def sdsTxFirPost1 : Fld := ⟨.sds, 0, 0x104, 0x4, 31, 24, .sh, 0, 255⟩
/-- SDS.TX_FIR.PRE2 (spec/03, Table 3-24). -/
def sdsTxFirPre2 : Fld := ⟨.sds, 0, 0x104, 0x4, 23, 16, .sh, 0, 255⟩
/-- SDS.TX_FIR.MAIN (spec/03, Table 3-24). -/
def sdsTxFirMain : Fld := ⟨.sds, 0, 0x104, 0x4, 15, 8, .sh, 0, 63⟩
/-- SDS.TX_FIR.PRE1 (spec/03, Table 3-24). -/
def sdsTxFirPre1 : Fld := ⟨.sds, 0, 0x104, 0x4, 7, 0, .sh, 0, 255⟩
/-- SDS.LANE_STAT.EYE_MV (spec/03, Table 3-25). -/
def sdsLaneStatEyeMv : Fld := ⟨.sds, 0, 0x108, 0x4, 31, 24, .ro, 0, 255⟩
/-- SDS.LANE_STAT.LT_DONE (spec/03, Table 3-25). -/
def sdsLaneStatLtDone : Fld := ⟨.sds, 0, 0x108, 0x4, 5, 5, .ro, 0, 1⟩
/-- SDS.LANE_STAT.ADAPT_DONE (spec/03, Table 3-25). -/
def sdsLaneStatAdaptDone : Fld := ⟨.sds, 0, 0x108, 0x4, 4, 4, .ro, 0, 1⟩
/-- SDS.LANE_STAT.CDR_LOCK (spec/03, Table 3-25). -/
def sdsLaneStatCdrLock : Fld := ⟨.sds, 0, 0x108, 0x4, 3, 3, .ro, 0, 1⟩
/-- SDS.LANE_STAT.PLL_LOCK (spec/03, Table 3-25). -/
def sdsLaneStatPllLock : Fld := ⟨.sds, 0, 0x108, 0x4, 2, 2, .ro, 0, 1⟩
/-- SDS.LANE_STAT.SIGNAL (spec/03, Table 3-25). -/
def sdsLaneStatSignal : Fld := ⟨.sds, 0, 0x108, 0x4, 1, 1, .ro, 0, 1⟩
/-- SDS.LANE_STAT.POWERED (spec/03, Table 3-25). -/
def sdsLaneStatPowered : Fld := ⟨.sds, 0, 0x108, 0x4, 0, 0, .ro, 0, 1⟩
/-- PRS.GRAPH_REF.CRC (spec/04, Table 4-6). -/
def prsGraphRefCrc : Fld := ⟨.prs, 0, 0x100, 0x4, 31, 0, .sh, 0, 4294967295⟩
/-- PRS.GRAPH_NOW.CRC (spec/04, Table 4-6). -/
def prsGraphNowCrc : Fld := ⟨.prs, 0, 0x104, 0x4, 31, 0, .ro, 0, 4294967295⟩
/-- PRS.GRAPH_STAT.PEER_DIFF (spec/04, Table 4-6). -/
def prsGraphStatPeerDiff : Fld := ⟨.prs, 0, 0x108, 0x4, 1, 1, .ro, 0, 1⟩
/-- PRS.GRAPH_STAT.MISMATCH (spec/04, Table 4-6). -/
def prsGraphStatMismatch : Fld := ⟨.prs, 0, 0x108, 0x4, 0, 0, .ro, 0, 1⟩
/-- PRS.INJ_CFG.DEF_ACT (spec/04, Table 4-6). -/
def prsInjCfgDefAct : Fld := ⟨.prs, 0, 0x10c, 0x4, 31, 16, .sh, 0, 16383⟩
/-- PRS.INJ_CFG.MAL_ACT (spec/04, Table 4-6). -/
def prsInjCfgMalAct : Fld := ⟨.prs, 0, 0x10c, 0x4, 11, 10, .sh, 0, 2⟩
/-- PRS.INJ_CFG.START_NODE (spec/04, Table 4-6). -/
def prsInjCfgStartNode : Fld := ⟨.prs, 0, 0x10c, 0x4, 8, 0, .sh, 0, 511⟩
/-- PRS.MAL_PUNT.QUEUE (spec/04, Table 4-6). -/
def prsMalPuntQueue : Fld := ⟨.prs, 0, 0x110, 0x4, 5, 0, .sh, 0, 63⟩
/-- PRS.PORT_CFG.DEF_ACT (spec/04, Table 4-7). -/
def prsPortCfgDefAct : Fld := ⟨.prs, 1, 0x100, 0x4, 31, 16, .sh, 0, 16383⟩
/-- PRS.PORT_CFG.MAL_ACT (spec/04, Table 4-7). -/
def prsPortCfgMalAct : Fld := ⟨.prs, 1, 0x100, 0x4, 11, 10, .sh, 0, 2⟩
/-- PRS.PORT_CFG.START_NODE (spec/04, Table 4-7). -/
def prsPortCfgStartNode : Fld := ⟨.prs, 1, 0x100, 0x4, 8, 0, .sh, 0, 511⟩
/-- CLS.TBL_CFG.EN (spec/05, Table 5-1 R144). -/
def clsTblCfgEn : Fld := ⟨.cls, 0, 0x100, 0x10, 31, 31, .sh, 0, 1⟩
/-- CLS.TBL_CFG.MECH (spec/05, Table 5-1 R144). -/
def clsTblCfgMech : Fld := ⟨.cls, 0, 0x100, 0x10, 30, 30, .sh, 0, 1⟩
/-- CLS.TBL_CFG.WIDTH (spec/05, Table 5-1 R144). -/
def clsTblCfgWidth : Fld := ⟨.cls, 0, 0x100, 0x10, 29, 28, .sh, 0, 2⟩
/-- CLS.TBL_CFG.TREE_ID (spec/05, Table 5-1 R144). -/
def clsTblCfgTreeId : Fld := ⟨.cls, 0, 0x100, 0x10, 27, 24, .sh, 0, 15⟩
/-- CLS.TBL_CFG.BANKS (spec/05, Table 5-1 R144). -/
def clsTblCfgBanks : Fld := ⟨.cls, 0, 0x100, 0x10, 15, 0, .sh, 0, 65535⟩
/-- CLS.TBL_KEY0.SEG1_LEN (spec/05, Table 5-2). -/
def clsTblKey0Seg1Len : Fld := ⟨.cls, 0, 0x104, 0x10, 29, 24, .sh, 0, 40⟩
/-- CLS.TBL_KEY0.SEG1_OFF (spec/05, Table 5-2). -/
def clsTblKey0Seg1Off : Fld := ⟨.cls, 0, 0x104, 0x10, 23, 16, .sh, 0, 159⟩
/-- CLS.TBL_KEY0.SEG0_LEN (spec/05, Table 5-2). -/
def clsTblKey0Seg0Len : Fld := ⟨.cls, 0, 0x104, 0x10, 13, 8, .sh, 0, 40⟩
/-- CLS.TBL_KEY0.SEG0_OFF (spec/05, Table 5-2). -/
def clsTblKey0Seg0Off : Fld := ⟨.cls, 0, 0x104, 0x10, 7, 0, .sh, 0, 159⟩
/-- CLS.TBL_KEY1.SEG3_LEN (spec/05, Table 5-2). -/
def clsTblKey1Seg3Len : Fld := ⟨.cls, 0, 0x108, 0x10, 29, 24, .sh, 0, 40⟩
/-- CLS.TBL_KEY1.SEG3_OFF (spec/05, Table 5-2). -/
def clsTblKey1Seg3Off : Fld := ⟨.cls, 0, 0x108, 0x10, 23, 16, .sh, 0, 159⟩
/-- CLS.TBL_KEY1.SEG2_LEN (spec/05, Table 5-2). -/
def clsTblKey1Seg2Len : Fld := ⟨.cls, 0, 0x108, 0x10, 13, 8, .sh, 0, 40⟩
/-- CLS.TBL_KEY1.SEG2_OFF (spec/05, Table 5-2). -/
def clsTblKey1Seg2Off : Fld := ⟨.cls, 0, 0x108, 0x10, 7, 0, .sh, 0, 159⟩
/-- CLS.PORT_DEF.TC (spec/05, Table 5-4). -/
def clsPortDefTc : Fld := ⟨.cls, 0, 0x200, 0x4, 18, 16, .sh, 0, 7⟩
/-- CLS.PORT_DEF.TENANT (spec/05, Table 5-4). -/
def clsPortDefTenant : Fld := ⟨.cls, 0, 0x200, 0x4, 13, 0, .sh, 0, 16383⟩
/-- CLS.INJ_DEF.TC (spec/05, Table 5-4). -/
def clsInjDefTc : Fld := ⟨.cls, 0, 0x2c0, 0x4, 18, 16, .sh, 0, 7⟩
/-- CLS.INJ_DEF.TENANT (spec/05, Table 5-4). -/
def clsInjDefTenant : Fld := ⟨.cls, 0, 0x2c0, 0x4, 13, 0, .sh, 0, 16383⟩
/-- TRE.TREE_CTL.VALID (spec/05, Table 5-10). -/
def treTreeCtlValid : Fld := ⟨.tre, 0, 0x100, 0x20, 31, 31, .sh, 0, 1⟩
/-- TRE.TREE_CTL.RULES (spec/05, Table 5-10). -/
def treTreeCtlRules : Fld := ⟨.tre, 0, 0x100, 0x20, 18, 0, .sh, 0, 262144⟩
/-- TRE.TREE_ROOT.TYPE (spec/05, Table 5-10). -/
def treTreeRootType : Fld := ⟨.tre, 0, 0x104, 0x20, 31, 30, .sh, 0, 2⟩
/-- TRE.TREE_ROOT.REST (spec/05, Table 5-10). -/
def treTreeRootRest : Fld := ⟨.tre, 0, 0x104, 0x20, 29, 0, .sh, 0, 1073741823⟩
/-- TRE.TREE_IMG_BASE.IMG_BASE (spec/05, Table 5-10). -/
def treTreeImgBaseImgBase : Fld := ⟨.tre, 0, 0x108, 0x20, 18, 0, .sh, 0, 524287⟩
/-- TRE.TREE_IMG_WORDS.IMG_WORDS (spec/05, Table 5-10). -/
def treTreeImgWordsImgWords : Fld := ⟨.tre, 0, 0x10c, 0x20, 19, 0, .sh, 1, 524288⟩
/-- TRE.TREE_RULE_BASE.RULE_BASE (spec/05, Table 5-10). -/
def treTreeRuleBaseRuleBase : Fld := ⟨.tre, 0, 0x110, 0x20, 18, 0, .sh, 0, 524287⟩
/-- TRE.TREE_ATTR_BASE.ATTR_BASE (spec/05, Table 5-10). -/
def treTreeAttrBaseAttrBase : Fld := ⟨.tre, 0, 0x114, 0x20, 18, 0, .sh, 0, 524287⟩
/-- TRE.TREE_DOFF_LO.D3 (spec/05, Table 5-10). -/
def treTreeDoffLoD3 : Fld := ⟨.tre, 0, 0x118, 0x20, 31, 24, .sh, 0, 158⟩
/-- TRE.TREE_DOFF_LO.D2 (spec/05, Table 5-10). -/
def treTreeDoffLoD2 : Fld := ⟨.tre, 0, 0x118, 0x20, 23, 16, .sh, 0, 158⟩
/-- TRE.TREE_DOFF_LO.D1 (spec/05, Table 5-10). -/
def treTreeDoffLoD1 : Fld := ⟨.tre, 0, 0x118, 0x20, 15, 8, .sh, 0, 158⟩
/-- TRE.TREE_DOFF_LO.D0 (spec/05, Table 5-10). -/
def treTreeDoffLoD0 : Fld := ⟨.tre, 0, 0x118, 0x20, 7, 0, .sh, 0, 158⟩
/-- TRE.TREE_DOFF_HI.D7 (spec/05, Table 5-10). -/
def treTreeDoffHiD7 : Fld := ⟨.tre, 0, 0x11c, 0x20, 31, 24, .sh, 0, 158⟩
/-- TRE.TREE_DOFF_HI.D6 (spec/05, Table 5-10). -/
def treTreeDoffHiD6 : Fld := ⟨.tre, 0, 0x11c, 0x20, 23, 16, .sh, 0, 158⟩
/-- TRE.TREE_DOFF_HI.D5 (spec/05, Table 5-10). -/
def treTreeDoffHiD5 : Fld := ⟨.tre, 0, 0x11c, 0x20, 15, 8, .sh, 0, 158⟩
/-- TRE.TREE_DOFF_HI.D4 (spec/05, Table 5-10). -/
def treTreeDoffHiD4 : Fld := ⟨.tre, 0, 0x11c, 0x20, 7, 0, .sh, 0, 158⟩
/-- TRE.STAT.OLD_READERS (spec/05, Table 5-10). -/
def treStatOldReaders : Fld := ⟨.tre, 0, 0x300, 0x4, 0, 0, .ro, 0, 1⟩
/-- RDH.BANK_STAT.TABLE (spec/05, Table 5-11). -/
def rdhBankStatTable : Fld := ⟨.rdh, 255, 0x100, 0x4, 31, 28, .ro, 0, 15⟩
/-- RDH.BANK_STAT.WIDTH (spec/05, Table 5-11). -/
def rdhBankStatWidth : Fld := ⟨.rdh, 255, 0x100, 0x4, 27, 26, .ro, 0, 3⟩
/-- RDH.BANK_STAT.OWNED (spec/05, Table 5-11). -/
def rdhBankStatOwned : Fld := ⟨.rdh, 255, 0x100, 0x4, 25, 25, .ro, 0, 1⟩
/-- RDH.BANK_STAT.SYNC (spec/05, Table 5-11). -/
def rdhBankStatSync : Fld := ⟨.rdh, 255, 0x100, 0x4, 24, 24, .ro, 0, 1⟩
/-- RDH.BANK_STAT.ACTIVE_HALF (spec/05, Table 5-11). -/
def rdhBankStatActiveHalf : Fld := ⟨.rdh, 255, 0x100, 0x4, 23, 23, .ro, 0, 1⟩
/-- RDH.BANK_STAT.QUAR_USED (spec/05, Table 5-11). -/
def rdhBankStatQuarUsed : Fld := ⟨.rdh, 255, 0x100, 0x4, 2, 0, .ro, 0, 7⟩
/-- RDH.QUAR.BUSY (spec/05, Table 5-12). -/
def rdhQuarBusy : Fld := ⟨.rdh, 255, 0x110, 0x4, 31, 31, .ro, 0, 1⟩
/-- RDH.QUAR.STUCK (spec/05, Table 5-12). -/
def rdhQuarStuck : Fld := ⟨.rdh, 255, 0x110, 0x4, 30, 30, .ro, 0, 1⟩
/-- RDH.QUAR.BAD (spec/05, Table 5-12). -/
def rdhQuarBad : Fld := ⟨.rdh, 255, 0x110, 0x4, 29, 29, .ro, 0, 1⟩
/-- RDH.QUAR.HALF (spec/05, Table 5-12). -/
def rdhQuarHalf : Fld := ⟨.rdh, 255, 0x110, 0x4, 28, 28, .ro, 0, 1⟩
/-- RDH.QUAR.ENTRY (spec/05, Table 5-12). -/
def rdhQuarEntry : Fld := ⟨.rdh, 255, 0x110, 0x4, 10, 0, .ro, 0, 2047⟩
/-- LEK.CFG.V6_SET (spec/06, Table 6-9). -/
def lekCfgV6Set : Fld := ⟨.lek, 0, 0x100, 0x4, 1, 0, .sh, 0, 2⟩
/-- LEK.V4_CNT.CNT (spec/06, Table 6-9). -/
def lekV4CntCnt : Fld := ⟨.lek, 0, 0x104, 0x4, 22, 0, .ro, 0, 8388607⟩
/-- LEK.V6_CNT.CNT (spec/06, Table 6-9). -/
def lekV6CntCnt : Fld := ⟨.lek, 0, 0x108, 0x4, 21, 0, .ro, 0, 4194303⟩
/-- LEK.STAT.DIVERGED (spec/06, Table 6-9). -/
def lekStatDiverged : Fld := ⟨.lek, 0, 0x10c, 0x4, 1, 1, .ro, 0, 1⟩
/-- LEK.STAT.SYNC (spec/06, Table 6-9). -/
def lekStatSync : Fld := ⟨.lek, 0, 0x10c, 0x4, 0, 0, .ro, 0, 1⟩
/-- LEK.DIGEST.CRC (spec/06, Table 6-9). -/
def lekDigestCrc : Fld := ⟨.lek, 0, 0x110, 0x4, 31, 0, .ro, 0, 4294967295⟩
/-- LEK.FWD_SEL_W0.EN (spec/06, Table 6-9). -/
def lekFwdSelW0En : Fld := ⟨.lek, 1, 0x100, 0x10, 31, 31, .sh, 0, 1⟩
/-- LEK.FWD_SEL_W0.MATCH_OFF (spec/06, Table 6-9). -/
def lekFwdSelW0MatchOff : Fld := ⟨.lek, 1, 0x100, 0x10, 23, 16, .sh, 0, 159⟩
/-- LEK.FWD_SEL_W0.MASK (spec/06, Table 6-9). -/
def lekFwdSelW0Mask : Fld := ⟨.lek, 1, 0x100, 0x10, 15, 8, .sh, 0, 255⟩
/-- LEK.FWD_SEL_W0.VALUE (spec/06, Table 6-9). -/
def lekFwdSelW0Value : Fld := ⟨.lek, 1, 0x100, 0x10, 7, 0, .sh, 0, 255⟩
/-- LEK.FWD_SEL_W1.FLOW_POFF (spec/06, Table 6-9). -/
def lekFwdSelW1FlowPoff : Fld := ⟨.lek, 1, 0x104, 0x10, 31, 24, .sh, 0, 255⟩
/-- LEK.FWD_SEL_W1.FLOW_AOFF (spec/06, Table 6-9). -/
def lekFwdSelW1FlowAoff : Fld := ⟨.lek, 1, 0x104, 0x10, 23, 16, .sh, 0, 255⟩
/-- LEK.FWD_SEL_W1.KEY_OFF (spec/06, Table 6-9). -/
def lekFwdSelW1KeyOff : Fld := ⟨.lek, 1, 0x104, 0x10, 15, 8, .sh, 0, 255⟩
/-- LEK.FWD_SEL_W1.FLOW_EN (spec/06, Table 6-9). -/
def lekFwdSelW1FlowEn : Fld := ⟨.lek, 1, 0x104, 0x10, 3, 3, .sh, 0, 1⟩
/-- LEK.FWD_SEL_W1.KIND (spec/06, Table 6-9). -/
def lekFwdSelW1Kind : Fld := ⟨.lek, 1, 0x104, 0x10, 2, 0, .sh, 0, 4⟩
/-- LEK.FWD_SEL_W2.FLOW_LOFF (spec/06, Table 6-9). -/
def lekFwdSelW2FlowLoff : Fld := ⟨.lek, 1, 0x108, 0x10, 7, 0, .sh, 0, 255⟩
/-- LEK.RES_BASE_LO.ADDR (spec/06, Table 6-11). -/
def lekResBaseLoAddr : Fld := ⟨.lek, 0, 0x140, 0x4, 31, 0, .rw, 0, 4294967295⟩
/-- LEK.RES_BASE_HI.ADDR (spec/06, Table 6-11). -/
def lekResBaseHiAddr : Fld := ⟨.lek, 0, 0x144, 0x4, 31, 0, .rw, 0, 4294967295⟩
/-- LEK.RES_CTL.SPACE (spec/06, Table 6-11). -/
def lekResCtlSpace : Fld := ⟨.lek, 0, 0x148, 0x4, 8, 8, .rw, 0, 1⟩
/-- LEK.RES_CTL.SIZE_LOG2 (spec/06, Table 6-11). -/
def lekResCtlSizeLog2 : Fld := ⟨.lek, 0, 0x148, 0x4, 4, 0, .rw, 0, 31⟩
/-- LEK.RES_HEAD.HEAD (spec/06, Table 6-11). -/
def lekResHeadHead : Fld := ⟨.lek, 0, 0x14c, 0x4, 19, 0, .ro, 0, 1048575⟩
/-- LEK.RES_TAIL.TAIL (spec/06, Table 6-11). -/
def lekResTailTail : Fld := ⟨.lek, 0, 0x150, 0x4, 19, 0, .rw, 0, 1048575⟩
/-- CHD.RES_BASE_LO.ADDR (spec/06, Table 6-11). -/
def chdResBaseLoAddr : Fld := ⟨.chd, 0, 0x140, 0x4, 31, 0, .rw, 0, 4294967295⟩
/-- CHD.RES_BASE_HI.ADDR (spec/06, Table 6-11). -/
def chdResBaseHiAddr : Fld := ⟨.chd, 0, 0x144, 0x4, 31, 0, .rw, 0, 4294967295⟩
/-- CHD.RES_CTL.SPACE (spec/06, Table 6-11). -/
def chdResCtlSpace : Fld := ⟨.chd, 0, 0x148, 0x4, 8, 8, .rw, 0, 1⟩
/-- CHD.RES_CTL.SIZE_LOG2 (spec/06, Table 6-11). -/
def chdResCtlSizeLog2 : Fld := ⟨.chd, 0, 0x148, 0x4, 4, 0, .rw, 0, 31⟩
/-- CHD.RES_HEAD.HEAD (spec/06, Table 6-11). -/
def chdResHeadHead : Fld := ⟨.chd, 0, 0x14c, 0x4, 19, 0, .ro, 0, 1048575⟩
/-- CHD.RES_TAIL.TAIL (spec/06, Table 6-11). -/
def chdResTailTail : Fld := ⟨.chd, 0, 0x150, 0x4, 19, 0, .rw, 0, 1048575⟩
/-- CHD.CFG.FLUSH_ON_DOWN (spec/06, Table 6-10). -/
def chdCfgFlushOnDown : Fld := ⟨.chd, 0, 0x100, 0x4, 9, 9, .sh, 0, 1⟩
/-- CHD.CFG.LEARN_EN (spec/06, Table 6-10). -/
def chdCfgLearnEn : Fld := ⟨.chd, 0, 0x100, 0x4, 8, 8, .sh, 0, 1⟩
/-- CHD.CFG.MAX_KICKS (spec/06, Table 6-10). -/
def chdCfgMaxKicks : Fld := ⟨.chd, 0, 0x100, 0x4, 7, 0, .sh, 1, 255⟩
/-- CHD.AGE_CFG.AGE_SEC (spec/06, Table 6-10). -/
def chdAgeCfgAgeSec : Fld := ⟨.chd, 0, 0x104, 0x4, 15, 0, .sh, 0, 65535⟩
/-- CHD.LEARN_CFG.HOLD_US (spec/06, Table 6-10). -/
def chdLearnCfgHoldUs : Fld := ⟨.chd, 0, 0x108, 0x4, 31, 20, .sh, 0, 4095⟩
/-- CHD.LEARN_CFG.PORT_NH_BASE (spec/06, Table 6-10). -/
def chdLearnCfgPortNhBase : Fld := ⟨.chd, 0, 0x108, 0x4, 19, 0, .sh, 0, 1048192⟩
/-- CHD.STAT.STASH (spec/06, Table 6-10). -/
def chdStatStash : Fld := ⟨.chd, 0, 0x10c, 0x4, 26, 23, .ro, 0, 15⟩
/-- CHD.STAT.SLOTS (spec/06, Table 6-10). -/
def chdStatSlots : Fld := ⟨.chd, 0, 0x10c, 0x4, 22, 0, .ro, 0, 8388607⟩
/-- NHP.CFG.MISS_NH (spec/06, Table 6-12). -/
def nhpCfgMissNh : Fld := ⟨.nhp, 0, 0x100, 0x4, 19, 0, .sh, 0, 1048575⟩
/-- NHP.HASH_KEY0.SEG1_LEN (spec/06, Table 6-12 R200). -/
def nhpHashKey0Seg1Len : Fld := ⟨.nhp, 0, 0x104, 0x4, 29, 24, .sh, 0, 40⟩
/-- NHP.HASH_KEY0.SEG1_OFF (spec/06, Table 6-12 R200). -/
def nhpHashKey0Seg1Off : Fld := ⟨.nhp, 0, 0x104, 0x4, 23, 16, .sh, 0, 255⟩
/-- NHP.HASH_KEY0.SEG0_LEN (spec/06, Table 6-12 R200). -/
def nhpHashKey0Seg0Len : Fld := ⟨.nhp, 0, 0x104, 0x4, 13, 8, .sh, 0, 40⟩
/-- NHP.HASH_KEY0.SEG0_OFF (spec/06, Table 6-12 R200). -/
def nhpHashKey0Seg0Off : Fld := ⟨.nhp, 0, 0x104, 0x4, 7, 0, .sh, 0, 255⟩
/-- NHP.HASH_KEY1.SEG3_LEN (spec/06, Table 6-12 R200). -/
def nhpHashKey1Seg3Len : Fld := ⟨.nhp, 0, 0x108, 0x4, 29, 24, .sh, 0, 40⟩
/-- NHP.HASH_KEY1.SEG3_OFF (spec/06, Table 6-12 R200). -/
def nhpHashKey1Seg3Off : Fld := ⟨.nhp, 0, 0x108, 0x4, 23, 16, .sh, 0, 255⟩
/-- NHP.HASH_KEY1.SEG2_LEN (spec/06, Table 6-12 R200). -/
def nhpHashKey1Seg2Len : Fld := ⟨.nhp, 0, 0x108, 0x4, 13, 8, .sh, 0, 40⟩
/-- NHP.HASH_KEY1.SEG2_OFF (spec/06, Table 6-12 R200). -/
def nhpHashKey1Seg2Off : Fld := ⟨.nhp, 0, 0x108, 0x4, 7, 0, .sh, 0, 255⟩
/-- NHP.HASH_SEED.SEED (spec/06, Table 6-12). -/
def nhpHashSeedSeed : Fld := ⟨.nhp, 0, 0x10c, 0x4, 31, 0, .sh, 0, 4294967295⟩
/-- NHP.PROT_CFG.RESTEER_EN (spec/06, Table 6-12). -/
def nhpProtCfgResteerEn : Fld := ⟨.nhp, 0, 0x110, 0x4, 16, 16, .sh, 0, 1⟩
/-- NHP.PROT_CFG.REVERT_MS (spec/06, Table 6-12). -/
def nhpProtCfgRevertMs : Fld := ⟨.nhp, 0, 0x110, 0x4, 15, 0, .sh, 0, 65535⟩
/-- NHP.STAT.HELD (spec/06, Table 6-12). -/
def nhpStatHeld : Fld := ⟨.nhp, 0, 0x114, 0x4, 0, 0, .ro, 0, 1⟩
/-- NHP.PORT_DOWN.DOWN (spec/06, Table 6-12 R206). -/
def nhpPortDownDown : Fld := ⟨.nhp, 0, 0x120, 0x4, 31, 0, .ro, 0, 4294967295⟩
/-- EDT.IOAM_CFG.NAMESPACE (spec/07, Table 7-3). -/
def edtIoamCfgNamespace : Fld := ⟨.edt, 0, 0x100, 0x4, 31, 16, .sh, 0, 65535⟩
/-- EDT.IOAM_CFG.OPT_TYPE (spec/07, Table 7-3). -/
def edtIoamCfgOptType : Fld := ⟨.edt, 0, 0x100, 0x4, 15, 8, .sh, 0, 255⟩
/-- EDT.IOAM_NODE.NODE_ID (spec/07, Table 7-3). -/
def edtIoamNodeNodeId : Fld := ⟨.edt, 0, 0x104, 0x4, 23, 0, .sh, 0, 16777215⟩
/-- EDT.IOAM_TYPE.TYPE (spec/07, Table 7-3). -/
def edtIoamTypeType : Fld := ⟨.edt, 0, 0x108, 0x4, 23, 17, .sh, 0, 127⟩
/-- EDT.STAT.COPY (spec/07, Table 7-3). -/
def edtStatCopy : Fld := ⟨.edt, 0, 0x10c, 0x4, 1, 1, .ro, 0, 1⟩
/-- EDT.STAT.HELD (spec/07, Table 7-3). -/
def edtStatHeld : Fld := ⟨.edt, 0, 0x10c, 0x4, 0, 0, .ro, 0, 1⟩
/-- POL.COLOR_CFG.OFF (spec/07, Table 7-7). -/
def polColorCfgOff : Fld := ⟨.pol, 0, 0x100, 0x4, 15, 8, .sh, 0, 158⟩
/-- POL.COLOR_CFG.SHIFT (spec/07, Table 7-7). -/
def polColorCfgShift : Fld := ⟨.pol, 0, 0x100, 0x4, 3, 0, .sh, 0, 10⟩
/-- POL.COLOR_MAP.MAP (spec/07, Table 7-7 R239). -/
def polColorMapMap : Fld := ⟨.pol, 0, 0x110, 0x4, 31, 0, .sh, 0, 4294967295⟩
/-- ADM.PATH_ON.EGRESS_NS (spec/08, Table 8-8). -/
def admPathOnEgressNs : Fld := ⟨.adm, 0, 0x100, 0x4, 31, 16, .sh, 80, 65535⟩
/-- ADM.PATH_ON.TWILL_NS (spec/08, Table 8-8). -/
def admPathOnTwillNs : Fld := ⟨.adm, 0, 0x100, 0x4, 15, 0, .sh, 60, 65535⟩
/-- ADM.PATH_BRL.BRL_NS (spec/08, Table 8-8). -/
def admPathBrlBrlNs : Fld := ⟨.adm, 0, 0x104, 0x4, 15, 0, .sh, 1200, 65535⟩
/-- ADM.STAT.COMMIT_REFUSED (spec/08, Table 8-8). -/
def admStatCommitRefused : Fld := ⟨.adm, 0, 0x108, 0x4, 0, 0, .w1c, 0, 1⟩
/-- ADM.DESC_ON_USED.USED (spec/08, Table 8-8). -/
def admDescOnUsedUsed : Fld := ⟨.adm, 0, 0x10c, 0x4, 17, 0, .ro, 0, 262143⟩
/-- ADM.DESC_BRL_USED.USED (spec/08, Table 8-8). -/
def admDescBrlUsedUsed : Fld := ⟨.adm, 0, 0x110, 0x4, 24, 0, .ro, 0, 33554431⟩
/-- ADM.DESC_BRL_LIMIT.LIMIT (spec/08, Table 8-8). -/
def admDescBrlLimitLimit : Fld := ⟨.adm, 0, 0x114, 0x4, 24, 0, .sh, 0, 16777216⟩
/-- LGR.CHK_CTL.FLIP_EN (spec/08, Table 8-11). -/
def lgrChkCtlFlipEn : Fld := ⟨.lgr, 0, 0x100, 0x4, 2, 2, .rw, 0, 1⟩
/-- LGR.CHK_CTL.QUIESCENT_EN (spec/08, Table 8-11). -/
def lgrChkCtlQuiescentEn : Fld := ⟨.lgr, 0, 0x100, 0x4, 1, 1, .rw, 0, 1⟩
/-- LGR.CHK_CTL.GO (spec/08, Table 8-11). -/
def lgrChkCtlGo : Fld := ⟨.lgr, 0, 0x100, 0x4, 0, 0, .wo, 0, 1⟩
/-- LGR.CHK_STAT.CHECKS (spec/08, Table 8-11). -/
def lgrChkStatChecks : Fld := ⟨.lgr, 0, 0x104, 0x4, 31, 8, .ro, 0, 16777215⟩
/-- LGR.CHK_STAT.TRIGGER (spec/08, Table 8-11). -/
def lgrChkStatTrigger : Fld := ⟨.lgr, 0, 0x104, 0x4, 5, 4, .ro, 0, 3⟩
/-- LGR.CHK_STAT.SKIPPED (spec/08, Table 8-11). -/
def lgrChkStatSkipped : Fld := ⟨.lgr, 0, 0x104, 0x4, 1, 1, .ro, 0, 1⟩
/-- LGR.CHK_STAT.IMBALANCE (spec/08, Table 8-11). -/
def lgrChkStatImbalance : Fld := ⟨.lgr, 0, 0x104, 0x4, 0, 0, .w1c, 0, 1⟩
/-- LGR.CHK_DIFF.DIFF (spec/08, Table 8-11). -/
def lgrChkDiffDiff : Fld := ⟨.lgr, 0, 0x108, 0x4, 31, 0, .ro, 0, 4294967295⟩
/-- LGR.CHK_TIME.TIME (spec/08, Table 8-11). -/
def lgrChkTimeTime : Fld := ⟨.lgr, 0, 0x10c, 0x4, 31, 0, .ro, 0, 4294967295⟩
/-- LGR.IN_FLIGHT.N (spec/08, Table 8-11). -/
def lgrInFlightN : Fld := ⟨.lgr, 0, 0x110, 0x4, 27, 0, .ro, 0, 268435455⟩
/-- TWL.CFG.CREDIT (spec/09, Table 9-4). -/
def twlCfgCredit : Fld := ⟨.twl, 0, 0x100, 0x4, 10, 0, .sh, 4, 1024⟩
/-- TWL.STAT.REPLAY_STALL (spec/09, Table 9-5). -/
def twlStatReplayStall : Fld := ⟨.twl, 0, 0x104, 0x4, 1, 1, .ro, 0, 1⟩
/-- TWL.STAT.COMMIT_REFUSED (spec/09, Table 9-5). -/
def twlStatCommitRefused : Fld := ⟨.twl, 0, 0x104, 0x4, 0, 0, .w1c, 0, 1⟩
/-- TWL.OCC.CELLS (spec/09, Table 9-6). -/
def twlOccCells : Fld := ⟨.twl, 0, 0x120, 0x4, 10, 0, .ro, 0, 2047⟩
/-- GZE.SA_CFG.MC_LIMIT (spec/09, Table 9-7). -/
def gzeSaCfgMcLimit : Fld := ⟨.gze, 0, 0x100, 0x4, 15, 8, .sh, 4, 255⟩
/-- GZE.SA_CFG.A_LIMIT (spec/09, Table 9-7). -/
def gzeSaCfgALimit : Fld := ⟨.gze, 0, 0x100, 0x4, 7, 0, .sh, 4, 64⟩
/-- GZE.FLOWLET.FLOWLET_NS (spec/09, Table 9-7). -/
def gzeFlowletFlowletNs : Fld := ⟨.gze, 0, 0x104, 0x4, 15, 0, .sh, 1, 65535⟩
/-- GZE.IMB_CFG.BAL_EN (spec/09, Table 9-7). -/
def gzeImbCfgBalEn : Fld := ⟨.gze, 0, 0x108, 0x4, 24, 24, .sh, 0, 1⟩
/-- GZE.IMB_CFG.IMB_WIN_NS (spec/09, Table 9-7). -/
def gzeImbCfgImbWinNs : Fld := ⟨.gze, 0, 0x108, 0x4, 23, 8, .sh, 100, 65535⟩
/-- GZE.IMB_CFG.IMB_THRESH (spec/09, Table 9-7). -/
def gzeImbCfgImbThresh : Fld := ⟨.gze, 0, 0x108, 0x4, 7, 0, .sh, 1, 255⟩
/-- GZE.STAT.HOT (spec/09, Table 9-7). -/
def gzeStatHot : Fld := ⟨.gze, 0, 0x10c, 0x4, 15, 8, .ro, 0, 255⟩
/-- GZE.STAT.COMMIT_REFUSED (spec/09, Table 9-7). -/
def gzeStatCommitRefused : Fld := ⟨.gze, 0, 0x10c, 0x4, 0, 0, .w1c, 0, 1⟩
/-- GZE.MIR_BASE_LO.ADDR (spec/09, Table 9-8). -/
def gzeMirBaseLoAddr : Fld := ⟨.gze, 1, 0x100, 0x10, 31, 8, .sh, 0, 16777215⟩
/-- GZE.MIR_BASE_HI.ADDR (spec/09, Table 9-8). -/
def gzeMirBaseHiAddr : Fld := ⟨.gze, 1, 0x104, 0x10, 3, 0, .sh, 0, 15⟩
/-- GZE.MIR_CTL.EN (spec/09, Table 9-8). -/
def gzeMirCtlEn : Fld := ⟨.gze, 1, 0x108, 0x10, 31, 31, .sh, 0, 1⟩
/-- GZE.MIR_CTL.SIZE_LOG2 (spec/09, Table 9-8). -/
def gzeMirCtlSizeLog2 : Fld := ⟨.gze, 1, 0x108, 0x10, 20, 16, .sh, 10, 24⟩
/-- GZE.MIR_CTL.NOTIFY_LOG2 (spec/09, Table 9-8). -/
def gzeMirCtlNotifyLog2 : Fld := ⟨.gze, 1, 0x108, 0x10, 11, 8, .sh, 0, 15⟩
/-- GZE.MIR_TAIL.TAIL (spec/09, Table 9-8). -/
def gzeMirTailTail : Fld := ⟨.gze, 1, 0x10c, 0x10, 23, 0, .rw, 0, 16777215⟩
/-- GZE.MIR_HEAD.HEAD (spec/09, Table 9-8). -/
def gzeMirHeadHead : Fld := ⟨.gze, 1, 0x200, 0x4, 23, 0, .ro, 0, 16777215⟩
/-- BPM.PF_POOL.CELLS (spec/09, Table 9-9). -/
def bpmPfPoolCells : Fld := ⟨.bpm, 0, 0x100, 0x4, 16, 0, .sh, 512, 32768⟩
/-- BPM.MCQ_LIMIT.CELLS (spec/09, Table 9-9). -/
def bpmMcqLimitCells : Fld := ⟨.bpm, 0, 0x104, 0x4, 16, 0, .sh, 1, 98304⟩
/-- BPM.SPILL_CFG.FLUSH_NS (spec/09, Table 9-9). -/
def bpmSpillCfgFlushNs : Fld := ⟨.bpm, 0, 0x108, 0x4, 25, 16, .sh, 10, 1000⟩
/-- BPM.SPILL_CFG.PREFETCH_CELLS (spec/09, Table 9-9). -/
def bpmSpillCfgPrefetchCells : Fld := ⟨.bpm, 0, 0x108, 0x4, 9, 0, .sh, 8, 1023⟩
/-- BPM.BLK_BASE.BLK (spec/09, Table 9-9). -/
def bpmBlkBaseBlk : Fld := ⟨.bpm, 0, 0x10c, 0x4, 31, 0, .sh, 0, 4294967295⟩
/-- BPM.BLK_COUNT.COUNT (spec/09, Table 9-9). -/
def bpmBlkCountCount : Fld := ⟨.bpm, 0, 0x110, 0x4, 26, 0, .sh, 0, 134217727⟩
/-- BPM.SHARED_FREE.CELLS (spec/09, Table 9-9). -/
def bpmSharedFreeCells : Fld := ⟨.bpm, 0, 0x114, 0x4, 16, 0, .ro, 0, 131071⟩
/-- BPM.STAT.COMMIT_REFUSED (spec/09, Table 9-9). -/
def bpmStatCommitRefused : Fld := ⟨.bpm, 0, 0x118, 0x4, 0, 0, .w1c, 0, 1⟩
/-- BRL.CTL.MODE (spec/10, Table 10-6 R336). -/
def brlCtlMode : Fld := ⟨.brl, 0, 0x100, 0x4, 5, 5, .rw, 0, 1⟩
/-- BRL.CTL.GRAIN (spec/10, Table 10-6 R336). -/
def brlCtlGrain : Fld := ⟨.brl, 0, 0x100, 0x4, 4, 2, .rw, 0, 5⟩
/-- BRL.CTL.RATE (spec/10, Table 10-6 R336). -/
def brlCtlRate : Fld := ⟨.brl, 0, 0x100, 0x4, 1, 1, .rw, 0, 1⟩
/-- BRL.CTL.EN (spec/10, Table 10-6 R336). -/
def brlCtlEn : Fld := ⟨.brl, 0, 0x100, 0x4, 0, 0, .rw, 0, 1⟩
/-- BRL.RETRY.RETRY_NS (spec/10, Table 10-6). -/
def brlRetryRetryNs : Fld := ⟨.brl, 0, 0x104, 0x4, 25, 16, .sh, 50, 1000⟩
/-- BRL.RETRY.RETRY_MAX (spec/10, Table 10-6). -/
def brlRetryRetryMax : Fld := ⟨.brl, 0, 0x104, 0x4, 3, 0, .sh, 0, 15⟩
/-- BRL.THERM.THROTTLE_PCT (spec/10, Table 10-6). -/
def brlThermThrottlePct : Fld := ⟨.brl, 0, 0x108, 0x4, 22, 16, .sh, 25, 75⟩
/-- BRL.THERM.THR_LO (spec/10, Table 10-6). -/
def brlThermThrLo : Fld := ⟨.brl, 0, 0x108, 0x4, 15, 8, .sh, 0, 255⟩
/-- BRL.THERM.THR_HI (spec/10, Table 10-6). -/
def brlThermThrHi : Fld := ⟨.brl, 0, 0x108, 0x4, 7, 0, .sh, 60, 105⟩
/-- BRL.UE_CTL.UE_THRESH (spec/10, Table 10-6). -/
def brlUeCtlUeThresh : Fld := ⟨.brl, 0, 0x10c, 0x4, 15, 0, .sh, 0, 65535⟩
/-- BRL.SCRUB.SCRUB_H (spec/10, Table 10-6). -/
def brlScrubScrubH : Fld := ⟨.brl, 0, 0x110, 0x4, 7, 0, .sh, 1, 255⟩
/-- BRL.STAT.CODE (spec/10, Table 10-6). -/
def brlStatCode : Fld := ⟨.brl, 0, 0x114, 0x4, 3, 1, .ro, 0, 7⟩
/-- BRL.STAT.COMMIT_REFUSED (spec/10, Table 10-6). -/
def brlStatCommitRefused : Fld := ⟨.brl, 0, 0x114, 0x4, 0, 0, .w1c, 0, 1⟩
/-- BRL.DELIVERABLE.GBS (spec/10, Table 10-6). -/
def brlDeliverableGbs : Fld := ⟨.brl, 0, 0x118, 0x4, 15, 0, .ro, 0, 65535⟩
/-- BRL.OVF.GBS (spec/10, Table 10-7). -/
def brlOvfGbs : Fld := ⟨.brl, 1, 0x100, 0x4, 15, 0, .sh, 0, 65535⟩
/-- BRL.MIRROR.GBS (spec/10, Table 10-7). -/
def brlMirrorGbs : Fld := ⟨.brl, 1, 0x110, 0x4, 15, 0, .sh, 0, 65535⟩
/-- BRL.HOL.GBS (spec/10, Table 10-7). -/
def brlHolGbs : Fld := ⟨.brl, 1, 0x114, 0x4, 15, 0, .sh, 0, 65535⟩
/-- BRL.CNT.GBS (spec/10, Table 10-7). -/
def brlCntGbs : Fld := ⟨.brl, 1, 0x118, 0x4, 15, 0, .sh, 0, 65535⟩
/-- BRL.TOK_DEPTH.TOK (spec/10, Table 10-7). -/
def brlTokDepthTok : Fld := ⟨.brl, 1, 0x11c, 0x4, 15, 0, .sh, 64, 65535⟩
/-- BRL.EFF_OVF.GBS (spec/10, Table 10-7). -/
def brlEffOvfGbs : Fld := ⟨.brl, 1, 0x140, 0x4, 15, 0, .ro, 0, 65535⟩
/-- BRL.EFF_MIRROR.GBS (spec/10, Table 10-7). -/
def brlEffMirrorGbs : Fld := ⟨.brl, 1, 0x150, 0x4, 15, 0, .ro, 0, 65535⟩
/-- BRL.EFF_HOL.GBS (spec/10, Table 10-7). -/
def brlEffHolGbs : Fld := ⟨.brl, 1, 0x154, 0x4, 15, 0, .ro, 0, 65535⟩
/-- BRL.EFF_CNT.GBS (spec/10, Table 10-7). -/
def brlEffCntGbs : Fld := ⟨.brl, 1, 0x158, 0x4, 15, 0, .ro, 0, 65535⟩
/-- BRL.CH_SUM.STATE (spec/10, Table 10-8). -/
def brlChSumState : Fld := ⟨.brl, 3, 0x100, 0x4, 31, 0, .ro, 0, 4294967295⟩
/-- HCH.CH_CTL.IN_SERVICE (spec/10, Table 10-9). -/
def hchChCtlInService : Fld := ⟨.hch, 0, 0x100, 0x4, 1, 1, .rw, 0, 1⟩
/-- HCH.CH_CTL.CONTAIN (spec/10, Table 10-9). -/
def hchChCtlContain : Fld := ⟨.hch, 0, 0x100, 0x4, 0, 0, .ky, 0, 1⟩
/-- HCH.CH_STAT.TEMP (spec/10, Table 10-9). -/
def hchChStatTemp : Fld := ⟨.hch, 0, 0x104, 0x4, 31, 24, .ro, 0, 255⟩
/-- HCH.CH_STAT.OUT1 (spec/10, Table 10-9). -/
def hchChStatOut1 : Fld := ⟨.hch, 0, 0x104, 0x4, 22, 16, .ro, 0, 127⟩
/-- HCH.CH_STAT.OUT0 (spec/10, Table 10-9). -/
def hchChStatOut0 : Fld := ⟨.hch, 0, 0x104, 0x4, 14, 8, .ro, 0, 127⟩
/-- HCH.CH_STAT.INORD1 (spec/10, Table 10-9). -/
def hchChStatInord1 : Fld := ⟨.hch, 0, 0x104, 0x4, 5, 5, .ro, 0, 1⟩
/-- HCH.CH_STAT.INORD0 (spec/10, Table 10-9). -/
def hchChStatInord0 : Fld := ⟨.hch, 0, 0x104, 0x4, 4, 4, .ro, 0, 1⟩
/-- HCH.CH_STAT.STATE (spec/10, Table 10-9). -/
def hchChStatState : Fld := ⟨.hch, 0, 0x104, 0x4, 3, 0, .ro, 0, 15⟩
/-- HCH.LOG_STAT.LOST (spec/10, Table 10-9). -/
def hchLogStatLost : Fld := ⟨.hch, 0, 0x108, 0x4, 31, 16, .ro, 0, 65535⟩
/-- HCH.LOG_STAT.COUNT (spec/10, Table 10-9). -/
def hchLogStatCount : Fld := ⟨.hch, 0, 0x108, 0x4, 4, 0, .ro, 0, 31⟩
/-- HCH.LOG_CLR.CLEAR (spec/10, Table 10-9). -/
def hchLogClrClear : Fld := ⟨.hch, 0, 0x10c, 0x4, 0, 0, .wo, 0, 1⟩
/-- HCH.TRN_CTL.GO (spec/10, Table 10-10). -/
def hchTrnCtlGo : Fld := ⟨.hch, 2, 0x100, 0x4, 31, 31, .wo, 0, 1⟩
/-- HCH.TRN_CTL.PERIODIC (spec/10, Table 10-10). -/
def hchTrnCtlPeriodic : Fld := ⟨.hch, 2, 0x100, 0x4, 30, 30, .rw, 0, 1⟩
/-- HCH.TRN_CTL.PC (spec/10, Table 10-10). -/
def hchTrnCtlPc : Fld := ⟨.hch, 2, 0x100, 0x4, 29, 29, .rw, 0, 1⟩
/-- HCH.TRN_CTL.BURSTS_K (spec/10, Table 10-10). -/
def hchTrnCtlBurstsK : Fld := ⟨.hch, 2, 0x100, 0x4, 23, 16, .rw, 1, 255⟩
/-- HCH.TRN_CTL.USER_CNT (spec/10, Table 10-10). -/
def hchTrnCtlUserCnt : Fld := ⟨.hch, 2, 0x100, 0x4, 15, 10, .rw, 0, 63⟩
/-- HCH.TRN_CTL.USER_IDX (spec/10, Table 10-10). -/
def hchTrnCtlUserIdx : Fld := ⟨.hch, 2, 0x100, 0x4, 9, 4, .rw, 0, 63⟩
/-- HCH.TRN_CTL.PATTERN (spec/10, Table 10-10). -/
def hchTrnCtlPattern : Fld := ⟨.hch, 2, 0x100, 0x4, 3, 2, .rw, 0, 2⟩
/-- HCH.TRN_CTL.TARGET (spec/10, Table 10-10). -/
def hchTrnCtlTarget : Fld := ⟨.hch, 2, 0x100, 0x4, 1, 0, .rw, 0, 2⟩
/-- HCH.TRN_STEP.VREF (spec/10, Table 10-10). -/
def hchTrnStepVref : Fld := ⟨.hch, 2, 0x104, 0x4, 22, 16, .rw, 0, 127⟩
/-- HCH.TRN_STEP.TAP (spec/10, Table 10-10). -/
def hchTrnStepTap : Fld := ⟨.hch, 2, 0x104, 0x4, 8, 0, .rw, 0, 511⟩
/-- HCH.TRN_STAT.TIMEOUT (spec/10, Table 10-10). -/
def hchTrnStatTimeout : Fld := ⟨.hch, 2, 0x108, 0x4, 2, 2, .ro, 0, 1⟩
/-- HCH.TRN_STAT.BUSY (spec/10, Table 10-10). -/
def hchTrnStatBusy : Fld := ⟨.hch, 2, 0x108, 0x4, 1, 1, .ro, 0, 1⟩
/-- HCH.TRN_STAT.DONE (spec/10, Table 10-10). -/
def hchTrnStatDone : Fld := ⟨.hch, 2, 0x108, 0x4, 0, 0, .ro, 0, 1⟩
/-- HCH.TRN_TMO_US.US (spec/10, Table 10-10). -/
def hchTrnTmoUsUs : Fld := ⟨.hch, 2, 0x10c, 0x4, 15, 0, .rw, 1, 65535⟩
/-- EGS.PORT_CFG.HOLD_MS (spec/11, Table 11-2). -/
def egsPortCfgHoldMs : Fld := ⟨.egs, 0, 0x100, 0x10, 31, 16, .sh, 1, 65535⟩
/-- EGS.PORT_CFG.REC_PROT (spec/11, Table 11-2). -/
def egsPortCfgRecProt : Fld := ⟨.egs, 0, 0x100, 0x10, 2, 2, .sh, 0, 1⟩
/-- EGS.PORT_CFG.MODE (spec/11, Table 11-2). -/
def egsPortCfgMode : Fld := ⟨.egs, 0, 0x100, 0x10, 1, 0, .sh, 0, 2⟩
/-- EGS.PORT_SHP_RATE.RATE_MBPS (spec/11, Table 11-2). -/
def egsPortShpRateRateMbps : Fld := ⟨.egs, 0, 0x104, 0x10, 20, 0, .sh, 0, 1600000⟩
/-- EGS.PORT_SHP_BURST.OVERHEAD (spec/11, Table 11-2). -/
def egsPortShpBurstOverhead : Fld := ⟨.egs, 0, 0x108, 0x10, 31, 24, .sh, 0, 255⟩
/-- EGS.PORT_SHP_BURST.BURST (spec/11, Table 11-2). -/
def egsPortShpBurstBurst : Fld := ⟨.egs, 0, 0x108, 0x10, 23, 0, .sh, 64, 16777215⟩
/-- EGS.PORT_STAT.BLOCK_NS (spec/11, Table 11-2). -/
def egsPortStatBlockNs : Fld := ⟨.egs, 0, 0x180, 0x4, 31, 16, .ro, 0, 65535⟩
/-- EGS.PORT_STAT.BLOCK_VIOL (spec/11, Table 11-2). -/
def egsPortStatBlockViol : Fld := ⟨.egs, 0, 0x180, 0x4, 3, 3, .ro, 0, 1⟩
/-- EGS.PORT_STAT.GATE_ACT (spec/11, Table 11-2). -/
def egsPortStatGateAct : Fld := ⟨.egs, 0, 0x180, 0x4, 2, 2, .ro, 0, 1⟩
/-- EGS.PORT_STAT.REC (spec/11, Table 11-2). -/
def egsPortStatRec : Fld := ⟨.egs, 0, 0x180, 0x4, 1, 1, .ro, 0, 1⟩
/-- EGS.PORT_STAT.HIER (spec/11, Table 11-2). -/
def egsPortStatHier : Fld := ⟨.egs, 0, 0x180, 0x4, 0, 0, .ro, 0, 1⟩
/-- EGS.SAMPLE_CTL.INTERVAL_US (spec/11, Table 11-2). -/
def egsSampleCtlIntervalUs : Fld := ⟨.egs, 0, 0x1c0, 0x4, 15, 0, .sh, 0, 65535⟩
/-- EGS.GATE_CTL.EN (spec/11, Table 11-3). -/
def egsGateCtlEn : Fld := ⟨.egs, 1, 0x100, 0x20, 31, 31, .sh, 0, 1⟩
/-- EGS.GATE_CTL.ENTRIES (spec/11, Table 11-3). -/
def egsGateCtlEntries : Fld := ⟨.egs, 1, 0x100, 0x20, 24, 16, .sh, 0, 511⟩
/-- EGS.GATE_CYCLE.CYCLE_NS (spec/11, Table 11-3). -/
def egsGateCycleCycleNs : Fld := ⟨.egs, 1, 0x104, 0x20, 29, 0, .sh, 0, 1073741823⟩
/-- EGS.GATE_BASE_SEC_LO.SEC (spec/11, Table 11-3). -/
def egsGateBaseSecLoSec : Fld := ⟨.egs, 1, 0x108, 0x20, 31, 0, .sh, 0, 4294967295⟩
/-- EGS.GATE_BASE_SEC_HI.SEC (spec/11, Table 11-3). -/
def egsGateBaseSecHiSec : Fld := ⟨.egs, 1, 0x10c, 0x20, 15, 0, .sh, 0, 65535⟩
/-- EGS.GATE_BASE_NS.NS (spec/11, Table 11-3). -/
def egsGateBaseNsNs : Fld := ⟨.egs, 1, 0x110, 0x20, 29, 0, .sh, 0, 999999999⟩
/-- EGS.GATE_POS.POS (spec/11, Table 11-3). -/
def egsGatePosPos : Fld := ⟨.egs, 1, 0x114, 0x20, 7, 0, .ro, 0, 255⟩
/-- TIM.CTL.TOD_RX_EN (spec/12, Table 12-4). -/
def timCtlTodRxEn : Fld := ⟨.tim, 0, 0x100, 0x4, 3, 3, .rw, 0, 1⟩
/-- TIM.CTL.TOD_TX_EN (spec/12, Table 12-4). -/
def timCtlTodTxEn : Fld := ⟨.tim, 0, 0x100, 0x4, 2, 2, .rw, 0, 1⟩
/-- TIM.CTL.PPS_IN_EN (spec/12, Table 12-4). -/
def timCtlPpsInEn : Fld := ⟨.tim, 0, 0x100, 0x4, 1, 1, .rw, 0, 1⟩
/-- TIM.CTL.PPS_OUT_EN (spec/12, Table 12-4). -/
def timCtlPpsOutEn : Fld := ⟨.tim, 0, 0x100, 0x4, 0, 0, .rw, 0, 1⟩
/-- TIM.LOAD_SEC_LO.SEC (spec/12, Table 12-4). -/
def timLoadSecLoSec : Fld := ⟨.tim, 0, 0x104, 0x4, 31, 0, .rw, 0, 4294967295⟩
/-- TIM.LOAD_SEC_HI.SEC (spec/12, Table 12-4). -/
def timLoadSecHiSec : Fld := ⟨.tim, 0, 0x108, 0x4, 15, 0, .rw, 0, 65535⟩
/-- TIM.LOAD_NS.NS (spec/12, Table 12-4). -/
def timLoadNsNs : Fld := ⟨.tim, 0, 0x10c, 0x4, 29, 0, .rw, 0, 999999999⟩
/-- TIM.LOAD_CTL.CANCEL (spec/12, Table 12-4). -/
def timLoadCtlCancel : Fld := ⟨.tim, 0, 0x110, 0x4, 2, 2, .wo, 0, 1⟩
/-- TIM.LOAD_CTL.AT_PPS (spec/12, Table 12-4). -/
def timLoadCtlAtPps : Fld := ⟨.tim, 0, 0x110, 0x4, 1, 1, .rw, 0, 1⟩
/-- TIM.LOAD_CTL.GO (spec/12, Table 12-4). -/
def timLoadCtlGo : Fld := ⟨.tim, 0, 0x110, 0x4, 0, 0, .wo, 0, 1⟩
/-- TIM.STAT.LOAD_WAIT (spec/12, Table 12-4). -/
def timStatLoadWait : Fld := ⟨.tim, 0, 0x114, 0x4, 1, 1, .ro, 0, 1⟩
/-- TIM.STAT.LOAD_REFUSED (spec/12, Table 12-4). -/
def timStatLoadRefused : Fld := ⟨.tim, 0, 0x114, 0x4, 0, 0, .w1c, 0, 1⟩
/-- TIM.PPS_OUT_CFG.WIDTH_US (spec/12, Table 12-4). -/
def timPpsOutCfgWidthUs : Fld := ⟨.tim, 0, 0x120, 0x4, 18, 0, .rw, 1, 500000⟩
/-- TIM.PPS_OUT_OFS.OFS_NS (spec/12, Table 12-4). -/
def timPpsOutOfsOfsNs : Fld := ⟨.tim, 0, 0x124, 0x4, 31, 0, .rw, 0, 4294967295⟩
/-- TIM.TOD_CFG.CLASS (spec/12, Table 12-4). -/
def timTodCfgClass : Fld := ⟨.tim, 0, 0x128, 0x4, 31, 24, .rw, 0, 255⟩
/-- TIM.TOD_CFG.UTC_OFS (spec/12, Table 12-4). -/
def timTodCfgUtcOfs : Fld := ⟨.tim, 0, 0x128, 0x4, 23, 8, .rw, 0, 65535⟩
/-- TIM.TOD_CFG.FLAGS (spec/12, Table 12-4). -/
def timTodCfgFlags : Fld := ⟨.tim, 0, 0x128, 0x4, 7, 4, .rw, 0, 15⟩
/-- TIM.TOD_CFG.BAUD (spec/12, Table 12-4). -/
def timTodCfgBaud : Fld := ⟨.tim, 0, 0x128, 0x4, 1, 0, .rw, 0, 2⟩
/-- TIM.SYNCE_CFG.EN (spec/12, Table 12-4). -/
def timSynceCfgEn : Fld := ⟨.tim, 0, 0x130, 0x4, 31, 31, .rw, 0, 1⟩
/-- TIM.SYNCE_CFG.SQUELCH_EN (spec/12, Table 12-4). -/
def timSynceCfgSquelchEn : Fld := ⟨.tim, 0, 0x130, 0x4, 30, 30, .rw, 0, 1⟩
/-- TIM.SYNCE_CFG.DIV (spec/12, Table 12-4). -/
def timSynceCfgDiv : Fld := ⟨.tim, 0, 0x130, 0x4, 24, 9, .rw, 16, 65535⟩
/-- TIM.SYNCE_CFG.LANE (spec/12, Table 12-4). -/
def timSynceCfgLane : Fld := ⟨.tim, 0, 0x130, 0x4, 8, 0, .rw, 0, 383⟩
/-- TIM.PORT_TS_ADJ.TX_ADJ_PS (spec/12, Table 12-5). -/
def timPortTsAdjTxAdjPs : Fld := ⟨.tim, 1, 0x100, 0x4, 31, 16, .rw, 0, 65535⟩
/-- TIM.PORT_TS_ADJ.RX_ADJ_PS (spec/12, Table 12-5). -/
def timPortTsAdjRxAdjPs : Fld := ⟨.tim, 1, 0x100, 0x4, 15, 0, .rw, 0, 65535⟩
/-- TEL.HIST_CTL.WIN_MS (spec/12, Table 12-6). -/
def telHistCtlWinMs : Fld := ⟨.tel, 0, 0x100, 0x4, 15, 0, .sh, 0, 60000⟩
/-- TEL.HIST_PORTS_LO.PORTS (spec/12, Table 12-6). -/
def telHistPortsLoPorts : Fld := ⟨.tel, 0, 0x104, 0x4, 31, 0, .sh, 0, 4294967295⟩
/-- TEL.HIST_PORTS_HI.PORTS (spec/12, Table 12-6). -/
def telHistPortsHiPorts : Fld := ⟨.tel, 0, 0x108, 0x4, 15, 0, .sh, 0, 65535⟩
/-- TEL.SNAP_CTL.SNAP_MS (spec/12, Table 12-6). -/
def telSnapCtlSnapMs : Fld := ⟨.tel, 0, 0x10c, 0x4, 15, 0, .sh, 0, 65535⟩
/-- TEL.QUAL_CTL.QUAL_MS (spec/12, Table 12-6). -/
def telQualCtlQualMs : Fld := ⟨.tel, 0, 0x110, 0x4, 15, 0, .sh, 0, 65535⟩
/-- TEL.PCARD_CTL.PCARD_LOG2 (spec/12, Table 12-6). -/
def telPcardCtlPcardLog2 : Fld := ⟨.tel, 0, 0x114, 0x4, 3, 0, .sh, 0, 15⟩
/-- TEL.PCARD_PORTS_LO.PORTS (spec/12, Table 12-6). -/
def telPcardPortsLoPorts : Fld := ⟨.tel, 0, 0x118, 0x4, 31, 0, .sh, 0, 4294967295⟩
/-- TEL.PCARD_PORTS_HI.PORTS (spec/12, Table 12-6). -/
def telPcardPortsHiPorts : Fld := ⟨.tel, 0, 0x11c, 0x4, 15, 0, .sh, 0, 65535⟩
/-- TEL.IPFIX_PEN.PEN (spec/12, Table 12-6). -/
def telIpfixPenPen : Fld := ⟨.tel, 0, 0x120, 0x4, 31, 0, .sh, 0, 4294967295⟩
/-- TEL.IPFIX_DOMAIN.DOMAIN (spec/12, Table 12-6). -/
def telIpfixDomainDomain : Fld := ⟨.tel, 0, 0x124, 0x4, 31, 0, .sh, 0, 4294967295⟩
/-- TEL.RING_BASE.BASE (spec/12, Table 12-7). -/
def telRingBaseBase : Fld := ⟨.tel, 1, 0x100, 0x4, 21, 7, .sh, 0, 32767⟩
/-- TEL.RING_CTL.EN (spec/12, Table 12-7). -/
def telRingCtlEn : Fld := ⟨.tel, 1, 0x104, 0x4, 31, 31, .sh, 0, 1⟩
/-- TEL.RING_CTL.SIZE_LOG2 (spec/12, Table 12-7). -/
def telRingCtlSizeLog2 : Fld := ⟨.tel, 1, 0x104, 0x4, 19, 16, .sh, 6, 13⟩
/-- TEL.RING_CTL.NOTIFY_LOG2 (spec/12, Table 12-7). -/
def telRingCtlNotifyLog2 : Fld := ⟨.tel, 1, 0x104, 0x4, 11, 8, .sh, 0, 15⟩
/-- TEL.RING_TAIL.TAIL (spec/12, Table 12-7). -/
def telRingTailTail : Fld := ⟨.tel, 1, 0x108, 0x4, 12, 0, .rw, 0, 8191⟩
/-- TEL.RING_HEAD.HEAD (spec/12, Table 12-7). -/
def telRingHeadHead : Fld := ⟨.tel, 1, 0x10c, 0x4, 12, 0, .ro, 0, 8191⟩
/-- HOLC.THR_STAT.GEN (spec/13, Table 13-11). -/
def holcThrStatGen : Fld := ⟨.holc, 0, 0x100, 0x4, 23, 16, .ro, 0, 255⟩
/-- HOLC.THR_STAT.LINE (spec/13, Table 13-11). -/
def holcThrStatLine : Fld := ⟨.holc, 0, 0x100, 0x4, 15, 8, .ro, 0, 255⟩
/-- HOLC.THR_STAT.U (spec/13, Table 13-11). -/
def holcThrStatU : Fld := ⟨.holc, 0, 0x100, 0x4, 3, 3, .ro, 0, 1⟩
/-- HOLC.THR_STAT.STATE (spec/13, Table 13-11). -/
def holcThrStatState : Fld := ⟨.holc, 0, 0x100, 0x4, 2, 0, .ro, 0, 7⟩
/-- HOLC.PERF_CTL.FREEZE (spec/13, Table 13-11). -/
def holcPerfCtlFreeze : Fld := ⟨.holc, 0, 0x120, 0x4, 1, 1, .rw, 0, 1⟩
/-- HOLC.PERF_CTL.USER_READ (spec/13, Table 13-11). -/
def holcPerfCtlUserRead : Fld := ⟨.holc, 0, 0x120, 0x4, 0, 0, .rw, 0, 1⟩
/-- HOLC.PERF_SEL.EN (spec/13, Table 13-11). -/
def holcPerfSelEn : Fld := ⟨.holc, 0, 0x140, 0x4, 31, 31, .rw, 0, 1⟩
/-- HOLC.PERF_SEL.U (spec/13, Table 13-11). -/
def holcPerfSelU : Fld := ⟨.holc, 0, 0x140, 0x4, 17, 17, .rw, 0, 1⟩
/-- HOLC.PERF_SEL.M (spec/13, Table 13-11). -/
def holcPerfSelM : Fld := ⟨.holc, 0, 0x140, 0x4, 16, 16, .rw, 0, 1⟩
/-- HOLC.PERF_SEL.THREADS (spec/13, Table 13-11). -/
def holcPerfSelThreads : Fld := ⟨.holc, 0, 0x140, 0x4, 15, 8, .rw, 0, 255⟩
/-- HOLC.PERF_SEL.EVENT (spec/13, Table 13-11). -/
def holcPerfSelEvent : Fld := ⟨.holc, 0, 0x140, 0x4, 6, 0, .rw, 0, 33⟩
/-- HOLC.SAMP_CTL.EN (spec/13, Table 13-11). -/
def holcSampCtlEn : Fld := ⟨.holc, 0, 0x160, 0x4, 31, 31, .rw, 0, 1⟩
/-- HOLC.SAMP_CTL.SRC (spec/13, Table 13-11). -/
def holcSampCtlSrc : Fld := ⟨.holc, 0, 0x160, 0x4, 30, 30, .rw, 0, 1⟩
/-- HOLC.SAMP_CTL.CNT (spec/13, Table 13-11). -/
def holcSampCtlCnt : Fld := ⟨.holc, 0, 0x160, 0x4, 28, 26, .rw, 0, 7⟩
/-- HOLC.SAMP_CTL.PERIOD (spec/13, Table 13-11). -/
def holcSampCtlPeriod : Fld := ⟨.holc, 0, 0x160, 0x4, 23, 0, .rw, 0, 16777215⟩
/-- HOLC.SAMP_THREADS.THREADS (spec/13, Table 13-11). -/
def holcSampThreadsThreads : Fld := ⟨.holc, 0, 0x164, 0x4, 7, 0, .rw, 0, 255⟩
/-- HOLC.SAMP_BASE.BASE (spec/13, Table 13-11). -/
def holcSampBaseBase : Fld := ⟨.holc, 0, 0x168, 0x4, 21, 5, .rw, 0, 131071⟩
/-- HOLC.SAMP_RCTL.SIZE_LOG2 (spec/13, Table 13-11). -/
def holcSampRctlSizeLog2 : Fld := ⟨.holc, 0, 0x16c, 0x4, 19, 16, .rw, 4, 15⟩
/-- HOLC.SAMP_RCTL.NOTIFY_LOG2 (spec/13, Table 13-11). -/
def holcSampRctlNotifyLog2 : Fld := ⟨.holc, 0, 0x16c, 0x4, 11, 8, .rw, 0, 15⟩
/-- HOLC.SAMP_PTR.TAIL (spec/13, Table 13-11). -/
def holcSampPtrTail : Fld := ⟨.holc, 0, 0x170, 0x4, 31, 16, .rw, 0, 65535⟩
/-- HOLC.SAMP_PTR.HEAD (spec/13, Table 13-11). -/
def holcSampPtrHead : Fld := ⟨.holc, 0, 0x170, 0x4, 15, 0, .ro, 0, 65535⟩
/-- HOLC.MSIP.MSIP (spec/13, Table 13-11). -/
def holcMsipMsip : Fld := ⟨.holc, 0, 0x180, 0x4, 7, 0, .rw, 0, 255⟩
/-- HOLX.CL_CTL.RESTART (spec/13, Table 13-12). -/
def holxClCtlRestart : Fld := ⟨.holx, 0, 0x100, 0x4, 0, 0, .wk, 0, 1⟩
/-- HOLX.CL_STAT.IDLE (spec/13, Table 13-12). -/
def holxClStatIdle : Fld := ⟨.holx, 0, 0x104, 0x4, 23, 16, .ro, 0, 255⟩
/-- HOLX.CL_STAT.RESTARTING (spec/13, Table 13-12). -/
def holxClStatRestarting : Fld := ⟨.holx, 0, 0x104, 0x4, 0, 0, .ro, 0, 1⟩
/-- HOLX.EV_SIG.LINE (spec/13, Table 13-12). -/
def holxEvSigLine : Fld := ⟨.holx, 0, 0x108, 0x4, 7, 0, .wo, 0, 255⟩
/-- HOLX.AGENT_MASK.MASK (spec/13, Table 13-12). -/
def holxAgentMaskMask : Fld := ⟨.holx, 0, 0x110, 0x4, 31, 0, .ky, 0, 4294967295⟩
/-- HOLX.LRN_BASE.BASE (spec/13, Table 13-12). -/
def holxLrnBaseBase : Fld := ⟨.holx, 0, 0x120, 0x4, 21, 5, .rw, 0, 131071⟩
/-- HOLX.LRN_CTL.EN (spec/13, Table 13-12). -/
def holxLrnCtlEn : Fld := ⟨.holx, 0, 0x124, 0x4, 31, 31, .rw, 0, 1⟩
/-- HOLX.LRN_CTL.SIZE_LOG2 (spec/13, Table 13-12). -/
def holxLrnCtlSizeLog2 : Fld := ⟨.holx, 0, 0x124, 0x4, 19, 16, .rw, 4, 15⟩
/-- HOLX.LRN_CTL.NOTIFY_LOG2 (spec/13, Table 13-12). -/
def holxLrnCtlNotifyLog2 : Fld := ⟨.holx, 0, 0x124, 0x4, 11, 8, .rw, 0, 15⟩
/-- HOLX.LRN_PTR.TAIL (spec/13, Table 13-12). -/
def holxLrnPtrTail : Fld := ⟨.holx, 0, 0x128, 0x4, 31, 16, .rw, 0, 65535⟩
/-- HOLX.LRN_PTR.HEAD (spec/13, Table 13-12). -/
def holxLrnPtrHead : Fld := ⟨.holx, 0, 0x128, 0x4, 15, 0, .ro, 0, 65535⟩
/-- HOLX.TMR.EN (spec/13, Table 13-12). -/
def holxTmrEn : Fld := ⟨.holx, 0, 0x140, 0x4, 31, 31, .rw, 0, 1⟩
/-- HOLX.TMR.ONESHOT (spec/13, Table 13-12). -/
def holxTmrOneshot : Fld := ⟨.holx, 0, 0x140, 0x4, 30, 30, .rw, 0, 1⟩
/-- HOLX.TMR.PERIOD_US (spec/13, Table 13-12). -/
def holxTmrPeriodUs : Fld := ⟨.holx, 0, 0x140, 0x4, 23, 0, .rw, 0, 16777215⟩
/-- HOLX.PQ_BASE.ADDR (spec/13, Table 13-12). -/
def holxPqBaseAddr : Fld := ⟨.holx, 0, 0x200, 0x10, 28, 0, .rw, 0, 536870911⟩
/-- HOLX.PQ_CTL.EN (spec/13, Table 13-12). -/
def holxPqCtlEn : Fld := ⟨.holx, 0, 0x204, 0x10, 31, 31, .rw, 0, 1⟩
/-- HOLX.PQ_CTL.KV (spec/13, Table 13-12). -/
def holxPqCtlKv : Fld := ⟨.holx, 0, 0x204, 0x10, 30, 30, .rw, 0, 1⟩
/-- HOLX.PQ_CTL.SLOT_LOG2 (spec/13, Table 13-12). -/
def holxPqCtlSlotLog2 : Fld := ⟨.holx, 0, 0x204, 0x10, 27, 24, .rw, 8, 14⟩
/-- HOLX.PQ_CTL.SIZE_LOG2 (spec/13, Table 13-12). -/
def holxPqCtlSizeLog2 : Fld := ⟨.holx, 0, 0x204, 0x10, 19, 16, .rw, 4, 15⟩
/-- HOLX.PQ_CTL.NOTIFY_LOG2 (spec/13, Table 13-12). -/
def holxPqCtlNotifyLog2 : Fld := ⟨.holx, 0, 0x204, 0x10, 11, 8, .rw, 0, 15⟩
/-- HOLX.PQ_PTR.TAIL (spec/13, Table 13-12). -/
def holxPqPtrTail : Fld := ⟨.holx, 0, 0x208, 0x10, 31, 16, .rw, 0, 65535⟩
/-- HOLX.PQ_PTR.HEAD (spec/13, Table 13-12). -/
def holxPqPtrHead : Fld := ⟨.holx, 0, 0x208, 0x10, 15, 0, .ro, 0, 65535⟩
/-- HOLX.PQ_RATE.KPPS (spec/13, Table 13-12). -/
def holxPqRateKpps : Fld := ⟨.holx, 0, 0x20c, 0x10, 31, 14, .rw, 0, 150000⟩
/-- HOLX.PQ_RATE.RATE (spec/13, Table 13-12). -/
def holxPqRateRate : Fld := ⟨.holx, 0, 0x20c, 0x10, 13, 0, .rw, 0, 2000⟩
/-- HOLX.IQ_BASE.ADDR (spec/13, Table 13-12). -/
def holxIqBaseAddr : Fld := ⟨.holx, 0, 0x600, 0x10, 28, 0, .rw, 0, 536870911⟩
/-- HOLX.IQ_CTL.EN (spec/13, Table 13-12). -/
def holxIqCtlEn : Fld := ⟨.holx, 0, 0x604, 0x10, 31, 31, .rw, 0, 1⟩
/-- HOLX.IQ_CTL.SIZE_LOG2 (spec/13, Table 13-12). -/
def holxIqCtlSizeLog2 : Fld := ⟨.holx, 0, 0x604, 0x10, 19, 16, .rw, 4, 15⟩
/-- HOLX.IQ_CTL.SLICE (spec/13, Table 13-12). -/
def holxIqCtlSlice : Fld := ⟨.holx, 0, 0x604, 0x10, 10, 8, .rw, 0, 7⟩
/-- HOLX.IQ_CTL.WEIGHT (spec/13, Table 13-12). -/
def holxIqCtlWeight : Fld := ⟨.holx, 0, 0x604, 0x10, 3, 0, .rw, 1, 15⟩
/-- HOLX.IQ_PTR.TAIL (spec/13, Table 13-12). -/
def holxIqPtrTail : Fld := ⟨.holx, 0, 0x608, 0x10, 31, 16, .rw, 0, 65535⟩
/-- HOLX.IQ_PTR.HEAD (spec/13, Table 13-12). -/
def holxIqPtrHead : Fld := ⟨.holx, 0, 0x608, 0x10, 15, 0, .ro, 0, 65535⟩
/-- DMAC.CH_CFG.STROBE_MASK (spec/14, Table 14-5). -/
def dmacChCfgStrobeMask : Fld := ⟨.dmac, 0, 0x100, 0x4, 31, 16, .rw, 0, 65535⟩
/-- DMAC.CH_CFG.CHAIN_CH (spec/14, Table 14-5). -/
def dmacChCfgChainCh : Fld := ⟨.dmac, 0, 0x100, 0x4, 15, 11, .rw, 0, 31⟩
/-- DMAC.CH_CFG.SUPPRESS_BAD (spec/14, Table 14-5). -/
def dmacChCfgSuppressBad : Fld := ⟨.dmac, 0, 0x100, 0x4, 10, 10, .rw, 0, 1⟩
/-- DMAC.CH_CFG.PULSE (spec/14, Table 14-5). -/
def dmacChCfgPulse : Fld := ⟨.dmac, 0, 0x100, 0x4, 9, 8, .rw, 0, 3⟩
/-- DMAC.CH_CFG.DESC_SPACE (spec/14, Table 14-5). -/
def dmacChCfgDescSpace : Fld := ⟨.dmac, 0, 0x100, 0x4, 7, 7, .rw, 0, 1⟩
/-- DMAC.CH_CFG.RETRY_MAX (spec/14, Table 14-5). -/
def dmacChCfgRetryMax : Fld := ⟨.dmac, 0, 0x100, 0x4, 6, 3, .rw, 1, 15⟩
/-- DMAC.CH_CFG.MODE (spec/14, Table 14-5). -/
def dmacChCfgMode : Fld := ⟨.dmac, 0, 0x100, 0x4, 2, 2, .rw, 0, 1⟩
/-- DMAC.CH_CFG.PRIO (spec/14, Table 14-5). -/
def dmacChCfgPrio : Fld := ⟨.dmac, 0, 0x100, 0x4, 1, 0, .rw, 0, 3⟩
/-- DMAC.CH_TMO.TMO_US (spec/14, Table 14-5). -/
def dmacChTmoTmoUs : Fld := ⟨.dmac, 0, 0x104, 0x4, 15, 0, .rw, 1, 64000⟩
/-- DMAC.CH_DESC_LO.ADDR (spec/14, Table 14-5). -/
def dmacChDescLoAddr : Fld := ⟨.dmac, 0, 0x108, 0x4, 31, 5, .rw, 0, 134217727⟩
/-- DMAC.CH_DESC_HI.ADDR (spec/14, Table 14-5). -/
def dmacChDescHiAddr : Fld := ⟨.dmac, 0, 0x10c, 0x4, 31, 0, .rw, 0, 4294967295⟩
/-- DMAC.CH_CTL.GEN (spec/14, Table 14-5). -/
def dmacChCtlGen : Fld := ⟨.dmac, 0, 0x110, 0x4, 15, 8, .rw, 0, 255⟩
/-- DMAC.CH_CTL.STOP (spec/14, Table 14-5). -/
def dmacChCtlStop : Fld := ⟨.dmac, 0, 0x110, 0x4, 1, 1, .wo, 0, 1⟩
/-- DMAC.CH_CTL.GO (spec/14, Table 14-5). -/
def dmacChCtlGo : Fld := ⟨.dmac, 0, 0x110, 0x4, 0, 0, .wo, 0, 1⟩
/-- DMAC.CH_STAT.PENDING (spec/14, Table 14-5). -/
def dmacChStatPending : Fld := ⟨.dmac, 0, 0x114, 0x4, 16, 16, .ro, 0, 1⟩
/-- DMAC.CH_STAT.HALT (spec/14, Table 14-5). -/
def dmacChStatHalt : Fld := ⟨.dmac, 0, 0x114, 0x4, 11, 8, .ro, 0, 15⟩
/-- DMAC.CH_STAT.STATE (spec/14, Table 14-5). -/
def dmacChStatState : Fld := ⟨.dmac, 0, 0x114, 0x4, 2, 0, .ro, 0, 7⟩
/-- DMAC.CUR_INDEX.N (spec/14, Table 14-5). -/
def dmacCurIndexN : Fld := ⟨.dmac, 0, 0x118, 0x4, 16, 0, .ro, 0, 131071⟩
/-- DMAC.BAD_COUNT.N (spec/14, Table 14-5). -/
def dmacBadCountN : Fld := ⟨.dmac, 0, 0x11c, 0x4, 15, 0, .ro, 0, 65535⟩
/-- DMAC.CUR_DESC_LO.ADDR (spec/14, Table 14-5). -/
def dmacCurDescLoAddr : Fld := ⟨.dmac, 0, 0x120, 0x4, 31, 0, .ro, 0, 4294967295⟩
/-- DMAC.CUR_DESC_HI.ADDR (spec/14, Table 14-5). -/
def dmacCurDescHiAddr : Fld := ⟨.dmac, 0, 0x124, 0x4, 31, 0, .ro, 0, 4294967295⟩
/-- DMAX.CMN_STAT.CFG_REFUSED (spec/14, Table 14-6). -/
def dmaxCmnStatCfgRefused : Fld := ⟨.dmax, 0, 0x100, 0x4, 0, 0, .w1c, 0, 1⟩
/-- DMAX.REPLAY_NS.NS (spec/14, Table 14-6). -/
def dmaxReplayNsNs : Fld := ⟨.dmax, 0, 0x104, 0x4, 31, 0, .ro, 0, 4294967295⟩
/-- DMAX.TAGS_FREE.N (spec/14, Table 14-6). -/
def dmaxTagsFreeN : Fld := ⟨.dmax, 0, 0x108, 0x4, 9, 0, .ro, 0, 1023⟩
/-- PRN.CFG.EN (spec/15, Table 15-6). -/
def prnCfgEn : Fld := ⟨.prn, 0, 0x100, 0x4, 31, 31, .sh, 0, 1⟩
/-- PRN.CFG.EPOCH_EN (spec/15, Table 15-6). -/
def prnCfgEpochEn : Fld := ⟨.prn, 0, 0x100, 0x4, 30, 30, .sh, 0, 1⟩
/-- PRN.CFG.TSTROBE (spec/15, Table 15-6). -/
def prnCfgTstrobe : Fld := ⟨.prn, 0, 0x100, 0x4, 29, 28, .sh, 0, 3⟩
/-- PRN.CFG.IQ (spec/15, Table 15-6). -/
def prnCfgIq : Fld := ⟨.prn, 0, 0x100, 0x4, 21, 16, .sh, 0, 63⟩
/-- PRN.CFG.CHIP_ID (spec/15, Table 15-6). -/
def prnCfgChipId : Fld := ⟨.prn, 0, 0x100, 0x4, 15, 0, .sh, 0, 65535⟩
/-- PRN.HELLO.HELLO_US (spec/15, Table 15-6). -/
def prnHelloHelloUs : Fld := ⟨.prn, 0, 0x104, 0x4, 31, 16, .sh, 10, 65535⟩
/-- PRN.HELLO.HELLO_MISS (spec/15, Table 15-6). -/
def prnHelloHelloMiss : Fld := ⟨.prn, 0, 0x104, 0x4, 3, 0, .sh, 2, 15⟩
/-- PRN.ACK_DELAY_NS.NS (spec/15, Table 15-6). -/
def prnAckDelayNsNs : Fld := ⟨.prn, 0, 0x108, 0x4, 15, 0, .sh, 1, 65535⟩
/-- PRN.PRIO_CFG0.DEADLINE_US (spec/15, Table 15-6). -/
def prnPrioCfg0DeadlineUs : Fld := ⟨.prn, 0, 0x110, 0x4, 23, 0, .sh, 1, 16777215⟩
/-- PRN.PRIO_CFG1.DEADLINE_US (spec/15, Table 15-6). -/
def prnPrioCfg1DeadlineUs : Fld := ⟨.prn, 0, 0x114, 0x4, 23, 0, .sh, 1, 16777215⟩
/-- PRN.PRIO_CFG2.DEADLINE_US (spec/15, Table 15-6). -/
def prnPrioCfg2DeadlineUs : Fld := ⟨.prn, 0, 0x118, 0x4, 23, 0, .sh, 1, 16777215⟩
/-- PRN.PRIO_CFG3.DEADLINE_US (spec/15, Table 15-6). -/
def prnPrioCfg3DeadlineUs : Fld := ⟨.prn, 0, 0x11c, 0x4, 23, 0, .sh, 1, 16777215⟩
/-- PRN.STAT.COMMIT_REFUSED (spec/15, Table 15-6). -/
def prnStatCommitRefused : Fld := ⟨.prn, 0, 0x120, 0x4, 0, 0, .w1c, 0, 1⟩
/-- PRN.ROUTE_STAT.UP (spec/15, Table 15-6). -/
def prnRouteStatUp : Fld := ⟨.prn, 0, 0x130, 0x4, 31, 0, .ro, 0, 4294967295⟩
/-- PRN.TXQ_BASE.ADDR (spec/15, Table 15-7). -/
def prnTxqBaseAddr : Fld := ⟨.prn, 1, 0x100, 0x10, 27, 0, .rw, 0, 268435455⟩
/-- PRN.TXQ_CTL.EN (spec/15, Table 15-7). -/
def prnTxqCtlEn : Fld := ⟨.prn, 1, 0x104, 0x10, 31, 31, .rw, 0, 1⟩
/-- PRN.TXQ_CTL.SIZE_LOG2 (spec/15, Table 15-7). -/
def prnTxqCtlSizeLog2 : Fld := ⟨.prn, 1, 0x104, 0x10, 19, 16, .rw, 4, 15⟩
/-- PRN.TXQ_PTR.TAIL (spec/15, Table 15-7). -/
def prnTxqPtrTail : Fld := ⟨.prn, 1, 0x108, 0x10, 31, 16, .rw, 0, 65535⟩
/-- PRN.TXQ_PTR.HEAD (spec/15, Table 15-7). -/
def prnTxqPtrHead : Fld := ⟨.prn, 1, 0x108, 0x10, 15, 0, .ro, 0, 65535⟩
/-- PRN.RXQ_BASE.ADDR (spec/15, Table 15-7). -/
def prnRxqBaseAddr : Fld := ⟨.prn, 2, 0x100, 0x10, 27, 0, .rw, 0, 268435455⟩
/-- PRN.RXQ_CTL.EN (spec/15, Table 15-7). -/
def prnRxqCtlEn : Fld := ⟨.prn, 2, 0x104, 0x10, 31, 31, .rw, 0, 1⟩
/-- PRN.RXQ_CTL.SLOT_LOG2 (spec/15, Table 15-7). -/
def prnRxqCtlSlotLog2 : Fld := ⟨.prn, 2, 0x104, 0x10, 27, 24, .rw, 7, 11⟩
/-- PRN.RXQ_CTL.SIZE_LOG2 (spec/15, Table 15-7). -/
def prnRxqCtlSizeLog2 : Fld := ⟨.prn, 2, 0x104, 0x10, 19, 16, .rw, 4, 15⟩
/-- PRN.RXQ_CTL.NOTIFY_LOG2 (spec/15, Table 15-7). -/
def prnRxqCtlNotifyLog2 : Fld := ⟨.prn, 2, 0x104, 0x10, 11, 8, .rw, 0, 15⟩
/-- PRN.RXQ_PTR.TAIL (spec/15, Table 15-7). -/
def prnRxqPtrTail : Fld := ⟨.prn, 2, 0x108, 0x10, 31, 16, .rw, 0, 65535⟩
/-- PRN.RXQ_PTR.HEAD (spec/15, Table 15-7). -/
def prnRxqPtrHead : Fld := ⟨.prn, 2, 0x108, 0x10, 15, 0, .ro, 0, 65535⟩
/-- BOOT.CTL.SRC (spec/17, Table 17-6). -/
def bootCtlSrc : Fld := ⟨.boot, 0, 0x100, 0x4, 1, 0, .rw, 0, 2⟩
/-- BOOT.STAT.RESTART (spec/17, Table 17-6). -/
def bootStatRestart : Fld := ⟨.boot, 0, 0x104, 0x4, 16, 16, .ro, 0, 1⟩
/-- BOOT.STAT.LIMIT_REASON (spec/17, Table 17-6). -/
def bootStatLimitReason : Fld := ⟨.boot, 0, 0x104, 0x4, 11, 8, .ro, 0, 15⟩
/-- BOOT.STAT.PHASE (spec/17, Table 17-6). -/
def bootStatPhase : Fld := ⟨.boot, 0, 0x104, 0x4, 3, 0, .ro, 0, 15⟩
/-- BOOT.IMG_STAT.APPLIED (spec/17, Table 17-6). -/
def bootImgStatApplied : Fld := ⟨.boot, 0, 0x110, 0x4, 8, 8, .ro, 0, 1⟩
/-- BOOT.IMG_STAT.COPY (spec/17, Table 17-6). -/
def bootImgStatCopy : Fld := ⟨.boot, 0, 0x110, 0x4, 5, 4, .ro, 0, 3⟩
/-- BOOT.IMG_STAT.RESULT (spec/17, Table 17-6). -/
def bootImgStatResult : Fld := ⟨.boot, 0, 0x110, 0x4, 3, 0, .ro, 0, 15⟩
/-- BOOT.IMG_VER.VERSION (spec/17, Table 17-6). -/
def bootImgVerVersion : Fld := ⟨.boot, 0, 0x120, 0x4, 31, 0, .ro, 0, 4294967295⟩
/-- BOOT.HOST_ADDR_LO.ADDR (spec/17, Table 17-6). -/
def bootHostAddrLoAddr : Fld := ⟨.boot, 0, 0x130, 0x4, 31, 6, .rw, 0, 67108863⟩
/-- BOOT.HOST_ADDR_HI.ADDR (spec/17, Table 17-6). -/
def bootHostAddrHiAddr : Fld := ⟨.boot, 0, 0x134, 0x4, 31, 0, .rw, 0, 4294967295⟩
/-- BOOT.HOST_LEN.LEN (spec/17, Table 17-6). -/
def bootHostLenLen : Fld := ⟨.boot, 0, 0x138, 0x4, 24, 0, .rw, 0, 33554431⟩
/-- BOOT.HOST_CTL.GO (spec/17, Table 17-6). -/
def bootHostCtlGo : Fld := ⟨.boot, 0, 0x13c, 0x4, 0, 0, .wo, 0, 1⟩
/-- BOOT.HOST_STAT.STATE (spec/17, Table 17-6). -/
def bootHostStatState : Fld := ⟨.boot, 0, 0x140, 0x4, 1, 0, .ro, 0, 3⟩
/-- OKR.STAT.PATCHED (spec/17, Table 17-7). -/
def okrStatPatched : Fld := ⟨.okr, 0, 0x100, 0x4, 31, 31, .ro, 0, 1⟩
/-- OKR.STAT.BASE_ONLY (spec/17, Table 17-7). -/
def okrStatBaseOnly : Fld := ⟨.okr, 0, 0x100, 0x4, 30, 30, .ro, 0, 1⟩
/-- OKR.STAT.HELD (spec/17, Table 17-7). -/
def okrStatHeld : Fld := ⟨.okr, 0, 0x100, 0x4, 29, 29, .ro, 0, 1⟩
/-- OKR.STAT.HOOKS (spec/17, Table 17-7). -/
def okrStatHooks : Fld := ⟨.okr, 0, 0x100, 0x4, 6, 0, .ro, 0, 127⟩
/-- OKR.BASE_VER.VER (spec/17, Table 17-7). -/
def okrBaseVerVer : Fld := ⟨.okr, 0, 0x104, 0x4, 31, 0, .ro, 0, 4294967295⟩
/-- OKR.PATCH_VER.VER (spec/17, Table 17-7). -/
def okrPatchVerVer : Fld := ⟨.okr, 0, 0x108, 0x4, 31, 0, .ro, 0, 4294967295⟩

/-- Registers of HDR pages, part 0. -/
def regsHdrPart0 : List Reg := [
  ⟨0, 0x0, 0x4, 1, 0x0, [hdrPageIdType, hdrPageIdInstance, hdrPageIdLayout]⟩,
  ⟨0, 0x4, 0x4, 1, 0x0, [hdrPageCapPages, hdrPageCapPageNum, hdrPageCapNsrc, hdrPageCapDataPlane, hdrPageCapKeyed, hdrPageCapMailbox, hdrPageCapShadowed]⟩,
  ⟨0, 0x8, 0x4, 1, 0x0, [hdrPageStatusLimited, hdrPageStatusShadowDirty, hdrPageStatusCrcMismatch, hdrPageStatusContained, hdrPageStatusReady]⟩,
  ⟨0, 0xc, 0x4, 1, 0x0, [hdrIntStatusSrc]⟩,
  ⟨0, 0x10, 0x4, 1, 0x0, [hdrIntEnableEn]⟩,
  ⟨0, 0x14, 0x4, 1, 0x0, [hdrIntVectorPin, hdrIntVectorVector]⟩,
  ⟨0, 0x18, 0x4, 1, 0x0, [hdrSevMap0Sev]⟩,
  ⟨0, 0x1c, 0x4, 1, 0x0, [hdrSevMap1Sev]⟩,
  ⟨0, 0x20, 0x4, 1, 0x0, [hdrInjectCount, hdrInjectMode, hdrInjectSrc]⟩,
  ⟨0, 0x24, 0x4, 1, 0x0, [hdrUpdGroupShadowPending, hdrUpdGroupGroup]⟩,
  ⟨0, 0x28, 0x4, 1, 0x0, [hdrUnlockKey]⟩,
  ⟨0, 0x2c, 0x4, 1, 0x0, [hdrLockStateCtl, hdrLockStateHost]⟩]
/-- Registers of HDR pages, part 1. -/
def regsHdrPart1 : List Reg := [
  ⟨0, 0x30, 0x4, 1, 0x0, [hdrMbxAddrObj, hdrMbxAddrIndex]⟩,
  ⟨0, 0x34, 0x4, 1, 0x0, [hdrMbxCtrlOwner, hdrMbxCtrlTimeout, hdrMbxCtrlBusy, hdrMbxCtrlValid, hdrMbxCtrlLen, hdrMbxCtrlClr, hdrMbxCtrlDir, hdrMbxCtrlGo]⟩,
  ⟨0, 0x38, 0x4, 1, 0x0, [hdrCfgCrcNowCrc]⟩,
  ⟨0, 0x3c, 0x4, 1, 0x0, [hdrCfgCrcRefCrc]⟩,
  ⟨0, 0x40, 0x4, 16, 0x0, [hdrMbxDataData]⟩]
/-- Registers of HDR pages. -/
def regsHdr : List Reg := regsHdrPart0 ++ regsHdrPart1
/-- Registers of GLB pages, part 0. -/
def regsGlbPart0 : List Reg := [
  ⟨0, 0x100, 0x4, 1, 0x48161fd7, [glbDevIdDevice, glbDevIdVendor]⟩,
  ⟨0, 0x104, 0x4, 1, 0x2, [glbRevisionStep]⟩,
  ⟨0, 0x108, 0x4, 1, 0x0, [glbFuseSkuCode]⟩,
  ⟨0, 0x10c, 0x4, 1, 0x0, [glbPageCountHighest, glbPageCountCount]⟩,
  ⟨0, 0x110, 0x4, 1, 0x0, [glbUpdateStrobeGroups]⟩,
  ⟨0, 0x120, 0x10, 4, 0x0, [glbTstrobeCtlLate, glbTstrobeCtlFired, glbTstrobeCtlArm, glbTstrobeCtlMask]⟩,
  ⟨0, 0x124, 0x10, 4, 0x0, [glbTstrobeSecLoSec]⟩,
  ⟨0, 0x128, 0x10, 4, 0x0, [glbTstrobeSecHiSec]⟩,
  ⟨0, 0x12c, 0x10, 4, 0x0, [glbTstrobeNsNs]⟩,
  ⟨0, 0x160, 0x4, 1, 0x0, [glbCrcCtlSweeps, glbCrcCtlEnable]⟩,
  ⟨0, 0x164, 0x4, 1, 0x0, [glbCrcGlobalNowCrc]⟩,
  ⟨0, 0x168, 0x4, 1, 0x0, [glbCrcGlobalRefCrc]⟩]
/-- Registers of GLB pages, part 1. -/
def regsGlbPart1 : List Reg := [
  ⟨0, 0x170, 0x4, 1, 0x0, [glbResetCtlWarm]⟩,
  ⟨0, 0x180, 0x4, 1, 0x0, [glbFaultCauseValid, glbFaultCausePage, glbFaultCauseSrc]⟩,
  ⟨0, 0x184, 0x4, 1, 0x0, [glbGraveCauseValid, glbGraveCausePage, glbGraveCauseSrc]⟩,
  ⟨0, 0x188, 0x4, 1, 0x3e8, [glbFaultCtlAutoWarm, glbFaultCtlAutoDelayUs]⟩,
  ⟨0, 0x18c, 0x4, 1, 0x64, [glbThermTjC, glbThermWarnC]⟩,
  ⟨0, 0x190, 0x4, 1, 0x0, [glbAvsDie1Mv, glbAvsDie0Mv]⟩,
  ⟨0, 0x200, 0x4, 16, 0x0, [glbEpochStatAbsorbed, glbEpochStatDataPlane, glbEpochStatWaiting, glbEpochStatPending, glbEpochStatCur]⟩,
  ⟨0, 0x240, 0x4, 16, 0x0, [glbEpochRefsRefs]⟩]
/-- Registers of GLB pages. -/
def regsGlb : List Reg := regsGlbPart0 ++ regsGlbPart1
/-- Registers of PCS pages. -/
def regsPcs : List Reg := [
  ⟨0, 0x100, 0x4, 1, 0x0, [pcsLayoutSpW, pcsLayoutQ1Rate, pcsLayoutQ0Rate]⟩,
  ⟨0, 0x104, 0x4, 1, 0x0, [pcsFecModeFec]⟩,
  ⟨0, 0x108, 0x4, 1, 0xa0000, [pcsLinkCtlSdEn, pcsLinkCtlRfAsDown, pcsLinkCtlUpHoldMs, pcsLinkCtlDownHold]⟩,
  ⟨0, 0x10c, 0x4, 1, 0x0, [pcsErrCtlRetrainThresh, pcsErrCtlSdThresh]⟩,
  ⟨0, 0x120, 0x4, 8, 0x0, [pcsPortStatUpWait, pcsPortStatRetrain, pcsPortStatSd, pcsPortStatRf, pcsPortStatLf, pcsPortStatAligned, pcsPortStatLink]⟩,
  ⟨0, 0x140, 0x4, 8, 0x0, [pcsLatInfoTxNs, pcsLatInfoRxNs]⟩]
/-- Registers of MAC pages. -/
def regsMac : List Reg := [
  ⟨0, 0x100, 0x4, 1, 0x24000000, [macCfgMaxFrame, macCfgEnable]⟩,
  ⟨0, 0x104, 0x4, 1, 0x0, [macPauseCtlXoffKib, macPauseCtlRxPfc, macPauseCtlTxPause, macPauseCtlRxPause]⟩,
  ⟨0, 0x108, 0x4, 1, 0x0, [macStationLoAddr]⟩,
  ⟨0, 0x10c, 0x4, 1, 0x0, [macStationHiAddr]⟩,
  ⟨0, 0x110, 0x4, 1, 0xa00, [macEeeCtlTwTxNs, macEeeCtlIdleUs, macEeeCtlEn]⟩,
  ⟨0, 0x114, 0x4, 1, 0xc80a28, [macParkCtlWakeDelay, macParkCtlDwellMs, macParkCtlThreshPct, macParkCtlEn]⟩,
  ⟨0, 0x118, 0x4, 1, 0x4e202710, [macParkTmrWakeToUs, macParkTmrRtoUs]⟩,
  ⟨0, 0x11c, 0x4, 1, 0xfa00000, [macParkPeerTwNs, macParkPeerPeerKz]⟩,
  ⟨0, 0x120, 0x4, 1, 0x0, [macPortStatCurGbps, macPortStatPaused, macPortStatParkState, macPortStatTxXoff, macPortStatLpiRx, macPortStatLpiTx, macPortStatLink]⟩]
/-- Registers of SDS pages. -/
def regsSds : List Reg := [
  ⟨0, 0x100, 0x4, 1, 0x20, [sdsLaneCfgLtEn, sdsLaneCfgAnEn, sdsLaneCfgLoopback, sdsLaneCfgRxPol, sdsLaneCfgTxPol]⟩,
  ⟨0, 0x104, 0x4, 1, 0x3c00, [sdsTxFirPost1, sdsTxFirPre2, sdsTxFirMain, sdsTxFirPre1]⟩,
  ⟨0, 0x108, 0x4, 1, 0x0, [sdsLaneStatEyeMv, sdsLaneStatLtDone, sdsLaneStatAdaptDone, sdsLaneStatCdrLock, sdsLaneStatPllLock, sdsLaneStatSignal, sdsLaneStatPowered]⟩]
/-- Registers of PRS pages. -/
def regsPrs : List Reg := [
  ⟨0, 0x100, 0x4, 1, 0x0, [prsGraphRefCrc]⟩,
  ⟨0, 0x104, 0x4, 1, 0x0, [prsGraphNowCrc]⟩,
  ⟨0, 0x108, 0x4, 1, 0x0, [prsGraphStatPeerDiff, prsGraphStatMismatch]⟩,
  ⟨0, 0x10c, 0x4, 1, 0x0, [prsInjCfgDefAct, prsInjCfgMalAct, prsInjCfgStartNode]⟩,
  ⟨0, 0x110, 0x4, 1, 0x0, [prsMalPuntQueue]⟩,
  ⟨1, 0x100, 0x4, 48, 0x0, [prsPortCfgDefAct, prsPortCfgMalAct, prsPortCfgStartNode]⟩]
/-- Registers of CLS pages. -/
def regsCls : List Reg := [
  ⟨0, 0x100, 0x10, 16, 0x0, [clsTblCfgEn, clsTblCfgMech, clsTblCfgWidth, clsTblCfgTreeId, clsTblCfgBanks]⟩,
  ⟨0, 0x104, 0x10, 16, 0x0, [clsTblKey0Seg1Len, clsTblKey0Seg1Off, clsTblKey0Seg0Len, clsTblKey0Seg0Off]⟩,
  ⟨0, 0x108, 0x10, 16, 0x0, [clsTblKey1Seg3Len, clsTblKey1Seg3Off, clsTblKey1Seg2Len, clsTblKey1Seg2Off]⟩,
  ⟨0, 0x200, 0x4, 48, 0x0, [clsPortDefTc, clsPortDefTenant]⟩,
  ⟨0, 0x2c0, 0x4, 1, 0x0, [clsInjDefTc, clsInjDefTenant]⟩]
/-- Registers of TRE pages. -/
def regsTre : List Reg := [
  ⟨0, 0x100, 0x20, 16, 0x0, [treTreeCtlValid, treTreeCtlRules]⟩,
  ⟨0, 0x104, 0x20, 16, 0x0, [treTreeRootType, treTreeRootRest]⟩,
  ⟨0, 0x108, 0x20, 16, 0x0, [treTreeImgBaseImgBase]⟩,
  ⟨0, 0x10c, 0x20, 16, 0x0, [treTreeImgWordsImgWords]⟩,
  ⟨0, 0x110, 0x20, 16, 0x0, [treTreeRuleBaseRuleBase]⟩,
  ⟨0, 0x114, 0x20, 16, 0x0, [treTreeAttrBaseAttrBase]⟩,
  ⟨0, 0x118, 0x20, 16, 0x0, [treTreeDoffLoD3, treTreeDoffLoD2, treTreeDoffLoD1, treTreeDoffLoD0]⟩,
  ⟨0, 0x11c, 0x20, 16, 0x0, [treTreeDoffHiD7, treTreeDoffHiD6, treTreeDoffHiD5, treTreeDoffHiD4]⟩,
  ⟨0, 0x300, 0x4, 1, 0x0, [treStatOldReaders]⟩]
/-- Registers of RDH pages. -/
def regsRdh : List Reg := [
  ⟨255, 0x100, 0x4, 1, 0x0, [rdhBankStatTable, rdhBankStatWidth, rdhBankStatOwned, rdhBankStatSync, rdhBankStatActiveHalf, rdhBankStatQuarUsed]⟩,
  ⟨255, 0x110, 0x4, 4, 0x0, [rdhQuarBusy, rdhQuarStuck, rdhQuarBad, rdhQuarHalf, rdhQuarEntry]⟩]
/-- Registers of LEK pages, part 0. -/
def regsLekPart0 : List Reg := [
  ⟨0, 0x100, 0x4, 1, 0x0, [lekCfgV6Set]⟩,
  ⟨0, 0x104, 0x4, 1, 0x0, [lekV4CntCnt]⟩,
  ⟨0, 0x108, 0x4, 1, 0x0, [lekV6CntCnt]⟩,
  ⟨0, 0x10c, 0x4, 1, 0x0, [lekStatDiverged, lekStatSync]⟩,
  ⟨0, 0x110, 0x4, 1, 0x0, [lekDigestCrc]⟩,
  ⟨1, 0x100, 0x10, 8, 0x0, [lekFwdSelW0En, lekFwdSelW0MatchOff, lekFwdSelW0Mask, lekFwdSelW0Value]⟩,
  ⟨1, 0x104, 0x10, 8, 0x0, [lekFwdSelW1FlowPoff, lekFwdSelW1FlowAoff, lekFwdSelW1KeyOff, lekFwdSelW1FlowEn, lekFwdSelW1Kind]⟩,
  ⟨1, 0x108, 0x10, 8, 0x0, [lekFwdSelW2FlowLoff]⟩,
  ⟨0, 0x140, 0x4, 1, 0x0, [lekResBaseLoAddr]⟩,
  ⟨0, 0x144, 0x4, 1, 0x0, [lekResBaseHiAddr]⟩,
  ⟨0, 0x148, 0x4, 1, 0x0, [lekResCtlSpace, lekResCtlSizeLog2]⟩,
  ⟨0, 0x14c, 0x4, 1, 0x0, [lekResHeadHead]⟩]
/-- Registers of LEK pages, part 1. -/
def regsLekPart1 : List Reg := [
  ⟨0, 0x150, 0x4, 1, 0x0, [lekResTailTail]⟩]
/-- Registers of LEK pages. -/
def regsLek : List Reg := regsLekPart0 ++ regsLekPart1
/-- Registers of CHD pages. -/
def regsChd : List Reg := [
  ⟨0, 0x140, 0x4, 1, 0x0, [chdResBaseLoAddr]⟩,
  ⟨0, 0x144, 0x4, 1, 0x0, [chdResBaseHiAddr]⟩,
  ⟨0, 0x148, 0x4, 1, 0x0, [chdResCtlSpace, chdResCtlSizeLog2]⟩,
  ⟨0, 0x14c, 0x4, 1, 0x0, [chdResHeadHead]⟩,
  ⟨0, 0x150, 0x4, 1, 0x0, [chdResTailTail]⟩,
  ⟨0, 0x100, 0x4, 1, 0x40, [chdCfgFlushOnDown, chdCfgLearnEn, chdCfgMaxKicks]⟩,
  ⟨0, 0x104, 0x4, 1, 0x12c, [chdAgeCfgAgeSec]⟩,
  ⟨0, 0x108, 0x4, 1, 0x6400000, [chdLearnCfgHoldUs, chdLearnCfgPortNhBase]⟩,
  ⟨0, 0x10c, 0x4, 1, 0x0, [chdStatStash, chdStatSlots]⟩]
/-- Registers of NHP pages. -/
def regsNhp : List Reg := [
  ⟨0, 0x100, 0x4, 1, 0x0, [nhpCfgMissNh]⟩,
  ⟨0, 0x104, 0x4, 1, 0x0, [nhpHashKey0Seg1Len, nhpHashKey0Seg1Off, nhpHashKey0Seg0Len, nhpHashKey0Seg0Off]⟩,
  ⟨0, 0x108, 0x4, 1, 0x0, [nhpHashKey1Seg3Len, nhpHashKey1Seg3Off, nhpHashKey1Seg2Len, nhpHashKey1Seg2Off]⟩,
  ⟨0, 0x10c, 0x4, 1, 0xffffffff, [nhpHashSeedSeed]⟩,
  ⟨0, 0x110, 0x4, 1, 0x10064, [nhpProtCfgResteerEn, nhpProtCfgRevertMs]⟩,
  ⟨0, 0x114, 0x4, 1, 0x0, [nhpStatHeld]⟩,
  ⟨0, 0x120, 0x4, 12, 0x0, [nhpPortDownDown]⟩]
/-- Registers of EDT pages. -/
def regsEdt : List Reg := [
  ⟨0, 0x100, 0x4, 1, 0x0, [edtIoamCfgNamespace, edtIoamCfgOptType]⟩,
  ⟨0, 0x104, 0x4, 1, 0x0, [edtIoamNodeNodeId]⟩,
  ⟨0, 0x108, 0x4, 1, 0x0, [edtIoamTypeType]⟩,
  ⟨0, 0x10c, 0x4, 1, 0x0, [edtStatCopy, edtStatHeld]⟩]
/-- Registers of POL pages. -/
def regsPol : List Reg := [
  ⟨0, 0x100, 0x4, 1, 0x0, [polColorCfgOff, polColorCfgShift]⟩,
  ⟨0, 0x110, 0x4, 4, 0x0, [polColorMapMap]⟩]
/-- Registers of ADM pages. -/
def regsAdm : List Reg := [
  ⟨0, 0x100, 0x4, 1, 0x50003c, [admPathOnEgressNs, admPathOnTwillNs]⟩,
  ⟨0, 0x104, 0x4, 1, 0x960, [admPathBrlBrlNs]⟩,
  ⟨0, 0x108, 0x4, 1, 0x0, [admStatCommitRefused]⟩,
  ⟨0, 0x10c, 0x4, 1, 0x0, [admDescOnUsedUsed]⟩,
  ⟨0, 0x110, 0x4, 1, 0x0, [admDescBrlUsedUsed]⟩,
  ⟨0, 0x114, 0x4, 1, 0x1000000, [admDescBrlLimitLimit]⟩]
/-- Registers of LGR pages. -/
def regsLgr : List Reg := [
  ⟨0, 0x100, 0x4, 1, 0x6, [lgrChkCtlFlipEn, lgrChkCtlQuiescentEn, lgrChkCtlGo]⟩,
  ⟨0, 0x104, 0x4, 1, 0x0, [lgrChkStatChecks, lgrChkStatTrigger, lgrChkStatSkipped, lgrChkStatImbalance]⟩,
  ⟨0, 0x108, 0x4, 1, 0x0, [lgrChkDiffDiff]⟩,
  ⟨0, 0x10c, 0x4, 1, 0x0, [lgrChkTimeTime]⟩,
  ⟨0, 0x110, 0x4, 1, 0x0, [lgrInFlightN]⟩]
/-- Registers of TWL pages. -/
def regsTwl : List Reg := [
  ⟨0, 0x100, 0x4, 1, 0x10, [twlCfgCredit]⟩,
  ⟨0, 0x104, 0x4, 1, 0x0, [twlStatReplayStall, twlStatCommitRefused]⟩,
  ⟨0, 0x120, 0x4, 8, 0x0, [twlOccCells]⟩]
/-- Registers of GZE pages. -/
def regsGze : List Reg := [
  ⟨0, 0x100, 0x4, 1, 0x200c, [gzeSaCfgMcLimit, gzeSaCfgALimit]⟩,
  ⟨0, 0x104, 0x4, 1, 0x7d0, [gzeFlowletFlowletNs]⟩,
  ⟨0, 0x108, 0x4, 1, 0x103e804, [gzeImbCfgBalEn, gzeImbCfgImbWinNs, gzeImbCfgImbThresh]⟩,
  ⟨0, 0x10c, 0x4, 1, 0x0, [gzeStatHot, gzeStatCommitRefused]⟩,
  ⟨1, 0x100, 0x10, 16, 0x0, [gzeMirBaseLoAddr]⟩,
  ⟨1, 0x104, 0x10, 16, 0x0, [gzeMirBaseHiAddr]⟩,
  ⟨1, 0x108, 0x10, 16, 0xa0000, [gzeMirCtlEn, gzeMirCtlSizeLog2, gzeMirCtlNotifyLog2]⟩,
  ⟨1, 0x10c, 0x10, 16, 0x0, [gzeMirTailTail]⟩,
  ⟨1, 0x200, 0x4, 16, 0x0, [gzeMirHeadHead]⟩]
/-- Registers of BPM pages. -/
def regsBpm : List Reg := [
  ⟨0, 0x100, 0x4, 1, 0x2000, [bpmPfPoolCells]⟩,
  ⟨0, 0x104, 0x4, 1, 0x800, [bpmMcqLimitCells]⟩,
  ⟨0, 0x108, 0x4, 1, 0x640040, [bpmSpillCfgFlushNs, bpmSpillCfgPrefetchCells]⟩,
  ⟨0, 0x10c, 0x4, 1, 0x0, [bpmBlkBaseBlk]⟩,
  ⟨0, 0x110, 0x4, 1, 0x0, [bpmBlkCountCount]⟩,
  ⟨0, 0x114, 0x4, 1, 0x0, [bpmSharedFreeCells]⟩,
  ⟨0, 0x118, 0x4, 1, 0x0, [bpmStatCommitRefused]⟩]
/-- Registers of BRL pages, part 0. -/
def regsBrlPart0 : List Reg := [
  ⟨0, 0x100, 0x4, 1, 0x2c, [brlCtlMode, brlCtlGrain, brlCtlRate, brlCtlEn]⟩,
  ⟨0, 0x104, 0x4, 1, 0x12c0002, [brlRetryRetryNs, brlRetryRetryMax]⟩,
  ⟨0, 0x108, 0x4, 1, 0x32585f, [brlThermThrottlePct, brlThermThrLo, brlThermThrHi]⟩,
  ⟨0, 0x10c, 0x4, 1, 0x40, [brlUeCtlUeThresh]⟩,
  ⟨0, 0x110, 0x4, 1, 0x18, [brlScrubScrubH]⟩,
  ⟨0, 0x114, 0x4, 1, 0x0, [brlStatCode, brlStatCommitRefused]⟩,
  ⟨0, 0x118, 0x4, 1, 0x2648, [brlDeliverableGbs]⟩,
  ⟨1, 0x100, 0x4, 4, 0x3e8, [brlOvfGbs]⟩,
  ⟨1, 0x110, 0x4, 1, 0x12c, [brlMirrorGbs]⟩,
  ⟨1, 0x114, 0x4, 1, 0x258, [brlHolGbs]⟩,
  ⟨1, 0x118, 0x4, 1, 0xc8, [brlCntGbs]⟩,
  ⟨1, 0x11c, 0x4, 1, 0x400, [brlTokDepthTok]⟩]
/-- Registers of BRL pages, part 1. -/
def regsBrlPart1 : List Reg := [
  ⟨1, 0x140, 0x4, 4, 0x3e8, [brlEffOvfGbs]⟩,
  ⟨1, 0x150, 0x4, 1, 0x12c, [brlEffMirrorGbs]⟩,
  ⟨1, 0x154, 0x4, 1, 0x258, [brlEffHolGbs]⟩,
  ⟨1, 0x158, 0x4, 1, 0xc8, [brlEffCntGbs]⟩,
  ⟨3, 0x100, 0x4, 24, 0x0, [brlChSumState]⟩]
/-- Registers of BRL pages. -/
def regsBrl : List Reg := regsBrlPart0 ++ regsBrlPart1
/-- Registers of HCH pages. -/
def regsHch : List Reg := [
  ⟨0, 0x100, 0x4, 1, 0x0, [hchChCtlInService, hchChCtlContain]⟩,
  ⟨0, 0x104, 0x4, 1, 0x1, [hchChStatTemp, hchChStatOut1, hchChStatOut0, hchChStatInord1, hchChStatInord0, hchChStatState]⟩,
  ⟨0, 0x108, 0x4, 1, 0x0, [hchLogStatLost, hchLogStatCount]⟩,
  ⟨0, 0x10c, 0x4, 1, 0x0, [hchLogClrClear]⟩,
  ⟨2, 0x100, 0x4, 1, 0x10000, [hchTrnCtlGo, hchTrnCtlPeriodic, hchTrnCtlPc, hchTrnCtlBurstsK, hchTrnCtlUserCnt, hchTrnCtlUserIdx, hchTrnCtlPattern, hchTrnCtlTarget]⟩,
  ⟨2, 0x104, 0x4, 1, 0x400000, [hchTrnStepVref, hchTrnStepTap]⟩,
  ⟨2, 0x108, 0x4, 1, 0x0, [hchTrnStatTimeout, hchTrnStatBusy, hchTrnStatDone]⟩,
  ⟨2, 0x10c, 0x4, 1, 0x3e8, [hchTrnTmoUsUs]⟩]
/-- Registers of EGS pages. -/
def regsEgs : List Reg := [
  ⟨0, 0x100, 0x10, 8, 0x640001, [egsPortCfgHoldMs, egsPortCfgRecProt, egsPortCfgMode]⟩,
  ⟨0, 0x104, 0x10, 8, 0x0, [egsPortShpRateRateMbps]⟩,
  ⟨0, 0x108, 0x10, 8, 0x14004000, [egsPortShpBurstOverhead, egsPortShpBurstBurst]⟩,
  ⟨0, 0x180, 0x4, 8, 0x1, [egsPortStatBlockNs, egsPortStatBlockViol, egsPortStatGateAct, egsPortStatRec, egsPortStatHier]⟩,
  ⟨0, 0x1c0, 0x4, 1, 0x0, [egsSampleCtlIntervalUs]⟩,
  ⟨1, 0x100, 0x20, 8, 0x0, [egsGateCtlEn, egsGateCtlEntries]⟩,
  ⟨1, 0x104, 0x20, 8, 0x0, [egsGateCycleCycleNs]⟩,
  ⟨1, 0x108, 0x20, 8, 0x0, [egsGateBaseSecLoSec]⟩,
  ⟨1, 0x10c, 0x20, 8, 0x0, [egsGateBaseSecHiSec]⟩,
  ⟨1, 0x110, 0x20, 8, 0x0, [egsGateBaseNsNs]⟩,
  ⟨1, 0x114, 0x20, 8, 0x0, [egsGatePosPos]⟩]
/-- Registers of TIM pages. -/
def regsTim : List Reg := [
  ⟨0, 0x100, 0x4, 1, 0x0, [timCtlTodRxEn, timCtlTodTxEn, timCtlPpsInEn, timCtlPpsOutEn]⟩,
  ⟨0, 0x104, 0x4, 1, 0x0, [timLoadSecLoSec]⟩,
  ⟨0, 0x108, 0x4, 1, 0x0, [timLoadSecHiSec]⟩,
  ⟨0, 0x10c, 0x4, 1, 0x0, [timLoadNsNs]⟩,
  ⟨0, 0x110, 0x4, 1, 0x0, [timLoadCtlCancel, timLoadCtlAtPps, timLoadCtlGo]⟩,
  ⟨0, 0x114, 0x4, 1, 0x0, [timStatLoadWait, timStatLoadRefused]⟩,
  ⟨0, 0x120, 0x4, 1, 0x186a0, [timPpsOutCfgWidthUs]⟩,
  ⟨0, 0x124, 0x4, 1, 0x0, [timPpsOutOfsOfsNs]⟩,
  ⟨0, 0x128, 0x4, 1, 0xf8002501, [timTodCfgClass, timTodCfgUtcOfs, timTodCfgFlags, timTodCfgBaud]⟩,
  ⟨0, 0x130, 0x4, 2, 0x40008400, [timSynceCfgEn, timSynceCfgSquelchEn, timSynceCfgDiv, timSynceCfgLane]⟩,
  ⟨1, 0x100, 0x4, 384, 0x0, [timPortTsAdjTxAdjPs, timPortTsAdjRxAdjPs]⟩]
/-- Registers of TEL pages, part 0. -/
def regsTelPart0 : List Reg := [
  ⟨0, 0x100, 0x4, 1, 0x3e8, [telHistCtlWinMs]⟩,
  ⟨0, 0x104, 0x4, 1, 0x0, [telHistPortsLoPorts]⟩,
  ⟨0, 0x108, 0x4, 1, 0x0, [telHistPortsHiPorts]⟩,
  ⟨0, 0x10c, 0x4, 1, 0x0, [telSnapCtlSnapMs]⟩,
  ⟨0, 0x110, 0x4, 1, 0x3e8, [telQualCtlQualMs]⟩,
  ⟨0, 0x114, 0x4, 1, 0x0, [telPcardCtlPcardLog2]⟩,
  ⟨0, 0x118, 0x4, 1, 0x0, [telPcardPortsLoPorts]⟩,
  ⟨0, 0x11c, 0x4, 1, 0x0, [telPcardPortsHiPorts]⟩,
  ⟨0, 0x120, 0x4, 1, 0x0, [telIpfixPenPen]⟩,
  ⟨0, 0x124, 0x4, 1, 0x0, [telIpfixDomainDomain]⟩,
  ⟨1, 0x100, 0x4, 1, 0x0, [telRingBaseBase]⟩,
  ⟨1, 0x104, 0x4, 1, 0xa0000, [telRingCtlEn, telRingCtlSizeLog2, telRingCtlNotifyLog2]⟩]
/-- Registers of TEL pages, part 1. -/
def regsTelPart1 : List Reg := [
  ⟨1, 0x108, 0x4, 1, 0x0, [telRingTailTail]⟩,
  ⟨1, 0x10c, 0x4, 1, 0x0, [telRingHeadHead]⟩]
/-- Registers of TEL pages. -/
def regsTel : List Reg := regsTelPart0 ++ regsTelPart1
/-- Registers of HOLC pages. -/
def regsHolc : List Reg := [
  ⟨0, 0x100, 0x4, 8, 0x0, [holcThrStatGen, holcThrStatLine, holcThrStatU, holcThrStatState]⟩,
  ⟨0, 0x120, 0x4, 1, 0x0, [holcPerfCtlFreeze, holcPerfCtlUserRead]⟩,
  ⟨0, 0x140, 0x4, 8, 0x0, [holcPerfSelEn, holcPerfSelU, holcPerfSelM, holcPerfSelThreads, holcPerfSelEvent]⟩,
  ⟨0, 0x160, 0x4, 1, 0x0, [holcSampCtlEn, holcSampCtlSrc, holcSampCtlCnt, holcSampCtlPeriod]⟩,
  ⟨0, 0x164, 0x4, 1, 0x0, [holcSampThreadsThreads]⟩,
  ⟨0, 0x168, 0x4, 1, 0x0, [holcSampBaseBase]⟩,
  ⟨0, 0x16c, 0x4, 1, 0x40000, [holcSampRctlSizeLog2, holcSampRctlNotifyLog2]⟩,
  ⟨0, 0x170, 0x4, 1, 0x0, [holcSampPtrTail, holcSampPtrHead]⟩,
  ⟨0, 0x180, 0x4, 1, 0x0, [holcMsipMsip]⟩]
/-- Registers of HOLX pages, part 0. -/
def regsHolxPart0 : List Reg := [
  ⟨0, 0x100, 0x4, 1, 0x0, [holxClCtlRestart]⟩,
  ⟨0, 0x104, 0x4, 1, 0x7f0000, [holxClStatIdle, holxClStatRestarting]⟩,
  ⟨0, 0x108, 0x4, 1, 0x0, [holxEvSigLine]⟩,
  ⟨0, 0x110, 0x4, 4, 0x0, [holxAgentMaskMask]⟩,
  ⟨0, 0x120, 0x4, 1, 0x0, [holxLrnBaseBase]⟩,
  ⟨0, 0x124, 0x4, 1, 0x40000, [holxLrnCtlEn, holxLrnCtlSizeLog2, holxLrnCtlNotifyLog2]⟩,
  ⟨0, 0x128, 0x4, 1, 0x0, [holxLrnPtrTail, holxLrnPtrHead]⟩,
  ⟨0, 0x140, 0x4, 16, 0x0, [holxTmrEn, holxTmrOneshot, holxTmrPeriodUs]⟩,
  ⟨0, 0x200, 0x10, 64, 0x0, [holxPqBaseAddr]⟩,
  ⟨0, 0x204, 0x10, 64, 0x8040000, [holxPqCtlEn, holxPqCtlKv, holxPqCtlSlotLog2, holxPqCtlSizeLog2, holxPqCtlNotifyLog2]⟩,
  ⟨0, 0x208, 0x10, 64, 0x0, [holxPqPtrTail, holxPqPtrHead]⟩,
  ⟨0, 0x20c, 0x10, 64, 0x0, [holxPqRateKpps, holxPqRateRate]⟩]
/-- Registers of HOLX pages, part 1. -/
def regsHolxPart1 : List Reg := [
  ⟨0, 0x600, 0x10, 64, 0x0, [holxIqBaseAddr]⟩,
  ⟨0, 0x604, 0x10, 64, 0x40001, [holxIqCtlEn, holxIqCtlSizeLog2, holxIqCtlSlice, holxIqCtlWeight]⟩,
  ⟨0, 0x608, 0x10, 64, 0x0, [holxIqPtrTail, holxIqPtrHead]⟩]
/-- Registers of HOLX pages. -/
def regsHolx : List Reg := regsHolxPart0 ++ regsHolxPart1
/-- Registers of DMAC pages. -/
def regsDmac : List Reg := [
  ⟨0, 0x100, 0x4, 1, 0x41e, [dmacChCfgStrobeMask, dmacChCfgChainCh, dmacChCfgSuppressBad, dmacChCfgPulse, dmacChCfgDescSpace, dmacChCfgRetryMax, dmacChCfgMode, dmacChCfgPrio]⟩,
  ⟨0, 0x104, 0x4, 1, 0x32, [dmacChTmoTmoUs]⟩,
  ⟨0, 0x108, 0x4, 1, 0x0, [dmacChDescLoAddr]⟩,
  ⟨0, 0x10c, 0x4, 1, 0x0, [dmacChDescHiAddr]⟩,
  ⟨0, 0x110, 0x4, 1, 0x0, [dmacChCtlGen, dmacChCtlStop, dmacChCtlGo]⟩,
  ⟨0, 0x114, 0x4, 1, 0x0, [dmacChStatPending, dmacChStatHalt, dmacChStatState]⟩,
  ⟨0, 0x118, 0x4, 1, 0x0, [dmacCurIndexN]⟩,
  ⟨0, 0x11c, 0x4, 1, 0x0, [dmacBadCountN]⟩,
  ⟨0, 0x120, 0x4, 1, 0x0, [dmacCurDescLoAddr]⟩,
  ⟨0, 0x124, 0x4, 1, 0x0, [dmacCurDescHiAddr]⟩]
/-- Registers of DMAX pages. -/
def regsDmax : List Reg := [
  ⟨0, 0x100, 0x4, 1, 0x0, [dmaxCmnStatCfgRefused]⟩,
  ⟨0, 0x104, 0x4, 1, 0x0, [dmaxReplayNsNs]⟩,
  ⟨0, 0x108, 0x4, 1, 0x200, [dmaxTagsFreeN]⟩]
/-- Registers of PRN pages, part 0. -/
def regsPrnPart0 : List Reg := [
  ⟨0, 0x100, 0x4, 1, 0x303f0000, [prnCfgEn, prnCfgEpochEn, prnCfgTstrobe, prnCfgIq, prnCfgChipId]⟩,
  ⟨0, 0x104, 0x4, 1, 0x640003, [prnHelloHelloUs, prnHelloHelloMiss]⟩,
  ⟨0, 0x108, 0x4, 1, 0x7d0, [prnAckDelayNsNs]⟩,
  ⟨0, 0x110, 0x4, 1, 0x3e8, [prnPrioCfg0DeadlineUs]⟩,
  ⟨0, 0x114, 0x4, 1, 0x2710, [prnPrioCfg1DeadlineUs]⟩,
  ⟨0, 0x118, 0x4, 1, 0x186a0, [prnPrioCfg2DeadlineUs]⟩,
  ⟨0, 0x11c, 0x4, 1, 0xf4240, [prnPrioCfg3DeadlineUs]⟩,
  ⟨0, 0x120, 0x4, 1, 0x0, [prnStatCommitRefused]⟩,
  ⟨0, 0x130, 0x4, 4, 0x0, [prnRouteStatUp]⟩,
  ⟨1, 0x100, 0x10, 4, 0x0, [prnTxqBaseAddr]⟩,
  ⟨1, 0x104, 0x10, 4, 0x60000, [prnTxqCtlEn, prnTxqCtlSizeLog2]⟩,
  ⟨1, 0x108, 0x10, 4, 0x0, [prnTxqPtrTail, prnTxqPtrHead]⟩]
/-- Registers of PRN pages, part 1. -/
def regsPrnPart1 : List Reg := [
  ⟨2, 0x100, 0x10, 4, 0x0, [prnRxqBaseAddr]⟩,
  ⟨2, 0x104, 0x10, 4, 0xb060000, [prnRxqCtlEn, prnRxqCtlSlotLog2, prnRxqCtlSizeLog2, prnRxqCtlNotifyLog2]⟩,
  ⟨2, 0x108, 0x10, 4, 0x0, [prnRxqPtrTail, prnRxqPtrHead]⟩]
/-- Registers of PRN pages. -/
def regsPrn : List Reg := regsPrnPart0 ++ regsPrnPart1
/-- Registers of BOOT pages. -/
def regsBoot : List Reg := [
  ⟨0, 0x100, 0x4, 1, 0x0, [bootCtlSrc]⟩,
  ⟨0, 0x104, 0x4, 1, 0x0, [bootStatRestart, bootStatLimitReason, bootStatPhase]⟩,
  ⟨0, 0x110, 0x4, 4, 0x0, [bootImgStatApplied, bootImgStatCopy, bootImgStatResult]⟩,
  ⟨0, 0x120, 0x4, 4, 0x0, [bootImgVerVersion]⟩,
  ⟨0, 0x130, 0x4, 1, 0x0, [bootHostAddrLoAddr]⟩,
  ⟨0, 0x134, 0x4, 1, 0x0, [bootHostAddrHiAddr]⟩,
  ⟨0, 0x138, 0x4, 1, 0x0, [bootHostLenLen]⟩,
  ⟨0, 0x13c, 0x4, 1, 0x0, [bootHostCtlGo]⟩,
  ⟨0, 0x140, 0x4, 1, 0x0, [bootHostStatState]⟩]
/-- Registers of OKR pages. -/
def regsOkr : List Reg := [
  ⟨0, 0x100, 0x4, 1, 0x0, [okrStatPatched, okrStatBaseOnly, okrStatHeld, okrStatHooks]⟩,
  ⟨0, 0x104, 0x4, 1, 0x0, [okrBaseVerVer]⟩,
  ⟨0, 0x108, 0x4, 1, 0x0, [okrPatchVerVer]⟩]

/-- The register table of a block: the registers at 0x100-0xFFF of its pages. -/
def regsOf : Blk → List Reg
  | .hdr => regsHdr
  | .glb => regsGlb
  | .boot => regsBoot
  | .pcie => []
  | .tim => regsTim
  | .brl => regsBrl
  | .prn => regsPrn
  | .holc => regsHolc
  | .holx => regsHolx
  | .dmac => regsDmac
  | .dmax => regsDmax
  | .okr => regsOkr
  | .prs => regsPrs
  | .cls => regsCls
  | .rdh => regsRdh
  | .edt => regsEdt
  | .pol => regsPol
  | .adm => regsAdm
  | .lgr => regsLgr
  | .gze => regsGze
  | .bpm => regsBpm
  | .tel => regsTel
  | .tre => regsTre
  | .lek => regsLek
  | .chd => regsChd
  | .nhp => regsNhp
  | .twl => regsTwl
  | .pcs => regsPcs
  | .egs => regsEgs
  | .sds => regsSds
  | .mac => regsMac
  | .hch => regsHch

/-- The mailbox objects of a block (each block's object table; R75): page, type, number of objects, width in
32-bit words, kind. -/
def objsOf : Blk → List Obj
  | .hdr => []
  | .glb => []
  | .boot => []
  | .pcie => []
  | .tim => [
      ⟨0, 0x1, 1, 3, .ro⟩,
      ⟨0, 0x2, 1, 4, .ro⟩,
      ⟨0, 0x3, 1, 4, .ro⟩,
      ⟨0, 0x4, 9, 2, .cnt⟩,
      ⟨0, 0x5, 1, 4, .ro⟩]
  | .brl => [
      ⟨2, 0x1, 5, 2, .cnt⟩]
  | .prn => [
      ⟨3, 0x1, 64, 8, .sh⟩,
      ⟨3, 0x2, 4096, 2, .cnt⟩,
      ⟨3, 0x3, 12, 2, .cnt⟩]
  | .holc => [
      ⟨0, 0x1, 8, 2, .rw⟩,
      ⟨0, 0x2, 6, 2, .cnt⟩]
  | .holx => [
      ⟨0, 0x1, 256, 1, .ro⟩,
      ⟨0, 0x2, 512, 2, .cnt⟩,
      ⟨0, 0x4, 256, 2, .cnt⟩,
      ⟨0, 0x5, 1, 8, .wo⟩,
      ⟨0, 0x6, 128, 1, .rw⟩,
      ⟨0, 0x7, 128, 2, .cnt⟩,
      ⟨0, 0x8, 6, 2, .cnt⟩]
  | .dmac => [
      ⟨0, 0x1, 8, 2, .cnt⟩]
  | .dmax => [
      ⟨0, 0x1, 3, 2, .cnt⟩]
  | .okr => [
      ⟨0, 0x1, 4096, 4, .ro⟩,
      ⟨0, 0x2, 64, 1, .ro⟩,
      ⟨0, 0x3, 4, 2, .cnt⟩]
  | .prs => [
      ⟨0, 0x1, 512, 8, .sh⟩,
      ⟨0, 0x2, 8192, 3, .sh⟩,
      ⟨2, 0x1, 768, 2, .cnt⟩,
      ⟨3, 0x1, 13, 2, .cnt⟩,
      ⟨3, 0x2, 1, 16, .rw⟩]
  | .cls => [
      ⟨0, 0x1, 16384, 4, .sh⟩,
      ⟨0, 0x2, 65536, 4, .cnt⟩,
      ⟨0, 0x3, 775, 2, .cnt⟩,
      ⟨0, 0x4, 16, 2, .cnt⟩]
  | .rdh => [
      ⟨255, 0x1, 2048, 1, .sh⟩,
      ⟨255, 0x2, 2048, 10, .sh⟩,
      ⟨255, 0x3, 2048, 10, .sh⟩,
      ⟨255, 0x4, 8, 2, .cnt⟩]
  | .edt => [
      ⟨0, 0x1, 4096, 16, .sh⟩,
      ⟨0, 0x2, 8192, 16, .sh⟩,
      ⟨0, 0x3, 896, 2, .cnt⟩,
      ⟨0, 0x4, 16384, 4, .cnt⟩,
      ⟨0, 0x5, 3, 2, .cnt⟩]
  | .pol => [
      ⟨0, 0x1, 16384, 4, .sh⟩,
      ⟨0, 0x2, 16384, 4, .ro⟩,
      ⟨0, 0x3, 16384, 12, .cnt⟩,
      ⟨1, 0x1, 16384, 8, .cnt⟩,
      ⟨1, 0x2, 5, 2, .cnt⟩]
  | .adm => [
      ⟨1, 0x1, 256, 8, .sh⟩,
      ⟨1, 0x2, 16384, 1, .sh⟩,
      ⟨2, 0x1, 384, 2, .sh⟩,
      ⟨2, 0x2, 384, 4, .ro⟩,
      ⟨2, 0x3, 384, 6, .cnt⟩,
      ⟨3, 0x1, 1792, 2, .cnt⟩]
  | .lgr => [
      ⟨1, 0x1, 112, 16, .cnt⟩,
      ⟨1, 0x2, 224, 16, .cnt⟩,
      ⟨1, 0x3, 16384, 16, .cnt⟩,
      ⟨1, 0x4, 1, 8, .cnt⟩]
  | .gze => [
      ⟨0, 0x1, 4096, 2, .ro⟩,
      ⟨0, 0x2, 8, 2, .cnt⟩,
      ⟨1, 0x1, 7, 2, .cnt⟩]
  | .bpm => [
      ⟨0, 0x1, 386, 2, .sh⟩,
      ⟨0, 0x2, 386, 2, .ro⟩,
      ⟨0, 0x3, 131072, 8, .ro⟩,
      ⟨1, 0x1, 65536, 1, .sh⟩,
      ⟨1, 0x2, 262144, 1, .sh⟩,
      ⟨1, 0x3, 9, 2, .cnt⟩]
  | .tel => [
      ⟨0, 0x1, 432, 16, .ro⟩,
      ⟨0, 0x2, 432, 4, .ro⟩,
      ⟨0, 0x3, 48, 2, .cnt⟩,
      ⟨1, 0x1, 2, 16, .wo⟩,
      ⟨1, 0x2, 7, 2, .cnt⟩]
  | .tre => [
      ⟨0, 0x1, 524288, 8, .rw⟩,
      ⟨0, 0x2, 4, 2, .cnt⟩]
  | .lek => [
      ⟨0, 0x1, 1, 16, .wo⟩,
      ⟨0, 0x2, 6, 2, .cnt⟩]
  | .chd => [
      ⟨0, 0x1, 1, 16, .wo⟩,
      ⟨0, 0x2, 4194304, 5, .ro⟩,
      ⟨0, 0x3, 8, 16, .ro⟩,
      ⟨1, 0x1, 16384, 4, .cnt⟩,
      ⟨1, 0x2, 12, 2, .cnt⟩]
  | .nhp => [
      ⟨0, 0x1, 1048576, 4, .sh⟩,
      ⟨0, 0x2, 65536, 2, .sh⟩,
      ⟨0, 0x3, 2097152, 1, .sh⟩,
      ⟨0, 0x4, 16384, 1, .sh⟩,
      ⟨0, 0x5, 1280, 2, .cnt⟩]
  | .twl => [
      ⟨0, 0x1, 8, 6, .cnt⟩]
  | .pcs => [
      ⟨0, 0x1, 8, 8, .cnt⟩,
      ⟨0, 0x2, 16, 16, .cnt⟩,
      ⟨0, 0x3, 8, 2, .cnt⟩,
      ⟨0, 0x4, 8, 4, .cnt⟩]
  | .egs => [
      ⟨0, 0x1, 72, 4, .sh⟩,
      ⟨0, 0x2, 72, 4, .ro⟩,
      ⟨0, 0x3, 72, 8, .cnt⟩,
      ⟨0, 0x4, 8, 4, .cnt⟩,
      ⟨1, 0x1, 2048, 2, .sh⟩,
      ⟨1, 0x2, 2048, 4, .sh⟩,
      ⟨1, 0x3, 16384, 1, .sh⟩,
      ⟨1, 0x4, 2048, 4, .cnt⟩,
      ⟨1, 0x5, 2, 2, .cnt⟩]
  | .sds => []
  | .mac => [
      ⟨0, 0x1, 20, 2, .cnt⟩]
  | .hch => [
      ⟨1, 0x1, 16, 4, .ro⟩,
      ⟨1, 0x2, 18, 2, .cnt⟩,
      ⟨2, 0x10, 72, 1, .rw⟩,
      ⟨2, 0x11, 72, 1, .rw⟩,
      ⟨2, 0x12, 48, 1, .rw⟩,
      ⟨2, 0x13, 72, 2, .cnt⟩,
      ⟨2, 0x14, 64, 16, .rw⟩,
      ⟨2, 0x16, 72, 1, .wo⟩]

/-- Table 2-1 and R516: block, type code, first instance, instances, pages per instance, first page index,
default strobe group, DATA_PLANE. The HOL and DMA rows are split where the registers differ (cores and cluster,
channels and common). -/
def pageDir : List DirRow := [
  ⟨.glb, 0x1, 0, 1, 1, 0, 0, false⟩,
  ⟨.boot, 0x2, 0, 1, 1, 1, 0, false⟩,
  ⟨.pcie, 0x3, 0, 1, 1, 2, 0, false⟩,
  ⟨.tim, 0x4, 0, 1, 2, 3, 0, false⟩,
  ⟨.brl, 0x5, 0, 1, 4, 5, 0, false⟩,
  ⟨.prn, 0x6, 0, 1, 4, 9, 0, false⟩,
  ⟨.holc, 0x7, 0, 16, 1, 16, 0, false⟩,
  ⟨.holx, 0x7, 16, 1, 1, 32, 0, false⟩,
  ⟨.dmac, 0x8, 0, 32, 1, 64, 0, false⟩,
  ⟨.dmax, 0x8, 32, 1, 1, 96, 0, false⟩,
  ⟨.okr, 0x9, 0, 10, 1, 128, 0, false⟩,
  ⟨.prs, 0x10, 0, 8, 4, 256, 2, true⟩,
  ⟨.cls, 0x11, 0, 8, 1, 288, 3, true⟩,
  ⟨.rdh, 0x12, 0, 8, 16, 320, 3, true⟩,
  ⟨.edt, 0x13, 0, 8, 1, 448, 7, true⟩,
  ⟨.pol, 0x14, 0, 8, 2, 456, 8, true⟩,
  ⟨.adm, 0x15, 0, 8, 4, 472, 9, true⟩,
  ⟨.lgr, 0x16, 0, 8, 2, 504, 9, false⟩,
  ⟨.gze, 0x17, 0, 8, 2, 520, 10, true⟩,
  ⟨.bpm, 0x18, 0, 8, 2, 536, 10, true⟩,
  ⟨.tel, 0x19, 0, 8, 2, 552, 12, false⟩,
  ⟨.tre, 0x20, 0, 4, 1, 576, 3, true⟩,
  ⟨.lek, 0x21, 0, 4, 2, 580, 4, true⟩,
  ⟨.chd, 0x22, 0, 4, 2, 588, 5, true⟩,
  ⟨.nhp, 0x23, 0, 4, 1, 596, 6, true⟩,
  ⟨.twl, 0x24, 0, 8, 1, 600, 10, true⟩,
  ⟨.pcs, 0x30, 0, 48, 1, 640, 1, true⟩,
  ⟨.egs, 0x31, 0, 48, 2, 704, 11, true⟩,
  ⟨.sds, 0x32, 0, 384, 1, 1024, 1, true⟩,
  ⟨.mac, 0x33, 0, 384, 1, 1536, 1, true⟩,
  ⟨.hch, 0x34, 0, 192, 3, 2048, 13, false⟩]

/-- Table 16-2: the sources of page 0 of a block's instance (of every page, for RDH): reset severity, whether it can
be injected, and the kind of its checker. The configuration-CRC source of R453 is added by `pageSrcs`. -/
def srcsOf : Blk → List Src
  | .hdr => []
  | .glb => [⟨4, false, .mon⟩, ⟨4, false, .mon⟩, ⟨4, false, .mon⟩, ⟨4, false, .crc⟩, ⟨4, false, .crc⟩, ⟨0, true, .crc⟩, ⟨1, false, .mon⟩]
  | .boot => [⟨1, false, .cmp⟩, ⟨1, false, .cmp⟩, ⟨1, false, .crc⟩]
  | .pcie => [⟨0, true, .crc⟩, ⟨1, false, .evt⟩, ⟨1, false, .evt⟩]
  | .tim => [⟨1, false, .evt⟩, ⟨1, false, .evt⟩, ⟨0, true, .crc⟩]
  | .brl => [⟨1, false, .evt⟩, ⟨1, false, .evt⟩, ⟨1, false, .evt⟩, ⟨1, true, .eccU⟩]
  | .prn => [⟨0, true, .crc⟩, ⟨1, false, .evt⟩, ⟨1, false, .evt⟩, ⟨1, false, .evt⟩, ⟨1, false, .evt⟩]
  | .holc => [⟨0, true, .eccC⟩, ⟨1, true, .eccU⟩, ⟨0, false, .evt⟩]
  | .holx => [⟨0, true, .eccC⟩, ⟨1, true, .eccU⟩, ⟨1, true, .eccU⟩, ⟨0, false, .evt⟩, ⟨1, false, .evt⟩, ⟨1, false, .evt⟩]
  | .dmac => [⟨1, false, .evt⟩, ⟨1, false, .evt⟩, ⟨1, false, .evt⟩]
  | .dmax => [⟨1, false, .evt⟩]
  | .okr => [⟨0, true, .eccC⟩, ⟨2, true, .eccU⟩, ⟨3, true, .eccU⟩]
  | .prs => [⟨1, true, .crc⟩, ⟨1, false, .cmp⟩, ⟨0, true, .eccC⟩, ⟨1, true, .eccU⟩]
  | .cls => [⟨0, true, .eccC⟩, ⟨1, true, .eccU⟩, ⟨1, false, .evt⟩]
  | .rdh => [⟨1, true, .cmp⟩, ⟨0, true, .eccC⟩, ⟨1, true, .eccU⟩, ⟨1, false, .evt⟩, ⟨0, true, .cmp⟩]
  | .edt => [⟨0, true, .eccC⟩, ⟨1, true, .eccU⟩]
  | .pol => [⟨0, true, .eccC⟩, ⟨1, true, .eccU⟩, ⟨1, true, .eccU⟩]
  | .adm => [⟨0, true, .eccC⟩, ⟨1, true, .eccU⟩, ⟨1, false, .evt⟩]
  | .lgr => [⟨1, true, .cmp⟩, ⟨1, true, .eccU⟩, ⟨0, true, .eccC⟩]
  | .gze => [⟨0, true, .eccC⟩, ⟨1, true, .eccU⟩, ⟨1, false, .evt⟩]
  | .bpm => [⟨1, true, .eccU⟩, ⟨2, true, .eccU⟩, ⟨1, false, .evt⟩, ⟨1, false, .evt⟩]
  | .tel => [⟨0, true, .eccC⟩, ⟨1, true, .eccU⟩, ⟨0, false, .evt⟩]
  | .tre => [⟨0, true, .eccC⟩, ⟨1, true, .eccU⟩, ⟨1, false, .evt⟩]
  | .lek => [⟨0, true, .eccC⟩, ⟨1, true, .eccU⟩, ⟨1, true, .cmp⟩]
  | .chd => [⟨0, true, .eccC⟩, ⟨1, true, .eccU⟩, ⟨1, true, .crc⟩, ⟨0, false, .evt⟩]
  | .nhp => [⟨0, true, .eccC⟩, ⟨1, true, .eccU⟩, ⟨0, false, .evt⟩]
  | .twl => [⟨0, true, .eccC⟩, ⟨1, true, .eccU⟩, ⟨1, false, .evt⟩]
  | .pcs => [⟨1, false, .evt⟩, ⟨1, false, .evt⟩, ⟨0, false, .evt⟩]
  | .egs => [⟨0, true, .eccC⟩, ⟨1, true, .eccU⟩, ⟨1, false, .evt⟩]
  | .sds => [⟨1, false, .mon⟩, ⟨0, false, .mon⟩]
  | .mac => [⟨0, false, .evt⟩]
  | .hch => [⟨0, true, .eccC⟩, ⟨1, true, .eccU⟩, ⟨1, false, .evt⟩, ⟨2, false, .evt⟩, ⟨2, false, .evt⟩, ⟨1, false, .evt⟩, ⟨2, false, .evt⟩]

end Sys2Proof.Machine
end

