-- ==== Sys2Proof/Machine/Ops.lean ====
section
/-!
DEFINITION. The named operations over bits, stores, pages, registers, objects, counters, events and time that every
family of commands shares.
-/
namespace Sys2Proof.Machine

/-- The outcome type of every meaning. -/
abbrev Out := Host.Outcome State Fault Refusal

/-- A command whose operands name what the device has takes its effect `t` on state `s`; any other stops
(`Fault.noSuchInstance`). No command touches the queue of commands or the core clock: those are the step's. -/
def run (ok : Bool) (s t : State) : Out :=
  if ok then .next { t with pending := s.pending, clk := s.clk } else .fault .noSuchInstance

/-! ### Bits (R8) -/

/-- Bits [hi:lo] of a number. -/
def bitsOf (v hi lo : Nat) : Nat := v / 2 ^ lo % 2 ^ (hi + 1 - lo)

/-- The number with bits [hi:lo] replaced. -/
def putBits (v hi lo x : Nat) : Nat :=
  v - bitsOf v hi lo * 2 ^ lo + x % 2 ^ (hi + 1 - lo) * 2 ^ lo

/-- Bit n of a number. -/
def bit (v n : Nat) : Bool := v / 2 ^ n % 2 == 1

/-- A signed reading of the low `w` bits. -/
def sgn (w v : Nat) : Int := if v % 2 ^ w < 2 ^ (w - 1) then ((v % 2 ^ w : Nat) : Int) else ((v % 2 ^ w : Nat) : Int) - ((2 ^ w : Nat) : Int)

/-- Two's complement of an integer in `w` bits. -/
def unsgn (w : Nat) (x : Int) : Nat := (x % ((2 ^ w : Nat) : Int)).toNat

/-- Division rounded up; zero when dividing by zero. -/
def cdiv (a b : Nat) : Nat := if b = 0 then 0 else (a + b - 1) / b

/-- 1 for true. -/
def b2n (b : Bool) : Nat := if b then 1 else 0

/-! ### Bytes and words (R9-R11) -/

/-- `n` bytes of a number, most significant first. -/
def toBE : Nat → Nat → List Byte
  | 0, _ => []
  | n + 1, v => BitVec.ofNat 8 (v / 256 ^ n) :: toBE n v

/-- `n` bytes of a number, least significant first. -/
def toLE : Nat → Nat → List Byte
  | 0, _ => []
  | n + 1, v => BitVec.ofNat 8 v :: toLE n (v / 256)

/-- The number of a byte string, most significant first. -/
def ofBE (l : List Byte) : Nat := l.foldl (fun a b => a * 256 + b.toNat) 0

/-- The number of a byte string, least significant first. -/
def ofLE : List Byte → Nat
  | [] => 0
  | b :: r => b.toNat + 256 * ofLE r

/-- Byte `i` of a string, zero beyond its end. -/
def byteAt (l : List Byte) (i : Nat) : Nat := (l.getD i 0).toNat

/-- `n` bytes from byte `i`, zero beyond the end. -/
def slice (l : List Byte) (i n : Nat) : List Byte := (List.range n).map fun k => l.getD (i + k) 0

/-- The string with `src` written from byte `i`, as far as it reaches. -/
def patch (l : List Byte) (i : Nat) (src : List Byte) : List Byte :=
  (List.range l.length).map fun k => if i ≤ k ∧ k < i + src.length then src.getD (k - i) 0 else l.getD k 0

/-- A number as `n` 32-bit words, least significant first. -/
def numWords : Nat → Nat → List Nat
  | 0, _ => []
  | n + 1, v => v % 2 ^ 32 :: numWords n (v / 2 ^ 32)

/-- 32-bit words of a byte string, little-endian (R10). -/
def wordsOf : Nat → List Byte → List Word
  | 0, _ => []
  | n + 1, l => BitVec.ofNat 32 (ofLE (slice l 0 4)) :: wordsOf n (l.drop 4)

/-- Bytes of 32-bit words, little-endian (R10). -/
def bytesOf (l : List Word) : List Byte := l.flatMap fun w => toLE 4 w.toNat

/-- One reflected CRC-32C step of a byte (R78: polynomial 0x1EDC6F41 reflected is 0x82F63B78). -/
def crcBit : Nat → Nat → Nat
  | 0, c => c
  | n + 1, c => crcBit n (if c % 2 = 1 then Nat.xor (c / 2) 0x82F63B78 else c / 2)

/-- CRC-32C register after a byte string. -/
def crcRun (init : Nat) (l : List Byte) : Nat := l.foldl (fun c b => crcBit 8 (Nat.xor c b.toNat)) init

/-- CRC-32C with an initial value and the final XOR of R78. -/
def crcFrom (init : Nat) (l : List Byte) : Nat := Nat.xor (crcRun init l) 0xFFFFFFFF

/-- CRC-32C of R78. -/
def crc32c (l : List Byte) : Nat := crcFrom 0xFFFFFFFF l

/-! ### Stores -/

/-- The entry of a key. -/
def storeFind {α : Type} : Store α → Nat → Option α
  | [], _ => none
  | (k', v) :: r, k => if k' = k then some v else storeFind r k

/-- The store with the entry of a key set; keys stay strictly rising. -/
def storePut {α : Type} (k : Nat) (v : α) : Store α → Store α
  | [] => [(k, v)]
  | (k', v') :: r =>
    if k < k' then (k, v) :: (k', v') :: r
    else if k = k' then (k, v) :: r
    else (k', v') :: storePut k v r

/-- The store without the entry of a key. -/
def storeDel {α : Type} (k : Nat) (st : Store α) : Store α := st.filter fun e => e.1 != k

/-- The store with the entry set, or removed when the value is what an unlisted key reads as. -/
def storeSet {α : Type} [DecidableEq α] (d : α) (k : Nat) (v : α) (st : Store α) : Store α :=
  if v = d then storeDel k st else storePut k v st

/-- Keys strictly rising: the canonical form of every store. -/
def storeSorted {α : Type} : Store α → Bool
  | [] => true
  | [_] => true
  | a :: b :: r => decide (a.1 < b.1) && storeSorted (b :: r)

/-- Value of a key, or what an unlisted key reads as. -/
def storeGet {α : Type} (d : α) (st : Store α) (k : Nat) : α := (storeFind st k).getD d

/-! ### Pages (R51) -/

/-- Directory row of a page index. -/
def pageRow (page : Nat) : Option DirRow :=
  pageDir.find? fun r => decide (r.base ≤ page) && decide (page < r.base + r.insts * r.pages)

/-- Directory row of a block. -/
def rowOf (b : Blk) : DirRow := (pageDir.find? fun r => r.blk == b).getD ⟨b, 0, 0, 0, 1, 32768, 0, false⟩

/-- Page index of page `pn` of an instance of a block. -/
def pageOf (b : Blk) (inst pn : Nat) : Nat := (rowOf b).base + (inst - (rowOf b).first) * (rowOf b).pages + pn

/-- Instance number of a page. -/
def instOf (r : DirRow) (page : Nat) : Nat := r.first + (page - r.base) / r.pages

/-- Page number within its instance. -/
def pnumOf (r : DirRow) (page : Nat) : Nat := (page - r.base) % r.pages

/-- Key of the register at an offset of a page. -/
def regKey (page off : Nat) : Nat := page * 4096 + off

/-- Key of word `w` of mailbox object `obj`, index `idx`, of a page. -/
def objKey (page obj idx w : Nat) : Nat := 2 ^ 64 + ((page * 256 + obj) * 2 ^ 24 + idx) * 16 + w

/-- The page a key belongs to. -/
def keyPage (k : Nat) : Nat := if k < 2 ^ 64 then k / 4096 else (k - 2 ^ 64) / 2 ^ 36

/-- Sources of a page with the configuration-CRC source added (R453). -/
def pageSrcs (page : Nat) : List Src :=
  match pageRow page with
  | none => []
  | some r =>
    if pnumOf r page = 0 ∨ r.blk = .rdh then srcsOf r.blk ++ [⟨1, true, .crc⟩] else [⟨1, true, .crc⟩]

/-- Reset value of SEV_MAP0 (sources from 0) or SEV_MAP1 (from 10), per Table 16-2. -/
def sevReset (page first n : Nat) : Nat :=
  (List.range n).foldl (fun a k => a + ((pageSrcs page).getD (first + k) ⟨0, false, .evt⟩).sev * 8 ^ k) 0

/-- The register of a page that holds an offset, with its element number. -/
def regAt (page off : Nat) : Option (Reg × Nat) :=
  match pageRow page with
  | none => none
  | some r =>
    let table := if off < 0x100 then regsHdr else regsOf r.blk
    (table.find? fun g => (off < 0x100 || g.page == pnumOf r page || g.page == 255)
        && decide (g.off ≤ off) && decide (off < g.off + g.count * g.stride)
        && decide ((off - g.off) % g.stride = 0)).map fun g => (g, (off - g.off) / g.stride)

/-- The mailbox object type of a page, if it names one. OBJ 0x02-0x05 of EGS page 1 exist on the first group of a
slice only (R368); the command push objects only on pair K0 (R188). -/
def objAt (page obj : Nat) : Option Obj :=
  match pageRow page with
  | none => none
  | some r =>
    if r.blk = .egs ∧ pnumOf r page = 1 ∧ 2 ≤ obj ∧ instOf r page % 6 ≠ 0 then none
    else if (r.blk = .lek ∨ r.blk = .chd) ∧ pnumOf r page = 0 ∧ obj = 1 ∧ instOf r page ≠ 0 then none
    else (objsOf r.blk).find? fun o => (o.page == pnumOf r page || o.page == 255) && o.obj == obj

/-- The index of an object whose type numbers its counters in fixed strides names one: a counter the table reserves is no object,
and the writer's counters of GZE stand on S0 only (Tables 4-8, 5-13, 8-10, 9-10, 13-13, 15-9; DEDUCED, log entry 110). -/
def idxThere (page obj idx : Nat) : Bool :=
  match pageRow page with
  | none => false
  | some r =>
    match r.blk, pnumOf r page, obj with
    | .prs, 2, 1 => decide (idx % 16 ≤ 9)
    | .cls, 0, 3 => decide (idx % 16 ≤ 6)
    | .prn, 3, 2 => decide (idx % 16 ≤ 12)
    | .adm, 3, 1 => decide (1 ≤ idx % 16) && decide (idx % 16 ≤ 10)
    | .holx, 0, 2 => decide (idx % 8 ≤ 5)
    | .gze, 1, 1 => decide (idx < 3) || instOf r page == 0
    | _, _, _ => true

/-- Reset value of an object word: OVERHEAD +20 of a keeper queue (Table 8-9), owner maxima (R313), shaper burst and
overhead of an egress queue (Table 11-4); every other word is zero. -/
def objReset (b : Blk) (pn obj idx w : Nat) : Nat :=
  match b, pn, obj, w with
  | .adm, 2, 1, 1 => 20
  | .bpm, 0, 1, 1 => if idx = 384 then 16384 else if idx = 385 then 2048 else 4096
  | .egs, 0, 1, 2 => 20 * 2 ^ 24 + 16384
  | _, _, _, _ => 0

/-- What an unlisted key of `act` reads as: the reset value of the register or object word (Table 2-2 on). -/
def resetOf (k : Nat) : Word :=
  let page := keyPage k
  if k < 2 ^ 64 then
    let off := k % 4096
    if off = 0x18 then BitVec.ofNat 32 (sevReset page 0 10)
    else if off = 0x1C then BitVec.ofNat 32 (sevReset page 10 6)
    else if off = 0x24 then BitVec.ofNat 32 ((pageRow page).elim 0 (·.group))
    else BitVec.ofNat 32 ((regAt page off).elim 0 (·.1.reset))
  else match pageRow page with
    | none => 0
    | some r => BitVec.ofNat 32
        (objReset r.blk (pnumOf r page) (k / 2 ^ 28 % 256) (k / 16 % 2 ^ 24) (k % 16))

/-- Fused ordering code as Table 0-2 treats it: 1 H6A, 2 H4A, 3 H6B, 0 unfused (codes 4-15 too). -/
def sku (s : State) : Nat :=
  let c := bitsOf (storeGet (resetOf (regKey 0 0x108)) s.cfg.act (regKey 0 0x108)).toNat 3 0
  if c ≤ 3 then c else 0

/-- Port group absent on the code (R4: M32-M47 of KZ4816-H6B). -/
def groupOff (s : State) (g : Nat) : Bool := sku s == 3 && decide (32 ≤ g)

/-- HBM stack absent on the code (Table 0-1: H2 and H5 of KZ4816-H4A). -/
def stackOff (s : State) (x : Nat) : Bool := sku s == 2 && (x == 2 || x == 5)

/-- The page is implemented on the device's code (R4, R51). -/
def pageThere (s : State) (page : Nat) : Bool :=
  match pageRow page with
  | none => false
  | some r =>
    let i := instOf r page
    match r.blk with
    | .hch => !stackOff s (i / 32)
    | .pcs => !groupOff s i
    | .egs => !groupOff s i
    | .sds => !groupOff s (i / 8)
    | .mac => !groupOff s (i / 8)
    | _ => true

/-- Registers that exist on some instances only: mirror rings and IPFIX identifiers on S0 (Tables 9-8, 12-6), result rings on K0
(Table 6-11). -/
def regThere (page off : Nat) : Bool :=
  match pageRow page with
  | none => false
  | some r =>
    match r.blk with
    | .gze => pnumOf r page == 0 || decide (off < 0x100) || instOf r page == 0
    | .tel => pnumOf r page == 1 || decide (off < 0x120) || decide (0x128 ≤ off) || instOf r page == 0
    | .lek => pnumOf r page == 1 || decide (off < 0x140) || decide (0x154 ≤ off) || instOf r page == 0
    | .chd => pnumOf r page == 1 || decide (off < 0x140) || decide (0x154 ≤ off) || instOf r page == 0
    | _ => true

/-- Key of a field's register: instance `i`, element `n`. -/
def fldKey (f : Fld) (i n : Nat) : Nat := regKey (pageOf f.blk i f.page) (f.off + f.stride * n)

/-! ### Configuration words (R64, R65) -/

/-- Active word of a key. -/
def actW (s : State) (k : Nat) : Word := storeGet (resetOf k) s.cfg.act k

/-- Shadow word of a key: what was written since the last flip, else the active word. -/
def shdW (s : State) (k : Nat) : Word := (storeFind s.cfg.shd k).getD (actW s k)

/-- Word of a key under the previous epoch: what the last data-plane flip replaced, else the active word. -/
def oldW (s : State) (k : Nat) : Word := (storeFind s.cfg.old k).getD (actW s k)

/-- The state with another configuration. -/
def withCfg (s : State) (c : CfgSt) : State := { s with cfg := c }

/-- Set an active word, keeping the canonical form. -/
def setAct (s : State) (k : Nat) (w : Word) : State :=
  { s with cfg := { s.cfg with act := storeSet (resetOf k) k w s.cfg.act } }

/-- Set a shadow word. -/
def setShd (s : State) (k : Nat) (w : Word) : State :=
  { s with cfg := { s.cfg with shd := storePut k w s.cfg.shd } }

/-- Active value of a field: instance `i`, element `n`. -/
def fget (s : State) (f : Fld) (i n : Nat) : Nat := bitsOf (actW s (fldKey f i n)).toNat f.hi f.lo

/-- Shadow value of a field. -/
def fgetS (s : State) (f : Fld) (i n : Nat) : Nat := bitsOf (shdW s (fldKey f i n)).toNat f.hi f.lo

/-- Value of a field under the previous (`old`) or the current epoch. -/
def fgetE (s : State) (old : Bool) (f : Fld) (i n : Nat) : Nat :=
  bitsOf (if old then oldW s (fldKey f i n) else actW s (fldKey f i n)).toNat f.hi f.lo

/-- The device sets a field of the active copy. -/
def fset (s : State) (f : Fld) (i n v : Nat) : State :=
  setAct s (fldKey f i n) (BitVec.ofNat 32 (putBits (actW s (fldKey f i n)).toNat f.hi f.lo v))

/-- Set a one-bit field. -/
def fsetB (s : State) (f : Fld) (i n : Nat) (b : Bool) : State := fset s f i n (b2n b)

/-- Active word of a mailbox object. -/
def oget (s : State) (b : Blk) (i pn obj idx w : Nat) : Nat := (actW s (objKey (pageOf b i pn) obj idx w)).toNat

/-- Word of a mailbox object under the previous or the current epoch. -/
def ogetE (s : State) (old : Bool) (b : Blk) (i pn obj idx w : Nat) : Nat :=
  (if old then oldW s (objKey (pageOf b i pn) obj idx w) else actW s (objKey (pageOf b i pn) obj idx w)).toNat

/-- Shadow word of a mailbox object. -/
def ogetS (s : State) (b : Blk) (i pn obj idx w : Nat) : Nat := (shdW s (objKey (pageOf b i pn) obj idx w)).toNat

/-- The device sets an object word of the active copy. -/
def oset (s : State) (b : Blk) (i pn obj idx w v : Nat) : State :=
  setAct s (objKey (pageOf b i pn) obj idx w) (BitVec.ofNat 32 v)

/-! ### Counters (R48) -/

/-- Largest value of a 64-bit counter. -/
def cntMax : Nat := 2 ^ 64 - 1

/-- Add to a 64-bit counter, saturating. `c` is the counter's place in its object, in 64-bit words. -/
def bumpBy (s : State) (b : Blk) (i pn obj idx c n : Nat) : State :=
  let k := objKey (pageOf b i pn) obj idx (2 * c)
  { s with cfg := { s.cfg with cnt := storeSet 0 k (min cntMax (storeGet 0 s.cfg.cnt k + n)) s.cfg.cnt } }

/-- Add 1 to a 64-bit counter, saturating. -/
def bump (s : State) (b : Blk) (i pn obj idx c : Nat) : State := bumpBy s b i pn obj idx c 1

/-- Value of a 64-bit counter. -/
def count (s : State) (b : Blk) (i pn obj idx c : Nat) : Nat :=
  storeGet 0 s.cfg.cnt (objKey (pageOf b i pn) obj idx (2 * c))

/-- Add 1 to a counting register field, saturating at the field's width. -/
def fbump (s : State) (f : Fld) (i n : Nat) : State :=
  fset s f i n (min (2 ^ (f.hi + 1 - f.lo) - 1) (fget s f i n + 1))

/-! ### Groups and epochs (R59, R65-R71, R516) -/

/-- Strobe group of a page. -/
def groupOf (s : State) (page : Nat) : Nat := bitsOf (actW s (regKey page 0x24)).toNat 3 0

/-- PAGE_CAP.DATA_PLANE of a page (R516). -/
def isDP (page : Nat) : Bool := (pageRow page).elim false (·.dataPlane)

/-- The group holds at least one implemented data-plane page. -/
def groupDP (s : State) (g : Nat) : Bool :=
  pageDir.any fun r => r.dataPlane
    && (List.range (r.insts * r.pages)).any fun k => pageThere s (r.base + k) && groupOf s (r.base + k) == g

/-- The group has a requested flip not yet taken (R67). -/
def groupPending (s : State) (g : Nat) : Bool := s.pg.flips.any fun f => bit f.groups g

/-- Data-plane flips of a group so far; heads latch it as their epoch of the group (R42). -/
def dpEpoch (s : State) (g : Nat) : Nat := storeGet 0 s.pg.dpEp g

/-- A holder of latched epochs `ep` uses the previous epoch of a page's group. -/
def usesOld (s : State) (ep : List Nat) (page : Nat) : Bool :=
  ep.getD (groupOf s page) 0 != dpEpoch s (groupOf s page)

/-- Frame record of a packet number. -/
def pktOf (s : State) (id : Nat) : Option Pkt := s.net.pkts.find? fun p => p.id == id

/-- Latched epochs of an item: those of its packet (R42). -/
def itemEp (s : State) (it : Item) : List Nat := (pktOf s it.pkt).elim [] (·.ep)

/-- GLB.EPOCH_REFS of a group (R71): heads past the holding buffer and accepted items that hold the previous epoch. -/
def epochRefs (s : State) (g : Nat) : Nat :=
  if groupDP s g then
    (s.net.pkts.filter fun p => p.stage != .holding && p.stage != .accepted && p.ep.getD g 0 != dpEpoch s g).length
    + (s.net.items.filter fun it => (itemEp s it).getD g 0 != dpEpoch s g).length
  else 0

/-- Field of a page as a holder of latched epochs reads it (R42). -/
def fgetP (s : State) (ep : List Nat) (f : Fld) (i n : Nat) : Nat :=
  fgetE s (usesOld s ep (pageOf f.blk i f.page)) f i n

/-- Object word of a page as a holder of latched epochs reads it (R42). -/
def ogetP (s : State) (ep : List Nat) (b : Blk) (i pn obj idx w : Nat) : Nat :=
  ogetE s (usesOld s ep (pageOf b i pn)) b i pn obj idx w

/-- The pair whose Leek copy a page holds: page 0 of a LEK instance. -/
def lekPair (page : Nat) : Option Nat := (List.range 4).find? fun k => pageOf .lek k 0 == page

/-- A page's shadow holds something written since the last flip (R64); Leek's shadow half belongs to page 0 of its pair. -/
def pageDirty (s : State) (page : Nat) : Bool :=
  (s.cfg.shd.any fun e => keyPage e.1 == page)
    || (lekPair page).elim false fun k => (storeFind s.tbl.leekLog k).isSome

/-- The active Leek routes of a pair. -/
def leekAct (s : State) (k : Nat) : List Route := storeGet [] s.tbl.leekA k

/-! ### Readiness (R465, R475) -/

/-- PAGE_STATUS.READY of a page: data-plane pages wait for the release (R466, R474); LGR, TEL and HCH only for resets. -/
def pageReady (s : State) (page : Nat) : Bool :=
  pageThere s page && match pageRow page with
    | none => false
    | some r =>
      if r.group = 0 then s.boot.mgmtUp
      else if r.dataPlane then s.boot.dpUp && s.flt.warmAt == none
      else s.boot.mgmtUp && s.flt.warmAt == none && fget s bootStatPhase 0 0 != 7

/-! ### Time (R29, R30, R247, R369): one core clock is 16 units of 0.04 ns -/

/-- Elapsed time in units of 0.04 ns. -/
def nowU (s : State) : Nat := s.clk * 16

/-- Core clocks that cover a number of ns, rounded up. -/
def clksOfNs (ns : Nat) : Nat := cdiv (ns * 25) 16

/-- `ns` nanoseconds have passed since core clock `from`. -/
def passedNs (s : State) (since ns : Nat) : Bool := decide (since * 16 + ns * 25 ≤ nowU s)

/-- Ticks of CLK_TB (40 units) since the root PLL locked, the tick at or before now. -/
def tickNow (s : State) : Nat := (nowU s - s.tim.lockU) / 40

/-- The tick at or after now. -/
def tickNext (s : State) : Nat := cdiv (nowU s - s.tim.lockU) 40

/-- Time base at a tick, in tenths of a nanosecond. -/
def tbAt (s : State) (tick : Nat) : Nat := s.tim.base + (tick - s.tim.baseTick) * 16

/-- Time base at the last tick, in tenths of a nanosecond. -/
def tbNow (s : State) : Nat := tbAt s (tickNow s)

/-- Time base at a port at a moment in units of 0.04 ns, interpolated to 100 ps (R30, R372). -/
def tbUnit (s : State) (u : Nat) : Nat := s.tim.base + (u - s.tim.lockU - s.tim.baseTick * 40) * 4 / 10

/-- Time base at a port `sub` tenths after the core clock. -/
def tbPort (s : State) (sub : Nat) : Nat := tbUnit s (nowU s) + sub

/-- Whole nanoseconds (seconds x 10⁹ + ns) of a time in tenths. -/
def nsOf (t : Nat) : Nat := t / 10

/-- Fraction [15:0] of a time in tenths, truncated to 2⁻¹⁶ ns (R369). -/
def fracOf (t : Nat) : Nat := t % 10 * 65536 / 10

/-- Admission time of a time in tenths (R247). -/
def admOf (t : Nat) : Nat := (t * 65536 / 10) % 2 ^ 48

/-- a is later than b in admission time (R247). -/
def later (a b : Nat) : Bool :=
  let d := (a + 2 ^ 48 - b % 2 ^ 48) % 2 ^ 48
  decide (1 ≤ d) && decide (d ≤ 2 ^ 47 - 1)

/-- The later of two admission times. -/
def admMax (a b : Nat) : Nat := if later a b then a else b

/-- a is later than b in 32-bit serial arithmetic (R195). -/
def later32 (a b : Nat) : Bool :=
  let d := (a + 2 ^ 32 - b % 2 ^ 32) % 2 ^ 32
  decide (1 ≤ d) && decide (d ≤ 2 ^ 31 - 1)

/-- now of an admission (R248). -/
def admNow (s : State) : Nat := admOf (tbAt s (tickNext s))

/-! ### Events, emissions, free values -/

/-- Something leaves the block. -/
def emit (s : State) (e : Emit) : State := { s with out := s.out ++ [e] }

/-- A pulse on an event line: its 16-bit count rises, saturating (R28, R403). -/
def pulse (s : State) (line : Nat) : State :=
  { s with ev := storeSet 0 line (min 65535 (storeGet 0 s.ev line + 1)) s.ev }

/-- A fresh free value below `n`, and the state that has used it. -/
def choose (s : State) (n : Nat) : Nat × State :=
  (Config.freeChoice s.free % n, { s with free := s.free + 1 })

/-- Line number of a new record. -/
def freshId (s : State) : Nat × State := (s.net.nextId, { s with net := { s.net with nextId := s.net.nextId + 1 } })

/-! ### Packets -/

/-- Replace a packet's record. -/
def putPkt (s : State) (p : Pkt) : State :=
  { s with net := { s.net with pkts := s.net.pkts.map fun q => if q.id == p.id then p else q } }

/-- Remove a packet's record. -/
def delPkt (s : State) (id : Nat) : State :=
  { s with net := { s.net with pkts := s.net.pkts.filter fun q => q.id != id } }

/-- Replace an item's record. -/
def putItem (s : State) (it : Item) : State :=
  { s with net := { s.net with items := s.net.items.map fun q => if q.id == it.id then it else q } }

/-- Item of a number. -/
def itemOf (s : State) (id : Nat) : Option Item := s.net.items.find? fun it => it.id == id

/-- State of a queue at reset: idle, empty, full shaper. -/
def queueReset : QueueSt :=
  { v := 0, idle := true, spill := false, lost := false, carry := none, rate := 0, fifo := [], deficit := 0,
    credited := false, tok := 16384 * 65536, gateWait := false, flushDone := false, next := 0, stream := [],
    blks := [], staging := [], badCfg := false, edge := none, shp := none }

/-- State of a port at reset: FULL, no link, hierarchical (MODE resets to 1), full shaper. -/
def portReset : PortSt :=
  { rx := none, rxCtl := [], rxAt := 0, rxDrop := false, pauseEnd := [0, 0, 0, 0, 0, 0, 0, 0], pauseAll := 0, xoffAt := 0, idleAt := 0, wakeAt := none,
    park := .full, parkHeld := none, parkSeq := 0, parkAns := 0, reqs := 0, parkAt := 0, agreed := false, readySent := false,
    readyRcvd := false, recorded := 0, winBytes := 0, winAt := 0, lowWins := 0, failAt := none, wakeReq := false,
    conds := [none, none, none, none, none], upSince := none, loss := false, lossSeen := false, winErr := 0,
    winWhole := false, winMs := 0, retrainDue := none, downAt := none, clearAt := none, cur := 0, tok := 16384 * 65536, shp := none,
    hier := true, recUntil := none, upUntil := none, tx := [], txFree := 0, gatePos := 0, lpiTx := false }

/-- Key of queue `c` (8: multicast) of a port. -/
def qKey (port c : Nat) : Nat := port * 9 + c

/-- State of a queue. -/
def queue (s : State) (port c : Nat) : QueueSt := storeGet queueReset s.net.queues (qKey port c)

/-- Replace a queue's state. -/
def putQueue (s : State) (port c : Nat) (q : QueueSt) : State :=
  { s with net := { s.net with queues := storeSet queueReset (qKey port c) q s.net.queues } }

/-- Dynamic state of a port. -/
def portSt (s : State) (p : Nat) : PortSt := storeGet portReset s.net.ports p

/-- Replace a port's dynamic state. -/
def putPort (s : State) (p : Nat) (x : PortSt) : State :=
  { s with net := { s.net with ports := storeSet portReset p x s.net.ports } }

/-- Slice of a port (R18): slice s serves P(48s) to P(48s + 47). -/
def sliceOf (p : Nat) : Nat := p / 48

/-- Slice an inject queue feeds (IQ_CTL.SLICE, R27). -/
def injSlice (s : State) (q : Nat) : Nat := fget s holxIqCtlSlice 16 q

/-- Ingress slice of a source. -/
def srcSlice (s : State) : Source → Nat
  | .port n => sliceOf n
  | .inject q => injSlice s q

/-- Source index within its slice (R275): n for a port, 48 + q for an inject queue. -/
def srcIdx : Source → Nat
  | .port n => n % 48
  | .inject q => 48 + q

/-- Source as key bytes 144-145 write it (Table 4-4). -/
def srcKey : Source → Nat
  | .port n => n
  | .inject q => 0x8000 + q

/-- PORT_DOWN bit of a port (R206); the four pairs hold one vector. -/
def portDown (s : State) (p : Nat) : Bool := bit (actW s (regKey (pageOf .nhp 0 0) (0x120 + 4 * (p / 32)))).toNat (p % 32)

end Sys2Proof.Machine
end

