-- ==== Sys2Proof/Machine/Firing.lean ====
section
/-!
DEFINITION. A fault source fires (R451-R460, R55): status, interrupt, containment, FAULT_N and the grave stop; fault
injection (R463); the deliverable bandwidth and the effective shares (R331, R333), which containment changes.
Containing a unit here stops its new work; the walk that fails what it holds ends in CONTAINMENT_COMPLETE (R457).
-/
namespace Sys2Proof.Machine

/-- Severity in force of a source on this clock (R451, R455): GLB sources 0-4 are fixed at SEV4; a word written on this clock
applies from the next. -/
def sevOf (s : State) (page src : Nat) : Nat :=
  if page = 0 ∧ src ≤ 4 then 4
  else
    let word := fun (off : Nat) => (storeFind s.pg.was (regKey page off)).getD (actW s (regKey page off)).toNat
    if src < 10 then word 0x18 / 8 ^ src % 8 else word 0x1C / 8 ^ (src - 10) % 8

/-- The interrupt of a source whose INT_STATUS bit goes from 0 to 1 (R55): one MSI-X message while enabled at SEV1 or higher;
such a bit is remembered for INT_N. -/
def intSend (s : State) (page src sev : Nat) : State :=
  if bit (actW s (regKey page 0x10)).toNat src = true ∧ 1 ≤ sev then
    let s1 := emit s (.msix (bitsOf (actW s (regKey page 0x14)).toNat 10 0))
    { s1 with pg := { s1.pg with
        intPin := storeSet 0 page (putBits (storeGet 0 s1.pg.intPin page) src src 1) s1.pg.intPin } }
  else s

/-- INT_STATUS and the interrupt of R55; the firing is remembered for its clock (R56). -/
def notify (s : State) (page src sev : Nat) : State :=
  let k := regKey page 0x0C
  let was := bit (actW s k).toNat src
  let s1 := setAct s k (BitVec.ofNat 32 (putBits (actW s k).toNat src src 1))
  let s2 := { s1 with pg := { s1.pg with fired := s1.pg.fired ++ [(16 * page + src, was)] } }
  if was then s2 else intSend s2 page src sev

/-- INT_N is asserted (R55): a remembered bit of a page with PIN set is still 1. -/
def intN (s : State) : Bool :=
  s.pg.intPin.any fun e =>
    bit (actW s (regKey e.1 0x14)).toNat 16 && decide (Nat.land e.2 (actW s (regKey e.1 0x0C)).toNat ≠ 0)

/-- SEV4 (R460): the grave latch sets, the data plane stops, frames in transmission end with an inverted FCS, and
GRAVE_CAUSE records the first source. -/
def graveStop (s : State) (page src : Nat) : State :=
  let s1 := if fget s glbGraveCauseValid 0 0 = 0
    then fset (fset (fset s glbGraveCauseValid 0 0 1) glbGraveCausePage 0 0 page) glbGraveCauseSrc 0 0 src else s
  let cut := s1.net.ports.flatMap fun e => (e.2.tx.filterMap (itemOf s1)).map fun it => Emit.frame e.1 it.out true
  { s1 with
    out := s1.out ++ cut
    flt := { s1.flt with grave := true, stopped := true }
    net := { s1.net with ports := s1.net.ports.map fun e => (e.1, { e.2 with tx := [] }) } }

/-- GRAVE_N is asserted and every SerDes transmitter is in electrical idle (R460, R461). -/
def graveN (s : State) : Bool := s.flt.grave

/-- SEV3 (R459): FAULT_N asserts, FAULT_CAUSE records the source while it holds none, and the clock of the first such
firing is kept for AUTO_WARM. -/
def resetClass (s : State) (page src : Nat) : State :=
  let s1 := if fget s glbFaultCauseValid 0 0 = 0
    then fset (fset (fset s glbFaultCauseValid 0 0 1) glbFaultCausePage 0 0 page) glbFaultCauseSrc 0 0 src else s
  { s1 with flt := { s1.flt with faultN := true, sev3At := some (s1.flt.sev3At.getD s1.clk) } }

/-- What a firing of SEV3 or SEV4 does beside its page's status and its units (R459, R460). -/
def severe (s : State) (page src sev : Nat) : State :=
  let s1 := if 3 ≤ sev then resetClass s page src else s
  if 4 ≤ sev then graveStop s1 page src else s1

/-- A firing of a source whose page has no containment unit (R456: SEV2 acts as SEV1). -/
def fireLow (s : State) (page src : Nat) : State :=
  if page = 0 ∨ pageReady s page then severe (notify s page src (sevOf s page src)) page src (sevOf s page src) else s

/-- An armed injection for a source reaches its checker (R58, R463): the check is corrupted once, or COUNT times. -/
def takeInj (s : State) (page src : Nat) : Bool × State :=
  let k := regKey page 0x20
  let v := (actW s k).toNat
  let mode := bitsOf v 5 4
  if mode = 0 ∨ bitsOf v 3 0 ≠ src then (false, s)
  else if mode = 1 then (true, setAct s k (BitVec.ofNat 32 (putBits v 5 4 0)))
  else
    let left := bitsOf v 23 8 - 1
    (true, setAct s k (BitVec.ofNat 32 (putBits (putBits v 23 8 left) 5 4 (if left = 0 then 0 else 2))))

/-! ### Channels and bandwidth -/

/-- Channels of the device (R315). -/
def chanN (s : State) : Nat := if sku s = 2 then 128 else 192

/-- HCH instance of a device-wide channel index (R315): KZ4816-H4A skips H2 and H5. -/
def chanInst (s : State) (i : Nat) : Nat :=
  if sku s = 2 then (if i < 64 then i else i + 32) else i

/-- State of a channel by HCH instance (Table 10-5): 0 for an unpopulated stack. -/
def chanState (s : State) (i : Nat) : Nat := if stackOff s (i / 32) then 0 else fget s hchChStatState i 0

/-- Five-thousandths of channel weight: ACTIVE 500, THROTTLED THROTTLE_PCT x 5, times 0.8 at 6.4 Gb/s (R331). -/
def chanWeight (s : State) (i : Nat) : Nat :=
  let w := match chanState s i with
    | 3 => 500
    | 4 => fget s brlThermThrottlePct 0 0 * 5
    | _ => 0
  if fget s brlCtlRate 0 0 = 1 then w * 4 / 5 else w

/-- Deliverable bandwidth d in GB/s (R331). -/
def deliverable (s : State) : Nat :=
  9800 * ((List.range 192).foldl (fun a i => a + chanWeight s i) 0) / (192 * 500)

/-- Effective shares of R333: mirror, overflow classes 0-3, Holtarun, counters. -/
def shares (d mir : Nat) (ovf : List Nat) (hol cnt : Nat) : Nat × List Nat × Nat × Nat :=
  let need := hol + cnt + mir + 2 * (ovf.foldl (· + ·) 0)
  let def0 := need - d
  let em := mir - min mir def0
  let cuts := ovf.foldl (fun (a : Nat × List Nat) o =>
      let cut := min o ((a.1 + 1) / 2)
      (a.1 - 2 * cut, a.2 ++ [o - cut])) (def0 - (mir - em), [])
  let dl := cuts.1
  if 0 < dl ∧ 0 < hol + cnt then
    (em, cuts.2, hol * (hol + cnt - dl) / (hol + cnt), cnt * (hol + cnt - dl) / (hol + cnt))
  else (em, cuts.2, hol, cnt)

/-- Overflow tokens of a slice and class now (R334), in 2⁻¹⁶ token. -/
def ovfTokens (s : State) (es c : Nat) : Nat :=
  if fget s brlCtlEn 0 0 = 0 then 0
  else
    let depth := fget s brlTokDepthTok 0 0 * 65536
    match storeFind s.net.tokens (es * 4 + c) with
    | none => depth
    | some b => min depth (b.c + (s.clk - b.last) * (fget s brlEffOvfGbs 0 c * 65536 / 4000))

/-- What the buckets of state `s` hold now stands in `t`: the clocks before a change of the shares gain at the shares before it. -/
def settleTokens (s t : State) : State :=
  if fget s brlCtlEn 0 0 = 0 then t
  else { t with net := { t.net with tokens := (List.range 32).map fun k => (k, ⟨ovfTokens s (k / 4) (k % 4), 0, s.clk⟩) } }

/-- The effective shares are derived again (R333); each change of one fires BRL source 1 and is counted. -/
def deriveShares (s0 : State) : State :=
  let s := settleTokens s0 s0
  let d := deliverable s
  let s1 := fset s brlDeliverableGbs 0 0 d
  let r := shares d (fget s brlMirrorGbs 0 0) ((List.range 4).map (fget s brlOvfGbs 0)) (fget s brlHolGbs 0 0)
    (fget s brlCntGbs 0 0)
  let upd := fun (a : State) (f : Fld) (n v : Nat) =>
    if fget a f 0 n = v then a else bump (fireLow (fset a f 0 n v) 5 1) .brl 0 2 1 1 0
  let s2 := upd s1 brlEffMirrorGbs 0 r.1
  let s3 := (List.range 4).foldl (fun a c => upd a brlEffOvfGbs c (r.2.1.getD c 0)) s2
  upd (upd s3 brlEffHolGbs 0 r.2.2.1) brlEffCntGbs 0 r.2.2.2

/-! ### Containment units -/

/-- Sub-port of the group that a lane belongs to in a layout word: the start of the port that covers it. -/
def laneOwner (layout lane : Nat) : Option Nat :=
  (List.range 8).find? fun sp =>
    let c := bitsOf layout (3 * sp + 10) (3 * sp + 8)
    decide (1 ≤ c) && decide (c ≤ 4) && decide (sp ≤ lane) && decide (lane < sp + 2 ^ (c - 1))

/-- Containment units of a source (Table 16-3); none where the table gives none. -/
def unitsOf (s : State) (page src : Nat) : List Cunit :=
  match pageRow page with
  | none => []
  | some r =>
    let i := instOf r page
    match r.blk with
    | .prs => [.slice i] | .cls => [.slice i] | .rdh => [.slice i] | .edt => [.slice i] | .pol => [.slice i]
    | .adm => [.slice i] | .gze => [.slice i] | .bpm => [.slice i]
    | .lek => [.pair i] | .chd => [.pair i] | .nhp => [.pair i] | .tre => [.pair i]
    | .okr =>
      if src = 1 then []
      else if i < 4 then [.pair i]
      else if stackOff s (i - 4) then [] else (List.range 32).map fun c => .chan (32 * (i - 4) + c)
    | .twl => [.lane i]
    | .egs => [.sched i]
    | .pcs => (List.range 8).map fun n => .port (8 * i + n)
    | .sds => match laneOwner (actW s (regKey (pageOf .pcs (i / 8) 0) 0x100)).toNat (i % 8) with
      | none => []
      | some sp => [.port (8 * (i / 8) + sp)]
    | .mac => [.port i]
    | .hch => [.chan i]
    | .holc => [.core i]
    | .dmac => [.dma i]
    | _ => []

/-- The unit takes no new work: it is containing or contained. -/
def isContained (s : State) (u : Cunit) : Bool :=
  s.flt.contained.contains u || s.flt.containing.any fun e => e.1 == u

/-- The unit has stopped taking new work: from the core clock after the firing that contains it (R456). -/
def isShut (s : State) (u : Cunit) : Bool :=
  s.flt.contained.contains u || s.flt.containing.any fun e => e.1 == u && decide (e.2 < s.clk)

/-- Cells in a stage-A queue (R278): those of its list that have been handed over, as far as its limit lets them in. -/
def stageACount (s : State) (sl lane kind : Nat) : Nat :=
  let n := (s.net.stageA.find? fun q => q.slice == sl && q.lane == lane && q.kind == kind).elim 0
    fun q => (q.cells.filter fun t => decide (t.ready ≤ s.clk)).length
  match kind with
  | 1 => min n (fget s gzeSaCfgALimit sl 0)
  | 2 => min n (fget s gzeSaCfgMcLimit sl 0)
  | _ => n

/-- Lane with the smallest value among those allowed; the lowest numbered among equals. -/
def coolest (val : Nat → Nat) (ok : Nat → Bool) : Option Nat :=
  ((List.range 8).filter ok).foldl (fun (a : Option Nat) j =>
    match a with
    | none => some j
    | some b => if val j < val b then some j else some b) none

/-- The unit begins containment: it takes no new work from the next clock (R456 step 1). A middle lane's flowlet
buckets move at once to the coolest other lane. -/
def beginContain (s : State) (u : Cunit) : State :=
  if isContained s u then s
  else
    let s1 := { s with flt := { s.flt with containing := s.flt.containing ++ [(u, s.clk)] } }
    match u with
    | .lane j =>
      (List.range 8).foldl (fun a sl =>
        match coolest (fun l => stageACount a sl l 1) (fun l => l != j && !isContained a (.lane l)) with
        | none => a
        | some l => { a with net := { a.net with
            flowlet := storePut (2 ^ 20 + 8 * sl + j) (l, 0) a.net.flowlet } }) s1
    | _ => s1

/-- A fault source fires (R451): every effect of its severity class. A source of a page that is not READY does not
fire, but the GLB sources stay active (R465). HCH source 6 contains its channel at every severity (R455). -/
def fire (s : State) (page src : Nat) : State :=
  if page = 0 ∨ pageReady s page then
    let sev := sevOf s page src
    let s1 := notify s page src sev
    let hch6 := (pageRow page).elim false fun r => r.blk == .hch && src == 6
    let s2 := if 2 ≤ sev ∨ hch6 then (unitsOf s1 page src).foldl beginContain s1 else s1
    severe s2 page src sev
  else s

/-- The data plane runs: released, not in warm reset, not stopped by SEV4 (R460, R461). -/
def running (s : State) : Bool := s.boot.dpUp && s.flt.warmAt == none && !s.flt.stopped

/-- A check of a corrected/uncorrectable pair of sources with their counters: an injected corrected error is counted
and fires the first, an injected uncorrectable one is counted and fires the second and is reported. -/
def eccCheck (s : State) (page c u : Nat) (cntC cntU : State → State) : Bool × State :=
  let a := takeInj s page c
  let s1 := if a.1 then fire (cntC a.2) page c else a.2
  let b := takeInj s1 page u
  (b.1, if b.1 then fire (cntU b.2) page u else b.2)

end Sys2Proof.Machine
end

