-- ==== Sys2Proof/Machine/Access.lean ====
section
/-!
DEFINITION. Writes to register pages as R51-R62 judge them: locks, reserved encodings, fields by access code; strobe
requests (R66-R69); the configuration CRC (R78-R80).
-/
namespace Sys2Proof.Machine

/-! ### Locks (R60, R61) -/

/-- Key of a page's lock for a requester. -/
def lockKey (req : Requester) (page : Nat) : Nat := page * 2 + (if req = .host then 0 else 1)

/-- The page is unlocked for a requester. -/
def isUnlocked (s : State) (req : Requester) (page : Nat) : Bool := s.pg.unlocked.contains (lockKey req page)

/-- Lock or unlock a page for a requester. -/
def setLock (s : State) (req : Requester) (page : Nat) (open_ : Bool) : State :=
  let k := lockKey req page
  let l := s.pg.unlocked.filter (· != k)
  { s with pg := { s.pg with unlocked := if open_ then k :: l else l } }

/-- A write to UNLOCK (R60, R61): the key unlocks, anything else locks. -/
def unlockWrite (s : State) (req : Requester) (page : Nat) (v : Nat) : State :=
  setLock s req page (v % 65536 == 0x6B7A)

/-! ### Fields -/

/-- The field takes a value from a write, so that a reserved encoding in it counts (R53). -/
def carried : Acc → Bool
  | .ro => false
  | .w1c => false
  | _ => true

/-- Some carried field holds a reserved encoding (R53). -/
def reservedIn (fl : List Fld) (v : Nat) : Bool :=
  fl.any fun f => carried f.acc && (decide (bitsOf v f.hi f.lo < f.min) || decide (f.max < bitsOf v f.hi f.lo))

/-- Active word of a register after a write: RW takes it, KY takes the keyed write, W1C clears (R52, R61, R62). -/
def writeWord (fl : List Fld) (keyed : Bool) (old v : Nat) : Nat :=
  fl.foldl (fun w f =>
    match f.acc with
    | .rw => putBits w f.hi f.lo (bitsOf v f.hi f.lo)
    | .ky => if keyed then putBits w f.hi f.lo (bitsOf v f.hi f.lo) else w
    | .w1c => putBits w f.hi f.lo (Nat.land (bitsOf w f.hi f.lo) (bitsOf (2 ^ 32 - 1 - v % 2 ^ 32) f.hi f.lo))
    | _ => w) old

/-- Shadow word of a register after a write (R64). -/
def shadowWord (fl : List Fld) (old v : Nat) : Nat :=
  fl.foldl (fun w f => if f.acc == .sh then putBits w f.hi f.lo (bitsOf v f.hi f.lo) else w) old

/-- A write of a register by the access codes of its fields; SH fields are frozen while the page's group is pending
(R67). -/
def plainWrite (s : State) (page off : Nat) (keyed : Bool) (v : Nat) : State :=
  match regAt page off with
  | none => s
  | some g =>
    if reservedIn g.1.flds v then s
    else
      let k := regKey page off
      let s1 := setAct s k (BitVec.ofNat 32 (writeWord g.1.flds keyed (actW s k).toNat v))
      if g.1.flds.any (fun f => f.acc == .sh) && !groupPending s (groupOf s page)
      then setShd s1 k (BitVec.ofNat 32 (shadowWord g.1.flds (shdW s k).toNat v)) else s1

/-! ### The header's own rules -/

/-- A word about to be written keeps its value as the clock began (R448, R451). -/
def wordKept (s : State) (page off : Nat) : State :=
  let k := regKey page off
  if (storeFind s.pg.was k).isSome then s
  else { s with pg := { s.pg with was := storePut k (actW s k).toNat s.pg.was } }

/-- Severity map write (R57): codes 5-7 in a source's field are reserved; the field of a fixed source and the fields
beyond NSRC ignore writes. `first` is the map's first source. -/
def sevWrite (s : State) (page off first n : Nat) (keyed : Bool) (v : Nat) : State :=
  let k := regKey page off
  let own := (List.range n).filter fun j =>
    decide (first + j < (pageSrcs page).length) && !(page == 0 && decide (first + j ≤ 4))
  if own.any fun j => decide (4 < v / 8 ^ j % 8) then s
  else if keyed then
    setAct s k (BitVec.ofNat 32 (own.foldl (fun w j => putBits w (3 * j + 2) (3 * j) (v / 8 ^ j)) (actW s k).toNat))
  else s

/-- INT_STATUS write (R55, R56): cleared bits no longer hold INT_N. A source that fired on this clock keeps its bit, and sends
a new message where the bit was set before it fired. -/
def intWrite (s : State) (page v : Nat) : State :=
  let k := regKey page 0x0C
  let now := fun n => s.pg.fired.find? fun e => e.1 == 16 * page + n
  let clr := (List.range 16).filter fun n => bit v n && bit (actW s k).toNat n
  let st := (clr.filter fun n => (now n).isNone).foldl (fun w n => putBits w n n 0) (actW s k).toNat
  let s1 := setAct s k (BitVec.ofNat 32 st)
  let s2 := { s1 with pg := { s1.pg with
      intPin := storeSet 0 page (Nat.land (storeGet 0 s1.pg.intPin page) st) s1.pg.intPin } }
  (clr.filter fun n => (now n).elim false (·.2)).foldl (fun a n => intSend a page n (sevOf a page n)) s2

/-- INJECT write (R58, R463): MODE 3 and MODE 2 with COUNT 0 are reserved. -/
def injectWrite (s : State) (page : Nat) (keyed : Bool) (v : Nat) : State :=
  if bitsOf v 5 4 = 2 ∧ bitsOf v 23 8 = 0 then s else plainWrite s page 0x20 keyed v

/-- UPD_GROUP write (R59). The page's active copy then serves both epochs of its new group, Leek's copy of the pair with its
LEK page. -/
def updGroupWrite (s : State) (page v : Nat) : State :=
  if groupPending s (groupOf s page) || pageDirty s page || (isDP page && decide (0 < epochRefs s (groupOf s page)))
  then s
  else
    let s1 := plainWrite s page 0x24 false v
    if groupOf s1 page = groupOf s page then s1
    else
      let s2 := { s1 with cfg := { s1.cfg with old := s1.cfg.old.filter fun e => keyPage e.1 != page } }
      match lekPair page with
      | none => s2
      | some k => { s2 with tbl := { s2.tbl with leekO := storeDel k s2.tbl.leekO } }

/-! ### Strobe requests (R66-R69) -/

/-- A strobe request for the groups of a mask, not to be taken before clock `ready`; `timed` names a timed strobe. Requests
of one set on one clock are one request (R66). A flip that requests join keeps the latest of their earliest clocks (DESIGN
CHOICE, log entry 102). -/
def strobe (s : State) (mask ready : Nat) (timed : Option Nat) : State :=
  let m := mask % 65536
  let t := (timed.map fun n => (n, s.clk)).toList
  if m = 0 then s
  else if s.pg.flips.any (fun f => f.reqs.contains (m, s.clk)) then
    let joined := s.pg.flips.map fun (f : FlipReq) =>
      if f.reqs.contains (m, s.clk) then { f with ready := max f.ready ready, timed := f.timed ++ t } else f
    { s with pg := { s.pg with flips := joined } }
  else
    let hit := s.pg.flips.filter fun f => Nat.land f.groups m != 0
    let rest := s.pg.flips.filter fun f => Nat.land f.groups m == 0
    let s1 := (List.range 16).foldl (fun a g =>
      if bit m g && groupPending s g
      then fset a glbEpochStatAbsorbed 0 g (min 15 (fget a glbEpochStatAbsorbed 0 g + 1)) else a) s
    let f := hit.foldl (fun (a : FlipReq) x =>
      { a with groups := Nat.lor a.groups x.groups, reqs := x.reqs.filter (·.2 == s.clk) ++ a.reqs
               ready := max a.ready x.ready, timed := x.timed ++ a.timed })
      ⟨m, [(m, s.clk)], ready, t⟩
    { s1 with pg := { s1.pg with flips := rest ++ [f] } }

/-- A request by a write to UPDATE_STROBE or by a DMA pulse: at least 8 core clocks (R68). -/
def strobeSlow (s : State) (mask : Nat) : State := strobe s mask (s.clk + 8) none

/-! ### Configuration CRC (R78-R80) -/

/-- The field counts in the page's CRC. -/
def crcField (f : Fld) : Bool := f.acc == .rw || f.acc == .sh || f.acc == .ky

/-- Register words of a page that CFG_CRC covers, in offset order. -/
def crcWords (s : State) (page : Nat) : List Word :=
  let w := fun (off : Nat) (fl : List Fld) =>
    BitVec.ofNat 32 (fl.foldl (fun a f =>
      if crcField f then a + bitsOf (actW s (regKey page off)).toNat f.hi f.lo * 2 ^ f.lo else a) 0)
  let head := [0x10, 0x14, 0x18, 0x1C, 0x24].map fun off => w off ((regAt page off).elim [] (·.1.flds))
  let body : List Reg := match pageRow page with
    | none => []
    | some r => (regsOf r.blk).filter fun (g : Reg) => (g.page == pnumOf r page || g.page == 255) && g.flds.any crcField
  let offs : Store (List Fld) := body.foldl (fun a (g : Reg) =>
    ((List.range g.count).filter fun n => regThere page (g.off + n * g.stride)).foldl (fun a n =>
      storePut (g.off + n * g.stride) g.flds a) a) []
  head ++ offs.map fun (e : Nat × List Fld) => w e.1 e.2

/-- CFG_CRC_NOW of a page. -/
def pageCrc (s : State) (page : Nat) : Nat := crc32c (bytesOf (crcWords s page))

/-- Number of a page's configuration-CRC source (R453): the last of its sources. -/
def crcSrc (page : Nat) : Nat := (pageSrcs page).length - 1

/-- Set one bit of PAGE_STATUS. -/
def setStatus (s : State) (page n : Nat) (b : Bool) : State :=
  let k := regKey page 0x08
  setAct s k (BitVec.ofNat 32 (putBits (actW s k).toNat n n (b2n b)))

/-- One comparison (R80): `key` names the run, 32768 the global one, `page` the page that reports it. CRC_MISMATCH shows the
page's own run; the global run fires GLB source 7 and sets no bit (DESIGN CHOICE, log entry 103). An injection inverts the
check. -/
def crcJudge (s : State) (key page : Nat) (same : Bool) : State :=
  let r := takeInj s page (crcSrc page)
  let show_ := fun (a : State) (b : Bool) => if key = 32768 then a else setStatus a page 2 b
  if same && !r.1 then
    show_ { r.2 with pg := { r.2.pg with crcRun := storeDel key r.2.pg.crcRun } } false
  else
    let n := min 3 (storeGet 0 r.2.pg.crcRun key + 1)
    let s1 := { r.2 with pg := { r.2.pg with crcRun := storePut key n r.2.pg.crcRun } }
    if n = 2 then fire (show_ s1 true) page (crcSrc page) else s1

/-- Implemented pages in ascending order. -/
def allPages (s : State) : List Nat :=
  pageDir.flatMap fun r => ((List.range (r.insts * r.pages)).map (r.base + ·)).filter (pageThere s)

/-- The group's last flip came after the sweep that ends now had begun. -/
def flipCut (s : State) (g : Nat) : Bool := (storeFind s.pg.flipAt g).elim false fun t => decide (s.pg.sweepAt < t)

/-- A sweep ends (R78-R80): every page whose group has not flipped since it began has a new CRC; comparisons while
enabled; the global CRC; the next sweep begins. -/
def crcSweep (s : State) : State :=
  let pages := allPages s
  let en := fget s glbCrcCtlEnable 0 0 == 1
  let s1 := pages.foldl (fun a p =>
    if flipCut a (groupOf a p) then a
    else
      let c := pageCrc a p
      let a1 := setAct a (regKey p 0x38) (BitVec.ofNat 32 c)
      if en then crcJudge a1 p p (c == (actW a1 (regKey p 0x3C)).toNat) else a1) s
  let g := crc32c (bytesOf (pages.map fun p => actW s1 (regKey p 0x38)))
  let s2 := fset s1 glbCrcGlobalNowCrc 0 0 g
  let s3 := if en && !((List.range 16).any (flipCut s2))
    then crcJudge s2 32768 0 (g == fget s2 glbCrcGlobalRefCrc 0 0) else s2
  let s4 := fbump s3 glbCrcCtlSweeps 0 0
  { s4 with pg := { s4.pg with sweepAt := s.clk } }

/-- CFG_CRC_SWEEP (R78): the sweep that began 1 ms ago ends. -/
def execCfgCrcSweep (s : State) : Out := run true s (if passedNs s s.pg.sweepAt 1000000 then crcSweep s else s)

end Sys2Proof.Machine
end

