-- ==== Sys2Proof/Machine/Okra.lean ====
section
/-!
DEFINITION. The Okra sequencers' control stores (R476, R477): the check of a fetched word, on which every routine rests.
-/
namespace Sys2Proof.Machine

/-- Control store of a sequencer. -/
def okraOf (s : State) (i : Nat) : OkraSt := (s.tbl.okr.find? fun o => o.inst == i).getD ⟨i, [], []⟩

/-- Replace a control store. -/
def putOkra (s : State) (o : OkraSt) : State :=
  { s with tbl := { s.tbl with okr := s.tbl.okr.filter (fun x => x.inst != o.inst) ++ [o] } }

/-- OKR.STAT.HOOKS and PATCHED follow the valid hooks. -/
def showOkra (s : State) (i : Nat) : State :=
  let n := ((okraOf s i).hooks.filter fun h => bit h 31).length
  fsetB (fset s okrStatHooks i 0 n) okrStatPatched i 0 (n != 0)

/-- A sequencer fetches the words of a routine (R476). False: a base word was uncorrectable, and the routine does not
execute. A patch word that is uncorrectable clears every hook, and the routine restarts at its base entry. -/
def okraFetch (s : State) (i : Nat) : Bool × State :=
  let page := pageOf .okr i 0
  let a := takeInj s page 0
  let s1 := if a.1 then fire (bump a.2 .okr i 0 3 0 0) page 0 else a.2
  let b := takeInj s1 page 1
  let s2 := if b.1 then
      fire (showOkra (putOkra (fset (bump (bump b.2 .okr i 0 3 1 0) .okr i 0 3 3 0) okrStatBaseOnly i 0 1)
        { okraOf b.2 i with hooks := [] }) i) page 1
    else b.2
  let c := takeInj s2 page 2
  if c.1 then (false, fire (bump c.2 .okr i 0 3 2 0) page 2) else (true, c.2)

end Sys2Proof.Machine
end

