-- ==== Sys2Proof/Machine/Packets.lean ====
section
/-!
DEFINITION. What happens to packets whichever family handles them: the ledger and its counters (R44, R268, R269, R274),
owners and cells (R292-R296), descriptors (R289), mirror records (R308), the end of a head and of an accepted item.
-/
namespace Sys2Proof.Machine

/-! ### Slice events -/

/-- A slice event of R414: every enabled counter of the slice that selects it counts. -/
def sliceEvt (s : State) (sl e : Nat) : State :=
  (List.range 16).foldl (fun a k =>
    let w := oget a .holx 16 0 6 (16 * sl + k) 0
    if bit w 31 && w % 32 == e then bump a .holx 16 0 7 (16 * sl + k) 0 else a) s

/-! ### Ledger -/

/-- An increment of an LGR counter (R274): the check may find it corrected (source 2) or uncorrectable (source 1), when
it reads all ones and the checks of its slice stop until it is cleared. -/
def lgrBump (s : State) (sl obj idx c n : Nat) : State :=
  let page := pageOf .lgr sl 0
  let a := takeInj s page 2
  let s1 := if a.1 then fireLow a.2 page 2 else a.2
  let b := takeInj s1 page 1
  let s2 := bumpBy b.2 .lgr sl 1 obj idx c n
  if b.1 then
    let s3 := bumpBy (fireLow s2 page 1) .lgr sl 1 obj idx c cntMax
    { s3 with net := { s3.net with noCheck := s3.net.noCheck ++ [objKey (pageOf .lgr sl 1) obj idx (2 * c)] } }
  else s2

/-- The ledger counts an item against its source, its tenant and the slice's totals (R269, Table 8-10).
`what`: 0 accepted, 1 delivered, 2 delivered late, 3 failed. -/
def ledger (s : State) (sl : Nat) (src : Source) (tenant what : Nat) : State :=
  lgrBump (lgrBump (lgrBump s sl 1 (srcIdx src) what 1) sl 3 tenant what 1) sl 4 0 what 1

/-- Byte counts of the ledger (R269): `what` as in `ledger`, 0-2. The tenant's byte counters follow its five packet
counters (Table 8-10). -/
def ledgerBytes (s : State) (sl : Nat) (src : Source) (tenant what n : Nat) : State :=
  lgrBump (lgrBump s sl 1 (srcIdx src) (4 + what) n) sl 3 tenant (5 + what) n

/-- Failed by reason (LGR OBJ 0x02). -/
def ledgerReason (s : State) (sl : Nat) (src : Source) (reason : Nat) : State :=
  lgrBump s sl 2 (2 * srcIdx src + (reason - 1) / 8) ((reason - 1) % 8) 1

/-- Received frame length including FCS, when the tail is in. -/
def frameLen (p : Pkt) : Nat := if p.tail then p.rcvd else 0

/-! ### Descriptors and owners -/

/-- Descriptors an egress slice holds on chip (ADM.DESC_ON_USED). -/
def descOn (s : State) (es : Nat) : Nat := (s.net.items.filter fun it => it.es == es && !it.brl).length

/-- Burlap-resident descriptors an egress slice holds (ADM.DESC_BRL_USED). -/
def descBrl (s : State) (es : Nat) : Nat := (s.net.items.filter fun it => it.es == es && it.brl).length

/-- Descriptors held by packets of an ingress slice (R270). -/
def descOf (s : State) (sl : Nat) : Nat := (s.net.items.filter fun it => it.islice == sl).length

/-- Key of an owner's use. -/
def ownKey (es o : Nat) : Nat := es * 512 + o

/-- USED of an owner. -/
def usedOf (s : State) (es o : Nat) : Nat := storeGet 0 s.net.used (ownKey es o)

/-- Shared cells of a slice (R293). -/
def sharedSize (s : State) (es : Nat) : Int :=
  (98304 : Int) - 3072 - (fget s bpmPfPoolCells es 0 : Int)
    - (((List.range 386).foldl (fun a o => a + oget s .bpm es 0 1 o 0 % 2 ^ 17) 0 : Nat) : Int)

/-- Shared cells in use (R293); owners that hold nothing use none. -/
def sharedUsed (s : State) (es : Nat) : Nat :=
  (s.net.used.filter fun e => e.1 / 512 == es).foldl
    (fun a e => a + (e.2 - oget s .bpm es 0 1 (e.1 % 512) 0 % 2 ^ 17)) 0

/-- The owner can be granted `n` cells (R293). -/
def ownerFits (s : State) (es o n : Nat) : Bool :=
  let u := usedOf s es o
  let mn := oget s .bpm es 0 1 o 0 % 2 ^ 17
  decide (u + n ≤ oget s .bpm es 0 1 o 1 % 2 ^ 17)
    && decide (((sharedUsed s es + ((u + n - mn) - (u - mn)) : Nat) : Int) ≤ sharedSize s es)

/-- Charge cells to an owner; the peak follows (BPM OBJ 0x02). -/
def charge (s : State) (es o n : Nat) : State :=
  let u := usedOf s es o + n
  { s with net := { s.net with
      used := storeSet 0 (ownKey es o) u s.net.used
      peak := storeSet 0 (ownKey es o) (max u (storeGet 0 s.net.peak (ownKey es o))) s.net.peak } }

/-- Give cells back to an owner. -/
def uncharge (s : State) (es o n : Nat) : State :=
  { s with net := { s.net with used := storeSet 0 (ownKey es o) (usedOf s es o - n) s.net.used } }

/-- Cells of a slice that are in a chain now. -/
def cellTaken (s : State) (es loc : Nat) : Bool :=
  s.net.chains.any fun c => c.es == es && c.cells.any fun x => x.loc == loc && x.ref != 0

/-- First number from `x` on, modulo `n`, that is not taken; the second argument bounds the search. -/
def nextFree (taken : Nat → Bool) (n : Nat) : Nat → Nat → Nat
  | 0, x => x
  | k + 1, x => if taken x then nextFree taken n k ((x + 1) % n) else x

/-- `n` free Gauze cells of a slice; which ones is the device's choice (free value, log entry 8). -/
def takeCells : Nat → State → Nat → Nat → List Cell → List Cell × State
  | 0, s, _, _, acc => (acc, s)
  | n + 1, s, es, ref, acc =>
    let r := choose s 98304
    let loc := nextFree (fun l => cellTaken r.2 es l || acc.any fun x => x.loc == l) 98304 98304 r.1
    takeCells n r.2 es ref (acc ++ [⟨loc, ref, false⟩])

/-- Allocate a chain of `n` cells for a packet's pass in an egress slice, each with a reference count (R288, R296, R298). -/
def allocChain (s : State) (pkt es pass owner n ref : Nat) (lat : List Nat) (eng : Bool) : State :=
  let r := takeCells n s es ref []
  let s1 := charge r.2 es owner n
  { s1 with net := { s1.net with chains := s1.net.chains ++ [⟨pkt, es, pass, owner, r.1, lat, eng⟩] } }

/-- Chain of a packet's pass in an egress slice. -/
def chainOf (s : State) (pkt es pass : Nat) : Option Chain :=
  s.net.chains.find? fun c => c.pkt == pkt && c.es == es && c.pass == pass

/-- Replace a chain; one whose cells have all been freed goes (its cells return to the free list). -/
def putChain (s : State) (c : Chain) : State :=
  let cs := s.net.chains.map fun d => if d.pkt == c.pkt && d.es == c.es && d.pass == c.pass then c else d
  { s with net := { s.net with chains := cs.filter fun d => d.cells.any fun x => x.ref != 0 } }

/-- One reference of each cell from `first` up to `stop` is given up (R296). A count of zero found is an underflow:
nothing is freed, it is counted, and BPM source 2 fires. -/
def dropRefs (s : State) (pkt es pass first stop : Nat) : State :=
  match chainOf s pkt es pass with
  | none => s
  | some c =>
    let hit := fun (i : Nat) => decide (first ≤ i) && decide (i < stop)
    let idx := c.cells.zip (List.range c.cells.length)
    let under := (idx.filter fun e => hit e.2 && e.1.ref == 0).length
    let freed := (idx.filter fun e => hit e.2 && e.1.ref == 1).length
    let cells := idx.map fun e => if hit e.2 then { e.1 with ref := e.1.ref - 1 } else e.1
    let s1 := uncharge (putChain s { c with cells := cells }) es c.owner freed
    if under = 0 then s1 else fire (bumpBy s1 .bpm es 1 3 0 4 under) (pageOf .bpm es 0) 2

/-! ### Mirroring (R307, R308) -/

/-- Metadata of a mirror record (Table 9-2). -/
def mirrorMeta (p : Pkt) (port cls : Nat) (mc : Bool) (disp reason : Nat) (out : Option Nat) (brl cut re : Bool) :
    List Byte :=
  let sec := fun (t : Nat) => nsOf t / 1000000000 % 2 ^ 32
  let ns := fun (t : Nat) => nsOf t % 1000000000
  toLE 4 (ns p.arr) ++ toLE 4 (sec p.arr) ++ toLE 4 (out.elim 0 ns) ++ toLE 4 (out.elim 0 sec)
    ++ toLE 2 (fracOf p.arr) ++ toLE 2 (out.elim 0 fracOf) ++ toLE 2 (srcKey p.src)
    ++ toLE 2 (port % 512 + 512 * (cls % 8) + 4096 * b2n mc) ++ toLE 2 p.res.tenant
    ++ toLE 1 disp ++ toLE 1 reason ++ toLE 2 (frameLen p)
    ++ toLE 1 (min 128 (if p.tail then p.data.length - 4 else p.data.length))
    ++ toLE 1 (b2n brl + 2 * b2n cut + 4 * b2n re)

/-- First 128 bytes of the frame as received, zeros beyond the data length (R307). -/
def mirrorHead (p : Pkt) : List Byte :=
  slice (p.data.take (if p.tail then p.data.length - 4 else p.data.length)) 0 128

/-- Staging slots of a slice in use (R307, R308): of packets that still make records, and of those whose records the writer has yet
to take. -/
def slotsUsed (s : State) (sl : Nat) : Nat :=
  let mine := (s.net.pkts.filter fun q => q.slice == sl && q.staged).map (·.id)
  let late := ((s.net.mirIn.filter fun r => r.slice == sl).map (·.pkt)).eraseDups
  mine.length + (late.filter fun id => !mine.contains id).length

/-- A record of a mirrored packet is made and goes to the writer (R308, R309); those of S4-S7 cross the die link (R22). -/
def mirror (s : State) (p : Pkt) (port cls : Nat) (mc : Bool) (disp reason : Nat) (out : Option Nat)
    (brl cut re : Bool) : State :=
  match p.res.mirror with
  | none => s
  | some r =>
    if p.staged then
      { s with net := { s.net with mirIn := s.net.mirIn ++
          [⟨r, p.slice, p.id, s.clk + (if p.slice < 4 then 0 else 6),
            mirrorHead p ++ mirrorMeta p port cls mc disp reason out brl cut re⟩] } }
    else s

/-- The mirror record the writer takes at this clock: the first to arrive, of the lowest slice among equals (R309). -/
def mirrorNext (s : State) : Option MirRec :=
  s.net.mirIn.foldl (fun (a : Option MirRec) r =>
    if s.clk < r.since then a
    else match a with
      | none => some r
      | some b => if r.since < b.since ∨ (r.since = b.since ∧ r.slice < b.slice) then some r else a) none

/-- The writer takes one record at a core clock (R309); a full queue discards and counts it (R310). The staging slot is checked as
it is read (R311): header bytes it cannot correct are free (log entry 119). -/
def mirrorTick (s : State) : State :=
  match mirrorNext s with
  | none => s
  | some r =>
    let s1 := bump { s with net := { s.net with mirIn := s.net.mirIn.erase r } } .gze r.slice 1 1 2 0
    let e := eccCheck s1 (pageOf .gze r.slice 0) 0 1 (fun a => bump a .gze r.slice 0 2 6 0) (fun a => bump a .gze r.slice 0 2 7 0)
    let w := if e.1 then choose e.2 (2 ^ 64) else (0, e.2)
    let r1 := if e.1 then { r with bytes := patch r.bytes 0 (toBE 8 w.1) } else r
    if w.2.net.mirq.length < 256 then { w.2 with net := { w.2.net with mirq := w.2.net.mirq ++ [r1] } }
    else bump w.2 .gze 0 1 1 3 0

/-! ### Heads that leave -/

/-- Add a frame's counters named by its contributing records: packet and byte count of the received frame (R151). -/
def countActions (s : State) (p : Pkt) : State :=
  p.res.counters.foldl (fun a c =>
    bumpBy (bump a .cls p.slice 0 2 c 0) .cls p.slice 0 2 c 1 (frameLen p)) s

/-- A head leaves the pipeline: its context and epochs are released (R35, R71). A frame whose tail has not come keeps
its record until it does, for the counts the tail settles. -/
def headGone (s : State) (p : Pkt) : State :=
  if p.tail then delPkt s p.id else putPkt s { p with stage := .accepted, staged := false }

/-- A head dropped before acceptance leaves (R414). -/
def dropGone (s : State) (p : Pkt) : State := headGone (sliceEvt s p.slice 4) p

/-- A head is dropped before acceptance after classification: a mirror record of a drop (Table 9-3), and it leaves. -/
def dropHead (s : State) (p : Pkt) (code : Nat) : State :=
  dropGone (mirror s p 0 0 false 4 code none false false false) p

/-- Refusal counter of a source and reason (ADM page 3 OBJ 0x01, R259). -/
def countRefusal (s : State) (sl : Nat) (src : Source) (reason : Nat) : State :=
  bump s .adm sl 3 1 (16 * srcIdx src + reason) 0

/-- A head is refused (R259): counted against its source, its tenant and the target queue if it has one. -/
def refuse (s : State) (p : Pkt) (reason : Nat) (target : Option (Nat × Nat)) : State :=
  let s1 := lgrBump (countRefusal (sliceEvt s p.slice 3) p.slice p.src reason) p.slice 3 p.res.tenant 4 1
  let s2 := match target with
    | none => s1
    | some t => bump s1 .adm (sliceOf t.1) 2 3 (8 * (t.1 % 48) + t.2) 1
  headGone (mirror s2 p (target.elim 0 (·.1)) (target.elim 0 (·.2)) false 3 reason none false false false) p

/-! ### Items that end -/

/-- Unicast items (or copies for queue 8) of a queue. -/
def queueItems (s : State) (port c : Nat) : List Item :=
  s.net.items.filter fun it => it.port == port && it.cls == c

/-- Positions of a queue's spill stream are left: Burlap blocks without a position return to the free list (R302); with no cell left
on the way the queue is out of spill state (R304). -/
def leaveStream (s : State) (port cls : Nat) (pick : SpillCell → Bool) : State :=
  let q := queue s port cls
  if q.stream.any pick then
    let stream := q.stream.filter fun c => !pick c
    let keep := fun (b : Nat × Nat) => stream.any (fun c => c.pos / 8 == b.1)
    let gone := q.blks.filter fun b => !keep b
    let next := if stream.isEmpty then cdiv q.next 8 * 8 else q.next
    let s1 := putQueue s port cls { q with
      stream := stream, blks := q.blks.filter keep
      next := next, staging := q.staging.filter fun b => stream.any fun c => c.pos / 8 == b.1
      spill := q.spill && stream.any fun c => c.st != .gauze }
    { s1 with net := { s1.net with blocks := s1.net.blocks.filter fun b =>
        !(b.1 == sliceOf port && gone.any fun g => g.2 == b.2) } }
  else s

/-- Remove an item from its queue's list. -/
def offList (s : State) (it : Item) : State :=
  let q := queue s it.port it.cls
  putQueue s it.port it.cls { q with fifo := q.fifo.filter (· != it.id) }

/-- Remove an item from its queue, with its positions in the spill stream. -/
def unqueue (s : State) (it : Item) : State := leaveStream (offList s it) it.port it.cls fun c => c.item == it.id

/-- Cells of a re-steered item leave the slice it came from (R296, R306): one of them, or all that are left. They are in the chain of
the pass before, or were read into the prefetch pool for the queue it came from. -/
def leaveOld (s : State) (it : Item) (idx : Option Nat) : State :=
  if it.pass = 0 ∨ it.mc = true then s
  else match s.net.chains.find? fun c => c.pkt == it.pkt && c.pass + 1 == it.pass with
    | some c =>
      let s1 := dropRefs s c.pkt c.es c.pass (idx.getD 0) (idx.elim c.cells.length (· + 1))
      { s1 with net := { s1.net with chains := s1.net.chains.filter fun d => d.cells.any fun x => x.ref != 0 } }
    | none => match s.net.queues.find? fun e => e.2.stream.any fun c => c.item == it.id with
      | none => s
      | some e => leaveStream s (e.1 / 9) (e.1 % 9) fun c => c.item == it.id && idx.elim true (c.idx == ·)

/-- The queue's last descriptor is released: it becomes idle, and fresh after a lost state (R250, R274). A carry runs on to its V
(R264), but for one of a lost state. -/
def idleIfEmpty (s : State) (port c : Nat) : State :=
  if c < 8 ∧ (queueItems s port c).isEmpty then
    let q := queue s port c
    putQueue s port c { q with idle := true, lost := false, carry := if q.lost then none else q.carry }
  else s

/-- What a conservation check of a slice takes at its edge (R270). -/
def checkNow (s : State) (sl trig : Nat) : Check :=
  let c := fun n => count s .lgr sl 1 4 0 n
  let held := descOf s sl
  { slice := sl, trig := trig, time := admOf (tbNow s)
    diff := (c 0 : Int) - c 1 - c 2 - c 3 - held, held := held
    skip := (List.range 4).any (fun n => c n == cntMax) || s.net.noCheck.any fun k => keyPage k == pageOf .lgr sl 1 }

/-- The descriptors of an ingress slice have fallen to zero: a conservation check is due, at most once per µs, if
QUIESCENT_EN is 1 (R270). -/
def quiescent (s : State) (sl : Nat) : State :=
  if descOf s sl = 0 ∧ fget s lgrChkCtlQuiescentEn sl 0 = 1 ∧
      (match storeFind s.net.quiet sl with | none => true | some t => passedNs s t 1000) = true then
    { s with net := { s.net with checks := s.net.checks ++ [checkNow s sl 2]
                                 quiet := storePut sl s.clk s.net.quiet } }
  else s

/-- An item ends (R268): its ledger counts, its descriptor, its epoch references, the cells it has not sent and its
queue positions, all at this clock; after a SEV4 stop none does (R272). `disp`: 0 delivered, 1 delivered late, 2 failed with `reason` (Table 8-6). -/
def dispose (s : State) (it : Item) (disp reason : Nat) (out : Option Nat) : State :=
  if s.flt.stopped then s else
  let s0 := if disp = 0 then s else sliceEvt s it.islice (13 + disp)
  let s1 := ledger s0 it.islice it.src it.tenant (disp + 1)
  let s2 := if disp = 2 then ledgerReason s1 it.islice it.src reason else s1
  let s3 := match pktOf s2 it.pkt with
    | none => s2
    | some p => mirror (if disp < 2 then ledgerBytes s2 it.islice it.src it.tenant (disp + 1) (frameLen p) else s2)
        p it.port (if it.mc then p.res.tc else it.cls) it.mc disp reason out it.brl it.cut it.resteered
  let s4 := if disp = 1 ∧ it.cls < 8 then bump s3 .adm it.es 2 3 (8 * (it.port % 48) + it.cls) 2 else s3
  let inLater := (chainOf s4 it.pkt it.es it.pass).elim false fun c => c.later.contains it.id
  let s5 := if inLater
    then match chainOf s4 it.pkt it.es it.pass with
      | none => s4
      | some c => putChain s4 { c with later := c.later.filter (· != it.id) }
    else dropRefs s4 it.pkt it.es it.pass it.sent it.cells
  let s6 := leaveOld (unqueue s5 it) it none
  let s7 := { s6 with net := { s6.net with
    items := s6.net.items.filter fun x => x.id != it.id
    ports := s6.net.ports.map fun e => (e.1, { e.2 with tx := e.2.tx.filter (· != it.id) }) } }
  let s8 := idleIfEmpty s7 it.port it.cls
  let s9 := match pktOf s8 it.pkt with
    | none => s8
    | some p => if p.tail && p.stage == .accepted && !(s8.net.items.any fun x => x.pkt == it.pkt) then delPkt s8 it.pkt
      else s8
  quiescent s9 it.islice

/-- An accepted item ends failed with a reason. -/
def fail (s : State) (it : Item) (reason : Nat) : State :=
  let s1 := if reason = 1 then bump s .nhp (it.port / 96) 0 5 (8 * (it.port % 96) + 5) 0 else s
  dispose s1 it 2 reason none

/-- Every item that a test picks fails with a reason, oldest first. A copy already being transmitted ends with an
inverted FCS (R39, R337) and is counted by its MAC. -/
def failWhere (s : State) (pick : Item → Bool) (reason : Nat) : State :=
  if s.flt.stopped then s else
  (s.net.items.filter pick).foldl (fun a it =>
    match itemOf a it.id with
    | none => a
    | some x =>
      let a1 := if x.place == .sending then bump (emit a (.frame x.port x.out true)) .mac x.port 0 1 13 0 else a
      fail a1 x reason) s

/-- A slice refuses its heads: it is contained (R271). -/
def sliceShut (s : State) (sl : Nat) : Bool := isShut s (.slice sl)

end Sys2Proof.Machine
end

