-- ==== Sys2Proof/Machine/Rates.lean ====
section
/-!
DEFINITION. What a port is (R82, R88), the rates it runs and guarantees (R347, R348), carries (R264), gate schedules
(R359-R363), the blocking time (R350), and the mode edges of hierarchical service (R353, R354).
-/
namespace Sys2Proof.Machine

/-! ### Port modes -/

/-- Lane speed in Gb/s of a lane rate code (Table 3-1). -/
def laneGbps : Nat → Nat
  | 1 => 10 | 2 => 25 | 3 => 50 | 4 => 100 | 5 => 200 | _ => 0

/-- Width code of sub-port n in a LAYOUT word (Table 3-3). -/
def widthCode (layout n : Nat) : Nat := bitsOf layout (3 * n + 10) (3 * n + 8)

/-- Lanes of a width code. -/
def lanesOf (code : Nat) : Nat := if 1 ≤ code ∧ code ≤ 4 then 2 ^ (code - 1) else 0

/-- Lane rate code of the quad of sub-port n. -/
def rateCode (layout n : Nat) : Nat := if n < 4 then bitsOf layout 2 0 else bitsOf layout 6 4

/-- FEC codes a combination of lane rate and width allows, the default first (Table 3-2); none where the combination
is absent. -/
def fecAllowed (rate lanes : Nat) : List Nat :=
  match rate, lanes with
  | 5, 8 => [3, 4] | 5, 4 => [3, 4] | 5, 2 => [3, 4] | 5, 1 => [3, 4]
  | 4, 8 => [3] | 4, 4 => [3] | 4, 2 => [3] | 4, 1 => [3]
  | 3, 8 => [3] | 3, 4 => [3] | 3, 2 => [3] | 3, 1 => [3]
  | 2, 4 => [2] | 2, 2 => [2] | 2, 1 => [2, 1]
  | 1, 4 => [0, 1] | 1, 1 => [0, 1]
  | _, _ => []

/-- Key of the LAYOUT register of a group. -/
def layoutKey (g : Nat) : Nat := regKey (pageOf .pcs g 0) 0x100

/-- Key of the FEC_MODE register of a group. -/
def fecKey (g : Nat) : Nat := regKey (pageOf .pcs g 0) 0x104

/-- Mode of a port in given LAYOUT and FEC_MODE words: lane rate code, lanes, FEC code. -/
def modeIn (layout fec n : Nat) : Option (Nat × Nat × Nat) :=
  let w := lanesOf (widthCode layout n)
  if w = 0 then none else some (rateCode layout n, w, bitsOf fec (4 * n + 3) (4 * n))

/-- Mode of a port under the active layout. -/
def portMode (s : State) (p : Nat) : Option (Nat × Nat × Nat) :=
  if groupOff s (p / 8) then none
  else modeIn (actW s (layoutKey (p / 8))).toNat (actW s (fecKey (p / 8))).toNat (p % 8)

/-- Full speed of a port in Gb/s; 0 where no port starts. -/
def fullGbps (s : State) (p : Nat) : Nat := (portMode s p).elim 0 fun m => laneGbps m.1 * m.2.1

/-- Receive and transmit path latency in ns (Table 3-5). -/
def latNs (s : State) (p : Nat) : Nat × Nat :=
  match portMode s p with
  | none => (0, 0)
  | some m =>
    match laneGbps m.1 * m.2.1, m.2.2 with
    | 1600, 4 => (150, 95) | 1600, _ => (120, 80)
    | 800, 4 => (150, 95) | 800, _ => (135, 85)
    | 400, 4 => (190, 110) | 400, _ => (160, 95)
    | 200, 4 => (230, 125) | 200, _ => (200, 110)
    | 100, _ => (260, 130)
    | 50, _ => (350, 165)
    | 25, 1 => (250, 140) | 25, _ => (420, 190)
    | 40, 1 => (300, 160) | 40, _ => (110, 70)
    | 10, 1 => (300, 160) | 10, _ => (110, 70)
    | _, _ => (0, 0)

/-- PCS.LAT_INFO.TX_NS of a port. -/
def txNs (s : State) (p : Nat) : Nat := (latNs s p).2

/-- The port's width and lane rate allow parking (R102). -/
def parkable (s : State) (p : Nat) : Bool :=
  (portMode s p).elim false fun m => (m.2.1 == 8 && (m.1 == 4 || m.1 == 5)) || (m.2.1 == 4 && m.1 == 5)

/-- The port may park (R102). -/
def mayPark (s : State) (p : Nat) : Bool :=
  parkable s p && fget s macParkCtlEn p 0 == 1 && fget s macParkPeerPeerKz p 0 == 1

/-- The port drives half of its lanes: the lower half while parked or waking (R102, Table 3-10). -/
def halved (s : State) (p : Nat) : Bool := (portSt s p).park == .parked || (portSt s p).park == .waking

/-- MAC.PORT_STAT.CUR_GBPS: the port's rate after parking. -/
def curGbps (s : State) (p : Nat) : Nat := if halved s p then fullGbps s p / 2 else fullGbps s p

/-- Rate used by admission (Table 3-11). -/
def admGbps (s : State) (p : Nat) : Nat := if (portSt s p).park == .full then fullGbps s p else fullGbps s p / 2

/-- BLOCK_NS of a port (R350). -/
def blockNs (s : State) (p : Nat) : Nat :=
  let full := fullGbps s p * 1000
  cdiv 129184000 (if mayPark s p then full / 2 else full)

/-- PCS.PORT_STAT.LINK of a port. -/
def linkUp (s : State) (p : Nat) : Bool := fget s pcsPortStatLink (p / 8) (p % 8) == 1

/-! ### Queues of a port -/

/-- Word of a queue's configuration object in the active copy (Table 11-4): EGS state belongs to the queue, so it is
read without an epoch. -/
def qcfg (s : State) (p q w : Nat) : Nat := oget s .egs (p / 8) 0 1 (9 * (p % 8) + q) w

/-- The queue is enabled and not flushing. -/
def queueOn (s : State) (p q : Nat) : Bool := bit (qcfg s p q 3) 0 && !bit (qcfg s p q 3) 1 && !(queue s p q).badCfg

/-- Quantum of a queue in a service mode. -/
def quantum (s : State) (p q : Nat) (hier : Bool) : Nat :=
  if hier then bitsOf (qcfg s p q 0) 31 16 else bitsOf (qcfg s p q 0) 15 0

/-- R_p in Mb/s (R347) at a port rate in Gb/s. -/
def portMbps (s : State) (p gbps : Nat) : Nat :=
  let r := gbps * 1000
  let shp := fget s egsPortShpRateRateMbps (p / 8) (p % 8)
  if (portSt s p).hier && shp != 0 then min r shp else r

/-! ### Gate schedules (R359-R363) -/

/-- A gate schedule is active on the port. -/
def gateOn (s : State) (p : Nat) : Bool := fget s egsGateCtlEn (p / 8) (p % 8) == 1

/-- CYCLE_NS of a port. -/
def gateCycle (s : State) (p : Nat) : Nat := fget s egsGateCycleCycleNs (p / 8) (p % 8)

/-- Entries of the active list laid out in one cycle: length in ns and gates; cut off at the cycle's end, the last
entry holding until it (R359). One past the end has length 0. -/
def gateList (s : State) (p : Nat) : List (Nat × Nat) :=
  let n := fget s egsGateCtlEntries (p / 8) (p % 8)
  let cyc := gateCycle s p
  let ent := fun e w => oget s .egs (p / 8) 1 1 (256 * (p % 8) + e) w
  ((List.range n).foldl (fun (a : Nat × List (Nat × Nat)) e =>
    let len := if e + 1 = n then cyc - a.1 else min (bitsOf (ent e 0) 29 0) (cyc - a.1)
    (a.1 + len, a.2 ++ [(len, bitsOf (ent e 1) 8 0)])) (0, [])).2

/-- The entries that the cycle reaches. -/
def gateSegs (s : State) (p : Nat) : List (Nat × Nat) := (gateList s p).filter fun e => e.1 != 0

/-- BASE of the schedule in ns. -/
def gateBase (s : State) (p : Nat) : Nat :=
  (fget s egsGateBaseSecLoSec (p / 8) (p % 8) + fget s egsGateBaseSecHiSec (p / 8) (p % 8) * 2 ^ 32) * 1000000000
    + fget s egsGateBaseNsNs (p / 8) (p % 8)

/-- Position in the cycle, in tenths of a ns, of a time in tenths (R359: cycles run before BASE as well). -/
def gateAt (s : State) (p t : Nat) : Nat :=
  let c := gateCycle s p * 10
  if c = 0 then 0 else (((t : Int) - (gateBase s p * 10 : Nat)) % ((c : Nat) : Int)).toNat

/-- The segments from a position on: the rest of the current one, then those after it, once around. -/
def gateFrom : List (Nat × Nat) → List (Nat × Nat) → Nat → List (Nat × Nat)
  | [], seen, _ => seen
  | (len, g) :: r, seen, x =>
    if x < len * 10 then (len * 10 - x, g) :: r.map (fun e => (e.1 * 10, e.2)) ++ seen ++ [(x, g)]
    else gateFrom r (seen ++ [(len * 10, g)]) (x - len * 10)

/-- Current entry of the list at a position. -/
def gatePosOf : List (Nat × Nat) → Nat → Nat → Nat
  | [], _, n => n - 1
  | (len, _) :: r, x, n => if x < len * 10 then n else gatePosOf r (x - len * 10) (n + 1)

/-- Time in tenths of a ns until the gate of queue q closes, seen `TX_NS + 40` ns ahead (R360); 0 when it is closed,
none when it never closes. -/
def gateLeft (s : State) (p q : Nat) : Option Nat :=
  if gateOn s p then
    let segs := gateFrom (gateSegs s p) [] (gateAt s p (tbPort s 0 + (txNs s p + 40) * 10))
    if segs.all fun e => bit e.2 q then none
    else some ((segs.takeWhile fun e => bit e.2 q).foldl (fun a e => a + e.1) 0)
  else none

/-- Segments of one queue as (length, open), rotated to begin with a closed one, with equal neighbours joined. -/
def gateRuns (s : State) (p q : Nat) : List (Nat × Bool) :=
  let l := (gateSegs s p).map fun e => (e.1, bit e.2 q)
  let k := (l.takeWhile fun e => e.2).length
  ((l.drop k ++ l.take k).foldl (fun (a : List (Nat × Bool)) e =>
    match a with
    | [] => [e]
    | x :: r => if x.2 = e.2 then (x.1 + e.1, x.2) :: r else e :: x :: r) []).reverse

/-- W × R_p (R363): the line time of a 16,148-byte frame, kept exact as bits × 1,000. -/
def gateW : Nat := 16148 * 8000

/-- U_c × R_p (R363). -/
def gateU (s : State) (p q rp : Nat) : Nat :=
  (gateRuns s p q).foldl (fun a e => if e.2 then a + (e.1 * rp - gateW) else a) 0

/-- GATE_NS_c (R363): the longest stretch of the cycle in which a 16,148-byte frame cannot start; lengths are multiplied by R_p until
the rounding at the end. -/
def gateNs (s : State) (p q rp : Nat) : Nat :=
  if !gateOn s p then 0
  else
    let runs := gateRuns s p q
    if runs.all fun e => e.2 then 0
    else
      let parts := runs.flatMap fun e =>
        if e.2 && decide (gateW ≤ e.1 * rp) then [(e.1 * rp - gateW, true), (gateW, false)] else [(e.1 * rp, false)]
      if parts.all fun e => !e.2 then gateCycle s p
      else
        let k := (parts.takeWhile fun e => !e.2).length
        cdiv ((parts.drop k ++ parts.take k).foldl (fun (a : Nat × Nat) e =>
          if e.2 then (0, a.2) else (a.1 + e.1, max a.2 (a.1 + e.1))) (0, 0)).2 rp

/-! ### Guaranteed rates (R347, R348) -/

/-- RATE_c of a class queue. -/
def rateOf (s : State) (p c : Nat) : Nat :=
  let hier := (portSt s p).hier
  let rp := portMbps s p (admGbps s p)
  let sum := (List.range 9).foldl (fun a q => if queueOn s p q then a + quantum s p q hier else a) 0
  let r1 := if sum = 0 ∨ queueOn s p c = false then 0 else rp * quantum s p c hier / sum
  let shp := bitsOf (qcfg s p c 1) 20 0
  let r2 := if hier && shp != 0 then min r1 shp else r1
  if gateOn s p then r2 * gateU s p c rp / (gateCycle s p * rp) else r2

/-- RATE_c of every class queue is derived again (R348). With `carry`, a decrease on a queue that is not idle starts the
carry of R264: the rate before the edge is kept until the V held at it. The derivations of one clock count as one, from the
rate and carry before the first. -/
def deriveRates (s : State) (p : Nat) (carry : Bool) : State :=
  (List.range 8).foldl (fun a c =>
    let q := queue a p c
    let r := rateOf a p c
    let e : RateEdge := match q.edge with
      | some x => if x.at_ = s.clk then { x with carries := x.carries || carry } else ⟨s.clk, q.rate, q.carry, carry⟩
      | none => ⟨s.clk, q.rate, q.carry, carry⟩
    let k := if e.carries && decide (r < e.rate) && !q.idle
      then some (q.v, max e.rate (e.carry.elim 0 (·.2))) else e.carry
    if r = q.rate ∧ k = q.carry then a
    else putQueue a p c { q with rate := r, carry := k, edge := some e }) s

/-! ### Hierarchical service (R352-R357) -/

/-- Rate and burst words of a class shaper in force (R358). -/
def shpWords (s : State) (p q : Nat) : Nat × Nat := (queue s p q).shp.getD (qcfg s p q 1, qcfg s p q 2)

/-- Rate and burst words of the port shaper, as configured. -/
def portShpCfg (s : State) (p : Nat) : Nat × Nat :=
  ((actW s (fldKey egsPortShpRateRateMbps (p / 8) (p % 8))).toNat, (actW s (fldKey egsPortShpBurstBurst (p / 8) (p % 8))).toNat)

/-- Rate and burst words of the port shaper in force (R358). -/
def portShpWords (s : State) (p : Nat) : Nat × Nat := (portSt s p).shp.getD (portShpCfg s p)

/-- RATE_MBPS, BURST in 2⁻¹⁶ byte, and the signed OVERHEAD of a shaper's words: both kinds have one layout. -/
def shpRate (w : Nat × Nat) : Nat := bitsOf w.1 20 0
def shpDepth (w : Nat × Nat) : Nat := bitsOf w.2 23 0 * 65536
def shpOvh (w : Nat × Nat) : Int := sgn 8 (bitsOf w.2 31 24)

/-- Word of a subscriber node of a slice (EGS page 1 of group M(6k)). -/
def nodeW (s : State) (sl n w : Nat) : Nat := oget s .egs (6 * sl) 1 2 n w

/-- Depth of a node's bucket in 2⁻¹⁶ byte. -/
def nodeBurst (s : State) (sl n : Nat) : Nat := bitsOf (nodeW s sl n 1) 23 0 * 65536

/-- Tokens of a node now (R355): the bucket is full until it is first used. -/
def nodeTok (s : State) (sl n : Nat) : Nat :=
  let full := nodeBurst s sl n
  match storeFind s.net.nodes (sl * 2048 + n) with
  | none => full
  | some b => min full (b.c + (s.clk - b.last) * (bitsOf (nodeW s sl n 0) 20 0 * 65536 / 12500))

/-- Every shaper and node bucket of a port is full (R354). -/
def fillBuckets (s : State) (p : Nat) : State :=
  let s1 := putPort s p { portSt s p with tok := (shpDepth (portShpWords s p) : Int) }
  let s2 := (List.range 9).foldl (fun a q => putQueue a p q { queue a p q with tok := (shpDepth (shpWords a p q) : Int) }) s1
  { s2 with net := { s2.net with nodes := s2.net.nodes.filter fun e =>
      !(e.1 / 2048 == sliceOf p && bitsOf (nodeW s2 (sliceOf p) (e.1 % 2048) 2) 8 0 == p) } }

/-- EGS.PORT_STAT.HIER and REC of a port follow its state. -/
def showHier (s : State) (p : Nat) : State :=
  let x := portSt s p
  fsetB (fsetB s egsPortStatHier (p / 8) (p % 8) x.hier) egsPortStatRec (p / 8) (p % 8)
    (x.recUntil.isSome || x.upUntil.isSome)

/-- The port enters hierarchical mode (R354); an entry while it is in it changes nothing but the hold (R353). -/
def hierEntry (s : State) (p : Nat) : State :=
  if (portSt s p).hier then showHier s p
  else
    let s1 := bump (putPort s p { portSt s p with hier := true }) .egs (p / 8) 0 4 (p % 8) 0
    showHier (deriveRates (fillBuckets s1 p) p true) p

/-- The port leaves hierarchical mode (R354). -/
def hierExit (s : State) (p : Nat) : State :=
  showHier (deriveRates (putPort s p { portSt s p with hier := false, recUntil := none, upUntil := none }) p true) p

/-- PORT_CFG.MODE of a port. -/
def serviceMode (s : State) (p : Nat) : Nat := fget s egsPortCfgMode (p / 8) (p % 8)

/-- Clocks of a port's HOLD_MS. -/
def holdClks (s : State) (p : Nat) : Nat := clksOfNs (fget s egsPortCfgHoldMs (p / 8) (p % 8) * 1000000)

/-- Some class queue of the port is in spill state. -/
def anySpill (s : State) (p : Nat) : Bool := (List.range 8).any fun c => (queue s p c).spill

/-- The port's holds have passed (R353, Table 11-1): HOLD_MS after the last PORT_DOWN set, and, for its own clear, with
no class queue in spill state. -/
def holdsPast (s : State) (p : Nat) : Bool :=
  let x := portSt s p
  x.recUntil.elim true (fun t => decide (t ≤ s.clk))
    && x.upUntil.elim true (fun t => decide (t ≤ s.clk) && !anySpill s p)

/-- The holds of a port at a core clock (R353): each ends at its own exit edge. -/
def holdEnds (s : State) (p : Nat) : State :=
  let x := portSt s p
  let rec_ := x.recUntil.filter fun t => decide (s.clk < t)
  let up := x.upUntil.filter fun t => decide (s.clk < t) || anySpill s p
  if rec_ = x.recUntil ∧ up = x.upUntil then s else showHier (putPort s p { x with recUntil := rec_, upUntil := up }) p

/-- The holds of the ports that run one. -/
def holdTick (s : State) : State :=
  ((s.net.ports.filter fun e => e.2.recUntil.isSome || e.2.upUntil.isSome).map (·.1)).foldl holdEnds s

/-! ### Blocking rule (R350, R351) -/

/-- The port breaks R350 under the slice's active ADM.PATH_ON. -/
def blockBroken (s : State) (p : Nat) : Bool :=
  fullGbps s p != 0
    && decide (fget s admPathOnTwillNs (sliceOf p) 0 + fget s admPathOnEgressNs (sliceOf p) 0 < blockNs s p + 40)

/-- BLOCK_NS and BLOCK_VIOL of a port follow its mode (R350, R351); EGS source 2 fires when a PCS or MAC change breaks
the rule. -/
def showBlock (s : State) (p : Nat) : State :=
  let g := p / 8
  let n := p % 8
  let s1 := fset s egsPortStatBlockNs g n (blockNs s p)
  let was := fget s1 egsPortStatBlockViol g n == 1
  let now := blockBroken s1 p
  let s2 := fsetB s1 egsPortStatBlockViol g n now
  if now && !was then fire s2 (pageOf .egs g 0) 2 else s2

end Sys2Proof.Machine
end

