-- ==== Sys2Proof/Machine/Mem.lean ====
section
/-!
DEFINITION. Bytes behind the registers: Burlap's address map, its 72-bit words and their check bits (R314-R320, R326), and
Holtarun's memory (R405).
-/
namespace Sys2Proof.Machine

/-! ### Burlap's map -/

/-- Bytes of the interleaved space per channel (GEN). -/
def genBytes (s : State) : Nat := if sku s = 2 then 704 * 2 ^ 20 else 720 * 2 ^ 20

/-- Gs: first address of the descriptor store. -/
def gsOf (s : State) : Nat := chanN s * genBytes s

/-- Bytes of Burlap. -/
def burlapTop (s : State) : Nat := chanN s * 768 * 2 ^ 20

/-- First address of the mirror rings (Table 10-1). -/
def mirrorBase (s : State) : Nat := if sku s = 2 then 0x14C0000000 else 0x2080000000

/-- First address of the counter-spill region. -/
def spillBase (s : State) : Nat := mirrorBase s + 2 ^ 29

/-- HOL_BASE: first address of the Holtarun window. -/
def holBase (s : State) : Nat := mirrorBase s + 2 ^ 30

/-- A Burlap address of which only bits [35:0] are held (a mirror ring's base, a DMA descriptor): the bits above are those all the
regions its requester may reach share (log entry 23). -/
def addr36 (s : State) (a : Nat) : Nat := mirrorBase s / 2 ^ 36 * 2 ^ 36 + a % 2 ^ 36

/-- Interleave grain in bytes. -/
def grain (s : State) : Nat := 256 * 2 ^ fget s brlCtlGrain 0 0

/-- Device-wide channel index and channel-local address of a Burlap address (R318, R320). -/
def burlapAt (s : State) (a : Nat) : Nat × Nat :=
  let n := chanN s
  if a < gsOf s then
    let g := grain s
    let u := a / g
    let q := u / n
    let r := u % n
    let fold := if fget s brlCtlMode 0 0 = 1
      then Nat.xor (Nat.xor q (q / 2 ^ 6)) (Nat.xor (q / 2 ^ 12) (q / 2 ^ 18)) % 64 else 0
    (64 * (r / 64) + Nat.xor (r % 64) fold, q * g + a % g)
  else
    let k := (a - gsOf s) / 32
    (k % n, genBytes s + 32 * (k / n) + a % 32)

/-- Burlap address of a channel-local address: the inverse of `burlapAt`. -/
def burlapFrom (s : State) (i ca : Nat) : Nat :=
  let n := chanN s
  if ca < genBytes s then
    let g := grain s
    let q := ca / g
    let fold := if fget s brlCtlMode 0 0 = 1
      then Nat.xor (Nat.xor q (q / 2 ^ 6)) (Nat.xor (q / 2 ^ 12) (q / 2 ^ 18)) % 64 else 0
    (q * n + 64 * (i / 64) + Nat.xor (i % 64) fold) * g + ca % g
  else gsOf s + 32 * ((ca - genBytes s) / 32 * n + i) + ca % 32

/-- Address in the descriptor store of a copy of a descriptor (R320): copy 0 at slot gd; copy 1 N/2 channels on, HALF
rows down. -/
def descAddr (s : State) (gd copy : Nat) : Nat :=
  let n := chanN s
  if copy = 0 then gsOf s + 32 * gd
  else
    let half := if sku s = 2 then 1048576 else 786432
    gsOf s + 32 * ((gd / n + half) * n + (gd + n / 2) % n)

/-- The regions a requester may reach (Table 10-2): all of [a, a + n). -/
def regionOk (s : State) (who a n : Nat) (write : Bool) : Bool :=
  let inside := fun lo hi => decide (lo ≤ a) && decide (a + n ≤ hi)
  match who with
  | 0 => inside 0 (mirrorBase s)
  | 1 => inside 0 (mirrorBase s)
  | 2 => inside (gsOf s) (burlapTop s)
  | 3 => inside (mirrorBase s) (spillBase s)
  | 4 => inside (holBase s) (gsOf s) || inside (spillBase s) (holBase s)
      || (!write && inside (mirrorBase s) (spillBase s))
  | 5 => inside (spillBase s) (holBase s)
  | 6 => inside (holBase s) (gsOf s) || inside (spillBase s) (holBase s) || inside (mirrorBase s) (spillBase s)
  | _ => inside 0 (burlapTop s)

/-! ### Words and check bits (R326) -/

/-- Set bits of a byte. -/
def weight (v : Nat) : Nat := ((List.range 8).filter fun n => bit v n).length

/-- Columns c_0 to c_63. -/
def eccCols : List Nat :=
  (List.range 256).filter (fun v => weight v = 3) ++ ((List.range 256).filter fun v => weight v = 5).take 8

/-- Check byte of 64 data bits. -/
def eccOf (d : Nat) : Nat :=
  ((List.range 64).zip eccCols).foldl (fun a e => if bit d e.1 then Nat.xor a e.2 else a) 0

/-- A word with fresh check bits, as 72 bits. -/
def fresh (d : Nat) : Nat := d % 2 ^ 64 + eccOf (d % 2 ^ 64) * 2 ^ 64

/-- Data of a poisoned word. -/
def poisonData : Nat := 0x5A5A5A5A5A5A5A5A

/-- A poisoned word. -/
def poisoned : Nat := poisonData + Nat.xor (eccOf poisonData) 3 * 2 ^ 64

/-- What a decoder finds in a word: data good, corrected, uncorrectable with its syndrome, or poisoned. -/
inductive Decoded | good (d : Nat) | fixed (d : Nat) | bad (syn : Nat) | poison
  deriving DecidableEq, Repr

/-- Decode a 72-bit word (R326). -/
def decodeWord (w : Nat) : Decoded :=
  let d := w % 2 ^ 64
  let syn := Nat.xor (w / 2 ^ 64 % 256) (eccOf d)
  if syn = 0 then .good d
  else if syn = 3 ∧ d = poisonData then .poison
  else match (((List.range 64).zip eccCols).find? fun e => e.2 == syn) with
    | some e => .fixed (Nat.xor d (2 ^ e.1))
    | none => if weight syn = 1 then .fixed d else .bad syn

/-- Key of the 64-bit word at a channel-local address. -/
def wordKey (i ca : Nat) : Nat := i * 2 ^ 27 + ca / 8

/-- Stored 72-bit word at a Burlap address. -/
def hbmWord (s : State) (a : Nat) : Nat :=
  let p := burlapAt s a
  storeGet 0 s.hbm.mem (wordKey p.1 p.2)

/-! ### Holtarun memory (R405) -/

/-- Shared memory's first address. -/
def shmBase : Nat := 0x2000000

/-- The burlap window's first address. -/
def winBase : Nat := 0x100000000

/-- [a, a + n) lies in shared memory. -/
def inShm (a n : Nat) : Bool := decide (shmBase ≤ a) && decide (a + n ≤ shmBase + 2 ^ 22)

/-- [a, a + n) lies in the Burlap window. -/
def inWin (a n : Nat) : Bool := decide (winBase ≤ a) && decide (a + n ≤ winBase + 2 ^ 32)

/-- The canonical form of a memory: addresses strictly rising, no entry equal to what an unlisted one reads as (zero). -/
def Memory.wf {α : Type} [DecidableEq α] [OfNat α 0] (m : Store α) : Bool := storeSorted m && m.all fun e => decide (e.2 ≠ 0)

/-- Byte of TCM or shared memory; unwritten bytes read zero (log entry 6). -/
def memByte (s : State) (a : Nat) : Byte := storeGet 0 s.hol.mem a

/-- Bytes of TCM or shared memory. -/
def memBytes (s : State) (a n : Nat) : List Byte := (List.range n).map fun k => memByte s (a + k)

/-- A write of [a, a + n) breaks the reservations on the 64-byte lines it touches. -/
def breakResv (s : State) (a n : Nat) : State :=
  let hit := fun (r : Nat) => decide (a / 64 ≤ r / 64) && decide (r / 64 ≤ (a + n - 1) / 64)
  if s.hol.harts.any fun e => e.2.resv.elim false hit then
    { s with hol := { s.hol with
        harts := s.hol.harts.map fun e => if e.2.resv.elim false hit then (e.1, { e.2 with resv := none }) else e } }
  else s

/-- Write bytes of TCM or shared memory. -/
def memWrite (s0 : State) (a : Nat) (bytes : List Byte) : State :=
  let s := breakResv s0 a bytes.length
  let m := ((List.range bytes.length).zip bytes).foldl (fun m e => storeSet 0 (a + e.1) e.2 m) s.hol.mem
  { s with hol := { s.hol with mem := m } }

/-- A ring in memory whose head is about to advance: full when the next head is the tail. -/
def ringFull (head tail size : Nat) : Bool := (head + 1) % size == tail % size

/-- HEAD has reached a multiple of 2^NOTIFY_LOG2. -/
def ringNotify (head log : Nat) : Bool := head % 2 ^ log == 0

end Sys2Proof.Machine
end

