-- ==== Sys2Proof/Machine/Channel.lean ====
section
/-!
DEFINITION. Burlap's channels as every requester meets them: activates and column commands (R324), the error log (R330), reads and
writes of atoms with their checks, counts and sources (R317, R325-R329), and the accesses that engines make at once.
-/
namespace Sys2Proof.Machine

/-! ### Channels -/

/-- Device-wide channel index of an HCH instance (R315). -/
def chanIdx (s : State) (i : Nat) : Nat := if sku s = 2 ∧ 96 ≤ i then i - 32 else i

/-- The instance is populated. -/
def chanThere (s : State) (i : Nat) : Bool := !stackOff s (i / 32)

/-- A counter of HCH page 1 OBJ 0x02. -/
def hchCount (s : State) (i c : Nat) : State := bump s .hch i 1 2 c 0

/-- A counter of BRL page 2. -/
def brlCount (s : State) (c : Nat) : State := bump s .brl 0 2 1 c 0

/-- Bank of a channel-local address (R319). -/
def bankOf (ca : Nat) : Nat := ca / 2048 % 48

/-- Row of a channel-local address (R319). -/
def rowNo (ca : Nat) : Nat := ca / 2048 / 48

/-- Pseudo-channel of a channel-local address (R319). -/
def pcOf (ca : Nat) : Nat := bitsOf ca 10 10

/-- Key of a bank: channel, pseudo-channel, bank. -/
def bankKey (i pc bank : Nat) : Nat := (i * 2 + pc) * 48 + bank

/-- The 32-byte halves of atoms that [a, a + n) touches (R329). -/
def halvesOf (a n : Nat) : List Nat := (List.range ((a + n + 31) / 32 - a / 32)).map fun k => 32 * (a / 32 + k)

/-- Device-wide channel and atom of a Burlap address. -/
def atomOf (s : State) (a : Nat) : Nat × Nat := ((burlapAt s a).1, (burlapAt s a).2 / 64)

/-- The atoms that [a, a + n) touches; two slots of the descriptor store N apart share one (R320). -/
def atomsOf (s : State) (a n : Nat) : List (Nat × Nat) := ((halvesOf a n).map (atomOf s)).eraseDups

/-- HCH instances that [a, a + n) touches. -/
def chansOf (s : State) (a n : Nat) : List Nat := ((atomsOf s a n).map fun e => chanInst s e.1).eraseDups

/-- A channel takes a requester's requests: in service, or in training those of training (R337, Table 16-4, log entry 124). -/
def chanTakes (s : State) (who i : Nat) : Bool :=
  let st := chanState s i
  st == 3 || st == 4 || (who == 8 && st == 2)

/-- Some channel of [a, a + n) takes no request of a requester. -/
def spanShut (s : State) (who a n : Nat) : Bool := (chansOf s a n).any fun i => !chanTakes s who i

/-- The regions a requester may reach (R317): training only the channel under training. -/
def mayReach (s : State) (who a n : Nat) (write : Bool) : Bool :=
  regionOk s who a n write
    && (who != 8 || (chansOf s a n).all fun i => chanState s i == 2 || fget s hchTrnStatBusy i 0 == 1)

/-- A request outside its requester's regions (R317). -/
def regionErr (s : State) : State := fireLow (brlCount s 0) (pageOf .brl 0 0) 2

/-! ### Column commands (R324) -/

/-- A column command opens its row if it is not open: PRE of another row, ACT, the activate count and RFM (R324). The pins show
0 RD, 1 WR, 2 REFpb, 3 REFab, 4 RFM, 5 ACT, 6 PRE. -/
def activate (s : State) (i pc bank row : Nat) : State :=
  let k := bankKey i pc bank
  let at_ := bank + 48 * pc
  if storeFind s.hbm.rows k = some row then s
  else
    let n := storeGet 0 s.hbm.activates k + 1
    let s0 := if (storeFind s.hbm.rows k).isSome then emit s (.hbm i 6 at_) else s
    let s1 := emit { s0 with hbm := { s0.hbm with rows := storePut k row s0.hbm.rows } } (.hbm i 5 (at_ + 96 * row))
    if Config.rfmThreshold (i / 32) ≤ n then
      hchCount (emit { s1 with hbm := { s1.hbm with activates := storeDel k s1.hbm.activates } } (.hbm i 4 at_)) i 15
    else { s1 with hbm := { s1.hbm with activates := storePut k n s1.hbm.activates } }

/-- The column command of an atom of a channel (device-wide index). -/
def column (s : State) (write : Bool) (e : Nat × Nat) : State :=
  let i := chanInst s e.1
  let ca := 64 * e.2
  emit (activate s i (pcOf ca) (bankOf ca) (rowNo ca)) (.hbm i (b2n write) ca)

/-! ### The error log (R330) -/

/-- An error log entry of a word (Table 10-4). -/
def logErr (s : State) (i typ who addr syn : Nat) : State :=
  let ca := (burlapAt s addr).2
  let k := bankOf ca
  let n := fget s hchLogStatCount i 0
  if 16 ≤ n then fbump s hchLogStatLost i 0
  else
    let w0 := typ + pcOf ca * 8 + k / 16 * 16 + k % 4 * 64 + k / 4 % 4 * 256 + bitsOf ca 9 6 * 1024
      + bitsOf ca 5 3 * 2 ^ 14 + syn % 256 * 2 ^ 17 + who * 2 ^ 25
    let s1 := oset (oset s .hch i 1 1 n 0 w0) .hch i 1 1 n 1 (rowNo ca)
    fset (oset (oset s1 .hch i 1 1 n 2 (admOf (tbNow s) / 65536)) .hch i 1 1 n 3 (addr / 64 % 2 ^ 30)) hchLogStatCount i 0 (n + 1)

/-! ### Writes (R325, R329) -/

/-- A write of an atom is accepted: a scrub of it in progress is not written back (R325). -/
def scrubMark (s : State) (a n : Nat) : State :=
  if s.hbm.scrub.isEmpty then s
  else
    let keys := (atomsOf s a n).map fun e => chanInst s e.1 * 2 ^ 24 + e.2
    { s with hbm := { s.hbm with scrub := s.hbm.scrub.map fun x => if keys.contains x.1 then (x.1, true) else x } }

/-- Reads or writes of the channels of [a, a + n) are counted: one for each channel (log entry 118). -/
def countUse (s : State) (a n : Nat) (write : Bool) : State := (chansOf s a n).foldl (fun b i => hchCount b i (b2n write)) s

/-- An atom (device-wide channel, number) is written at its column command: `cover` gives the bytes written. A half that is not
wholly covered is read and written back: its words keep what they decode to, and an unreadable word of it is written poisoned
(R329). Answers the response code. -/
def writeAtom (s : State) (who : Nat) (e : Nat × Nat) (cover : Nat → Option Byte) : Nat × State :=
  let i := chanInst s e.1
  let page := pageOf .hch i 0
  let key := fun (w : Nat) => wordKey e.1 (64 * e.2 + 8 * w)
  let whole := fun (h : Nat) => (List.range 32).all fun j => (cover (32 * h + j)).isSome
  let rmw := (List.range 8).filter fun w => !whole (w / 4)
  let find := fun (w : Nat) => decodeWord (storeGet 0 s.hbm.mem (key w))
  let bad := rmw.filter fun w => match find w with | .bad _ => true | .poison => true | _ => false
  let fixed := rmw.any fun w => match find w with | .fixed _ => true | _ => false
  let merged := fun (w : Nat) =>
    let old := match find w with | .good d => d | .fixed d => d | _ => 0
    fresh (ofLE (((List.range 8).zip (toLE 8 old)).map fun b => (cover (8 * w + b.1)).getD b.2))
  let mem := (List.range 8).foldl (fun m w => storeSet 0 (key w) (if bad.contains w then poisoned else merged w) m) s.hbm.mem
  let s1 := { s with hbm := { s.hbm with mem := mem } }
  let s2 := if rmw.isEmpty then s1 else hchCount s1 i 7
  let s3 := if fixed then fire (hchCount (hchCount s2 i 2) i 8) page 0 else s2
  let inj := takeInj s3 page 2
  if bad.isEmpty ∧ inj.1 = false then (0, inj.2)
  else
    let s4 := (if bad.isEmpty then [0] else bad).foldl (fun a w =>
      hchCount (logErr a i 3 who (burlapFrom a e.1 (64 * e.2 + 8 * w)) 3) i 9) inj.2
    (1, fire s4 page 2)

/-- Bytes written from a Burlap address, atom by atom, with their column commands. Answers 0, or 1 where a word was written
poisoned. -/
def burlapPut (s : State) (who a : Nat) (bytes : List Byte) : Nat × State :=
  (atomsOf s a bytes.length).foldl (fun (r : Nat × State) e =>
    let cover := fun (j : Nat) =>
      let x := burlapFrom s e.1 (64 * e.2 + j)
      if a ≤ x then bytes[x - a]? else none
    let w := writeAtom (column r.2 true e) who e cover
    (max r.1 w.1, w.2)) (0, s)

/-! ### Reads (R326-R328) -/

/-- The words of [a, a + n) with what the decoder finds, `errs` the bits the wires showed in error by word. -/
def readSpan (s : State) (a n : Nat) (errs : List (Nat × Nat)) : List (Nat × Decoded) :=
  (List.range ((a + n + 7) / 8 - a / 8)).map fun k =>
    let mask := errs.foldl (fun m e => if e.1 = k then Nat.xor m (e.2 % 2 ^ 72) else m) 0
    (8 * (a / 8 + k), decodeWord (Nat.xor (hbmWord s (8 * (a / 8 + k))) mask))

/-- What a read finds: the first unreadable word's address and syndrome (none: poison), and whether any was corrected. -/
inductive ReadEnd | ok (corrected : Bool) | ue (addr syn : Nat) | poison (addr : Nat)
  deriving DecidableEq, Repr

/-- The outcome of the words of a read. -/
def spanEnd (l : List (Nat × Decoded)) : ReadEnd :=
  l.foldl (fun acc e =>
    match acc with
    | .ok c => (match e.2 with
      | .good _ => .ok c
      | .fixed _ => .ok true
      | .bad syn => .ue e.1 syn
      | .poison => .poison e.1)
    | x => x) (.ok false)

/-- Bytes [a, a + n) of the words of a read. -/
def spanBytes (l : List (Nat × Decoded)) (a n : Nat) : List Byte :=
  slice (l.flatMap fun e => toLE 8 (match e.2 with | .good d => d | .fixed d => d | _ => 0)) (a % 8) n

/-- An uncorrectable read counts towards the threshold of its channel (R337). -/
def ueCount (s : State) (i : Nat) : State :=
  let w := storeGet (0, 0) s.hbm.ueWin i
  let w1 := if passedNs s w.1 1000000 then (s.clk, 1) else (w.1, w.2 + 1)
  let s1 := { s with hbm := { s.hbm with ueWin := storePut i w1 s.hbm.ueWin } }
  let th := fget s brlUeCtlUeThresh 0 0
  if th ≠ 0 ∧ w1.2 = th then fire s1 (pageOf .hch i 0) 3 else s1

/-- A read has found a poisoned word: counted and logged. -/
def poisonRead (s : State) (i who a : Nat) : State := logErr (hchCount s i 10) i 2 who a 3

/-- A read is uncorrectable after all retries (R328): counted, logged, HCH source 1 (unless an injection has fired it), and the
threshold of its channel. -/
def ueRead (s : State) (i who a syn : Nat) (fired : Bool) : State :=
  let s1 := logErr (hchCount s i 3) i 1 who a syn
  ueCount (if fired then s1 else fire s1 (pageOf .hch i 0) 1) i

/-! ### Requests (R317, R322, R337) -/

/-- Requests of a pseudo-channel that it has accepted and not ended. -/
def outstanding (s : State) (i pc : Nat) : List BReq :=
  s.hbm.reqs.filter fun r => r.chan == i && r.pc == pc && !r.held && decide (r.code < 4)

/-- Remove a request. -/
def delReq (s : State) (id : Nat) : State := { s with hbm := { s.hbm with reqs := s.hbm.reqs.filter fun r => r.id != id } }

/-- Replace a request. -/
def putReq (s : State) (r : BReq) : State :=
  { s with hbm := { s.hbm with reqs := s.hbm.reqs.map fun x => if x.id == r.id then r else x } }

/-- Bytes a request covers. -/
def reqLen (r : BReq) : Nat := if r.write then max r.len r.data.length else r.len

/-- A request is accepted by its pseudo-channel: counted, and a write marks the scrubs of its atoms (R325). -/
def accepted (s : State) (r : BReq) : State :=
  let s1 := hchCount s r.chan (b2n r.write)
  if r.write then scrubMark s1 r.addr (reqLen r) else s1

/-- A new request: refused with ERR_REGION or ERR_CONTAINED as its code, or queued at the pseudo-channel of its first byte, where it
waits at the bound of 64 (R322). -/
def newReq (s : State) (who addr len : Nat) (write : Bool) (data : List Byte) (tag : List Nat) : BReq :=
  let at_ := burlapAt s addr
  let i := chanInst s at_.1
  let n := max 1 len
  let code := if mayReach s who addr n write = false then 5 else if spanShut s who addr n then 4 else 0
  { id := s.net.nextId, who := who, addr := addr, len := len, write := write, data := data, chan := i, pc := pcOf at_.2
    held := decide (64 ≤ (outstanding s i (pcOf at_.2)).length) && code == 0, issued := decide (4 ≤ code), got := [], code := code
    tries := 0, since := s.clk, late := false, tag := tag }

/-- A request is made (R317, R322). -/
def enqueue (s : State) (r : BReq) : State :=
  let s1 := { s with net := { s.net with nextId := s.net.nextId + 1 }, hbm := { s.hbm with reqs := s.hbm.reqs ++ [r] } }
  if r.code = 5 then regionErr s1 else if r.code = 4 ∨ r.held = true then s1 else accepted s1 r

/-! ### Accesses made at once -/

/-- An engine writes bytes at a Burlap address. Answers the response code of Table 10-3. -/
def burlapWrite (s : State) (who a : Nat) (bytes : List Byte) : Nat × State :=
  if bytes.isEmpty then (0, s)
  else if mayReach s who a bytes.length true = false then (5, regionErr s)
  else if spanShut s who a bytes.length then (4, s)
  else burlapPut (scrubMark (countUse s a bytes.length true) a bytes.length) who a bytes

/-- An engine reads bytes at a Burlap address: none on an error response. The retries of an uncorrectable read all find the
stored words again, so they are counted at once (log entry 118). -/
def burlapRead (s : State) (who a n : Nat) : Option (List Byte) × State :=
  if n = 0 then (some [], s)
  else if mayReach s who a n false = false then (none, regionErr s)
  else if spanShut s who a n then (none, s)
  else
    let i := chanInst s (burlapAt s a).1
    let page := pageOf .hch i 0
    let s1 := (atomsOf s a n).foldl (fun b e => column b false e) (countUse s a n false)
    let e := eccCheck s1 page 0 1 (fun b => hchCount b i 2) id
    let l := readSpan s a n []
    let at_ := fun (x : Nat) => chanInst s (burlapAt s x).1
    match if e.1 then ReadEnd.ue a 0xFF else spanEnd l with
    | .ok c => (some (spanBytes l a n), if c then fire (hchCount e.2 i 2) page 0 else e.2)
    | .poison x => (none, poisonRead e.2 (at_ x) who x)
    | .ue x syn =>
      let s2 := if e.1 then e.2 else bumpBy e.2 .hch (at_ x) 1 2 4 0 (fget s brlRetryRetryMax 0 0)
      (none, ueRead s2 (at_ x) who x syn e.1)

/-! ### Holtarun memory as engines reach it -/

/-- An engine writes bytes at a Holtarun physical address: shared memory, or Burlap behind the window. -/
def engineWrite (s : State) (a : Nat) (bytes : List Byte) : State :=
  if inWin a bytes.length then (burlapWrite s 4 (holBase s + (a - winBase)) bytes).2 else memWrite s a bytes

/-- An engine reads bytes at a Holtarun physical address; none outside shared memory and the window, or on a read error. -/
def engineRead (s : State) (a n : Nat) : Option (List Byte) × State :=
  if inShm a n then (some (memBytes s a n), s)
  else if inWin a n then burlapRead s 4 (holBase s + (a - winBase)) n
  else (none, s)

end Sys2Proof.Machine
end

