-- ==== Sys2Proof/Machine/Punt.lean ====
section
/-!
DEFINITION. The length the later stages reckon with (R234, R248), and the punt of a trapped head (R26, R409).
-/
namespace Sys2Proof.Machine

/-- Frame length L of a head: the received length when it is known, else from the L3 header that slot 1 names, else
MAX_FRAME of the arrival port (R234, R248). -/
def lenEst (s : State) (p : Pkt) : Nat :=
  if p.known then p.data.length
  else
    let l3 : Option Nat := match p.slots.getD 1 none with
      | none => none
      | some o =>
        if byteAt p.data o / 16 = 4 then some (ofBE (slice p.data (o + 2) 2) + o + 4)
        else if byteAt p.data o / 16 = 6 then some (ofBE (slice p.data (o + 4) 2) + 40 + o + 4)
        else none
    match l3, p.src with
    | some n, _ => n
    | none, .port n => fgetP s p.ep macCfgMaxFrame n 0
    | none, .inject _ => p.data.length

/-- Owner index of the CPU (R292). -/
def cpuOwner : Nat := 385

/-- A counter of a punt queue (HOL cluster OBJ 0x02). -/
def pqCount (s : State) (q c : Nat) : State := bump s .holx 16 0 2 (8 * q + c) 0

/-- Depth of a punt queue's bucket: packets in units of 1/1,562,500 and bits in units of 1/125, so that one core clock
adds KPPS to the one and 8 x RATE to the other; one millisecond fills it (R409). -/
def pqDepth (s : State) (q : Nat) : Nat × Nat :=
  (fget s holxPqRateKpps 16 q * 1562500, fget s holxPqRateRate 16 q * 12500000)

/-- Tokens of a punt queue now. -/
def pqTokens (s : State) (q : Nat) : Nat × Nat :=
  let d := pqDepth s q
  match storeFind s.hol.rate q with
  | none => d
  | some b => (min d.1 (b.c + (s.clk - b.last) * fget s holxPqRateKpps 16 q),
      min d.2 (b.p + (s.clk - b.last) * 8 * fget s holxPqRateRate 16 q))

/-- The limits of a queue have been written: the clocks before counted at the old ones (`s`), a limit that was none starts full. -/
def pqRateWritten (s t : State) (q : Nat) : State :=
  let old := pqTokens s q
  let d := pqDepth t q
  let b : Bucket := ⟨if fget s holxPqRateKpps 16 q = 0 then d.1 else min d.1 old.1,
    if fget s holxPqRateRate 16 q = 0 then d.2 else min d.2 old.2, s.clk⟩
  { t with hol := { t.hol with rate := storePut q b t.hol.rate } }

/-- The punt is within the queue's rate: a field of 0 sets no limit. -/
def pqRateOk (s : State) (q bits : Nat) : Bool :=
  let t := pqTokens s q
  (fget s holxPqRateKpps 16 q == 0 || decide (1562500 ≤ t.1))
    && (fget s holxPqRateRate 16 q == 0 || decide (bits * 125 ≤ t.2))

/-- Take a punt's tokens. -/
def pqDebit (s : State) (q bits : Nat) : State :=
  let t := pqTokens s q
  { s with hol := { s.hol with rate := storePut q ⟨t.1 - 1562500, t.2 - bits * 125, s.clk⟩ s.hol.rate } }

/-- Frames the engine has written leave their cells. -/
def puntDone (s : State) (u : Punt) : State :=
  let s1 := uncharge s u.slice cpuOwner u.cells
  { s1 with hol := { s1.hol with punts := s1.hol.punts.filter fun x => x.pkt != u.pkt } }

/-- A head is trapped (R409): tested against the rate of its queue, then against EN and the CPU owner's cells. `reason`
is that of Table 13-6, `action` the record that trapped. -/
def punt (s : State) (p : Pkt) (q reason action : Nat) : State :=
  let len := lenEst s p
  let cells := cdiv len 256
  let bits := 8 * len
  if pqRateOk s q bits = false then dropGone (pqCount s q 3) { p with staged := false }
  else if fget s holxPqCtlEn 16 q = 0 ∨ ownerFits s p.slice cpuOwner cells = false then
    dropGone (fire (pqCount s q 2) (pageOf .holx 16 0) 3) { p with staged := false }
  else if p.tail && p.fcsBad then headGone (pqCount (pqDebit s q bits) q 5) { p with staged := false }
  else
    let s1 := charge (pqDebit (sliceEvt s p.slice 5) q bits) p.slice cpuOwner cells
    let u : Punt :=
      { q := q, slice := p.slice, pkt := p.id, cells := cells, reason := reason, mal := p.mal,
        tenant := if reason = 2 then 0 else p.res.tenant, tc := if reason = 2 then 0 else p.res.tc, nh := p.nh,
        action := action, data := if p.tail then p.data else [], src := srcKey p.src, arr := p.arr, kv := p.kv,
        tailAt := if p.tail then some s.clk else none }
    headGone { s1 with hol := { s1.hol with punts := s1.hol.punts ++ [u] } } { p with staged := false }

end Sys2Proof.Machine
end

