-- ==== Sys2Proof/Machine/Tables.lean ====
section
/-!
DEFINITION. The forwarding tables' shared operations: Leek prefixes (R178), Chard entries (R184-R187), table command
records and results (R188-R190), learning messages (R192-R195), next hops (R198-R201).
-/
namespace Sys2Proof.Machine

/-- CUR of a group (R70). -/
def curOf (s : State) (g : Nat) : Nat := fget s glbEpochStatCur 0 g

/-! ### Leek -/

/-- Address bits of a family. -/
def famBits (fam : Nat) : Nat := if fam = 0 then 32 else 128

/-- Prefixes of a family. -/
def leekCount (l : List Route) (fam : Nat) : Nat := (l.filter fun r => r.fam == fam).length

/-- Cumulative strides of a family (Table 6-2). -/
def strides (fam set : Nat) : List Nat :=
  if fam = 0 then [16, 20, 24, 28, 32]
  else match set with
    | 0 => [16, 32, 40, 48, 56, 64, 72, 80, 88, 96, 104, 112, 128]
    | 1 => [16, 32, 40, 48, 56, 60, 64, 72, 80, 88, 96, 112, 128]
    | _ => [16, 32, 48, 64, 72, 80, 88, 96, 104, 112, 120, 124, 128]

/-- The longest of the routes. -/
def longest (l : List Route) : Option Route :=
  l.foldl (fun (a : Option Route) r => match a with
    | none => some r
    | some b => if b.len < r.len then some r else some b) none

/-- The root or node entry (Table 6-3) on an address's path whose strides end at `hi` bits, the stage before at `lo` (R178); the
root has `hi` 0. A prefix stands at the first stage that covers its length, in every entry it expands to; the longer of two
keeps an entry; a prefix that goes on below gives the entry a child array. -/
def leekEntry (l : List Route) (fam tenant addr lo hi : Nat) : Nat :=
  let w := famBits fam
  let path := l.filter fun r => r.fam == fam && r.tenant == tenant
    && (let n := min r.len hi; r.addr / 2 ^ (w - n) == addr / 2 ^ (w - n))
  let here := longest (path.filter fun r => decide (r.len ≤ hi) && (hi == 0 || decide (lo < r.len)))
  let child := path.any fun r => decide (hi < r.len)
  here.elim 0 (fun r => r.nh % 2 ^ 20 + 2 ^ 20 + r.len % 256 * 2 ^ 21)
    + (if child then 2 ^ 29 + Config.leekBase fam tenant hi (addr / 2 ^ (w - hi)) % 2 ^ 24 * 2 ^ 30 else 0)

/-- The walk of R178 from the entry whose strides end at `hi` bits: the result of the last entry read with RES_VALID, following
child pointers until one is not valid. -/
def leekWalk (entry : Nat → Nat → Nat) : List Nat → Nat → Nat → Option Nat → Option Nat
  | rest, lo, hi, best =>
    let e := entry lo hi
    let best := if bit e 20 then some (bitsOf e 19 0) else best
    match rest with
    | [] => best
    | c :: r => if bit e 29 then leekWalk entry r hi c best else best

/-- A Leek search: the walk from the root entry through the stages of the family's strides. -/
def leekSearch (l : List Route) (set fam tenant addr : Nat) : Option Nat :=
  leekWalk (leekEntry l fam tenant addr) (strides fam set) 0 0 none

/-- Entries a prefix's expansion writes (R178, R179). -/
def expansion (fam set len : Nat) : Nat :=
  if len = 0 then 1
  else match (strides fam set).find? fun c => decide (len ≤ c) with
    | none => 1
    | some c => 2 ^ (c - len)

/-! ### Chard -/

/-- Slots of a key type (Table 6-4). -/
def chdSlots : Nat → Nat
  | 1 => 1 | 2 => 1 | 3 => 2 | 4 => 4 | _ => 0

/-- SEED_w (R184). -/
def chdSeed : Nat → Nat
  | 0 => 0xFFFFFFFF | 1 => 0x61C88646 | 2 => 0xC3910C8D | _ => 0x255992D4

/-- Key of TYPE 1. -/
def macKey (tenant mac : Nat) : List Byte := toBE 10 (1 * 2 ^ 77 + tenant % 2 ^ 14 * 2 ^ 63 + mac % 2 ^ 48)

/-- Key of TYPE 2. -/
def labelKey (tenant label : Nat) : List Byte := toBE 10 (2 * 2 ^ 77 + tenant % 2 ^ 14 * 2 ^ 63 + label % 2 ^ 20)

/-- Key of TYPE 3 or 4: addresses as 8 or 32 bytes, protocol, ports as 4 bytes. -/
def flowKey (v6 : Bool) (tenant : Nat) (addrs : List Byte) (proto ports : Nat) : List Byte :=
  if v6 then toBE 40 (4 * 2 ^ 317 + tenant % 2 ^ 14 * 2 ^ 303 + ofBE addrs * 2 ^ 47 + proto % 256 * 2 ^ 39 + ports * 2 ^ 7)
  else toBE 20 (3 * 2 ^ 157 + tenant % 2 ^ 14 * 2 ^ 143 + ofBE addrs * 2 ^ 79 + proto % 256 * 2 ^ 71 + ports * 2 ^ 39)

/-- TYPE of a key. -/
def keyType (key : List Byte) : Nat := byteAt key 0 / 32

/-- Tenant of a key. -/
def keyTenant (key : List Byte) : Nat := ofBE (slice key 0 3) / 2 ^ 7 % 2 ^ 14

/-- MAC of a TYPE 1 key. -/
def keyMac (key : List Byte) : Nat := ofBE (slice key 4 6)

/-- Slot of a key in way w (R184). -/
def chdSlot (key : List Byte) (w : Nat) : Nat :=
  let n := chdSlots (keyType key)
  if n = 0 then 0 else crcFrom (chdSeed w) key % (2 ^ 20 / n) * n

/-- Two entries of one way of one copy share a slot. -/
def chdOverlap (e : ChdEnt) (way slot n : Nat) : Bool :=
  e.way == way && decide (e.slot < slot + n) && decide (slot < e.slot + chdSlots e.typ)

/-- A head of epoch bit `e` sees the entry (R186). -/
def chdSees (e : ChdEnt) (eb : Nat) : Bool :=
  match e.state with
  | 0 => true
  | 1 => e.ebit == eb
  | 2 => e.ebit != eb
  | _ => false

/-- Search of a copy by a head of an epoch bit: a pending addition it sees wins over the active entry (R186). -/
def chdSearch (s : State) (k : Nat) (key : List Byte) (eb : Nat) : Option ChdEnt :=
  let hits := s.tbl.chd.filter fun e => e.pair == k && e.key == key && chdSees e eb
  match hits.find? fun e => e.state == 1 with
  | some e => some e
  | none => hits.head?

/-- The active or pending-delete entry of a key in a copy. -/
def chdEntry (s : State) (k : Nat) (key : List Byte) : Option ChdEnt :=
  s.tbl.chd.find? fun e => e.pair == k && e.key == key && e.state != 1

/-- Replace the whole table of copies. -/
def withChd (s : State) (l : List ChdEnt) : State := { s with tbl := { s.tbl with chd := l } }

/-- Same position of the same copy. -/
def chdSame (a b : ChdEnt) : Bool := a.pair == b.pair && a.way == b.way && a.slot == b.slot

/-- Replace one entry. -/
def chdPut (s : State) (e : ChdEnt) : State := withChd s (s.tbl.chd.map fun x => if chdSame x e then e else x)

/-- Remove one entry. -/
def chdDel (s : State) (e : ChdEnt) : State := withChd s (s.tbl.chd.filter fun x => !chdSame x e)

/-- First empty aligned position among the four ways of a key (R185). -/
def chdFree (l : List ChdEnt) (key : List Byte) : Option (Nat × Nat) :=
  ((List.range 4).find? fun w => !(l.any fun e => chdOverlap e w (chdSlot key w) (chdSlots (keyType key)))).map
    fun w => (w, chdSlot key w)

/-- The insertion of R185 on one copy's entries `l`: whether `e` got a position, the kicks left and the entries. Attempt k takes the
candidate in way k mod 4 and first moves what is there; an entry leaves its position only once it stands at another (log entry
10). The first argument bounds the moves. -/
def chdMove (all : Nat) : Nat → Nat → List ChdEnt → ChdEnt → Bool × Nat × List ChdEnt
  | 0, kicks, l, _ => (false, kicks, l)
  | fuel + 1, kicks, l, e =>
    match chdFree l e.key with
    | some p => (true, kicks, l ++ [{ e with way := p.1, slot := p.2 }])
    | none =>
      if kicks = 0 then
        match (List.range 8).find? fun i => !(l.any fun x => x.way == 4 && x.slot == i) with
        | some i => (true, 0, l ++ [{ e with way := 4, slot := i }])
        | none => (false, 0, l)
      else
        let w := (all - kicks) % 4
        let slot := chdSlot e.key w
        let there := l.filter fun x => chdOverlap x w slot (chdSlots e.typ)
        if there.contains e then chdMove all fuel (kicks - 1) l e
        else
          let r := there.foldl (fun (a : Nat × List ChdEnt) o =>
            if a.2.contains o then
              let m := chdMove all fuel a.1 a.2 o
              (m.2.1, if m.1 then m.2.2.erase o else m.2.2)
            else a) (kicks - 1, l)
          if r.2.any fun x => chdOverlap x w slot (chdSlots e.typ) then (false, r.1, r.2)
          else (true, r.1, r.2 ++ [{ e with way := w, slot := slot }])

/-- Insert a new entry into copy `k`: whether there was room, and the state, in which entries may have moved either way. -/
def chdInsert (s : State) (k : Nat) (e : ChdEnt) : Bool × State :=
  let mine := s.tbl.chd.filter fun x => x.pair == k
  let rest := s.tbl.chd.filter fun x => x.pair != k
  let kicks := fget s chdCfgMaxKicks k 0
  let r := chdMove kicks (kicks + 1) kicks mine { e with pair := k }
  (r.1, withChd s (rest ++ r.2.2))

/-- CHD.STAT follows a copy's entries (Table 6-10). -/
def chdShow (s : State) (k : Nat) : State :=
  let mine := s.tbl.chd.filter fun e => e.pair == k
  let s1 := fset s chdStatStash k 0 (mine.filter fun e => e.way == 4).length
  fset s1 chdStatSlots k 0 ((mine.filter fun e => e.way != 4).foldl (fun a e => a + chdSlots e.typ) 0)

/-- CHD.STAT of all copies. -/
def chdShowAll (s : State) : State := (List.range 4).foldl chdShow s

/-- A counter of CHD page 1 (OBJ 0x02). -/
def chdCount (s : State) (k c : Nat) : State := bump s .chd k 1 2 c 0

/-- Learn insert failure of a copy and a tenant (R195). -/
def learnFail (s : State) (k tenant : Nat) : State :=
  fire (bump (chdCount s k 4) .chd k 1 1 tenant 0) (pageOf .chd k 0) 3

/-! ### Result rings (R189, R190) -/

/-- Block of a command port. -/
def portBlk (chard : Bool) : Blk := if chard then .chd else .lek

/-- SIZE_LOG2 of a command port's result ring; 0: disabled. -/
def resLog (s : State) (chard : Bool) : Nat :=
  if chard then fget s chdResCtlSizeLog2 0 0 else fget s lekResCtlSizeLog2 0 0

/-- The result ring has room and is enabled (R190). -/
def resRoom (s : State) (chard : Bool) : Bool :=
  let head := if chard then fget s chdResHeadHead 0 0 else fget s lekResHeadHead 0 0
  let tail := if chard then fget s chdResTailTail 0 0 else fget s lekResTailTail 0 0
  resLog s chard != 0 && !ringFull head tail (2 ^ resLog s chard)

/-- Write one 16-byte result, advance RES_HEAD and pulse line 40 or 41 (R189, R190). -/
def result (s : State) (chard : Bool) (w0 w1 w2 w3 : Nat) : State :=
  let bytes := toLE 4 w0 ++ toLE 4 w1 ++ toLE 4 w2 ++ toLE 4 w3
  let lo := if chard then fget s chdResBaseLoAddr 0 0 else fget s lekResBaseLoAddr 0 0
  let hi := if chard then fget s chdResBaseHiAddr 0 0 else fget s lekResBaseHiAddr 0 0
  let head := if chard then fget s chdResHeadHead 0 0 else fget s lekResHeadHead 0 0
  let space := if chard then fget s chdResCtlSpace 0 0 else fget s lekResCtlSpace 0 0
  let at_ := hi * 2 ^ 32 + lo + 16 * head
  let s1 := if space = 0 then emit s (.hostWrite at_ bytes) else engineWrite s at_ bytes
  let nh := (head + 1) % 2 ^ resLog s chard
  let s2 := if chard then fset s1 chdResHeadHead 0 0 nh else fset s1 lekResHeadHead 0 0 nh
  pulse s2 (if chard then 41 else 40)

/-! ### Memory errors of a search (R187) -/

/-- Results of a lost entry: its key in words 0, 2 and 3, one result for each 80-bit slot (log entry 105). -/
def lostWords (e : ChdEnt) : List (List Nat) :=
  (List.range (chdSlots e.typ)).map fun n =>
    let k := numWords 3 (ofBE (slice e.key (10 * n) 10))
    [k.getD 0 0, 8, k.getD 1 0, k.getD 2 0]

/-- The sequencer clears an entry whose memory is lost (R187): a static or command entry gives MEM_LOST results, which wait for
room in the ring. -/
def chdLost (s : State) (k : Nat) (e : ChdEnt) : State :=
  let s1 := chdShow (chdDel s e) k
  if e.learned && !e.stat then s1 else { s1 with tbl := { s1.tbl with lost := s1.tbl.lost ++ lostWords e } }

/-- At a core clock: a waiting MEM_LOST result enters the Chard result ring while it has room. -/
def lostTick (s : State) : State :=
  match s.tbl.lost with
  | [] => s
  | r :: rest =>
    if resRoom s true && running s then
      result { s with tbl := { s.tbl with lost := rest } } true (r.getD 0 0) (r.getD 1 0) (r.getD 2 0) (r.getD 3 0)
    else s

/-- A search with its check (R187): an injected corrected error fires CHD source 0; an uncorrectable one is counted,
fires source 1 and is a miss. -/
def chdLookup (s : State) (k : Nat) (key : List Byte) (eb : Nat) : Option ChdEnt × State :=
  let r := eccCheck s (pageOf .chd k 0) 0 1 id (fun a => chdCount a k 11)
  let hit := chdSearch r.2 k key eb
  if r.1 then (none, hit.elim r.2 (chdLost r.2 k)) else (hit, r.2)

/-! ### Learning (R192-R195) -/

/-- LTIME: time-base nanoseconds modulo 2³². -/
def lTime (s : State) : Nat := nsOf (tbNow s) % 2 ^ 32

/-- A message of an origin goes to every other pair and to Holtarun (R194). -/
def ringSend (s : State) (origin typ scope tenant mac nh ltime : Nat) : State :=
  let seq := storeGet 0 s.tbl.ringSeq origin
  let dests := (List.range 5).filter (· != origin)
  if origin < 4 ∧ isContained s (.pair origin) = true then s
  else { s with tbl := { s.tbl with
      ringSeq := storeSet 0 origin ((seq + 1) % 256) s.tbl.ringSeq
      ring := s.tbl.ring ++ dests.map fun t => ⟨t, typ, origin, seq, scope, tenant, mac, nh, ltime, true⟩ } }

/-- Messages of a pair waiting on the ring (R193: its queue holds 1,024). -/
def ringWaiting (s : State) (origin : Nat) : Nat :=
  (s.tbl.ring.filter fun m => m.origin == origin && m.target == (if origin = 4 then 0 else 4)).length

/-- The 32 bytes of a ring message (Table 6-7). -/
def ringBytes (m : RingMsg) : List Byte :=
  let w := toLE 4 (m.typ % 16 + m.origin % 8 * 16 + m.seq % 256 * 256 + m.scope % 4 * 65536) ++ toLE 4 (m.tenant % 2 ^ 14)
    ++ toLE 4 m.mac ++ toLE 4 (m.mac / 2 ^ 32 % 2 ^ 16) ++ toLE 4 (m.nh % 2 ^ 20) ++ toLE 4 m.ltime ++ toLE 4 0
  w ++ toLE 4 (crc32c w)

/-- A message reaches Holtarun (R411): written into its learning ring, or discarded when that is full or disabled or the
cluster restarts (R416). -/
def learnToHol (s : State) (m : RingMsg) : State :=
  let size := 2 ^ fget s holxLrnCtlSizeLog2 16 0
  let head := fget s holxLrnPtrHead 16 0
  if fget s holxLrnCtlEn 16 0 = 0 ∨ ringFull head (fget s holxLrnPtrTail 16 0) size = true ∨ s.hol.restartAt ≠ none then
    fire (bump s .holx 16 0 8 1 0) (pageOf .holx 16 0) 4
  else
    let s1 := memWrite s (shmBase + fget s holxLrnBaseBase 16 0 * 32 + 32 * head) (ringBytes m)
    let nh := (head + 1) % size
    let s2 := bump (fset s1 holxLrnPtrHead 16 0 nh) .holx 16 0 8 0 0
    if ringNotify nh (fget s2 holxLrnCtlNotifyLog2 16 0) then pulse s2 36 else s2

/-- A new learned entry. -/
def learnedEnt (k tenant mac nh origin ltime : Nat) (own : Bool) : ChdEnt :=
  { pair := k, typ := 1, key := macKey tenant mac, way := 0, slot := 0, nh := nh, hit := own, stat := false,
    learned := true, state := 0, ebit := 0, origin := origin, misses := 0, ltime := ltime }

/-- A copy applies a LEARN or REFRESH (R195). -/
def applyLearn (s : State) (k : Nat) (m : RingMsg) : State :=
  match chdEntry s k (macKey m.tenant m.mac) with
  | none =>
    let r := chdInsert s k (learnedEnt k m.tenant m.mac m.nh m.origin m.ltime false)
    if r.1 then chdShow r.2 k else learnFail (chdShow r.2 k) k m.tenant
  | some e =>
    if e.learned && !e.stat then
      let newer := later32 m.ltime e.ltime || (m.ltime == e.ltime && decide (m.origin < e.origin))
      chdPut s (if newer then { e with nh := m.nh, origin := m.origin, ltime := m.ltime, misses := 0 }
        else { e with misses := 0 })
    else chdCount s k 6

/-- A copy applies an AGE (R195). -/
def applyAge (s : State) (k : Nat) (m : RingMsg) : State :=
  match chdEntry s k (macKey m.tenant m.mac) with
  | some e =>
    if e.learned && !e.stat && e.origin == m.origin && !later32 e.ltime m.ltime then chdShow (chdDel s e) k else s
  | none => s

/-- A copy applies a WITHDRAW: the learned entries of the tenant, the next hop, or both (R195). -/
def applyWithdraw (s : State) (k : Nat) (m : RingMsg) : State :=
  let dead := fun (e : ChdEnt) => e.pair == k && e.learned && !e.stat && m.scope != 0
    && (!bit m.scope 0 || keyTenant e.key == m.tenant) && (!bit m.scope 1 || e.nh == m.nh)
  chdShow (withChd s (s.tbl.chd.filter fun e => !dead e)) k

/-- The next ring message for a target, taken off the ring: its CRC is checked (R195; CHD source 2) and a gap in SEQ
counts as lost messages. -/
def ringTake (s : State) (target typ : Nat) : Option RingMsg × State :=
  match s.tbl.ring.find? fun m => m.target == target && m.typ == typ
      && (s.tbl.ring.find? fun x => x.target == target && x.origin == m.origin) == some m with
  | none => (none, s)
  | some m =>
    let s1 := { s with tbl := { s.tbl with ring := s.tbl.ring.erase m } }
    if target = 4 then (some m, s1)
    else
      let inj := takeInj s1 (pageOf .chd target 0) 2
      if inj.1 || !m.crcOk then (none, fire (chdCount inj.2 target 7) (pageOf .chd target 0) 2)
      else
        let key := target * 8 + m.origin
        let s2 := inj.2
        let gap := match storeFind s2.tbl.ringSeen key with
          | none => 0
          | some q => (m.seq + 256 - (q + 1) % 256) % 256
        let s3 := bumpBy s2 .chd target 1 2 8 0 gap
        (some m, { s3 with tbl := { s3.tbl with ringSeen := storePut key m.seq s3.tbl.ringSeen } })

/-- A port's learned entries go at its link loss, in every copy with FLUSH_ON_DOWN (R197). -/
def flushOnDown (s : State) (p : Nat) : State :=
  (List.range 4).foldl (fun a k =>
    if fget a chdCfgFlushOnDown k 0 = 1 then
      let nh := fget a chdLearnCfgPortNhBase k 0 + p
      chdShow (withChd a (a.tbl.chd.filter fun e => !(e.pair == k && e.learned && !e.stat && e.nh == nh))) k
    else a) s

/-! ### Next hops (R198) -/

/-- Word of a next hop of a pair, in a holder's epoch half. -/
def nhW (s : State) (ep : List Nat) (k n w : Nat) : Nat := ogetP s ep .nhp k 0 1 n w

/-- TYPE of a next hop. -/
def nhType (w0 : Nat) : Nat := w0 % 8

/-- PORT of a UNICAST next hop. -/
def nhPort (w0 : Nat) : Nat := bitsOf w0 11 3

/-- EDIT_TMPL of a UNICAST next hop. -/
def nhTmpl (w0 : Nat) : Nat := bitsOf w0 23 12

/-- LIST or GROUP of a next hop. -/
def nhList (w0 : Nat) : Nat := bitsOf w0 18 3

/-- The live unicast backup of a next hop (R201, R207). -/
def backupOf (s : State) (ep : List Nat) (k n : Nat) : Option Nat :=
  let w1 := nhW s ep k n 1
  let b := w1 % 2 ^ 20
  let bw := nhW s ep k b 0
  if bit w1 20 && nhType bw == 1 && !portDown s (nhPort bw) then some b else none

/-- A counter of NHP OBJ 0x05 for a source (R202): a port of the pair, or 96 + an inject queue. -/
def nhCount (s : State) (sl : Nat) (src : Source) (c : Nat) : State :=
  let n := match src with
    | .port p => p % 96
    | .inject q => 96 + q
  bump s .nhp (sl / 2) 0 5 (8 * n + c) 0

end Sys2Proof.Machine
end

