-- ==== Sys2Proof/Machine/Classify.lean ====
section
/-!
DEFINITION. Classification (R141-R171): Radish search with verification, quarantine and scrub, decision trees, the
merged result.
-/
namespace Sys2Proof.Machine

/-! ### Radish -/

/-- Bank page of a slice (R51). -/
def bankPage (sl b : Nat) : Nat := 320 + 16 * sl + b

/-- Slice of a bank page. -/
def bankSlice (page : Nat) : Nat := (page - 320) / 16

/-- Bank of a bank page. -/
def bankNo (page : Nat) : Nat := (page - 320) % 16

/-- Units of a width code. -/
def units (w : Nat) : Nat := 2 ^ w

/-- Word of a Radish entry object (1 control, 2 VALUE, 3 MASK) as a holder of epochs reads it. -/
def rdhW (s : State) (ep : List Nat) (page obj i w : Nat) : Nat :=
  ogetP s ep .rdh (bankSlice page) (bankNo page) obj i w

/-- A 320-bit object as a number. -/
def rdhNum (s : State) (ep : List Nat) (page obj i : Nat) : Nat :=
  (List.range 10).foldl (fun a w => a + rdhW s ep page obj i w * 2 ^ (32 * w)) 0

/-- Half of a bank's group that a head of given CUR bits searches (R155). -/
def halfOf (s : State) (epLow page : Nat) : Nat := epLow / 2 ^ groupOf s page % 2

/-- Half searched by heads of the current epoch. -/
def activeHalf (s : State) (page : Nat) : Nat := curOf s (groupOf s page) % 2

/-- Word k of QUAR of a bank page. -/
def quarKey (page k : Nat) : Nat := regKey page (0x110 + 4 * k)

/-- QUAR word of a slot. -/
def quarW (s : State) (page k : Nat) : Nat := (actW s (quarKey page k)).toNat

/-- Set a QUAR word. -/
def setQuar (s : State) (page k v : Nat) : State := setAct s (quarKey page k) (BitVec.ofNat 32 v)

/-- The slot of a half's entry, if it is quarantined. -/
def quarSlot (s : State) (page half i : Nat) : Option Nat :=
  (List.range 4).find? fun k =>
    let v := quarW s page k
    bit v 31 && v / 2 ^ 28 % 2 == half && v % 2048 == i

/-- The entry never matches: in a slot with BAD, or excluded without a slot (R158, R160). -/
def neverHits (s : State) (page half i : Nat) : Bool :=
  s.tbl.excluded.contains (page, half, i) || (quarSlot s page half i).elim false fun k => bit (quarW s page k) 29

/-- Key of a Radish table of u units (R145) as a number of 80u bits. -/
def tableKey (s : State) (p : Pkt) (t u : Nat) : Nat :=
  let seg := fun (f g : Fld) => slice p.kv (fgetP s p.ep g p.slice t) (fgetP s p.ep f p.slice t)
  let all := seg clsTblKey0Seg0Len clsTblKey0Seg0Off ++ seg clsTblKey0Seg1Len clsTblKey0Seg1Off
    ++ seg clsTblKey1Seg2Len clsTblKey1Seg2Off ++ seg clsTblKey1Seg3Len clsTblKey1Seg3Off
  ofBE (slice all 0 (10 * u))

/-- The winning entry of a table (R152, R157): page, index, action. -/
def radishSearch (s : State) (p : Pkt) (t : Nat) : Option (Nat × Nat × Nat) :=
  let u := units (fgetP s p.ep clsTblCfgWidth p.slice t)
  let banks := fgetP s p.ep clsTblCfgBanks p.slice t
  let key := tableKey s p t u
  let pages := ((List.range 16).filter fun b => bit banks b).map (bankPage p.slice)
  let hits := pages.flatMap fun page => (List.range (2048 / u)).filterMap fun i =>
    let c := rdhW s p.ep page 1 i 0
    if bit c 31 && !neverHits s page (halfOf s p.epLow page) i
        && Nat.land (Nat.xor key (rdhNum s p.ep page 2 i)) (rdhNum s p.ep page 3 i) == 0
    then some (c % 65536, page, i, bitsOf c 29 16) else none
  (hits.foldl (fun (a : Option (Nat × Nat × Nat × Nat)) h =>
    match a with
    | none => some h
    | some b => if b.1 < h.1 then some h else some b) none).map (·.2)

/-- A counter of a bank page (RDH OBJ 0x04). -/
def rdhCount (s : State) (page c : Nat) : State := bump s .rdh (bankSlice page) (bankNo page) 4 c 0

/-- BANK_STAT.QUAR_USED follows the slots. -/
def showQuar (s : State) (page : Nat) : State :=
  let n := ((List.range 4).filter fun k => bit (quarW s page k) 31).length
  setAct s (regKey page 0x100) (BitVec.ofNat 32 (putBits (actW s (regKey page 0x100)).toNat 2 0 n))

/-- An entry goes to a free quarantine slot, or is excluded without substitution and counted as an overflow (R156, R158,
R160). A false hit asks for a reload. -/
def quarantine (s : State) (page half i : Nat) (bad : Bool) : State :=
  match (List.range 4).find? fun k => !bit (quarW s page k) 31 with
  | some k =>
    let s1 := showQuar (setQuar s page k (2 ^ 31 + b2n bad * 2 ^ 29 + half * 2 ^ 28 + i)) page
    if bad then s1 else { s1 with tbl := { s1.tbl with repairs := s1.tbl.repairs ++ [⟨page, k, half, i, 0⟩] } }
  | none =>
    let s1 := fire (rdhCount s page 4) page 3
    { s1 with tbl := { s1.tbl with
        excluded := s1.tbl.excluded ++ [(page, half, i)]
        unread := if bad then s1.tbl.unread ++ [(page, half, i)] else s1.tbl.unread
        repairs := if bad then s1.tbl.repairs else s1.tbl.repairs ++ [⟨page, 4, half, i, 0⟩] } }

/-- Outcome of a table's search: the action of a hit, a miss, or the drop counter it ends in (3, 4 or 5). -/
inductive Found | hit (action : Nat) | miss | drop (c : Nat)
  deriving DecidableEq, Repr

/-- The next spare slot of a bank for a re-search not before a clock (R142, R156: one re-search a clock), taken. -/
def spareSlot (s : State) (page from_ : Nat) : Nat × State :=
  let c := max from_ (storeGet 0 s.tbl.spareAt page)
  (c, { s with tbl := { s.tbl with spareAt := storePut page (c + 1) s.tbl.spareAt } })

/-- Search a Radish table with verification (R156-R160): the first argument is the searches left, `last` the clock of the search
before. A third false hit drops the head, and a re-search that finds no spare slot within the head's 64 clocks. A re-search
takes a slot of the bank of the false hit, from the second clock after the search on (DESIGN CHOICE, log entry 113). -/
def radish : Nat → State → Pkt → Nat → Nat → Found × State
  | 0, s, p, _, _ => (.drop 3, fire s (pageOf .cls p.slice 0) 2)
  | n + 1, s, p, t, last =>
    match radishSearch s p t with
    | none => (.miss, s)
    | some (page, i, act) =>
      let half := halfOf s p.epLow page
      if (quarSlot s page half i).isSome then (.hit act, s)
      else
        let e := eccCheck s page 1 2 (fun a => rdhCount a page 2) (fun a => rdhCount a page 3)
        let f := takeInj e.2 page 0
        if !e.1 && !f.1 then (.hit act, f.2)
        else
          let s1 := if e.1 then quarantine f.2 page half i true
            else fire (quarantine (rdhCount f.2 page 0) page half i false) page 0
          let c := spareSlot s1 page (last + 2)
          if n = 0 then radish 0 s1 p t last
          else if p.since + 64 ≤ c.1 then radish 0 s1 p t last
          else radish n (sliceEvt (rdhCount c.2 page 1) p.slice 11) p t c.1

/-! ### Decision trees -/

/-- Word `w` of a tree memory word of a pair. -/
def treeMem (s : State) (k a w : Nat) : Nat := oget s .tre k 0 1 a w

/-- A tree descriptor as a head's epoch has it. -/
structure TreeDesc where
  words : Nat
  base : Nat
  root : Nat
  rules : Nat
  ruleBase : Nat
  attrBase : Nat
  dims : List Nat
  deriving DecidableEq, Repr

/-- Descriptor of tree t of a pair for a head (Table 5-10). -/
def treeDesc (s : State) (p : Pkt) (t : Nat) : TreeDesc :=
  let k := p.slice / 2
  let g := fun (f : Fld) => fgetP s p.ep f k t
  let offs := [treTreeDoffLoD0, treTreeDoffLoD1, treTreeDoffLoD2, treTreeDoffLoD3, treTreeDoffHiD4, treTreeDoffHiD5,
    treTreeDoffHiD6, treTreeDoffHiD7]
  { words := g treTreeImgWordsImgWords, base := g treTreeImgBaseImgBase
    root := g treTreeRootRest + g treTreeRootType * 2 ^ 30, rules := g treTreeCtlRules
    ruleBase := g treTreeRuleBaseRuleBase, attrBase := g treTreeAttrBaseAttrBase
    dims := offs.map fun f => ofBE (slice p.kv (g f) 2) }

/-- Walk from a pointer word down to a leaf (R166): none for a fault. The first argument is the depth left. -/
def treeWalk (s : State) (k : Nat) (d : TreeDesc) : Nat → Nat → Option Nat
  | fuel, ptr =>
    if ptr / 2 ^ 30 ≠ 1 then some ptr
    else match fuel with
      | 0 => none
      | n + 1 =>
        let off := ptr % 2 ^ 19
        let w := treeMem s k (d.base + off) 0
        let ba := bitsOf w 10 7
        let bb := bitsOf w 21 18
        let sa := bitsOf w 6 3
        let sb := bitsOf w 17 14
        if d.words ≤ off ∨ bit w 31 = false ∨ 8 < ba + bb ∨ 16 < sa + ba ∨ 16 < sb + bb then none
        else
          let i := d.dims.getD (bitsOf w 2 0) 0 / 2 ^ sa % 2 ^ ba * 2 ^ bb
            + d.dims.getD (bitsOf w 13 11) 0 / 2 ^ sb % 2 ^ bb
          let c := treeMem s k (d.base + off) 1 % 2 ^ 19 + i / 8
          if d.words ≤ c then none else treeWalk s k d n (treeMem s k (d.base + c) (i % 8))

/-- Attribute of a rule; none when its word lies beyond the image. -/
def treeAttr (s : State) (k : Nat) (d : TreeDesc) (r : Nat) : Option Nat :=
  let a := d.attrBase + r / 8
  if d.words ≤ a then none else some (treeMem s k (d.base + a) (r % 8))

/-- The rule covers the key. -/
def treeIn (s : State) (k : Nat) (d : TreeDesc) (r : Nat) : Bool :=
  (List.range 8).all fun j =>
    let w := treeMem s k (d.base + d.ruleBase + r) j
    decide (w % 65536 ≤ d.dims.getD j 0) && decide (d.dims.getD j 0 ≤ w / 65536)

/-- The leaf's best rule (R166). A used slot faults on its rule word beyond IMG_WORDS only where its attribute is VALID: the
search reads no other rule word (DESIGN CHOICE, log entry 114). -/
def treeLeaf (s : State) (k : Nat) (d : TreeDesc) (off : Nat) : Found :=
  let used := (List.range 8).filterMap fun j =>
    let w := treeMem s k (d.base + off) j
    if bit w 31 then some (w % 2 ^ 18) else none
  if used.any fun r => decide (d.rules ≤ r) || (treeAttr s k d r).isNone
      || ((treeAttr s k d r).any (bit · 31) && decide (d.words ≤ d.ruleBase + r))
  then .drop 5
  else
    let live := used.filterMap fun r => (treeAttr s k d r).bind fun a =>
      if bit a 31 && treeIn s k d r then some (a % 65536, r, bitsOf a 29 16) else none
    match live.foldl (fun (b : Option (Nat × Nat × Nat)) x =>
        match b with
        | none => some x
        | some y => if y.1 < x.1 ∨ (y.1 = x.1 ∧ x.2.1 < y.2.1) then some x else some y) none with
    | none => .miss
    | some x => .hit x.2.2

/-- The search of a tree reads a tree word: its root points inside the image (R166). -/
def treeReads (d : TreeDesc) : Bool :=
  (d.root / 2 ^ 30 == 1 || d.root / 2 ^ 30 == 2) && decide (d.root % 2 ^ 19 < d.words)

/-- Search a tree table (R166, R167). -/
def treeSearch (s : State) (p : Pkt) (t : Nat) : Found × State :=
  let k := p.slice / 2
  let id := fgetP s p.ep clsTblCfgTreeId p.slice t
  if fgetP s p.ep treTreeCtlValid k id = 0 then (.miss, s)
  else
    let page := pageOf .tre k 0
    let d := treeDesc s p id
    let e := if treeReads d then eccCheck s page 0 1 (fun a => bump a .tre k 0 2 1 0) (fun a => bump a .tre k 0 2 2 0)
      else (false, s)
    if e.1 then (.drop 4, e.2)
    else
      let r : Found := match treeWalk e.2 k d 12 d.root with
        | none => .drop 5
        | some ptr =>
          if ptr / 2 ^ 30 = 0 then .miss
          else if ptr / 2 ^ 30 ≠ 2 ∨ d.words ≤ ptr % 2 ^ 19 then .drop 5
          else treeLeaf e.2 k d (ptr % 2 ^ 19)
      if r = .drop 5 then (r, fire (bump e.2 .tre k 0 2 3 0) page 2) else (r, e.2)

/-! ### The merged result -/

/-- A classifier counter of a head's source (CLS OBJ 0x03). -/
def clsCount (s : State) (p : Pkt) (c : Nat) : State :=
  match p.src with
  | .port n => bump s .cls p.slice 0 3 (16 * (n % 48) + c) 0
  | .inject _ => bump s .cls p.slice 0 3 (768 + c) 0

/-- An action record as a head reads it: its index and four words. -/
abbrev ActRec := Nat × Nat × Nat × Nat × Nat

/-- Read an action record. -/
def actionRec (s : State) (p : Pkt) (a : Nat) : ActRec :=
  let w := fun n => ogetP s p.ep .cls p.slice 0 1 a n
  (a, w 0, w 1, w 2, w 3)

/-- Records that contribute: up to and with the first that stops (R147). -/
def untilStop : List ActRec → List ActRec
  | [] => []
  | r :: rest => if bit r.2.1 2 then [r] else r :: untilStop rest

/-- First value a record enables. -/
def firstOf (l : List ActRec) (f : ActRec → Option Nat) : Option Nat := (l.filterMap f).head?

/-- Merge contributing records (R147, R150). -/
def merge (s : State) (p : Pkt) (l : List ActRec) : Merged :=
  let dt := match p.src with
    | .port n => (fgetP s p.ep clsPortDefTenant p.slice (n % 48), fgetP s p.ep clsPortDefTc p.slice (n % 48))
    | .inject _ => (fgetP s p.ep clsInjDefTenant p.slice 0, fgetP s p.ep clsInjDefTc p.slice 0)
  { tenant := (firstOf l fun r => if bit r.2.2.1 14 then some (r.2.2.1 % 2 ^ 14) else none).getD dt.1
    tc := (firstOf l fun r => if bit r.2.1 9 then some (bitsOf r.2.1 12 10) else none).getD dt.2
    dlp := firstOf l fun r => if bit r.2.1 13 then some (bitsOf r.2.1 21 14) else none
    policer := firstOf l fun r => if bit r.2.2.1 15 then some (bitsOf r.2.2.1 29 16) else none
    mirror := firstOf l fun r => if bit r.2.1 22 then some (bitsOf r.2.1 26 23) else none
    edit := firstOf l fun r => if bit r.2.1 27 then some (r.2.2.2.2 % 2 ^ 12) else none
    redirect := firstOf l fun r => if bit r.2.2.2.1 20 then some (r.2.2.2.1 % 2 ^ 20) else none
    counters := l.filterMap fun r => if bit r.2.2.2.2 28 then some (bitsOf r.2.2.2.2 27 12) else none }

/-- DEF_ACT of a head's source (R134, R148). -/
def defAct (s : State) (p : Pkt) : Nat :=
  match p.src with
  | .port n => fgetP s p.ep prsPortCfgDefAct p.slice (n % 48)
  | .inject _ => fgetP s p.ep prsInjCfgDefAct p.slice 0

/-- Every enabled table's outcome, in ascending order (R143). -/
def searchAll (s : State) (p : Pkt) : List Found × State :=
  if p.unparsed then ([], s)
  else (List.range 16).foldl (fun (a : List Found × State) t =>
    if fgetP a.2 p.ep clsTblCfgEn p.slice t = 0 then a
    else
      let r := if fgetP a.2 p.ep clsTblCfgMech p.slice t = 1 then treeSearch a.2 p t else radish 3 a.2 p t p.since
      let s1 := match r.1 with
        | .hit _ => bump r.2 .cls p.slice 0 4 t 0
        | _ => r.2
      (a.1 ++ [r.1], s1)) ([], s)

/-- A mirrored head takes a staging slot, or is counted as skipped (R307). -/
def stage (s : State) (p : Pkt) : State :=
  if p.res.mirror.isNone then putPkt s p
  else if slotsUsed s p.slice < 1024
  then putPkt (bump s .gze p.slice 1 1 0 0) { p with staged := true }
  else putPkt (bump s .gze p.slice 1 1 1 0) p

/-- A head has been classified (R147-R150). Where several tables end in a drop, the lowest-numbered one's is counted (DESIGN
CHOICE, log entry 114). -/
def classified (s : State) (p : Pkt) : State :=
  let r := searchAll (clsCount s p 0) p
  match r.1.find? fun f => match f with | .drop _ => true | _ => false with
  | some (.drop c) => dropGone (clsCount r.2 p c) p
  | _ =>
    let hits := r.1.filterMap fun f => match f with | .hit a => some a | _ => none
    let none_ := hits.isEmpty
    let acts := if none_ then [defAct r.2 p] else hits
    let e := eccCheck r.2 (pageOf .cls p.slice 0) 0 1 id id
    let s1 := if none_ then clsCount e.2 p 6 else e.2
    let s2 := if none_ && !p.unparsed then
        (match p.src with
          | .port n => bump s1 .prs p.slice 2 1 (16 * (n % 48) + 9) 0
          | .inject _ => bump s1 .prs p.slice 3 1 9 0)
      else s1
    if e.1 then dropGone (clsCount s2 p 4) p
    else
      let l := untilStop (acts.map (actionRec s2 p))
      let m := merge s2 p l
      let trap := l.find? fun q => q.2.1 % 4 != 0
      let p1 := { p with res := m, stage := .classified, since := s.clk }
      let s3 := if p.tail then countActions s2 p1 else s2
      match trap with
      | some q =>
        if q.2.1 % 4 = 2 then dropGone (clsCount s3 p 1) { p1 with res := { m with mirror := none } }
        else if q.2.1 % 4 = 3 then
          punt (clsCount s3 p 2) { p1 with res := { m with mirror := none } } (bitsOf q.2.1 8 3) 1 q.1
        else stage s3 p1
      | none => stage s3 p1

/-- CLASSIFY (R141): a parsed head leaves classification 64 core clocks after it entered. -/
def execClassify (id : Nat) (s : State) : Out :=
  run true s <| match pktOf s id with
    | none => s
    | some p => if running s && p.stage == .parsed && decide (p.since + 64 ≤ s.clk) then classified s p else s

/-! ### Repairs, scrub and sync -/

/-- RELOAD_ATTEMPT (R157, R158): `ok` when the row reads back as written; the third failure leaves the slot STUCK. -/
def execReloadAttempt (page slot : Nat) (ok : Bool) (s : State) : Out :=
  run (320 ≤ page && page < 448 && slot < 5) s <|
    match s.tbl.repairs.find? fun r => r.page == page && r.slot == slot with
    | none => s
    | some r =>
      let o := okraFetch s (bankSlice page / 2)
      if !running s then s
      else if !o.1 then o.2
      else
        let rest := o.2.tbl.repairs.erase r
        let s1 := { o.2 with tbl := { o.2.tbl with repairs := rest } }
        if ok then
          if slot < 4 then showQuar (setQuar s1 page slot 0) page
          else { s1 with tbl := { s1.tbl with excluded := s1.tbl.excluded.erase (page, r.half, r.entry) } }
        else if r.tries < 2 then
          { o.2 with tbl := { o.2.tbl with repairs := { r with tries := r.tries + 1 } :: rest } }
        else
          let s2 := rdhCount s1 page 5
          if slot < 4 then setQuar s2 page slot (putBits (quarW s2 page slot) 30 30 1) else s2

/-- The entry is quarantined or excluded in a half. -/
def setAside (s : State) (page half i : Nat) : Bool :=
  (quarSlot s page half i).isSome || s.tbl.excluded.contains (page, half, i)

/-- A bank is syncing (R155). -/
def bankSyncing (s : State) (page : Nat) : Bool := bit (actW s (regKey page 0x100)).toNat 24

/-- RADISH_SCRUB (R160, R161): one row of the active half against its verify copy. -/
def execRadishScrub (page entry : Nat) (differs : Bool) (s : State) : Out :=
  run (320 ≤ page && page < 448 && entry < 2048) s <|
    let half := activeHalf s page
    let reload := s.tbl.repairs.any fun r => bankSlice r.page / 2 == bankSlice page / 2
    if running s && !reload && !bankSyncing s page && !setAside s page half entry then
      let o := okraFetch s (bankSlice page / 2)
      if !o.1 then o.2
      else
        let e := eccCheck o.2 page 1 2 (fun a => rdhCount a page 2) (fun a => rdhCount a page 3)
        if e.1 then quarantine e.2 page half entry true
        else
          let f := takeInj e.2 page 4
          if differs || f.1 then fire (rdhCount f.2 page 6) page 4 else f.2
    else s

/-- No head of the previous epoch of a page's group is left in or before classification in some slices (R141). -/
def oldHeadsDone (s : State) (page : Nat) (slices : List Nat) (stages : List Stage) : Bool :=
  !(s.net.pkts.any fun p => slices.contains p.slice && stages.contains p.stage && usesOld s p.ep page)

/-- BANK_SYNC (R155, R160, R162): the copy begins; it releases the slots of the half it writes, and an entry whose
verify copy is uncorrectable becomes invalid there. -/
def execBankSync (page : Nat) (s : State) : Out :=
  run (320 ≤ page && page < 448) s <|
    if running s && (storeFind s.tbl.syncs page).isSome && (storeFind s.tbl.syncs (page + 4096)).isNone
        && oldHeadsDone s page [bankSlice page] [.parsing, .parsed] then
      let act := activeHalf s page
      let e := eccCheck s page 1 2 (fun a => rdhCount a page 2) id
      let bads := (List.range 4).filterMap (fun k =>
          let v := quarW e.2 page k
          if bit v 31 && bit v 29 && v / 2 ^ 28 % 2 == act then some (v % 2048) else none)
        ++ (e.2.tbl.unread.filter fun x => x.1 == page && x.2.1 == act).map (·.2.2)
        ++ (if e.1 then [0] else [])
      let s1 := bads.foldl (fun a i => rdhCount (rdhCount (setShd a (objKey page 1 i 0) 0) page 3) page 7) e.2
      let s2 := if bads.isEmpty || e.1 then s1 else fire s1 page 2
      let s3 := (List.range 4).foldl (fun a k =>
        let v := quarW a page k
        if bit v 31 && v / 2 ^ 28 % 2 != act then setQuar a page k 0 else a) s2
      let keep := fun (x : Nat × Nat × Nat) => !(x.1 == page && x.2.1 != act)
      showQuar { s3 with tbl := { s3.tbl with
        syncs := storePut (page + 4096) s.clk s3.tbl.syncs
        excluded := s3.tbl.excluded.filter keep
        unread := s3.tbl.unread.filter keep
        repairs := s3.tbl.repairs.filter fun r => keep (r.page, r.half, r.entry) } } page
    else s

/-- BANK_SYNC_END (R155): 256 core clocks after the copy began. -/
def execBankSyncEnd (page : Nat) (s : State) : Out :=
  run (320 ≤ page && page < 448) s <|
    match storeFind s.tbl.syncs (page + 4096) with
    | none => s
    | some t =>
      if t + 256 ≤ s.clk then
        let k := regKey page 0x100
        let s1 := setAct s k (BitVec.ofNat 32 (putBits (actW s k).toNat 24 24 0))
        { s1 with tbl := { s1.tbl with syncs := storeDel page (storeDel (page + 4096) s1.tbl.syncs) } }
      else s

/-- OLD_READERS_CLEAR (R168). -/
def execOldReadersClear (k : Nat) (s : State) : Out :=
  run (k < 4) s <|
    if fget s treStatOldReaders k 0 = 1 ∧
        oldHeadsDone s (pageOf .tre k 0) [2 * k, 2 * k + 1] [.parsing, .parsed] = true
    then fset s treStatOldReaders k 0 0 else s

end Sys2Proof.Machine
end

