-- ==== Sys2Proof/Machine/Edit.lean ====
section
/-!
DEFINITION. Edit templates (R211-R231): the ingress check of R215, static growth, and the egress edit of one frame as a
function of the template words, the data lines and what the packet carries.
-/
namespace Sys2Proof.Machine

/-- Word of a template in a slice, in a holder's epoch (R211). A number above 4,095 names no template: it reads
VALID = 0 (log entry 15). -/
def tmplW (s : State) (ep : List Nat) (sl t w : Nat) : Nat := ogetP s ep .edt sl 0 1 t w

/-- The sixteen words of a template. -/
def tmplWords (s : State) (ep : List Nat) (sl t : Nat) : List Nat := (List.range 16).map (tmplW s ep sl t)

/-- Bytes of `n` data lines from line `i` (R229). -/
def dataLines (s : State) (ep : List Nat) (sl i n : Nat) : List Byte :=
  (List.range n).flatMap fun k => (List.range 16).flatMap fun w => toLE 4 (ogetP s ep .edt sl 0 2 (i + k) w)

/-- Data lines the SIDs take (R229). -/
def sidLines (w0 : Nat) : Nat := cdiv (16 * bitsOf w0 20 18) 64

/-- Static growth of a template's words (R214). -/
def staticGrowth (t : List Nat) : Nat :=
  let w := fun n => t.getD n 0
  let sid := bitsOf (w 0) 20 18
  let encLen := bitsOf (w 2) 20 13
  4 * bitsOf (w 0) 17 14 + (if sid = 0 then 0 else 24 + 16 * sid)
    + (if bitsOf (w 0) 22 21 = 1 then cdiv (14 + 4 * bitsOf (w 3) 22 16) 8 * 8 else 0)
    + (match bitsOf (w 0) 24 23 with | 1 => encLen | 2 => encLen - 14 | _ => 0)
    + (if bitsOf (w 0) 8 7 = 1 then 4 else 0)

/-- G of R248: static growth of a valid template, else 0. -/
def growthOf (s : State) (ep : List Nat) (sl t : Nat) : Nat :=
  if bit (tmplW s ep sl t 0) 0 then staticGrowth (tmplWords s ep sl t) else 0

/-- What the ingress check finds (R215). -/
inductive EdtCheck | pass | precondition | expired
  deriving DecidableEq, Repr

/-- Slots Table 7-2 requires of a template, given which are recorded. -/
def slotsNeeded (t : List Nat) (slots : List (Option Nat)) : List Nat :=
  let w0 := t.getD 0 0
  let w1 := t.getD 1 0
  let l3 := bitsOf w1 2 0
  let l4 := bitsOf w1 5 3
  let mp := bitsOf w1 8 6
  let fw := fun (c : Nat) => if bit c 13 then [c % 8] else []
  fw (t.getD 15 0 % 65536) ++ fw (t.getD 15 0 / 65536)
    ++ (if bit w0 1 then [if bit w0 2 then mp else l3] else [])
    ++ (if bit w0 3 then [l3] else []) ++ (if bit w0 4 then [l3, l4] else [])
    ++ (if bitsOf w0 12 10 ≠ 0 ∨ bit w0 13 = true then [mp]
        else if bitsOf w0 17 14 ≠ 0 ∧ (slots.getD mp none).isNone then [l3] else [])
    ++ (if bitsOf w0 20 18 ≠ 0 ∨ bitsOf w0 22 21 ≠ 0 ∨ bitsOf w0 24 23 = 2 then [l3] else [])

/-- The ingress check of a template's words on a head's frame (R215). -/
def edtCheck (t : List Nat) (slots : List (Option Nat)) (data : List Byte) : EdtCheck :=
  let w0 := t.getD 0 0
  let l3 := (slots.getD (bitsOf (t.getD 1 0) 2 0) none).getD 0
  let mp := (slots.getD (bitsOf (t.getD 1 0) 8 6) none).getD 0
  let nib := byteAt data l3 / 16
  if bit w0 0 = false then .pass
  else if (slotsNeeded t slots).any fun n => (slots.getD n none).isNone then .precondition
  else if bitsOf w0 24 23 = 2 ∧ l3 < 14 then .precondition
  else if bitsOf w0 20 18 ≠ 0 ∧ nib ≠ 6 then .precondition
  else if bit w0 1 = false then .pass
  else if bit w0 2 = false ∧ nib ≠ 4 ∧ nib ≠ 6 then .precondition
  else
    let v := if bit w0 2 then byteAt data (mp + 3) else if nib = 4 then byteAt data (l3 + 8) else byteAt data (l3 + 7)
    if v ≤ 1 then .expired else .pass

/-! ### The egress edit -/

/-- A frame under edit: bytes without FCS, offset slots, short stacks counted, VLAN absent, IOAM skipped. -/
structure Ed where
  fr : List Byte
  slots : List (Option Nat)
  short : Nat
  vlan : Bool
  ioam : Bool
  deriving DecidableEq, Repr

/-- What an edit takes from the packet and the pages: template words, SID and encapsulation bytes, words 2 and 3 of the
next hop, station address, flow hash, IOAM settings and the facts of R222. -/
structure EdIn where
  t : List Nat
  sids : List Byte
  enc : List Byte
  nh2 : Nat
  nh3 : Nat
  station : Nat
  hash : Nat
  namespace_ : Nat
  optType : Nat
  nodeId : Nat
  traceType : Nat
  src : Nat
  port : Nat
  sec : Nat
  nsec : Nat
  transit : Nat
  tenant : Nat
  cells : Nat
  deriving DecidableEq, Repr

/-- Word n of the template of an edit. -/
def EdIn.w (i : EdIn) (n : Nat) : Nat := i.t.getD n 0

/-- Slot n of a frame under edit. -/
def edSlot (e : Ed) (n : Nat) : Option Nat := e.slots.getD n none

/-- Insert bytes; slots at or after the place move (R216). -/
def edInsert (e : Ed) (x : Nat) (b : List Byte) : Ed :=
  { e with fr := e.fr.take x ++ b ++ e.fr.drop x
           slots := e.slots.map fun o => o.map fun v => if x ≤ v then v + b.length else v }

/-- Remove bytes; slots beyond them move back. -/
def edRemove (e : Ed) (x n : Nat) : Ed :=
  { e with fr := e.fr.take x ++ e.fr.drop (x + n)
           slots := e.slots.map fun o => o.map fun v => if x + n ≤ v then v - n else v }

/-- Write bytes in place. -/
def edPut (e : Ed) (x : Nat) (b : List Byte) : Ed := { e with fr := patch e.fr x b }

/-- Field write k (R217). -/
def edField (i : EdIn) (k : Nat) (e : Ed) : Ed :=
  let c := i.w 15 / 65536 ^ k % 65536
  match edSlot e (c % 8) with
  | some o => if bit c 13 then edPut e (o + bitsOf c 10 3) (toBE (bitsOf c 12 11 + 1) (i.w (13 + k))) else e
  | none => e

/-- TTL or hop-limit decrement (R217): of the byte R215 tested, which the header of the frame as received, `a`, tells. -/
def edTtl (i : EdIn) (a : List Byte) (e : Ed) : Ed :=
  let dec := fun (x : Nat) => edPut e x (toBE 1 (byteAt e.fr x + 255))
  if bit (i.w 0) 1 = false then e
  else if bit (i.w 0) 2 then (edSlot e (bitsOf (i.w 1) 8 6)).elim e fun o => dec (o + 3)
  else match edSlot e (bitsOf (i.w 1) 2 0) with
    | none => e
    | some o => match byteAt a o / 16 with
      | 4 => dec (o + 8)
      | 6 => dec (o + 7)
      | _ => e

/-- One's-complement sum folded to 16 bits. -/
def fold16 (n : Nat) : Nat :=
  let a := n % 65536 + n / 65536
  let b := a % 65536 + a / 65536
  b % 65536 + b / 65536

/-- 16-bit big-endian word of a frame. -/
def w16 (l : List Byte) (x : Nat) : Nat := byteAt l x * 256 + byteAt l (x + 1)

/-- Incremental checksum of RFC 1624: HC' = ~(~HC + Σ(~m + m')). -/
def incCsum (hc : Nat) (ch : List (Nat × Nat)) : Nat :=
  65535 - fold16 (fold16 (65535 - hc + ch.foldl (fun a c => a + (65535 - c.1) + c.2) 0))

/-- Words of [x, x + n) that two frames differ in, but for the word at `skip`. -/
def changes (a b : List Byte) (x n skip : Nat) : List (Nat × Nat) :=
  (List.range ((n + 1) / 2)).filterMap fun k =>
    let p := x + 2 * k
    if p = skip ∨ w16 a p = w16 b p then none else some (w16 a p, w16 b p)

/-- CSUM4 (R218): `a` the frame as received, `e` after steps 1 and 2. -/
def edCsum4 (i : EdIn) (a : List Byte) (e : Ed) : Ed :=
  match edSlot e (bitsOf (i.w 1) 2 0) with
  | none => e
  | some o =>
    if bit (i.w 0) 3 = false ∨ byteAt e.fr o / 16 ≠ 4 then e
    else
      let ch := changes a e.fr o (byteAt e.fr o % 16 * 4) (o + 10)
      if ch = [] then e else edPut e (o + 10) (toBE 2 (incCsum (w16 e.fr (o + 10)) ch))

/-- CSUM_L4 (R218): `f` the frame after step 1. -/
def edCsumL4 (i : EdIn) (a f : List Byte) (e : Ed) : Ed :=
  match edSlot e (bitsOf (i.w 1) 2 0), edSlot e (bitsOf (i.w 1) 5 3) with
  | some o, some l =>
    let nib := byteAt f o / 16
    let udp := bit (i.w 0) 5
    let at_ := if udp then l + 6 else l + 16
    if bit (i.w 0) 4 = false ∨ (nib ≠ 4 ∧ nib ≠ 6) ∨ (udp = true ∧ nib = 4 ∧ w16 e.fr at_ = 0) then e
    else
      let addr := if nib = 4 then changes a f (o + 12) 8 at_ else changes a f (o + 8) 32 at_
      let ch := addr ++ changes a f l (if udp then 8 else byteAt a (l + 12) / 16 * 4) at_
      if ch = [] then e else edPut e at_ (toBE 2 (incCsum (w16 e.fr at_) ch))
  | _, _ => e

/-- Pop up to `n` labels at `m` (R219): the frame, and whether a label remains. -/
def edPop (i : EdIn) (m : Nat) : Nat → Ed → Ed × Bool
  | 0, e => (e, true)
  | n + 1, e =>
    let s := byteAt e.fr (m + 2) % 2 == 1
    let e1 := edRemove e m 4
    if s then
      let ty := match byteAt e1.fr m / 16 with | 4 => 0x0800 | 6 => 0x86DD | _ => i.w 3 % 65536
      ({ edPut e1 (m - 2) (toBE 2 ty) with short := e1.short + b2n (n != 0) }, false)
    else edPop i m n e1

/-- Four bytes of a label. -/
def labelBytes (label tc s ttl : Nat) : List Byte := toBE 4 (label % 2 ^ 20 * 4096 + tc % 8 * 512 + s % 2 * 256 + ttl % 256)

/-- MPLS pop, swap and push (R219, R220). -/
def edMpls (i : EdIn) (e : Ed) : Ed :=
  let w0 := i.w 0
  let mp := edSlot e (bitsOf (i.w 1) 8 6)
  match mp.or (edSlot e (bitsOf (i.w 1) 2 0)) with
  | none => e
  | some pp =>
    let r := if mp.isSome ∧ bitsOf w0 12 10 ≠ 0 then edPop i pp (bitsOf w0 12 10) e else (e, mp.isSome)
    let held := r.2
    let old := ofBE (slice r.1.fr pp 4)
    let e2 :=
      if bit w0 13 = false then r.1
      else if held = false then { r.1 with short := r.1.short + 1 }
      else edPut r.1 pp (labelBytes (bitsOf (i.w 12) 31 12)
        (if bit (i.w 12) 8 then bitsOf old 11 9 else bitsOf (i.w 12) 11 9) (bitsOf old 8 8) (old % 256))
    let n := bitsOf w0 17 14
    if n = 0 then e2
    else
      let const := bitsOf (i.w 1) 22 15
      let ttl :=
        if bit w0 26 then const
        else if held then byteAt e2.fr (pp + 3)
        else match byteAt e2.fr pp / 16 with
          | 4 => byteAt e2.fr (pp + 8)
          | 6 => byteAt e2.fr (pp + 7)
          | _ => const
      let labels := (List.range n).flatMap fun k =>
        labelBytes (bitsOf (i.w (4 + k)) 31 12) (bitsOf (i.w (4 + k)) 11 9) (if k + 1 = n ∧ held = false then 1 else 0) ttl
      let e3 := edInsert e2 pp labels
      if held then e3 else edPut e3 (pp - 2) (toBE 2 0x8847)

/-- Add to the Payload Length of the IPv6 header at `o`. -/
def addPayload (e : Ed) (o n : Nat) : Ed := edPut e (o + 4) (toBE 2 (w16 e.fr (o + 4) + n))

/-- SRH insertion (R221). -/
def edSrh (i : EdIn) (e : Ed) : Ed :=
  let n := bitsOf (i.w 0) 20 18
  match edSlot e (bitsOf (i.w 1) 2 0) with
  | none => e
  | some o =>
    if n = 0 then e
    else
      let sid := fun k => slice i.sids (16 * k) 16
      let srh := toBE 1 (byteAt e.fr (o + 6)) ++ toBE 1 (2 * (n + 1)) ++ toBE 1 4 ++ toBE 1 n ++ toBE 1 n ++ toBE 3 0
        ++ slice e.fr (o + 24) 16 ++ (List.range n).flatMap (fun k => sid (n - 1 - k))
      let e1 := edInsert e (o + 40) srh
      addPayload (edPut (edPut e1 (o + 6) (toBE 1 43)) (o + 24) (sid 0)) o (24 + 16 * n)

/-- The device's own node data (R222). -/
def nodeData (i : EdIn) (hop : Nat) : List Byte :=
  let on := fun b => bit i.traceType (6 - b)
  (if on 0 then toBE 1 hop ++ toBE 3 i.nodeId else []) ++ (if on 1 then toBE 2 i.src ++ toBE 2 i.port else [])
    ++ (if on 2 then toBE 4 i.sec else []) ++ (if on 3 then toBE 4 i.nsec else [])
    ++ (if on 4 then toBE 4 (min 0x7FFFFFFF i.transit) else []) ++ (if on 5 then toBE 4 i.tenant else [])
    ++ (if on 6 then toBE 4 i.cells else [])

/-- NodeLen: trace-type bits set. -/
def nodeLen (i : EdIn) : Nat := ((List.range 7).filter fun b => bit i.traceType b).length

/-- IOAM insert (R222). -/
def edIoamInsert (i : EdIn) (e : Ed) (o : Nat) : Ed :=
  if byteAt e.fr o / 16 ≠ 6 ∨ byteAt e.fr (o + 6) = 0 then { e with ioam := true }
  else
    let r := bitsOf (i.w 3) 22 16
    let nl := nodeLen i
    let fits := decide (nl ≤ r)
    let area := if fits then List.replicate (4 * (r - nl)) 0 ++ nodeData i (byteAt e.fr (o + 7)) else List.replicate (4 * r) 0
    let total := cdiv (14 + 4 * r) 8 * 8
    let pad := total - (14 + 4 * r)
    let hdr := toBE 1 (byteAt e.fr (o + 6)) ++ toBE 1 (total / 8 - 1) ++ toBE 1 i.optType ++ toBE 1 (10 + 4 * r)
      ++ toBE 1 0 ++ toBE 1 0 ++ toBE 2 i.namespace_
      ++ toBE 2 (nl * 2048 + (if fits then 0 else 1024) + (if fits then r - nl else r))
      ++ toBE 4 (i.traceType * 2 ^ 25) ++ area ++ toBE 1 1 ++ toBE 1 (pad - 2) ++ List.replicate (pad - 2) 0
    addPayload (edPut (edInsert e (o + 40) hdr) (o + 6) (toBE 1 0)) o total

/-- IOAM transit (R223). -/
def edIoamTransit (i : EdIn) (e : Ed) (o : Nat) : Ed :=
  let h := o + 40
  let f := w16 e.fr (h + 8)
  let rem := f % 128
  let nl := nodeLen i
  if byteAt e.fr o / 16 ≠ 6 ∨ byteAt e.fr (o + 6) ≠ 0 ∨ byteAt e.fr (h + 2) ≠ i.optType ∨ byteAt e.fr (h + 5) ≠ 0
      ∨ w16 e.fr (h + 6) ≠ i.namespace_ then { e with ioam := true }
  else if rem < nl then edPut e (h + 8) (toBE 2 (f - bitsOf f 10 10 * 1024 + 1024))
  else if 256 < h + 14 + 4 * rem then { e with ioam := true }
  else edPut (edPut e (h + 14 + 4 * (rem - nl)) (nodeData i (byteAt e.fr (o + 7)))) (h + 8) (toBE 2 (f - nl))

/-- IOAM trace. -/
def edIoam (i : EdIn) (e : Ed) : Ed :=
  match bitsOf (i.w 0) 22 21, edSlot e (bitsOf (i.w 1) 2 0) with
  | 1, some o => edIoamInsert i e o
  | 2, some o => edIoamTransit i e o
  | _, _ => e

/-- Full IPv4 header checksum of the 20 bytes at 14 of an outer header. -/
def outerCsum (l : List Byte) : List Byte :=
  let z := patch l 24 (toBE 2 0)
  patch z 24 (toBE 2 (65535 - fold16 (fold16 ((List.range 10).foldl (fun a k => a + w16 z (14 + 2 * k)) 0))))

/-- Encapsulation (R224, R225). -/
def edEncap (i : EdIn) (e : Ed) : Ed :=
  let n := bitsOf (i.w 2) 20 13
  let v6 := bit (i.w 0) 25
  let h0 := slice i.enc 0 n
  match bitsOf (i.w 0) 24 23 with
  | 1 =>
    let lin := e.fr.length
    let udp := if v6 then 54 else 34
    let h1 := if v6 then patch h0 18 (toBE 2 (16 + lin)) else outerCsum (patch h0 16 (toBE 2 (36 + lin)))
    let h2 := patch (patch (patch h1 udp (toBE 2 (0xC000 + i.hash % 2 ^ 14))) (udp + 4) (toBE 2 (16 + lin))) (udp + 6) (toBE 2 0)
    edInsert e 0 h2
  | 2 => match edSlot e (bitsOf (i.w 1) 2 0) with
    | none => e
    | some o =>
      let e1 := edRemove e 0 o
      let lp := e1.fr.length
      edInsert e1 0 (if v6 then patch h0 18 (toBE 2 (n - 54 + lp)) else outerCsum (patch h0 16 (toBE 2 (n - 14 + lp))))
  | _ => e

/-- VLAN operations (R226). -/
def edVlan (i : EdIn) (e : Ed) : Ed :=
  let w0 := i.w 0
  let vid := bitsOf i.nh3 27 16
  let pcp := bitsOf (i.w 1) 25 23
  let pcpEn := bit (i.w 1) 26
  let tagged := w16 e.fr 12 == 0x8100 || w16 e.fr 12 == 0x88A8
  match bitsOf w0 8 7 with
  | 1 => if vid = 0 then e
    else edInsert e 12 (toBE 2 (if bit w0 9 then 0x88A8 else 0x8100) ++ toBE 2 ((if pcpEn then pcp else 0) * 8192 + vid))
  | 2 => if tagged then edRemove e 12 4 else { e with vlan := true }
  | 3 => if tagged then
      let v := w16 e.fr 14
      edPut e 14 (toBE 2 ((if pcpEn then pcp else v / 8192) * 8192 + bitsOf v 12 12 * 4096 + (if vid = 0 then v % 4096 else vid)))
    else { e with vlan := true }
  | _ => e

/-- MAC rewrite (R227). -/
def edMac (i : EdIn) (e : Ed) : Ed :=
  if bit (i.w 0) 6 then edPut e 0 (toBE 6 (i.nh2 + i.nh3 % 65536 * 2 ^ 32) ++ toBE 6 i.station) else e

/-- The whole edit in the order of Table 7-2 (R216). -/
def editFrame (i : EdIn) (fr : List Byte) (slots : List (Option Nat)) : Ed :=
  let e0 : Ed := ⟨fr, slots, 0, false, false⟩
  if bit (i.w 0) 0 = false then e0
  else
    let e1 := edField i 1 (edField i 0 e0)
    let e2 := edTtl i fr e1
    let e3 := edCsumL4 i fr e1.fr (edCsum4 i fr e2)
    edMac i (edVlan i (edEncap i (edIoam i (edSrh i (edMpls i e3)))))

/-- The word of a template found uncorrectable is rewritten from the same half of the next slice's page (R231); it is the first
word read, 64 bits wide (DESIGN CHOICE, log entry 116). -/
def edtRewrite (s : State) (ep : List Nat) (sl t : Nat) : State :=
  (List.range 2).foldl (fun a w =>
    let k := objKey (pageOf .edt sl 0) 1 t w
    let v := BitVec.ofNat 32 (tmplW a ep ((sl + 1) % 8) t w)
    if usesOld a ep (keyPage k) then { a with cfg := { a.cfg with old := storePut k v a.cfg.old } } else setAct a k v) s

/-- A counter of EDT OBJ 0x03: port counter n of a slice. -/
def edtCount (s : State) (sl n c : Nat) : State := bump s .edt sl 0 3 (8 * n + c) 0

end Sys2Proof.Machine
end

