-- ==== Sys2Proof/Machine/Parse.lean ====
section
/-!
DEFINITION. The parse graph (R115-R140): one step at one node, the end of a parse with its key vector, malformed heads,
and the graph sweep.
-/
namespace Sys2Proof.Machine

/-! ### Reading the window (R115, R116, R120) -/

/-- Data length of a frame. -/
def dataLen (p : Pkt) : Nat := p.data.length - 4

/-- Reason why reading `n` bytes from byte `x` fails (R116): 0 none, 1 window exceeded, 4 truncated frame. -/
def readReason (p : Pkt) (x n : Nat) : Nat :=
  let lim := if p.known then min (dataLen p) 256 else 256
  if n = 0 ∨ x + n ≤ lim then 0 else if p.known ∧ dataLen p ≤ max x lim then 4 else 1

/-- Reason for reading a field of `w` bits at bit offset `b` from the pointer. -/
def fieldReason (p : Pkt) (b w : Nat) : Nat :=
  if w = 0 then 0 else readReason p (p.ptr + b / 8) ((b + w - 1) / 8 - b / 8 + 1)

/-- Value of a field of `w` bits at bit offset `b` from the pointer (R120). -/
def fieldValue (p : Pkt) (b w : Nat) : Nat :=
  if w = 0 then 0
  else
    let n := (b + w - 1) / 8 - b / 8 + 1
    ofBE (slice p.data (p.ptr + b / 8) n) / 2 ^ (8 * n - b % 8 - w) % 2 ^ w

/-- 16-bit one's-complement sum of a byte string (R121); the last byte of an odd length is the high byte of a word whose low byte
is zero (DESIGN CHOICE, log entry 111). -/
def onesSum (l : List Byte) : Nat :=
  let t := (List.range ((l.length + 1) / 2)).foldl (fun a k => a + byteAt l (2 * k) * 256 + byteAt l (2 * k + 1)) 0
  let f := fun v => v / 65536 + v % 65536
  f (f t)

/-! ### Nodes (R127-R130) -/

/-- Word of a node record as the head's epoch has it. -/
def nodeWord (s : State) (p : Pkt) (w : Nat) : Nat := if p.node < 512 then ogetP s p.ep .prs p.slice 0 1 p.node w else 0

/-- The parse fails with a reason of Table 4-5 (8: parser memory error); the failed step counts as taken. -/
def parseFail (p : Pkt) (reason : Nat) : Pkt := { p with mal := reason, steps := p.steps + 1 }

/-- One extraction (R119 action 9, R125): the reason it fails, and the head after it. -/
def extract (s : State) (p : Pkt) (k : Nat) : Nat × Pkt :=
  let w := nodeWord s p (4 + k)
  if bit w 21 = false then (0, p)
  else if 48 ≤ p.exts then (0, { p with extHit := true })
  else
    let n := bitsOf w 12 8 + 1
    let src := p.ptr + bitsOf w 7 0
    let r := readReason p src n
    if r ≠ 0 then (r, p)
    else (0, { p with exts := p.exts + 1, kv := patch p.kv (bitsOf w 20 13) (slice p.data src n) })

/-- Next node of a select value (R123): none when nothing matches. -/
def transition (s : State) (p : Pkt) (base n selw v : Nat) : Option Nat :=
  ((List.range n).find? fun e =>
    let at_ := fun w => ogetP s p.ep .prs p.slice 0 2 (base + e) w % 2 ^ selw
    Nat.land v (at_ 1) == Nat.land (at_ 0) (at_ 1)).map fun e => ogetP s p.ep .prs p.slice 0 2 (base + e) 2 % 1024

/-- Actions 3 to 12 of a step at a valid node (Table 4-1). With ADV_MODE 0 the fields of word 2, CSUM4 among them, are ignored. -/
def nodeActions (s : State) (p : Pkt) : Pkt :=
  let w0 := nodeWord s p 0
  let w1 := nodeWord s p 1
  let w2 := nodeWord s p 2
  let w3 := nodeWord s p 3
  let selw := bitsOf w0 16 11
  let lenMode := bit w1 18
  let csum := lenMode && bit w2 29
  let r3 := fieldReason p (bitsOf w0 10 0) selw
  let lw := bitsOf w2 14 11 + 1
  let r4 := if lenMode then fieldReason p (bitsOf w2 10 0) lw else 0
  let adv := if lenMode then (fieldValue p (bitsOf w2 10 0) lw + bitsOf w2 18 15) * 2 ^ bitsOf w2 20 19
    else bitsOf w1 26 19
  let chkw := bitsOf w3 14 11 + 1
  let chk := bit w3 15 && p.known
  let r7 := if chk then fieldReason p (bitsOf w3 10 0) chkw else 0
  let r8 := if csum then readReason p p.ptr adv else 0
  if r3 ≠ 0 then parseFail p r3
  else if r4 ≠ 0 then parseFail p r4
  else if lenMode && decide (adv < bitsOf w2 28 21) then parseFail p 7
  else if p.known && decide (dataLen p < p.ptr + adv) then parseFail p 4
  else if r7 ≠ 0 then parseFail p r7
  else if chk && decide (dataLen p - p.ptr < fieldValue p (bitsOf w3 10 0) chkw + bitsOf w3 23 16) then parseFail p 3
  else if r8 ≠ 0 then parseFail p r8
  else if csum && onesSum (slice p.data p.ptr adv) != 0xFFFF then parseFail p 5
  else
    let ex := (List.range 4).foldl (fun (a : Nat × Pkt) k => if a.1 ≠ 0 then a else extract s a.2 k) (0, p)
    if ex.1 ≠ 0 then parseFail ex.2 ex.1
    else
      let p1 := if bit w3 27 && decide (p.ptr ≤ 255)
        then { ex.2 with slots := ex.2.slots.set (bitsOf w3 26 24) (some p.ptr) } else ex.2
      let next := if selw = 0 then some (bitsOf w0 27 18)
        else match transition s p (bitsOf w1 12 0) (bitsOf w1 17 13) selw (fieldValue p (bitsOf w0 10 0) selw) with
          | some n => some n
          | none => if bit w0 17 then none else some (bitsOf w0 27 18)
      match next with
      | none => parseFail p1 6
      | some n => { p1 with ptr := min 510 (p1.ptr + adv), node := n, endOk := n == 0x3FF, steps := p1.steps + 1 }

/-- One step of a head (R119), with the memory check of the words it reads (R138). -/
def parseStep (s : State) (p : Pkt) : State :=
  if 24 ≤ p.steps then putPkt s (parseFail p 2)
  else
    let page := pageOf .prs p.slice 0
    let r := eccCheck s page 2 3 (fun a => bump a .prs p.slice 3 1 12 0) id
    if r.1 then putPkt r.2 (parseFail p 8)
    else if bit (nodeWord r.2 p 0) 31 = false then putPkt r.2 (parseFail p 6)
    else putPkt r.2 (nodeActions r.2 p)

/-- PARSE_STEP (R119): the next step of a head in the parser, each in its stage of 4 core clocks (R117). -/
def execParseStep (id : Nat) (s : State) : Out :=
  run true s <| match pktOf s id with
    | none => s
    | some p =>
      if running s && p.stage == .parsing && !p.endOk && p.mal == 0 && decide (p.since < s.clk) && decide (p.since + 4 * p.steps ≤ s.clk)
      then parseStep s p else s

/-! ### The end of a parse -/

/-- The key vector with its metadata (Table 4-4). -/
def keyVector (p : Pkt) (area : List Byte) : List Byte :=
  area ++ toBE 2 (srcKey p.src) ++ toBE 2 (if p.known then p.data.length else 0)
    ++ (List.range 8).map (fun k => BitVec.ofNat 8 ((p.slots.getD k none).getD 0))
    ++ toBE 1 ((List.range 8).foldl (fun a k => if (p.slots.getD k none).isSome then a + 2 ^ k else a) 0)
    ++ toBE 1 p.steps ++ toBE 1 (b2n p.endOk + 2 * b2n (p.mal != 0) + 4 * b2n (!p.known) + 8 * b2n p.extHit)
    ++ toBE 1 p.mal

/-- A parser counter of a head's source (Table 4-8): of its port, or of its slice for an injected head. -/
def prsCount (s : State) (p : Pkt) (c : Nat) : State :=
  match p.src with
  | .port n => bump s .prs p.slice 2 1 (16 * (n % 48) + c) 0
  | .inject _ => bump s .prs p.slice 3 1 c 0

/-- MAL_ACT of a head's source. -/
def malAct (s : State) (p : Pkt) : Nat :=
  match p.src with
  | .port n => fgetP s p.ep prsPortCfgMalAct p.slice (n % 48)
  | .inject _ => fgetP s p.ep prsInjCfgMalAct p.slice 0

/-- The malformed capture (R135, Table 4-8). -/
def capture (s : State) (p : Pkt) : State :=
  let ws := [srcKey p.src + p.mal * 2 ^ 16 + p.steps * 2 ^ 20, p.node % 512 + p.ptr * 2 ^ 9,
    if p.known then p.data.length else 0, 0]
  let all := ws ++ (wordsOf 12 (slice p.data 0 48)).map (·.toNat)
  ((List.range 16).zip all).foldl (fun a e => oset a .prs p.slice 3 2 0 e.1 e.2) s

/-- The parse of a head ends (R131-R133, R139). -/
def parseEnd (s : State) (p : Pkt) : State :=
  let s1 := sliceEvt (prsCount s p 0) p.slice 1
  let s2 := if p.extHit then bump s1 .prs p.slice 3 1 10 0 else s1
  if p.mal = 8 then
    dropGone (bump s2 .prs p.slice 3 1 11 0) p
  else if p.mal = 0 then putPkt s2 { p with kv := keyVector p p.kv, stage := .parsed, since := s.clk }
  else
    let s3 := capture (prsCount s2 p p.mal) p
    match malAct s p with
    | 1 => punt s3 { p with kv := keyVector p p.kv } (fgetP s p.ep prsMalPuntQueue p.slice 0) 2 0xFFFFFFFF
    | 2 => putPkt (prsCount s3 p 8) { p with
        kv := keyVector p (List.replicate 144 0), slots := List.replicate 8 none, unparsed := true, stage := .parsed
        since := s.clk }
    | _ => dropGone s3 p

/-- PARSE_END (R117): 96 core clocks after it entered, a head leaves the parser. -/
def execParseEnd (id : Nat) (s : State) : Out :=
  run true s <| match pktOf s id with
    | none => s
    | some p =>
      if running s && p.stage == .parsing && (p.endOk || p.mal != 0) && decide (p.since + 96 ≤ s.clk)
      then parseEnd s p else s

/-! ### Graph integrity (R137) -/

/-- GRAPH_NOW of a slice over its active graph. -/
def graphCrc (s : State) (sl : Nat) : Nat :=
  let words := fun (obj n k : Nat) => (List.range n).flatMap fun i =>
    (List.range k).map fun w => actW s (objKey (pageOf .prs sl 0) obj i w)
  crc32c (bytesOf (words 1 512 8 ++ words 2 8192 3))

/-- A comparison of the sweep: a run of two mismatches sets the bit and fires the source; a match clears both. A run goes on over a
flip (DESIGN CHOICE, log entry 71). -/
def graphJudge (s : State) (key : Nat) (f : Fld) (sl src : Nat) (same : Bool) : State :=
  let r := takeInj s (pageOf .prs sl 0) src
  let good := same && !r.1
  let n := if good then 0 else min 3 (storeGet 0 r.2.tbl.graphRun key + 1)
  let s1 := { r.2 with tbl := { r.2.tbl with graphRun := storeSet 0 key n r.2.tbl.graphRun } }
  if n = 0 then fset s1 f sl 0 0
  else if n = 2 then fire (fset s1 f sl 0 1) (pageOf .prs sl 0) src
  else s1

/-- GRAPH_SWEEP (R137): the sweep begun 1 ms ago ends in every slice whose group has not flipped since. -/
def execGraphSweep (s : State) : Out :=
  run true s <|
    if passedNs s s.tbl.graphAt 1000000 && running s then
      let cut := fun (sl : Nat) => (storeFind s.pg.flipAt (groupOf s (pageOf .prs sl 0))).elim false
        fun t => decide (s.tbl.graphAt < t)
      let s1 := (List.range 8).foldl (fun a sl =>
        if cut sl then a
        else
          let c := graphCrc a sl
          graphJudge (fset a prsGraphNowCrc sl 0 c) sl prsGraphStatMismatch sl 0 (c == fget a prsGraphRefCrc sl 0)) s
      let s2 := if (List.range 8).any cut then s1
        else graphJudge s1 8 prsGraphStatPeerDiff 0 1
          ((List.range 8).all fun sl => fget s1 prsGraphNowCrc sl 0 == fget s1 prsGraphNowCrc 0 0)
      { s2 with tbl := { s2.tbl with graphAt := s.clk } }
    else s

end Sys2Proof.Machine
end

