-- ==== Sys2Proof/Machine/PerrunOps.lean ====
section
/-!
DEFINITION. The Perrun engine's shared operations: peers and routes (R445), frames and acknowledgements (R434, R441),
sending, failing and retransmitting a message (R439, R442-R447).
-/
namespace Sys2Proof.Machine

/-- Key of the mark that Perrun armed a timed strobe on this clock (R448). -/
def armKey (n : Nat) : Nat := 2 ^ 80 + n

/-- Active word of a peer entry (Table 15-8). -/
def peerW (s : State) (peer w : Nat) : Nat := oget s .prn 0 3 1 peer w

/-- The engine is enabled. -/
def prnOn (s : State) : Bool := fget s prnCfgEn 0 0 == 1

/-- The peer entry is enabled. -/
def peerOn (s : State) (peer : Nat) : Bool := bit (peerW s peer 0) 31

/-- Port of route r of a peer. -/
def routePort (s : State) (peer r : Nat) : Nat :=
  if r = 0 then bitsOf (peerW s peer 2) 8 0 else bitsOf (peerW s peer 2) 24 16

/-- The peer is enabled with route r enabled. -/
def routeOn (s : State) (peer r : Nat) : Bool :=
  prnOn s && peerOn s peer && bit (peerW s peer 2) (if r = 0 then 15 else 31)

/-- Clocks of HELLO_US. -/
def helloClks (s : State) : Nat := clksOfNs (fget s prnHelloHelloUs 0 0 * 1000)

/-- The conditions of R445 hold for a route. -/
def routeHolds (s : State) (peer r : Nat) : Bool :=
  routeOn s peer r && linkUp s (routePort s peer r) && !portDown s (routePort s peer r)
    && match storeFind s.prn.hello (2 * peer + r) with
      | none => false
      | some t => decide (s.clk ≤ t + fget s prnHelloHelloMiss 0 0 * helloClks s)

/-- ROUTE_STAT bit of a route. -/
def routeUp (s : State) (peer r : Nat) : Bool :=
  bit (fget s prnRouteStatUp 0 (peer / 16)) (2 * (peer % 16) + r)

/-- PRN counter of a peer and priority (Table 15-9). -/
def peerCount (s : State) (peer prio c n : Nat) : State := bumpBy s .prn 0 3 2 (16 * (4 * peer + prio) + c) 0 n

/-- PRN counter (Table 15-9, OBJ 0x03). -/
def prnCount (s : State) (c : Nat) : State := bump s .prn 0 3 3 c 0

/-- Replace the message list. -/
def withMsgs (s : State) (l : List PMsg) : State := { s with prn := { s.prn with msgs := l } }

/-- Replace a message's record. -/
def putMsg (s : State) (m : PMsg) : State := withMsgs s (s.prn.msgs.map fun x => if x.id == m.id then m else x)

/-- Message of a number. -/
def msgOf (s : State) (id : Nat) : Option PMsg := s.prn.msgs.find? fun m => m.id == id

/-- A message ends with a status of Table 15-4: written back, counted, its window place freed; a failure fires PRN
source 3. -/
def msgEnd (s : State) (m : PMsg) (status : Nat) : State :=
  let s1 := engineWrite s (m.desc + 12) (toLE 1 status ++ toLE 1 m.retx)
  let s2 := engineWrite s1 (m.desc + 20) (toLE 4 (lTime s1))
  let s2 := withMsgs s2 (s2.prn.msgs.filter fun x => x.id != m.id)
  let s3 := if status = 1 then s2
    else { s2 with prn := { s2.prn with failed := s2.prn.failed ++ [(m.peer, m.prio, m.seq)] } }
  match status with
  | 1 => peerCount s3 m.peer m.prio 2 1
  | 2 => fireLow (peerCount s3 m.peer m.prio 3 1) 9 3
  | 3 => fireLow (peerCount s3 m.peer m.prio 4 1) 9 3
  | 4 => fireLow (peerCount s3 m.peer m.prio 5 1) 9 3
  | 6 => fireLow s3 9 3
  | _ => s3

/-- Next sequence number to assign (R439). -/
def nextSeq (s : State) (peer prio : Nat) : Nat := storeGet 0 s.prn.sendSeq (4 * peer + prio)

/-- LOW of a peer and priority (R439). -/
def lowSeq (s : State) (peer prio : Nat) : Nat :=
  (s.prn.msgs.filter fun m => m.peer == peer && m.prio == prio).foldl
    (fun a m => if later32 a m.seq then m.seq else a) (nextSeq s peer prio)

/-- EXP of a peer and priority (R440). -/
def expOf (s : State) (peer prio : Nat) : Nat := storeGet 0 s.prn.expSeq (4 * peer + prio)

/-- SACK of a peer and priority (R441). -/
def sackOf (s : State) (peer prio : Nat) : Nat :=
  (List.range 32).foldl (fun a i =>
    if s.prn.held.any fun h => h.peer == peer && h.prio == prio && h.seq == (expOf s peer prio + 1 + i) % 2 ^ 32
    then a + 2 ^ i else a) 0

/-- Route an acknowledgement leaves by (R441). -/
def ackRoute (s : State) (peer arrived : Nat) : Nat := if routeUp s peer arrived then arrived else 1 - arrived

/-- The priority whose acknowledgement goes with the next frame to a peer on a route, if one is due. -/
def ackFor (s : State) (peer r : Nat) : Option Nat :=
  (List.range 4).find? fun p => (storeFind s.prn.ackDue (4 * peer + p)).any fun d => ackRoute s peer d.2 == r

/-- A Perrun frame (Table 15-1) joins the engine's frames, carrying the acknowledgement of a priority. -/
def prnFrame (s : State) (ack : Option Nat) (rank peer r typ prio seq low dl : Nat) (body : List Byte) : State :=
  let port := routePort s peer r
  let ap := ack.getD 0
  let mac := if r = 0 then peerW s peer 3 + peerW s peer 4 % 65536 * 2 ^ 32
    else peerW s peer 5 + peerW s peer 6 % 65536 * 2 ^ 32
  let head := toBE 1 0x50 ++ toBE 1 1 ++ toBE 1 (typ + prio * 16 + r * 64) ++ toBE 1 (b2n ack.isSome + 2 * ap)
    ++ toBE 2 (fget s prnCfgChipId 0 0) ++ toBE 2 (peerW s peer 0 % 65536) ++ toBE 2 body.length
    ++ toBE 4 seq ++ toBE 4 low ++ toBE 4 dl
    ++ toBE 4 (if ack.isSome then expOf s peer ap else 0) ++ toBE 4 (if ack.isSome then sackOf s peer ap else 0)
    ++ toBE 4 (storeGet 0 s.prn.incarn peer) ++ body
  let bytes := toBE 6 mac ++ toBE 2 (fget s macStationHiAddr port 0) ++ toBE 4 (fget s macStationLoAddr port 0)
    ++ toBE 2 0x88B5 ++ head ++ toBE 4 (crc32c head)
  { s with prn := { s.prn with
      ackDue := if ack.isSome then storeDel (4 * peer + ap) s.prn.ackDue else s.prn.ackDue
      outq := s.prn.outq ++ [⟨rank, bytes⟩] } }

/-- A message goes out on a route; its RTO timer starts (R443). A message never sent has route 2. -/
def msgOut (s : State) (m : PMsg) (r : Nat) : State :=
  let s1 := prnFrame s (ackFor s m.peer r) (2 + m.prio) m.peer r m.typ m.prio m.seq (lowSeq s m.peer m.prio) (m.dl / 65536) m.body
  putMsg s1 { m with route := r, sentAt := some s.clk }

/-- A message is due and neither route is up (R446). -/
def msgStuck (s : State) (m : PMsg) : State :=
  if m.prio = 0 then msgEnd s m 4 else putMsg s { m with sentAt := none }

/-- First transmission (R446). -/
def msgFirst (s : State) (m : PMsg) : State :=
  if routeUp s m.peer 0 then msgOut (peerCount s m.peer m.prio 0 1) m 0
  else if routeUp s m.peer 1 then msgOut (peerCount s m.peer m.prio 0 1) m 1
  else msgStuck s m

/-- Retransmission (R443, R446): the route not last used if it is up, else the same one. -/
def msgAgain (s : State) (m : PMsg) : State :=
  let r := if routeUp s m.peer (1 - m.route) then 1 - m.route else m.route
  if routeUp s m.peer r then
    let m1 := { m with retx := m.retx + 1 }
    peerCount (msgOut s m1 r) m.peer m.prio 1 1
  else msgStuck s m

/-- Messages of a peer that wait unsent go out when a route comes up (R446). -/
def msgsWake (s : State) (peer : Nat) : State :=
  ((s.prn.msgs.filter fun m => m.peer == peer && m.sentAt == none).map (·.id)).foldl (fun a id =>
    match msgOf a id with
    | none => a
    | some m => if m.route = 2 then msgFirst a m else msgAgain a m) s

/-- ROUTE_STAT of a route follows R445; a change fires PRN source 2, and a route that comes up releases the messages
that wait. -/
def routeShow (s : State) (peer r : Nat) : State :=
  let now := routeHolds s peer r
  if now = routeUp s peer r then s
  else
    let w := fget s prnRouteStatUp 0 (peer / 16)
    let n := 2 * (peer % 16) + r
    let s1 := fireLow (fset s prnRouteStatUp 0 (peer / 16) (putBits w n n (b2n now))) 9 2
    if now then msgsWake s1 peer else s1

/-- ROUTE_STAT of every route that uses a port. -/
def routesOf (s : State) (p : Nat) : State :=
  (List.range 64).foldl (fun a peer => (List.range 2).foldl (fun b r =>
    if routePort b peer r = p then routeShow b peer r else b) a) s

/-- ROUTE_STAT of every route. -/
def routesAll (s : State) : State :=
  (List.range 64).foldl (fun a peer => (List.range 2).foldl (fun b r => routeShow b peer r) a) s

/-- The engine's part of a link loss (R447): messages last sent on a route of the port go out at once on the other
route, or follow R446. -/
def prnLinkLost (s : State) (p : Nat) : State :=
  let hit := (s.prn.msgs.filter fun m => m.sentAt.isSome && routePort s m.peer m.route == p).map (·.id)
  hit.foldl (fun a id =>
    match msgOf a id with
    | none => a
    | some m => if routeUp a m.peer (1 - m.route) then msgAgain a m else msgStuck a m) (routesOf s p)

end Sys2Proof.Machine
end

