-- ==== Sys2Proof/Machine/Ports.lean ====
section
/-!
DEFINITION. Port groups, lanes, MAC and FEC (R81-R114, R517): received control frames, PAUSE, low-power idle, lane
parking, link loss and link up, FEC quality, retraining, and the exit of the holding buffer (R35, R42).
-/
namespace Sys2Proof.Machine

/-! ### Shared -/

/-- A logical port starts at the number and its lanes are powered. -/
def portThere (s : State) (p : Nat) : Bool := fullGbps s p != 0

/-- The MAC of a port receives and transmits. -/
def macRuns (s : State) (p : Nat) : Bool :=
  running s && portThere s p && fget s macCfgEnable p 0 == 1 && linkUp s p

/-- A MAC counter (R113). -/
def macCount (s : State) (p c : Nat) : State := bump s .mac p 0 1 c 0

/-- A received frame with a good FCS is counted (INDEX 0 and 1), with the counter of what it is. -/
def macConsume (s : State) (p len c : Nat) : State := macCount (bumpBy (macCount s p 0) .mac p 0 1 1 0 len) p c

/-- Change a port's dynamic state. -/
def modPort (s : State) (p : Nat) (f : PortSt → PortSt) : State := putPort s p (f (portSt s p))

/-- Bytes of a port's frames in the holding buffer. -/
def holdOcc (s : State) (p : Nat) : Nat :=
  (s.net.pkts.filter fun k => k.stage == .holding && k.src == .port p).foldl (fun a k => a + k.data.length) 0

/-! ### PAUSE and PFC (R96-R99) -/

/-- MAC.PORT_STAT.PAUSED follows the stops in force. -/
def showPaused (s : State) (p : Nat) : State :=
  fset s macPortStatPaused p 0 (((List.range 8).zip (portSt s p).pauseEnd).foldl
    (fun a e => if e.2 ≠ 0 then a + 2 ^ e.1 else a) 0)

/-- End of a stop of `quanta` x 512 bit times that begins now (R97); 0 for no stop. -/
def pauseUntil (s : State) (p quanta : Nat) : Nat :=
  if quanta = 0 then 0 else nowU s + cdiv (quanta * 512 * 25) (curGbps s p)

/-- A PAUSE frame is acted on if RX_PAUSE is 1. -/
def pauseApply (s : State) (p quanta : Nat) : State :=
  if fget s macPauseCtlRxPause p 0 = 1 then
    showPaused (modPort s p fun x => {
      x with pauseEnd := List.replicate 8 (pauseUntil s p quanta), pauseAll := pauseUntil s p quanta }) p
  else s

/-- A PFC frame is acted on for its enabled classes whose RX_PFC bit is 1. -/
def pfcApply (s : State) (p en : Nat) (quanta : List Nat) : State :=
  let rx := fget s macPauseCtlRxPfc p 0
  let ends := (List.range 8).map fun c =>
    if bit en c && bit rx c then pauseUntil s p (quanta.getD c 0) else (portSt s p).pauseEnd.getD c 0
  showPaused (modPort s p fun x => { x with pauseEnd := ends }) p

/-- PAUSE_FRAME (R96, R97). -/
def execPauseFrame (p quanta : Nat) (s : State) : Out :=
  run (p < 384 && quanta < 65536) s <|
    if macRuns s p then pauseApply (macConsume s p 64 5) p quanta else s

/-- PFC_FRAME (R96, R97). -/
def execPfcFrame (p en : Nat) (quanta : List Nat) (s : State) : Out :=
  run (p < 384 && en < 256 && quanta.length == 8 && quanta.all (· < 65536)) s <|
    if macRuns s p then pfcApply (macConsume s p 64 6) p en quanta else s

/-- PAUSE_EXPIRY (R97): a stop that has run out ends. -/
def execPauseExpiry (p cls : Nat) (s : State) : Out :=
  run (p < 384 && cls < 8) s <|
    let e := (portSt s p).pauseEnd.getD cls 0
    if e ≠ 0 ∧ e ≤ nowU s then showPaused (modPort s p fun x => { x with pauseEnd := x.pauseEnd.set cls 0 }) p else s

/-- The MAC sends PAUSE (R99). -/
def sendPause (s : State) (p quanta : Nat) : State :=
  let s1 := macCount (emit s (.pause p quanta)) p 11
  fsetB (modPort s1 p fun x => { x with xoffAt := s.clk }) macPortStatTxXoff p 0 (quanta != 0)

/-- The holding-buffer occupancy of a port has risen (R99). -/
def pauseRise (s : State) (p : Nat) : State :=
  if fget s macPauseCtlTxPause p 0 = 1 ∧ fget s macPortStatTxXoff p 0 = 0
      ∧ fget s macPauseCtlXoffKib p 0 * 1024 ≤ holdOcc s p then sendPause s p 0xFFFF else s

/-- The holding-buffer occupancy of a port has fallen (R99). -/
def pauseFall (s : State) (p : Nat) : State :=
  if fget s macPortStatTxXoff p 0 = 1 ∧ holdOcc s p ≤ fget s macPauseCtlXoffKib p 0 / 2 * 1024
  then sendPause s p 0 else s

/-- PAUSE_REPEAT (R99): 32,768 quanta after the last PAUSE frame. -/
def execPauseRepeat (p : Nat) (s : State) : Out :=
  run (p < 384) s <|
    if macRuns s p && fget s macPortStatTxXoff p 0 == 1
        && decide (fget s macPauseCtlXoffKib p 0 / 2 * 1024 < holdOcc s p)
        && decide ((portSt s p).xoffAt * 16 + cdiv (32768 * 512 * 25) (curGbps s p) ≤ nowU s)
    then sendPause s p 0xFFFF else s

/-! ### Low-power idle (R100, R101) -/

/-- Low-power idle has effect on the port: active EN, width 1, lane rate 10G or 25G. -/
def eeeOn (s : State) (p : Nat) : Bool :=
  fget s macEeeCtlEn p 0 == 1 && (portMode s p).elim false fun m => m.2.1 == 1 && (m.1 == 1 || m.1 == 2)

/-- The port has a frame queued or in transmission. -/
def portBusy (s : State) (p : Nat) : Bool :=
  !(portSt s p).tx.isEmpty || s.net.items.any fun it => it.port == p && (it.place == .queued || it.place == .sending)

/-- LPI_ENTRY (R100). -/
def execLpiEntry (p : Nat) (s : State) : Out :=
  run (p < 384) s <|
    if macRuns s p && eeeOn s p && !(portSt s p).lpiTx && (portSt s p).wakeAt == none && !portBusy s p
        && passedNs s (portSt s p).idleAt (fget s macEeeCtlIdleUs p 0 * 1000)
    then fset (modPort (macCount s p 14) p fun x => { x with lpiTx := true }) macPortStatLpiTx p 0 1 else s

/-- LPI_WAKE (R100): the transmitter wakes; the frame starts TW_TX_NS later. -/
def execLpiWake (p : Nat) (s : State) : Out :=
  run (p < 384) s <|
    if (portSt s p).lpiTx && portBusy s p then
      fset (modPort s p fun x => { x with
        lpiTx := false, wakeAt := some (s.clk + clksOfNs (fget s macEeeCtlTwTxNs p 0)), idleAt := s.clk })
        macPortStatLpiTx p 0 0
    else s

/-! ### Lane parking (R102-R107) -/

/-- PARK_CTL in force (R107): the value held when the port left FULL. -/
def parkCtl (s : State) (p : Nat) : Nat :=
  (portSt s p).parkHeld.elim (actW s (fldKey macParkCtlEn p 0)).toNat (·.1)

/-- PARK_TMR in force (R107). -/
def parkTmr (s : State) (p : Nat) : Nat :=
  (portSt s p).parkHeld.elim (actW s (fldKey macParkTmrRtoUs p 0)).toNat (·.2)

/-- The parking machine enters a state: the rates of its class queues are derived again (R106, R263, R348). -/
def setPark (s : State) (p : Nat) (st : Park) : State :=
  let hold := if st = .full then none
    else some ((portSt s p).parkHeld.getD
      ((actW s (fldKey macParkCtlEn p 0)).toNat, (actW s (fldKey macParkTmrRtoUs p 0)).toNat))
  let s1 := modPort s p fun x => { x with park := st, parkHeld := hold, parkAt := s.clk }
  let code := match st with
    | .full => 0 | .parking => 1 | .parked => 2 | .waking => 3
  deriveRates (fset s1 macPortStatParkState p 0 code) p true

/-- A park frame (Table 3-9) without its FCS. -/
def parkBytes (s : State) (p op seq : Nat) : List Byte :=
  toBE 6 0x0180C200000E ++ toBE 2 (fget s macStationHiAddr p 0) ++ toBE 4 (fget s macStationLoAddr p 0) ++ toBE 2 0x88B5
    ++ toBE 1 0xF0 ++ toBE 1 0x01 ++ toBE 1 op ++ toBE 1 seq ++ List.replicate 42 0

/-- A park frame leaves (R104). -/
def sendPark (s : State) (p op seq : Nat) : State := macCount (emit s (.parkFrame p (parkBytes s p op seq))) p 12

/-! Lanes of a port -/

/-- SDS instance of a lane of a port's group. -/
def laneInst (p lane : Nat) : Nat := 8 * (p / 8) + lane

/-- Lanes a port drives now. -/
def activeLanes (s : State) (p : Nat) : List Nat :=
  let w := (portMode s p).elim 0 (·.2.1)
  (List.range (if halved s p then w / 2 else w)).map (p % 8 + ·)

/-- The upper half of a port's lanes, which parking powers down (R102). -/
def upperLanes (s : State) (p : Nat) : List Nat :=
  let w := (portMode s p).elim 0 (·.2.1)
  (List.range (w / 2)).map (p % 8 + w / 2 + ·)

/-- The upper lanes are powered down: their LANE_STAT reads zero (R84, R102). -/
def upperDown (s : State) (p : Nat) : State :=
  (upperLanes s p).foldl (fun a l => setAct a (fldKey sdsLaneStatPowered (laneInst p l) 0) 0) s

/-- The upper lanes are powered up and train (R105). -/
def upperTrain (s : State) (p : Nat) : State :=
  (upperLanes s p).foldl (fun a l =>
    emit (setAct a (fldKey sdsLaneStatPowered (laneInst p l) 0) 1) (.retrain (laneInst p l))) s

/-- The upper lanes are locked. -/
def upperLocked (s : State) (p : Nat) : Bool :=
  (upperLanes s p).all fun l => fget s sdsLaneStatCdrLock (laneInst p l) 0 == 1

/-- Utilisation has stayed below THRESH_PCT in every window for DWELL_MS, and the port may park. -/
def parkReady (s : State) (p : Nat) : Bool :=
  mayPark s p && decide (bitsOf (parkCtl s p) 15 8 * 100 ≤ (portSt s p).lowWins)

/-- Latest virtual finish time of the port's class queues (R105). -/
def latestVft (s : State) (p : Nat) : Nat :=
  (List.range 8).foldl (fun a c => let q := queue s p c; if q.idle then a else admMax a q.v) (admNow s)

/-- The wake condition (R105). -/
def wakeCond (s : State) (p : Nat) : Bool :=
  fget s macParkPeerPeerKz p 0 == 0 || (List.range 8).any fun c =>
    let q := queue s p c
    !q.idle && later q.v ((admNow s + bitsOf (parkCtl s p) 31 16 * 100 * 65536) % 2 ^ 48)

/-- Leave FULL for PARKING: the finish times are recorded. -/
def startParking (s : State) (p : Nat) (agreed : Bool) (reqs : Nat) : State :=
  setPark (modPort s p fun x => { x with
    recorded := latestVft s p, agreed := agreed, readySent := false, readyRcvd := false, reqs := reqs, failAt := none })
    p .parking

/-- A park is abandoned (R105): counted, back to FULL. The dwell of R105 goes on: the windows below THRESH_PCT keep counting
(DESIGN CHOICE, log entry 106). -/
def abandonPark (s : State) (p : Nat) : State :=
  fire (setPark (macCount s p 16) p .full) (pageOf .mac p 0) 0

/-- A parked port starts to wake, asking for it or answering the peer's request of a SEQ: its parked lanes power up and train. -/
def startWake (s : State) (p : Nat) (asked : Option Nat) : State :=
  let seq := asked.getD (((portSt s p).parkSeq + 1) % 256)
  let s1 := modPort s p fun x => { x with
    readySent := false, readyRcvd := false, failAt := none, parkAns := seq
    parkSeq := if asked.isNone then seq else x.parkSeq }
  setPark (upperTrain (if asked.isNone then sendPark s1 p 5 seq else s1) p) p .waking

/-- PARK_WINDOW_END (R105). -/
def execParkWindowEnd (p : Nat) (s : State) : Out :=
  run (p < 384) s <|
    if macRuns s p && passedNs s (portSt s p).winAt 10000 then
      let low := decide ((portSt s p).winBytes * 100 < bitsOf (parkCtl s p) 7 1 * fullGbps s p * 1250)
      let s1 := modPort s p fun x => { x with
        winBytes := 0, winAt := s.clk, lowWins := if low then x.lowWins + 1 else 0 }
      if (portSt s1 p).park == .full && parkReady s1 p then
        let seq := ((portSt s1 p).parkSeq + 1) % 256
        startParking (sendPark (modPort s1 p fun x => { x with parkSeq := seq, parkAns := seq }) p 1 seq) p false 1
      else s1
    else s

/-- A received park frame (R104): counted; acted on only in VERSION 0x01. -/
def parkFrameIn (s : State) (p ver : Nat) (act : State → State) : State :=
  if macRuns s p then
    let s1 := macConsume s p 64 8
    if ver = 1 then act s1 else macCount s1 p 19
  else s

/-- PARK_REQ received. -/
def onParkReq (s : State) (p seq : Nat) : State :=
  match (portSt s p).park with
  | .full =>
    if parkReady s p then startParking (sendPark (modPort s p fun x => { x with parkAns := seq }) p 2 seq) p true 0
    else sendPark s p 3 seq
  | .parking =>
    if (portSt s p).agreed then s else modPort s p fun x => { x with agreed := true, parkAt := s.clk }
  | _ => s

/-- PARK_ACK received: the answer to the port's own request. -/
def onParkAck (s : State) (p seq : Nat) : State :=
  if (portSt s p).park == .parking && !(portSt s p).agreed && (portSt s p).parkSeq == seq
  then modPort s p fun x => { x with agreed := true, parkAt := s.clk } else s

/-- PARK_NAK received. -/
def onParkNak (s : State) (p seq : Nat) : State :=
  if (portSt s p).park == .parking && !(portSt s p).agreed && (portSt s p).parkSeq == seq
  then abandonPark s p else s

/-- PARK_READY received. -/
def onParkReady (s : State) (p : Nat) : State :=
  if (portSt s p).park == .parking then modPort s p fun x => { x with readyRcvd := true } else s

/-- WAKE_REQ received. -/
def onWakeReq (s : State) (p seq : Nat) : State :=
  if (portSt s p).park == .parked then startWake s p (some seq) else s

/-- WAKE_READY received. -/
def onWakeReady (s : State) (p : Nat) : State :=
  if (portSt s p).park == .waking then modPort s p fun x => { x with readyRcvd := true } else s

/-- PARK_REQ (R104, R105). -/
def execParkReq (p ver seq : Nat) (s : State) : Out :=
  run (p < 384 && ver < 256 && seq < 256) s (parkFrameIn s p ver fun a => onParkReq a p seq)

/-- PARK_ACK (R104, R105). -/
def execParkAck (p ver seq : Nat) (s : State) : Out :=
  run (p < 384 && ver < 256 && seq < 256) s (parkFrameIn s p ver fun a => onParkAck a p seq)

/-- PARK_NAK (R104, R105). -/
def execParkNak (p ver seq : Nat) (s : State) : Out :=
  run (p < 384 && ver < 256 && seq < 256) s (parkFrameIn s p ver fun a => onParkNak a p seq)

/-- PARK_READY (R104, R105). -/
def execParkReady (p ver seq : Nat) (s : State) : Out :=
  run (p < 384 && ver < 256 && seq < 256) s (parkFrameIn s p ver fun a => onParkReady a p)

/-- WAKE_REQ (R104, R105). -/
def execWakeReq (p ver seq : Nat) (s : State) : Out :=
  run (p < 384 && ver < 256 && seq < 256) s (parkFrameIn s p ver fun a => onWakeReq a p seq)

/-- WAKE_READY (R104, R105). -/
def execWakeReady (p ver seq : Nat) (s : State) : Out :=
  run (p < 384 && ver < 256 && seq < 256) s (parkFrameIn s p ver fun a => onWakeReady a p)

/-- PARK_DRAIN_DONE (R105): every recorded finish time has passed, with agreement. -/
def execParkDrainDone (p : Nat) (s : State) : Out :=
  run (p < 384) s <|
    let x := portSt s p
    if x.park == .parking && x.agreed && !x.readySent && !later x.recorded (admNow s)
    then modPort (sendPark s p 4 x.parkAns) p fun x => { x with readySent := true } else s

/-- RECEIVER_REALIGNED (R105): the width switch is done. -/
def execReceiverRealigned (p : Nat) (s : State) : Out :=
  run (p < 384) s <|
    let x := portSt s p
    if x.readySent && x.readyRcvd then
      match x.park with
      | .parking => upperDown (setPark (macCount s p 15) p .parked) p
      | .waking => setPark (modPort (macCount s p 17) p fun x => { x with lowWins := 0 }) p .full
      | _ => s
    else s

/-- WAKE_CONDITION (R105). -/
def execWakeCondition (p : Nat) (s : State) : Out :=
  run (p < 384) s <|
    if wakeCond s p then
      match (portSt s p).park with
      | .parking => abandonPark s p
      | .parked => if (portSt s p).failAt == none then startWake s p none else s
      | _ => s
    else s

/-- WAKE_LANES_LOCKED (R105). -/
def execWakeLanesLocked (p : Nat) (s : State) : Out :=
  run (p < 384) s <|
    let x := portSt s p
    if x.park == .waking && !x.readySent && upperLocked s p
    then modPort (sendPark s p 6 x.parkAns) p fun x => { x with readySent := true } else s

/-- WAKE_RETEST (R105): 1 ms after a wake failure. -/
def execWakeRetest (p : Nat) (s : State) : Out :=
  run (p < 384) s <|
    match (portSt s p).park, (portSt s p).failAt with
    | .parked, some t =>
      if passedNs s t 1000000 then
        if wakeCond s p then startWake s p none else modPort s p fun x => { x with failAt := none }
      else s
    | _, _ => s

/-! ### Link state (R108-R112) -/

/-- The conditions for link up hold (R109). -/
def upHolds (s : State) (p : Nat) : Bool :=
  let g := p / 8
  let n := p % 8
  fget s pcsPortStatAligned g n == 1 && fget s pcsPortStatLf g n == 0
    && !(fget s pcsPortStatRf g n == 1 && fget s pcsLinkCtlRfAsDown g 0 == 1)
    && !(fget s pcsPortStatSd g n == 1 && fget s pcsLinkCtlSdEn g 0 == 1)
    && fget s pcsPortStatRetrain g n == 0 && !isContained s (.port p)

/-- The link-up hold runs while its conditions hold and the port is not up; any break restarts it (R109). -/
def upCheck (s : State) (p : Nat) : State :=
  let go := portThere s p && !linkUp s p && upHolds s p
  let s1 := modPort s p fun x => { x with upSince := if go then some (x.upSince.getD s.clk) else none }
  fsetB s1 pcsPortStatUpWait (p / 8) (p % 8) go

/-- Squelch the SyncE outputs fed by one of some lanes (R376). -/
def squelchLanes (s : State) (lanes : List Nat) : State :=
  let hit := (List.range 2).filter fun k =>
    fget s timSynceCfgSquelchEn 0 k == 1 && fget s timSynceCfgEn 0 k == 1 && lanes.contains (fget s timSynceCfgLane 0 k)
  { s with tim := { s.tim with squelch := s.tim.squelch.filter (fun k => !hit.contains k) ++ hit } }

/-- Alignment of a port is lost: the MAC transmits remote fault while it has a local fault (R108). -/
def loseAlign (s : State) (p : Nat) : State :=
  let s1 := fset (fset s pcsPortStatAligned (p / 8) (p % 8) 0) pcsPortStatLf (p / 8) (p % 8) 1
  emit s1 (.remoteFault p)

/-- A retrain of a port starts (R105, R108, R110): counted, reported, its active lanes train again without alignment, and the
conditions of link loss begin. -/
def trainAgain (s : State) (p : Nat) : State :=
  let g := p / 8
  let s1 := modPort (bump s .pcs g 0 4 (p % 8) 1) p fun x => { x with retrainDue := none }
  let s2 := fire (fset s1 pcsPortStatRetrain g (p % 8) 1) (pageOf .pcs g 0) 2
  let s3 := (activeLanes s p).foldl (fun a l =>
    emit (fset (fset a sdsLaneStatLtDone (laneInst p l) 0 0) sdsLaneStatAdaptDone (laneInst p l) 0 0)
      (.retrain (laneInst p l))) (loseAlign s2 p)
  let cs := (portSt s3 p).conds
  let from_ := fun n => some ((cs.getD n none).getD s.clk)
  modPort s3 p fun x => { x with conds := [from_ 0, from_ 1, cs.getD 2 none, cs.getD 3 none, some s.clk] }

/-- Parking ends by link loss (R105, R112): FULL, with a retrain of every lane at full width. -/
def parkLost (s : State) (p : Nat) : State :=
  if (portSt s p).park == .full then s
  else
    let down := halved s p
    let s1 := setPark s p .full
    trainAgain (if down then
      (upperLanes s1 p).foldl (fun a l => setAct a (fldKey sdsLaneStatPowered (laneInst p l) 0) 1) s1 else s1) p

/-- A port enters link loss (R108): reported to protection switching, counted, its parking ended (R112), its learned
entries flushed where asked, its enqueued multicast copies and the frame on the wire failed, its messages rerouted (R447). -/
def linkLoss (s : State) (p : Nat) : State :=
  if (portSt s p).loss then s
  else
    let g := p / 8
    let s1 := modPort s p fun x => { x with loss := true, downAt := some s.clk, clearAt := none, upSince := none
                                            lpiTx := false, wakeAt := none, agreed := false, lowWins := 0 }
    let s2 := fset (fset s1 pcsPortStatLink g (p % 8) 0) macPortStatLpiTx p 0 0
    let s3 := bump s2 .pcs g 0 4 (p % 8) 0
    let s4 := parkLost s3 p
    let s5 := flushOnDown (squelchLanes s4 ((activeLanes s p).map (laneInst p))) p
    let gone := fun (it : Item) => it.port == p && ((it.cls == 8 && it.place != .residue) || it.place == .sending)
    let s6 := ((s5.net.items.filter gone).map (·.id)).foldl
      (fun a id => (itemOf a id).elim a fun it => fail a it 1) s5
    fire (upCheck (prnLinkLost s6 p) p) (pageOf .pcs g 0) 0

/-- Clock since which a link-loss condition in force has held, among those that count (R108). -/
def lossSince (s : State) (p : Nat) : Option Nat :=
  let c := (portSt s p).conds
  let on := [true, true, fget s pcsLinkCtlRfAsDown (p / 8) 0 == 1, fget s pcsLinkCtlSdEn (p / 8) 0 == 1, true]
  ((c.zip on).filterMap fun e => if e.2 then e.1 else none).foldl
    (fun (a : Option Nat) t => some (a.elim t (min t))) none

/-- Some condition has held for DOWN_HOLD. -/
def lossDue (s : State) (p : Nat) : Bool :=
  portThere s p && !(portSt s p).loss && (lossSince s p).elim false fun t =>
    passedNs s t (fget s pcsLinkCtlDownHold (p / 8) 0 * 100)

/-- Set or clear the start of a condition; with DOWN_HOLD 0 the loss comes at once. -/
def setCond (s : State) (p n : Nat) (on : Bool) : State :=
  let cs := (portSt s p).conds
  let s1 := modPort s p fun x => { x with
    conds := cs.set n (if on then some ((cs.getD n none).getD s.clk) else none) }
  let s2 := upCheck s1 p
  if lossDue s2 p then linkLoss s2 p else s2

/-- LINK_LOSS (R108). -/
def execLinkLoss (p : Nat) (s : State) : Out :=
  run (p < 384) s <| if running s && lossDue s p then linkLoss s p else s

/-- LINK_UP (R109): the hold has run; the revert of R208 starts with the REVERT_MS now active. -/
def execLinkUp (p : Nat) (s : State) : Out :=
  run (p < 384) s <|
    match (portSt s p).upSince with
    | none => s
    | some t =>
      if running s && portThere s p && !linkUp s p
          && decide (fget s pcsLinkCtlUpHoldMs (p / 8) 0 * 390625 ≤ (s.clk - t) * 64) then
        let lanes := (activeLanes s p).map (laneInst p)
        let rev := clksOfNs (fget s nhpProtCfgRevertMs (p / 96) 0 * 1000000)
        let s1 := modPort s p fun x => { x with
          upSince := none, loss := false, downAt := none, clearAt := some (s.clk + rev),
          idleAt := s.clk, winAt := s.clk }
        let s2 := fset (fset s1 pcsPortStatLink (p / 8) (p % 8) 1) pcsPortStatUpWait (p / 8) (p % 8) 0
        let sq := s2.tim.squelch.filter fun k => !lanes.contains (fget s2 timSynceCfgLane 0 k)
        let s3 := { s2 with tim := { s2.tim with squelch := sq } }
        routesOf s3 p
      else s

/-- LOSS_OF_BLOCK_LOCK (R108, R376). -/
def execLossOfBlockLock (p lane : Nat) (cdr : Bool) (s : State) : Out :=
  run (p < 384 && lane < 8) s <|
    if running s && (activeLanes s p).contains lane then
      let i := laneInst p lane
      let s1 := if cdr && fget s sdsLaneStatCdrLock i 0 == 1
        then fire (fset s sdsLaneStatCdrLock i 0 0) (pageOf .sds i 0) 1 else s
      let s2 := squelchLanes s1 [i]
      if fget s2 pcsPortStatAligned (p / 8) (p % 8) = 1 then setCond (setCond (loseAlign s2 p) p 0 true) p 1 true
      else s2
    else s

/-- BLOCK_LOCK_ACQUIRED (R109, R114): a lane in loopback keeps its port out of alignment. -/
def execBlockLockAcquired (p : Nat) (s : State) : Out :=
  run (p < 384) s <|
    if running s && portThere s p && fget s pcsPortStatAligned (p / 8) (p % 8) == 0
        && (activeLanes s p).all fun l => fget s sdsLaneCfgLoopback (laneInst p l) 0 == 0 then
      let s1 := (activeLanes s p).foldl (fun a l => fset a sdsLaneStatCdrLock (laneInst p l) 0 1) s
      let s2 := fset (fset s1 pcsPortStatAligned (p / 8) (p % 8) 1) pcsPortStatLf (p / 8) (p % 8) 0
      setCond (setCond s2 p 0 false) p 1 false
    else s

/-- REMOTE_FAULT_RECEIVED (R108, R109). -/
def execRemoteFaultReceived (p : Nat) (on : Bool) (s : State) : Out :=
  run (p < 384) s <|
    if running s && portThere s p then setCond (fsetB s pcsPortStatRf (p / 8) (p % 8) on) p 2 on else s

/-! ### FEC quality (R89-R92, R110) -/

/-- Most symbol errors a code corrects. -/
def fecPower (fec : Nat) : Nat := if fec = 2 then 7 else 15

/-- Signal degrade and retrain thresholds after an uncorrectable codeword (R110). -/
def errCount (s : State) (p : Nat) : State :=
  let g := p / 8
  let n := p % 8
  let s1 := modPort s p fun x => { x with winErr := x.winErr + 1 }
  let c := (portSt s1 p).winErr
  let sd := fget s1 pcsErrCtlSdThresh g 0
  let rt := fget s1 pcsErrCtlRetrainThresh g 0
  let s2 := if rt ≠ 0 ∧ rt ≤ c ∧ (portSt s1 p).retrainDue = none ∧ fget s1 pcsPortStatRetrain g n = 0
    then modPort s1 p fun x => { x with retrainDue := some s.clk } else s1
  if sd ≠ 0 ∧ sd ≤ c ∧ fget s2 pcsPortStatSd g n = 0
  then setCond (fire (fset s2 pcsPortStatSd g n 1) (pageOf .pcs g 0) 1) p 3 true else s2

/-- CODEWORD_DECODE (R89-R91): `syms` are the symbols corrected on each lane of the group. -/
def execCodewordDecode (p : Nat) (syms : List Nat) (ok : Bool) (s : State) : Out :=
  run (p < 384 && syms.length == 8 && syms.all (· < 16)) s <|
    match portMode s p with
    | none => s
    | some m =>
      if running s then
        let g := p / 8
        let n := p % 8
        let lanes := activeLanes s p
        let k := lanes.foldl (fun a l => a + syms.getD l 0) 0
        let good := ok && (m.2.2 == 1 || decide (k ≤ fecPower m.2.2))
        let s1 := if good then s else errCount (bump s .pcs g 0 1 n 2) p
        if m.2.2 = 0 ∨ good = false then s1
        else
          let s2 := bump s1 .pcs g 0 1 n 0
          let s3 := if k = 0 then s2 else bump s2 .pcs g 0 1 n 1
          if m.2.2 = 1 then s3
          else
            let s4 := bump (bumpBy s3 .pcs g 0 1 n 3 k) .pcs g 0 2 (2 * n + k / 8) (k % 8)
            lanes.foldl (fun a l => bumpBy a .pcs g 0 3 l 0 (syms.getD l 0)) s4
      else s

/-- Millisecond of the time base. -/
def msNow (s : State) : Nat := nsOf (tbNow s) / 1000000

/-- An error window of a port ends; `whole` when it ran from one boundary to the next (R110). -/
def windowEnd (s : State) (p : Nat) (whole : Bool) : State :=
  let x := portSt s p
  let sd := fget s pcsErrCtlSdThresh (p / 8) 0
  let s1 := modPort s p fun x => { x with winErr := 0, winWhole := whole, winMs := msNow s }
  if whole && x.winWhole && fget s pcsPortStatSd (p / 8) (p % 8) == 1 && (sd == 0 || decide (x.winErr < sd))
  then setCond (fset s1 pcsPortStatSd (p / 8) (p % 8) 0) p 3 false else s1

/-- FEC_WINDOW_END (R110): a millisecond of the time base has ended. -/
def execFecWindowEnd (p : Nat) (s : State) : Out :=
  run (p < 384) s <|
    if running s && portThere s p && (portSt s p).winMs != msNow s then windowEnd s p true else s

/-- A priority P0 Perrun frame waits for transmission on the port (R111, R447). -/
def prnWaits (s : State) (p : Nat) : Bool :=
  s.net.items.any fun it => it.port == p && it.src == .inject (fget s prnCfgIq 0 0)
    && (pktOf s it.pkt).elim false fun k => byteAt k.data 16 / 16 % 4 == 0

/-- A retrain of a port starts; link loss follows once its conditions have held for DOWN_HOLD (R108). -/
def retrain (s : State) (p : Nat) : State :=
  let s1 := upCheck (trainAgain s p) p
  if lossDue s1 p then linkLoss s1 p else s1

/-- RETRAIN_START (R110, R111). -/
def execRetrainStart (p : Nat) (s : State) : Out :=
  run (p < 384) s <|
    match (portSt s p).retrainDue with
    | none => s
    | some t =>
      if running s && portThere s p && (!(prnOn s && prnWaits s p) || passedNs s t 2000) then retrain s p else s

/-- TRAINING_ATTEMPT_END (R114, R517): a failed attempt restarts at once; a retrain ends when every active lane is done. SIGNAL and
PLL_LOCK set at a locked attempt (DESIGN CHOICE, log entry 108). -/
def execTrainingAttemptEnd (lane : Nat) (locked : Bool) (eye : Nat) (taps : Word) (s : State) : Out :=
  run (lane < 384 && eye < 256) s <|
    if running s && fget s sdsLaneStatPowered lane 0 == 1 && fget s sdsLaneStatAdaptDone lane 0 == 0 then
      let s1 := fset s sdsLaneStatEyeMv lane 0 eye
      if locked then
        let lt := fget s1 sdsLaneCfgLtEn lane 0
        let s2 := if lt = 1 then { s1 with net := { s1.net with taps := storePut lane taps.toNat s1.net.taps } } else s1
        let s3 := [sdsLaneStatAdaptDone, sdsLaneStatCdrLock, sdsLaneStatPllLock, sdsLaneStatSignal].foldl
          (fun a f => fset a f lane 0 1) (fset s2 sdsLaneStatLtDone lane 0 lt)
        match laneOwner (actW s3 (layoutKey (lane / 8))).toNat (lane % 8) with
        | none => s3
        | some sp =>
          let p := 8 * (lane / 8) + sp
          if (activeLanes s3 p).all (fun l => fget s3 sdsLaneStatAdaptDone (laneInst p l) 0 == 1)
              && fget s3 pcsPortStatRetrain (p / 8) sp == 1
          then setCond (fset s3 pcsPortStatRetrain (p / 8) sp 0) p 4 false else s3
      else fset s1 sdsLaneStatLtDone lane 0 0
    else s

/-! ### The holding buffer (R35, R42, R99) -/

/-- Head contexts in use in a slice. -/
def contexts (s : State) (sl : Nat) : Nat :=
  (s.net.pkts.filter fun p => p.slice == sl && p.stage != .holding && p.stage != .accepted).length

/-- Low bit of CUR of every group (R70). -/
def epochBits (s : State) : Nat :=
  (List.range 16).foldl (fun a g => a + fget s glbEpochStatCur 0 g % 2 * 2 ^ g) 0

/-- Start node of a head's source (R119). -/
def startNode (s : State) (sl : Nat) : Source → Nat
  | .port n => fget s prsPortCfgStartNode sl (n % 48)
  | .inject _ => fget s prsInjCfgStartNode sl 0

/-- HOLDING_BUFFER_EXIT (R35, R42, R115): the oldest frame with 260 bytes, or whole, enters the parser. -/
def execHoldingBufferExit (sl : Nat) (s : State) : Out :=
  run (sl < 8) s <|
    match s.net.pkts.find? fun p => p.slice == sl && p.stage == .holding && (p.tail || decide (260 ≤ p.data.length)) with
    | none => s
    | some p =>
      if running s && decide (contexts s sl < 4096) then
        let s1 := putPkt s { p with
          stage := .parsing, since := s.clk, ep := (List.range 16).map (dpEpoch s), epLow := epochBits s,
          known := p.tail, node := startNode s sl p.src }
        match p.src with
        | .port n => pauseFall s1 n
        | .inject _ => s1
      else if running s then sliceEvt s sl 10 else s

end Sys2Proof.Machine
end

