-- ==== Sys2Proof/Machine/Forward.lean ====
section
/-!
DEFINITION. Stages 5 and 6 (R172-R210): lookups, learning, resolution and the ingress edit check; the table sequencers'
commands, sync, deferred changes, sweeps; protection switching.
-/
namespace Sys2Proof.Machine

/-! ### Lookups (R172-R175) -/

/-- First selection rule a head matches (R172). -/
def fwdRule (s : State) (p : Pkt) : Option Nat :=
  let g := fun (f : Fld) r => fgetP s p.ep f (p.slice / 2) r
  (List.range 8).find? fun r => g lekFwdSelW0En r == 1
    && Nat.land (byteAt p.kv (g lekFwdSelW0MatchOff r)) (g lekFwdSelW0Mask r) == g lekFwdSelW0Value r

/-- What a lookup finds: a next hop, the flood entry, or a lookup memory error (R183). -/
inductive Look | nh (n : Nat) | flood | memErr
  deriving DecidableEq, Repr

/-- A counter of LEK OBJ 0x02. -/
def lekCount (s : State) (k c : Nat) : State := bump s .lek k 0 2 c 0

/-- A Leek search by a head (R178, R183). -/
def leekLookup (s : State) (p : Pkt) (fam addr miss : Nat) : Look × State :=
  let k := p.slice / 2
  let page := pageOf .lek k 0
  let e := eccCheck (lekCount s k 0) page 0 1 (fun a => lekCount a k 2) (fun a => lekCount a k 3)
  if e.1 then (.memErr, e.2)
  else match leekSearch (if usesOld s p.ep page then storeGet (leekAct s k) s.tbl.leekO k else leekAct s k)
      (fgetP s p.ep lekCfgV6Set k 0) fam p.res.tenant addr with
    | some n => (.nh n, e.2)
    | none => (.nh miss, lekCount e.2 k 1)

/-- Epoch bit of a head for the Chard copy of its pair (R186). -/
def chdBit (s : State) (p : Pkt) : Nat := p.epLow / 2 ^ groupOf s (pageOf .chd (p.slice / 2) 0) % 2

/-- The filter of a pair holds the key (R192). -/
def filtered (s : State) (k : Nat) (key : List Byte) : Bool :=
  s.tbl.filter.any fun f => f.1 == k && f.2.1 == key && !passedNs s f.2.2 (fget s chdLearnCfgHoldUs k 0 * 1000)

/-- A learn key enters the filter; the oldest of 4,096 leaves. -/
def filterPut (s : State) (k : Nat) (key : List Byte) : State :=
  let mine := s.tbl.filter.filter fun f => f.1 == k && f.2.1 != key
  let rest := s.tbl.filter.filter fun f => f.1 != k
  { s with tbl := { s.tbl with filter := rest ++ (if mine.length < 4096 then mine else mine.drop 1) ++ [(k, key, s.clk)] } }

/-- The pair may raise one more event in the running second (R192). -/
def learnRate (s : State) (k : Nat) : Bool × State :=
  let w := storeGet (0, 0) s.tbl.learnWin k
  let w1 := if passedNs s w.1 1000000000 then (s.clk, 0) else w
  if w1.2 < 40000000 then (true, { s with tbl := { s.tbl with learnWin := storePut k (w1.1, w1.2 + 1) s.tbl.learnWin } })
  else (false, s)

/-- A learn event (R192, R193, R197). -/
def learnEvent (s : State) (k tenant mac nh : Nat) : State :=
  let key := macKey tenant mac
  if filtered s k key then chdCount (chdCount s k 0) k 1
  else
    let r := learnRate s k
    if r.1 = false then chdCount s k 2
    else if 1024 ≤ ringWaiting s k then chdCount (chdCount r.2 k 0) k 3
    else
      let t := lTime s
      let s1 := filterPut (chdCount r.2 k 0) k key
      let s2 := match chdEntry s1 k key with
        | some e => chdPut s1 { e with nh := nh, hit := true, learned := true, origin := k, misses := 0, ltime := t }
        | none =>
          let r := chdInsert s1 k (learnedEnt k tenant mac nh k t true)
          if r.1 then chdShow r.2 k else learnFail (chdShow r.2 k) k tenant
      ringSend s2 k 1 0 tenant mac nh t

/-- A learn event of a head, with its slice event (R414). -/
def learnFrom (s : State) (p : Pkt) (mac nh : Nat) : State :=
  let k := p.slice / 2
  let a := learnEvent s k p.res.tenant mac nh
  if count a .chd k 1 2 0 0 = count s .chd k 1 2 0 0 then a else sliceEvt a p.slice 12

/-- The source probe of a KIND 4 head (R191). Injected heads never learn. -/
def sourceProbe (s : State) (p : Pkt) (mac : Nat) : State :=
  match p.src with
  | .inject _ => s
  | .port n =>
    let k := p.slice / 2
    if bit mac 40 then s
    else
      let want := fgetP s p.ep chdLearnCfgPortNhBase k 0 + n
      let en := fgetP s p.ep chdCfgLearnEn k 0 == 1
      let r := chdLookup s k (macKey p.res.tenant mac) (chdBit s p)
      match r.1 with
      | none => if en then learnFrom r.2 p mac want else r.2
      | some e =>
        if e.nh = want then (if e.origin = k then chdPut r.2 { e with hit := true } else r.2)
        else if e.stat then chdCount r.2 k 6
        else if en then learnFrom r.2 p mac want
        else r.2

/-- The lookups of a head (Table 6-1, R173, R174). -/
def lookup (s : State) (p : Pkt) : Look × State :=
  let k := p.slice / 2
  let miss := fgetP s p.ep nhpCfgMissNh k 0
  match fwdRule s p with
  | none => (.nh miss, s)
  | some r =>
    let g := fun (f : Fld) => fgetP s p.ep f k r
    let ko := g lekFwdSelW1KeyOff
    let kind := g lekFwdSelW1Kind
    match kind with
    | 1 | 2 =>
      let a := leekLookup s p (kind - 1) (ofBE (slice p.kv ko (if kind = 1 then 4 else 16))) miss
      if g lekFwdSelW1FlowEn = 0 then a
      else
        let key := flowKey (kind == 2) p.res.tenant (slice p.kv (g lekFwdSelW1FlowAoff) (if kind = 1 then 8 else 32))
          (byteAt p.kv (g lekFwdSelW1FlowPoff)) (ofBE (slice p.kv (g lekFwdSelW2FlowLoff) 4))
        let c := chdLookup a.2 k key (chdBit s p)
        match a.1, c.1 with
        | .memErr, _ => (.memErr, c.2)
        | _, some e => (.nh e.nh, c.2)
        | x, none => (x, c.2)
    | 3 =>
      let c := chdLookup s k (labelKey p.res.tenant (ofBE (slice p.kv ko 4) / 4096)) (chdBit s p)
      (.nh (c.1.elim miss (·.nh)), c.2)
    | 4 =>
      let dst := ofBE (slice p.kv ko 6)
      let c := chdLookup s k (macKey p.res.tenant dst) (chdBit s p)
      let s1 := sourceProbe c.2 p (ofBE (slice p.kv (ko + 6) 6))
      match c.1 with
      | some e => if bit dst 40 then (.flood, s1) else (.nh e.nh, s1)
      | none => (.flood, s1)
    | _ => (.nh miss, s)

/-! ### Resolution (R200-R203) -/

/-- The ECMP hash of a head (R200). -/
def flowHash (s : State) (p : Pkt) : Nat :=
  let k := p.slice / 2
  let g := fun (f : Fld) => fgetP s p.ep f k 0
  let seg := fun (o l : Fld) => slice p.kv (g o) (g l)
  crcFrom (g nhpHashSeedSeed) (seg nhpHashKey0Seg0Off nhpHashKey0Seg0Len ++ seg nhpHashKey0Seg1Off nhpHashKey0Seg1Len
    ++ seg nhpHashKey1Seg2Off nhpHashKey1Seg2Len ++ seg nhpHashKey1Seg3Off nhpHashKey1Seg3Len)

/-- Outcome of a resolution: a drop with its NHP counter and mirror code, a trap, a unicast or a replicated head. -/
inductive Resolved | drop (c code : Nat) | trap (q n : Nat) | uni (n : Nat) | rep (n list : Nat)
  deriving DecidableEq, Repr

/-- Member of an ECMP group a head takes: up to 8 probes past dead members (R201). -/
def ecmpProbe (s : State) (p : Pkt) (base slots i : Nat) : Nat → Nat → Nat
  | 0, k => ogetP s p.ep .nhp (p.slice / 2) 0 3 (base + (i + k - 1) % slots) 0 % 2 ^ 20
  | n + 1, k =>
    let m := ogetP s p.ep .nhp (p.slice / 2) 0 3 (base + (i + k) % slots) 0 % 2 ^ 20
    let w := nhW s p.ep (p.slice / 2) m 0
    if nhType w = 1 ∧ portDown s (nhPort w) = true then ecmpProbe s p base slots i n (k + 1) else m

/-- An entry that is no ECMP group: unicast protection, or as it is (R201). -/
def resolveEntry (s : State) (p : Pkt) (n : Nat) : Resolved :=
  let k := p.slice / 2
  let w := nhW s p.ep k n 0
  match nhType w with
  | 1 =>
    if portDown s (nhPort w) then
      match backupOf s p.ep k n with
      | some b => .uni b
      | none => .drop 2 4
    else .uni n
  | 3 => .rep n (nhList w)
  | 4 => .trap (bitsOf w 8 3) n
  | _ => .drop 0 2

/-- Resolution of a next-hop index (R201). -/
def resolve (s : State) (p : Pkt) (n : Nat) : Resolved :=
  let k := p.slice / 2
  let w := nhW s p.ep k n 0
  if nhType w = 2 then
    let g := nhList w
    let base := ogetP s p.ep .nhp k 0 2 g 0 % 2 ^ 21
    let g1 := ogetP s p.ep .nhp k 0 2 g 1
    if bit g1 31 = false then .drop 1 3
    else
      let slots := g1 % 2 ^ 13
      let m := ecmpProbe s p base slots (flowHash s p / 65536 * slots / 65536) 8 0
      let t := nhType (nhW s p.ep k m 0)
      if t = 2 ∨ t = 3 then .drop 1 3 else resolveEntry s p m
  else resolveEntry s p n

/-- The head leaves stage 6 for policing, after the ingress edit check (R215, R231). -/
def editCheck (s : State) (p : Pkt) : State :=
  let e := eccCheck s (pageOf .edt p.slice 0) 0 1 (fun a => bump a .edt p.slice 0 5 0 0) (fun a => bump a .edt p.slice 0 5 1 0)
  if e.1 then dropHead (edtRewrite (bump e.2 .edt p.slice 0 5 2 0) p.ep p.slice p.tmpl) p 6
  else match edtCheck (tmplWords s p.ep p.slice p.tmpl) p.slots p.data with
    | .precondition => dropHead (edtCount e.2 p.slice (srcIdx p.src) 1) p 5
    | .expired => punt (edtCount e.2 p.slice (srcIdx p.src) 0) p (bitsOf (tmplW s p.ep p.slice p.tmpl 1) 14 9) 3 0
    | .pass => putPkt e.2 { p with stage := .forwarded, since := s.clk }

/-- Next-hop and template numbers that name nothing: a flooded head has neither (log entry 15). -/
def noNh : Nat := 2 ^ 20

/-- See `noNh`. -/
def noTmpl : Nat := 4096

/-- A head's resolved result takes effect (R202, R203). -/
def forwarded (s : State) (p : Pkt) (look : Look) : State :=
  let k := p.slice / 2
  let p0 := { p with hash := flowHash s p }
  let e := eccCheck s (pageOf .nhp k 0) 0 1 id (fun a => nhCount a p.slice p.src 7)
  if e.1 then dropHead e.2 p0 6
  else
    let target : Option Nat := match p.res.redirect, look with
      | some n, _ => some n
      | none, .nh n => some n
      | none, _ => none
    match target with
    | some n =>
      (match resolve s p n with
      | .drop c code => dropHead (nhCount e.2 p.slice p.src c) p0 code
      | .trap q m => punt (nhCount e.2 p.slice p.src 6) { p0 with nh := m } q 4 0
      | .uni m => editCheck e.2 { p0 with nh := m, tmpl := p.res.edit.getD (nhTmpl (nhW s p.ep k m 0)), list := none }
      | .rep m l => editCheck e.2 { p0 with
          nh := m, tmpl := p.res.edit.getD (nhW s p.ep k m 1 % 2 ^ 12), list := some l, flooded := false })
    | none =>
      let f := ogetP s p.ep .nhp k 0 4 p.res.tenant 0
      if bit f 31 then
        editCheck (bump e.2 .chd k 1 1 p.res.tenant 1) { p0 with
          nh := noNh, tmpl := p.res.edit.getD noTmpl, list := some (f % 65536), flooded := true }
      else dropHead (nhCount e.2 p.slice p.src 3) p0 4

/-- FORWARDING_LOOKUP (R172-R203, R215): 64 core clocks after the head entered stage 5. A contained pair refuses its heads (Table
16-3), but not a short frame already known bad (R38). -/
def execForwardingLookup (id : Nat) (s : State) : Out :=
  run true s <| match pktOf s id with
    | none => s
    | some p =>
      if running s && p.stage == .classified && decide (p.since + 64 ≤ s.clk) then
        let r := lookup s p
        if isShut s (.pair (p.slice / 2)) then
          (if p.tail && p.fcsBad && decide (p.data.length ≤ 256) then dropGone s { p with staged := false } else refuse s p 10 none)
        else if r.1 = .memErr then dropHead r.2 p 6 else forwarded r.2 p r.1
      else s

/-! ### Table commands (R188, R189) -/

/-- Fields of a table command record (Table 6-6). -/
structure Cmd where
  op : Nat
  fmt : Nat
  len : Nat
  flags : Nat
  tenant : Nat
  nh : Nat
  tag : Nat
  key : List Byte
  zeros : Bool
  deriving DecidableEq, Repr

/-- Read a record. -/
def cmdOf (r : List Byte) : Cmd :=
  { op := byteAt r 0, fmt := byteAt r 1, len := byteAt r 2, flags := byteAt r 3, tenant := ofLE (slice r 4 2)
    nh := ofLE (slice r 8 4), tag := ofLE (slice r 12 4), key := slice r 16 40
    zeros := ofLE (slice r 6 2) == 0 && ofLE (slice r 56 8) == 0 }

/-- A malformed command (R188). -/
def cmdBad (chard : Bool) (c : Cmd) : Bool :=
  let keyZero := c.key.all (· == 0)
  c.op == 0 || decide (4 < c.op) || (c.op == 4 && !chard)
    || (if chard then c.fmt == 0 || decide (4 < c.fmt) || c.len != 0 || c.flags / 4 % 4 != 0
        else decide (1 < c.fmt) || decide (famBits c.fmt < c.len) || c.flags != 0)
    || !c.zeros || decide (2 ^ 14 ≤ c.tenant) || decide (2 ^ 20 ≤ c.nh)
    || (decide (3 ≤ c.op) && (c.len != 0 || c.nh != 0 || !keyZero))
    || (decide (c.op < 3) &&
        (if chard then ofBE (c.key.drop (10 * chdSlots c.fmt)) != 0 || keyType c.key != c.fmt || keyTenant c.key != c.tenant
         else ofBE c.key % 2 ^ (320 - c.len) != 0))

/-- The port takes a command now (R188, R190). -/
def portTakes (s : State) (chard : Bool) : Bool :=
  let page := pageOf (portBlk chard) 0 0
  resRoom s chard && !groupPending s (groupOf s page) && !(s.tbl.cmds.any fun c => c.chard == chard)
    && (chard || (List.range 4).all fun k => fget s lekStatSync k 0 == 0)

/-- A Leek prefix of a command. -/
def cmdRoute (c : Cmd) : Route :=
  ⟨c.fmt, c.tenant, c.len, ofBE (c.key.take (famBits c.fmt / 8)), c.nh⟩

/-- Same prefix. -/
def samePrefix (a b : Route) : Bool := a.fam == b.fam && a.tenant == b.tenant && a.len == b.len && a.addr == b.addr

/-- Replace the shadow routes and count the entries written (R179). -/
def leekStage (s : State) (l : List Route) (n : Nat) : State :=
  { s with tbl := { s.tbl with
      leekS := l
      leekWrites := (List.range 4).foldl (fun a k => storeSet 0 k (storeGet 0 a k + n) a) s.tbl.leekWrites } }

/-- Entries a command on a route writes. -/
def routeWrites (s : State) (r : Route) : Nat := expansion r.fam (fgetS s lekCfgV6Set 0 0) r.len

/-- Most prefixes of a family (R181). -/
def leekLimit (fam : Nat) : Nat := if fam = 0 then 4194304 else 2097152

/-- Under stride sets 1 and 2 an IPv6 ADD may find no free array; how many arrays a stage memory holds is not given, so
whether it finds one is a free choice (R181, log entry 50). -/
def leekTight (s : State) (fam : Nat) : Bool := fam == 1 && fgetS s lekCfgV6Set 0 0 != 0

/-- Apply a command to Leek: status, entries changed, state. -/
def leekApply (s : State) (c : Cmd) : Nat × Nat × State :=
  let r := cmdRoute c
  let l := s.tbl.leekS
  match c.op with
  | 1 =>
    if l.any (samePrefix r) then
      (1, 1, leekStage s (l.map fun x => if samePrefix r x then r else x) (routeWrites s r))
    else if leekLimit r.fam ≤ leekCount l r.fam then (4, 0, s)
    else if leekTight s r.fam then
      let full := choose s 2
      if full.1 = 1 then (3, 0, full.2) else (0, 1, leekStage full.2 (l ++ [r]) (routeWrites s r))
    else (0, 1, leekStage s (l ++ [r]) (routeWrites s r))
  | 2 =>
    if l.any (samePrefix r) then (0, 1, leekStage s (l.filter fun x => !samePrefix r x) (routeWrites s r)) else (2, 0, s)
  | _ =>
    let gone := l.filter fun x => x.fam == c.fmt && x.tenant == c.tenant
    (0, gone.length, leekStage s (l.filter fun x => !(x.fam == c.fmt && x.tenant == c.tenant))
      (gone.foldl (fun a x => a + routeWrites s x) 0))

/-- Pairs a Chard command names. -/
def cmdCopies (c : Cmd) : List Nat :=
  if c.flags / 16 = 0 then [0, 1, 2, 3] else (List.range 4).filter fun k => bit c.flags (4 + k)

/-- Key bytes of a Chard command. -/
def cmdKey (c : Cmd) : List Byte := c.key.take (10 * chdSlots c.fmt)

/-- Epoch bit of a deferred change: the low bit of the next epoch of the CHD group (R186). -/
def nextBit (s : State) (k : Nat) : Nat := (curOf s (groupOf s (pageOf .chd k 0)) + 1) % 2

/-- An ADD on one copy (R185, R186): whether it succeeded, whether it replaced, state. -/
def chdAdd (s : State) (c : Cmd) (k : Nat) : Bool × Bool × State :=
  let key := cmdKey c
  let dfr := bit c.flags 0
  let new : ChdEnt := {
    pair := k, typ := c.fmt, key := key, way := 0, slot := 0, nh := c.nh, hit := false,
    stat := bit c.flags 1, learned := false, state := b2n dfr, ebit := if dfr then nextBit s k else 0, origin := 0,
    misses := 0, ltime := 0 }
  let old := if dfr then s.tbl.chd.find? fun e => e.pair == k && e.key == key && e.state == 1 else chdEntry s k key
  match old with
  | some e => (true, true, chdPut s { new with way := e.way, slot := e.slot })
  | none =>
    let r := chdInsert s k new
    if r.1 then (true, (chdEntry s k key).isSome, chdShow r.2 k) else (false, false, chdCount (chdShow r.2 k) k 5)

/-- Entries a removing Chard command names in its copies. -/
def chdNamed (c : Cmd) (e : ChdEnt) : Bool :=
  (cmdCopies c).contains e.pair && match c.op with
    | 2 => e.key == cmdKey c
    | 3 => e.typ == c.fmt && keyTenant e.key == c.tenant
    | _ => e.learned && !e.stat && (c.tenant == 0x3FFF || keyTenant e.key == c.tenant)

/-- Apply a command to Chard: status, COPY_OK, entries changed, state. -/
def chdApply (s : State) (c : Cmd) : Nat × Nat × Nat × State :=
  match c.op with
  | 1 =>
    if bit c.flags 1 = false ∧ ((cmdCopies c).any fun k => (chdEntry s k (cmdKey c)).elim false (·.stat)) = true
    then (7, 0, 0, s)
    else
      let r := (cmdCopies c).foldl (fun (a : List Nat × Bool × State) k =>
        let x := chdAdd a.2.2 c k
        (if x.1 then a.1 ++ [k] else a.1, a.2.1 || x.2.1, x.2.2)) ([], false, s)
      let ok := r.1.foldl (fun a k => a + 2 ^ k) 0
      let st := if r.1.isEmpty then 3 else if r.1.length < (cmdCopies c).length then 6 else if r.2.1 then 1 else 0
      (st, ok, r.1.length, r.2.2)
  | _ =>
    let hit := s.tbl.chd.filter (chdNamed c)
    let ok := ((List.range 4).filter fun k => hit.any fun e => e.pair == k).foldl (fun a k => a + 2 ^ k) 0
    let l := if bit c.flags 0
      then s.tbl.chd.filterMap fun e =>
        if chdNamed c e then (if e.state = 1 then none else some { e with state := 2, ebit := nextBit s e.pair }) else some e
      else s.tbl.chd.filter fun e => !chdNamed c e
    (if hit.isEmpty ∧ c.op = 2 then 2 else 0, if c.op = 2 then ok else 15, hit.length, chdShowAll (withChd s l))

/-- The sequencer applies the command at the front of a port when its operation is one of `ops` (R188): one result for
each. A command whose routine cannot be fetched waits (R476). -/
def command (s : State) (chard : Bool) (ops : Nat → Bool) : State :=
  match s.tbl.cmds.find? fun c => c.chard == chard with
  | none => s
  | some t =>
    let c := cmdOf t.record
    if ops c.op = false then s
    else
      let f := okraFetch s 0
      if f.1 = false then f.2
      else
        let s1 := { f.2 with tbl := { f.2.tbl with cmds := f.2.tbl.cmds.erase t } }
        if cmdBad chard c then result s1 chard c.tag 5 0 0
        else if chard then
          let r := chdApply s1 c
          result r.2.2.2 true c.tag (r.1 + 256 * r.2.1) r.2.2.1 0
        else
          let r := leekApply s1 c
          let s2 := (List.range 4).foldl (fun a k => lekCount a k 4) r.2.2
          let log := (List.range 4).foldl (fun a k => storePut k (storeGet [] a k ++ [t.record]) a) s2.tbl.leekLog
          result { s2 with tbl := { s2.tbl with leekLog := log } } false c.tag
            (r.1 + (if r.1 = 4 ∨ r.1 = 3 ∨ r.1 = 2 then 0 else 15 * 256)) r.2.1 0

/-- ADD; commands whose OP is reserved for the port end here too, as BAD_CMD. -/
def execAdd (chard : Bool) (s : State) : Out :=
  run true s (command s chard fun op => op != 2 && op != 3 && (op != 4 || !chard))

/-- DELETE. -/
def execDelete (chard : Bool) (s : State) : Out := run true s (command s chard (· == 2))

/-- CLEAR_TENANT. -/
def execClearTenant (chard : Bool) (s : State) : Out := run true s (command s chard (· == 3))

/-- FLUSH_LEARNED (Chard only). -/
def execFlushLearned (s : State) : Out := run true s (command s true (· == 4))

/-! ### Sync and deferred changes (R179, R186) -/

/-- Slices of a device. -/
def allSlices : List Nat := List.range 8

/-- Stages at which a head may still search (R175). -/
def searching : List Stage := [.parsing, .parsed, .classified]

/-- The replay of a pair begins once no head of the previous epoch is before stage 7. -/
def syncBegin (s : State) (k : Nat) : State :=
  if fget s lekStatSync k 0 = 1 ∧ (storeFind s.tbl.leekSync k).isNone = true
    ∧ oldHeadsDone s (pageOf .lek k 0) [2 * k, 2 * k + 1] searching = true
  then { s with tbl := { s.tbl with leekSync := storePut k (s.clk, storeGet 0 s.tbl.leekWrites k) s.tbl.leekSync } } else s

/-- LEEK_SYNC (R179): every pair whose replay is due begins it. -/
def execLeekSync (s : State) : Out := run true s ((List.range 4).foldl syncBegin s)

/-- The replay of a pair has written one entry per core clock. -/
def syncEnd (s : State) (k : Nat) : State :=
  match storeFind s.tbl.leekSync k with
  | none => s
  | some t =>
    if t.1 + t.2 ≤ s.clk then
      let s1 := lekCount (fset s lekStatSync k 0 0) k 5
      { s1 with tbl := { s1.tbl with
          leekSync := storeDel k s1.tbl.leekSync, leekWrites := storeDel k s1.tbl.leekWrites, leekO := storeDel k s1.tbl.leekO } }
    else s

/-- LEEK_SYNC_END (R179): every replay that has run its length ends. -/
def execLeekSyncEnd (s : State) : Out := run true s ((List.range 4).foldl syncEnd s)

/-- Deferred changes of one copy take hold. -/
def applyDeferred (s : State) (k : Nat) : State :=
  let b := curOf s (groupOf s (pageOf .chd k 0)) % 2
  let adds := s.tbl.chd.filter fun e => e.pair == k && e.state == 1 && e.ebit == b
  let l := s.tbl.chd.filterMap fun (e : ChdEnt) =>
    if e.pair ≠ k then some e
    else if e.state = 1 ∧ e.ebit = b then some { e with state := 0, ebit := 0 }
    else if (e.state = 2 ∧ e.ebit = b) ∨ (e.state ≠ 1 ∧ (adds.any fun a => a.key == e.key) = true) then none
    else some e
  chdShow (withChd s l) k

/-- DEFERRED_APPLY (R186): after a flip of the CHD group, once no head of the previous epoch can search Chard. -/
def execDeferredApply (s : State) : Out :=
  run true s <|
    if s.tbl.deferAt ≠ none ∧ ((List.range 4).all fun k =>
        oldHeadsDone s (pageOf .chd k 0) [2 * k, 2 * k + 1] searching) = true then
      let r := (List.range 4).foldl (fun (a : Bool × State) k =>
        let f := okraFetch a.2 k
        if f.1 then (a.1, applyDeferred f.2 k) else (false, f.2)) (true, s)
      if r.1 then { r.2 with tbl := { r.2.tbl with deferAt := none } } else r.2
    else s

/-! ### The learning ring (R194-R196) -/

/-- LEARN reaches a target (R195, R411). -/
def execLearn (target : Nat) (s : State) : Out :=
  run (target < 5) s <|
    let r := ringTake s target 1
    r.1.elim r.2 fun m => if target = 4 then learnToHol r.2 m else applyLearn r.2 target m

/-- REFRESH reaches a target. -/
def execRefresh (target : Nat) (s : State) : Out :=
  run (target < 5) s <|
    let r := ringTake s target 2
    r.1.elim r.2 fun m => if target = 4 then learnToHol r.2 m else applyLearn r.2 target m

/-- AGE reaches a target. -/
def execAge (target : Nat) (s : State) : Out :=
  run (target < 5) s <|
    let r := ringTake s target 3
    r.1.elim r.2 fun m => if target = 4 then learnToHol r.2 m else applyAge r.2 target m

/-- WITHDRAW reaches a target. -/
def execWithdraw (target : Nat) (s : State) : Out :=
  run (target < 5) s <|
    let r := ringTake s target 4
    r.1.elim r.2 fun m => if target = 4 then learnToHol r.2 m else applyWithdraw r.2 target m

/-- One learned entry in a sweep (R196). -/
def ageEntry (k : Nat) (s : State) (e : ChdEnt) : State :=
  let t := keyTenant e.key
  let m := keyMac e.key
  if e.origin = k then
    if e.hit then ringSend (chdPut s { e with hit := false }) k 2 0 t m e.nh e.ltime
    else ringSend (chdCount (chdDel s e) k 10) k 3 0 t m e.nh e.ltime
  else if 3 < e.misses + 1 then chdCount (chdDel s e) k 9
  else chdPut s { e with misses := e.misses + 1 }

/-- AGING_SWEEP (R196): every AGE_SEC seconds; 0 stops aging. -/
def execAgingSweep (k : Nat) (s : State) : Out :=
  run (k < 4) s <|
    let sec := fget s chdAgeCfgAgeSec k 0
    if sec ≠ 0 ∧ running s = true ∧ passedNs s (storeGet 0 s.tbl.ageAt k) (sec * 1000000000) = true then
      let mine := s.tbl.chd.filter fun e => e.pair == k && e.learned && !e.stat
      let s1 := chdShow (mine.foldl (ageEntry k) s) k
      { s1 with tbl := { s1.tbl with ageAt := storePut k s.clk s1.tbl.ageAt } }
    else s

/-- LEARN_FILTER_EXPIRY (R192): keys held for HOLD_US leave the filter. -/
def execLearnFilterExpiry (k : Nat) (s : State) : Out :=
  run (k < 4) s { s with tbl := { s.tbl with filter := s.tbl.filter.filter fun f =>
    !(f.1 == k && passedNs s f.2.2 (fget s chdLearnCfgHoldUs k 0 * 1000)) } }

/-- Forget the previous epoch's words of a page: its halves agree again. -/
def dropOld (s : State) (page : Nat) : State :=
  { s with cfg := { s.cfg with old := s.cfg.old.filter fun e => keyPage e.1 != page } }

/-- NHP_HALF_COPY (R204). -/
def execNhpHalfCopy (k : Nat) (s : State) : Out :=
  run (k < 4) s <|
    let page := pageOf .nhp k 0
    if fget s nhpStatHeld k 0 = 1 ∧ epochRefs s (groupOf s page) = 0 then dropOld (fset s nhpStatHeld k 0 0) page else s

/-! ### Protection (R206, R208) -/

/-- The PORT_DOWN bit of a port in all four pairs, with the owning pair's source and line 42. -/
def putPortDown (s : State) (p : Nat) (v : Bool) : State :=
  let s1 := (List.range 4).foldl (fun a k =>
    fset a nhpPortDownDown k (p / 32) (putBits (fget a nhpPortDownDown k (p / 32)) (p % 32) (p % 32) (b2n v))) s
  pulse (fire s1 (pageOf .nhp (p / 96) 0) 2) 42

/-- A PORT_DOWN bit sets (R206): with it the automatic hierarchical entries (R353), whose hold a set edge restarts, and the routes
over the port (R445). A bit that is set already has no edge. -/
def downSets (s : State) (p : Nat) : State :=
  if portDown s p then s
  else
    let enters := fun (a : State) (q : Nat) => serviceMode a q == 2 && fget a egsPortCfgRecProt (q / 8) (q % 8) == 1
    let s1 := (List.range 384).foldl (fun a q =>
      if enters a q then hierEntry (modPort a q fun x => { x with recUntil := some (s.clk + holdClks a q) }) q else a)
      (putPortDown s p true)
    routesOf s1 p

/-- PORT_DOWN_SET (R206). -/
def execPortDownSet (p : Nat) (s : State) : Out :=
  run (p < 384) s <|
    match (portSt s p).downAt with
    | none => s
    | some _ => downSets (modPort s p fun x => { x with downAt := none }) p

/-- PORT_DOWN_CLEAR (R208): the clear, and the port's own hierarchical entry (R353). -/
def execPortDownClear (p : Nat) (s : State) : Out :=
  run (p < 384) s <|
    match (portSt s p).clearAt with
    | none => s
    | some t =>
      if s.clk < t ∨ isContained s (.slice (sliceOf p)) = true ∨ isContained s (.sched (p / 8)) = true then s
      else
        let s1 := modPort s p fun x => { x with clearAt := none }
        if portDown s p = false then s1
        else
          let s2 := putPortDown s1 p false
          let s3 := if serviceMode s2 p = 2
            then hierEntry (modPort s2 p fun x => { x with upUntil := some (s.clk + holdClks s2 p) }) p else s2
          routesOf s3 p

end Sys2Proof.Machine
end

