-- ==== Sys2Proof/Machine/Police.lean ====
section
/-!
DEFINITION. Stage 7: policers (R233-R242).
-/
namespace Sys2Proof.Machine

/-- Key of a policer. -/
def polKey (sl i : Nat) : Nat := sl * 16384 + i

/-- Word of a policer record in a head's epoch (Table 7-5). -/
def polW (s : State) (p : Pkt) (i w : Nat) : Nat := ogetP s p.ep .pol p.slice 0 1 i w

/-- Buckets refilled after `n` core clocks (R236), in units of 2⁻¹⁶ byte. -/
def polRefill (mode cir pir cbs pbs n c p : Nat) : Nat × Nat :=
  let cAdd := n * cir * 65536 / 12500000
  let pAdd := n * pir * 65536 / 12500000
  if 2 ^ 32 ≤ n then (cbs, pbs)
  else if mode = 2 then (min cbs (c + cAdd), min pbs (p + pAdd + (c + cAdd - cbs)))
  else (min cbs (c + cAdd), min pbs (p + pAdd))

/-- Buckets of a policer under given record words, refilled to this clock; a policer not yet used is full (R240). -/
def polBuckets (s : State) (sl i w0 w1 w2 w3 : Nat) : Nat × Nat :=
  let cbs := bitsOf w2 23 0 * 65536
  let pbs := bitsOf w3 23 0 * 65536
  match storeFind s.net.policers (polKey sl i) with
  | none => (cbs, pbs)
  | some b => polRefill (bitsOf w3 25 24) w0 w1 cbs pbs (s.clk - b.last) b.c b.p

/-- Colours: 0 green, 1 yellow, 2 red. -/
def polColour (mode pc c p len : Nat) : Nat :=
  match mode with
  | 0 => 0
  | 1 => if pc = 0 ∧ len ≤ p ∧ len ≤ c then 0 else if pc ≠ 2 ∧ len ≤ p then 1 else 2
  | _ => if pc = 0 ∧ len ≤ c then 0 else if pc ≠ 2 ∧ len ≤ p then 1 else 2

/-- Buckets after the debit of Table 7-6. -/
def polDebit (mode colour c p len : Nat) : Nat × Nat :=
  match mode, colour with
  | 1, 0 => (c - len, p - len)
  | 1, 1 => (c, p - len)
  | 0, _ => (c, p)
  | _, 0 => (c - len, p)
  | _, 1 => (c, p - len)
  | _, _ => (c, p)

/-- Pre-colour of a head (R239). -/
def preColour (s : State) (p : Pkt) (aware : Bool) : Nat :=
  if !aware then 0
  else
    let off := fgetP s p.ep polColorCfgOff p.slice 0
    let v := if p.unparsed then 0
      else ofBE (slice p.kv off 2) / 2 ^ fgetP s p.ep polColorCfgShift p.slice 0 % 64
    fgetP s p.ep polColorMapMap p.slice (v / 16) / 4 ^ (v % 16) % 4

/-- A counter of POL page 1 OBJ 0x02. -/
def polCount (s : State) (sl c : Nat) : State := bump s .pol sl 1 2 c 0

/-- The checks of R241: a record error drops the head; a bucket error sets the policer full. -/
def polCheck (s : State) (sl i : Nat) : Bool × State :=
  let page := pageOf .pol sl 0
  let e := eccCheck s page 0 1 (fun a => polCount a sl 4) id
  let t := takeInj e.2 page 2
  let s1 := if t.1
    then fire (polCount { t.2 with net := { t.2.net with policers := storeDel (polKey sl i) t.2.net.policers } } sl 3) page 2
    else t.2
  (e.1, s1)

/-- A head is metered by policer i (R233-R238). -/
def meter (s : State) (p : Pkt) (i : Nat) : State :=
  let chk := polCheck s p.slice i
  let s1 := chk.2
  if chk.1 then dropHead (polCount s1 p.slice 2) p 6
  else
    let w2 := polW s1 p i 2
    let w3 := polW s1 p i 3
    let mode := bitsOf w3 25 24
    let b := polBuckets s1 p.slice i (polW s1 p i 0) (polW s1 p i 1) w2 w3
    let len := ((lenEst s1 p : Int) + sgn 8 (bitsOf w2 31 24)).toNat
    let units := len * 65536
    let col := polColour mode (preColour s1 p (bit w3 26)) b.1 b.2 units
    let d := polDebit mode col b.1 b.2 units
    let s2 := { s1 with net := { s1.net with policers := storePut (polKey p.slice i) ⟨d.1, d.2, s1.clk⟩ s1.net.policers } }
    let s3 := bumpBy (bump s2 .pol p.slice 0 3 i (2 * col)) .pol p.slice 0 3 i (2 * col + 1) len
    let s4 := polCount (bumpBy (bump s3 .pol p.slice 1 1 p.res.tenant 0) .pol p.slice 1 1 p.res.tenant 1 len) p.slice 0
    if col = 2 then
      dropHead (polCount (bumpBy (bump s4 .pol p.slice 1 1 p.res.tenant 2) .pol p.slice 1 1 p.res.tenant 3 len)
        p.slice 1) p 1
    else
      let tc := if col = 1 ∧ bit w3 27 = true then bitsOf w3 30 28 else p.res.tc
      putPkt s4 { p with res := { p.res with tc := tc }, stage := .metered, since := s.clk }

/-- POLICE (R233): a head without a policer passes to the gate. -/
def execPolice (id : Nat) (s : State) : Out :=
  run true s <| match pktOf s id with
    | none => s
    | some p =>
      if running s && p.stage == .forwarded then
        match p.res.policer with
        | none => putPkt s { p with stage := .metered, since := s.clk }
        | some i => meter s p i
      else s

end Sys2Proof.Machine
end

