-- ==== Sys2Proof/Machine/Cells.lean ====
section
/-!
DEFINITION. Cells at their egress slice: arrival, joining a queue, multicast copies and their readiness (R289-R291, R296,
R298, R299), staging blocks written to Burlap (R301), descriptors (Table 9-1, R320, R321).
-/
namespace Sys2Proof.Machine

/-! ### Descriptors -/

/-- The 32 bytes of an item's descriptor (Table 9-1). -/
def descBytes (s : State) (it : Item) : List Byte :=
  let p := pktOf s it.pkt
  let arr := p.elim 0 fun q => admOf q.arr
  let epl := p.elim 0 (·.epLow)
  let src := match it.src with | .port n => n | .inject q => 512 + q
  let loc :=
    if it.brl then
      let q := queue s it.port it.cls
      match q.stream.find? fun c => c.item == it.id && c.idx == 0 with
      | none => 0
      | some c => ((q.blks.find? fun b => b.1 == c.pos / 8).elim 0 (·.2)) * 8 + c.pos % 8
    else ((chainOf s it.pkt it.es it.pass).bind fun c => c.cells.head?).elim 0 (·.loc)
  let cls := if it.mc then p.elim 0 (·.res.tc) else it.cls
  toLE 4 (it.dl / 65536) ++ toLE 4 (arr / 65536) ++ toLE 4 (it.dl % 65536 + src % 1024 * 2 ^ 16 + cls % 8 * 2 ^ 26)
    ++ toLE 4 (loc % 2 ^ 30) ++ toLE 4 (it.nh % 2 ^ 20 + it.tmpl % 2 ^ 12 * 2 ^ 20)
    ++ toLE 4 (it.tenant % 2 ^ 14 + it.port % 2 ^ 9 * 2 ^ 14 + it.cells % 64 * 2 ^ 23 + b2n it.brl * 2 ^ 29
      + b2n it.mc * 2 ^ 30 + b2n it.resteered * 2 ^ 31)
    ++ toLE 4 it.hash ++ toLE 4 (epl % 2 ^ 16 + it.len % 2 ^ 14 * 2 ^ 16 + b2n it.cut * 2 ^ 30)

/-- Global number of a Burlap-resident descriptor (R320). -/
def descGd (it : Item) : Nat := 16777216 * it.es + it.desc

/-- Both copies of a Burlap-resident descriptor are written, but for one in a contained channel (R321). -/
def writeDesc (s : State) (it : Item) : State :=
  let b := descBytes s it
  (List.range 2).foldl (fun a c => (burlapWrite a 2 (descAddr a (descGd it) c) b).2) s

/-! ### Joining queues -/

/-- An item joins the tail of its queue's list. -/
def joinQueue (s : State) (it : Item) : State :=
  let s1 := putItem s { it with place := .queued }
  putQueue s1 it.port it.cls { queue s1 it.port it.cls with fifo := (queue s1 it.port it.cls).fifo ++ [it.id] }

/-- Cells the multicast queue of a port holds. -/
def mcCells (s : State) (port : Nat) : Nat :=
  (s.net.items.filter fun it => it.port == port && it.cls == 8 && (it.place == .queued || it.place == .sending)).foldl
    (fun a it => a + (it.cells - it.sent)) 0

/-- A copy's port is ready (R299). -/
def mcReady (s : State) (port : Nat) : Bool :=
  !portDown s port && fget s macCfgEnable port 0 == 1 && queueOn s port 8
    && decide (mcCells s port < fget s bpmMcqLimitCells (sliceOf port) 0)

/-- Copies of the current pass of a packet in a slice whose ports are ready are enqueued, in list order (R299). -/
def enqueueCopies (s : State) (pkt es : Nat) : State :=
  match chainOf s pkt es 0 with
  | none => s
  | some c =>
    if c.cells.any (·.here) then
      (s.net.items.filter fun it => it.pkt == pkt && it.es == es && it.mc && it.place == .residue
          && !c.later.contains it.id).foldl (fun a it =>
        if mcReady a it.port then bump (joinQueue a it) .bpm es 1 3 0 0 else a) s
    else s

/-- The engine looks at every copy in the residue of a slice again. -/
def residueAgain (s : State) (es : Nat) : State :=
  (s.net.chains.filter fun c => c.es == es).foldl (fun a c => enqueueCopies a c.pkt es) s

/-! ### Staging (R301) -/

/-- The 256 bytes of a cell of a packet, zeros beyond the frame. -/
def cellBytes (p : Pkt) (i : Nat) : List Byte := slice p.data (256 * i) 256

/-- Bytes of a block that lie together in one pseudo-channel: a request of the spill writer or the prefetcher covers so many
(R318, R319). -/
def pieceLen (s : State) : Nat := min (grain s) 1024

/-- Write the given cell positions of a stream block to Burlap: requests of the spill writer, tagged with their queue, stream block
and positions. -/
def writeBlock (s : State) (port cls blk : Nat) (cells : List SpillCell) : State :=
  let es := sliceOf port
  let q := queue s port cls
  match q.blks.find? fun b => b.1 == blk with
  | none => s
  | some b =>
    let bytes := fun (c : SpillCell) =>
      ((itemOf s c.item).bind fun it => pktOf s it.pkt).elim (List.replicate 256 0) fun p => cellBytes p c.idx
    let n := pieceLen s / 256
    let s1 := (List.range (8 / n)).foldl (fun a k =>
      let mine := cells.filter fun c => c.pos % 8 / n == k
      if mine.isEmpty then a
      else enqueue a (newReq a 0 (b.2 * 2048 + k * pieceLen s) (pieceLen s) true (mine.flatMap bytes)
        ([port, cls, blk] ++ mine.map fun c => c.pos % 8))) s
    let full := cells.length == 8
    let s2 := putQueue s1 port cls { q with
      stream := q.stream.map fun c => if cells.contains c then { c with st := .burlap } else c
      staging := q.staging.filter fun x => x.1 != blk }
    bump s2 .bpm es 1 3 0 (if full then 6 else 7)

/-- The queue's eight staging cells are all in use: its oldest staging block is written as it is (DESIGN CHOICE, log entry 120). -/
def stagingRoom (s : State) (port cls : Nat) : State :=
  let q := queue s port cls
  if (q.stream.filter fun c => c.st == .staged).length < 8 then s
  else match q.staging with
    | [] => s
    | b :: _ => writeBlock s port cls b.1 (q.stream.filter fun c => c.pos / 8 == b.1 && c.st == .staged)

/-- A cell of a Burlap-path item reaches the staging area. -/
def stageCell (s0 : State) (it : Item) (idx : Nat) : State :=
  let s := stagingRoom s0 it.port it.cls
  let q := queue s it.port it.cls
  match q.stream.find? fun c => c.item == it.id && c.idx == idx with
  | none => s
  | some c =>
    let blk := c.pos / 8
    let written := q.stream.any fun x => x.pos / 8 == blk && (x.st == .burlap || x.st == .reading || x.st == .gauze)
    let c1 := { c with st := SpillPos.staged }
    let s1 := putQueue s it.port it.cls { q with
      stream := q.stream.map fun x => if x = c then c1 else x
      staging := if q.staging.any fun b => b.1 == blk then q.staging else q.staging ++ [(blk, s.clk)] }
    let here := (queue s1 it.port it.cls).stream.filter fun x => x.pos / 8 == blk && x.st == .staged
    if written then writeBlock s1 it.port it.cls blk [c1]
    else if here.length = 8 then writeBlock s1 it.port it.cls blk here
    else s1

/-! ### Arrival (R290) -/

/-- A cell is written to its place in its egress slice. -/
def cellArrive (s : State) (t : Tag) : State :=
  match s.net.items.find? fun it => it.pkt == t.pkt && it.es == t.es && it.pass == t.pass && it.brl && !it.mc with
  | some it => stageCell s it t.idx
  | none =>
    match chainOf s t.pkt t.es t.pass with
    | none => s
    | some c =>
      let cells := (c.cells.zip (List.range c.cells.length)).map fun e =>
        if e.2 = t.idx then { e.1 with here := true } else e.1
      let s1 := { s with net := { s.net with chains := s.net.chains.map fun d =>
        if d.pkt = t.pkt ∧ d.es = t.es ∧ d.pass = t.pass then { d with cells := cells } else d } }
      match s1.net.items.find? fun it => it.pkt == t.pkt && it.es == t.es && it.pass == t.pass && it.place == .transit with
      | some it => joinQueue s1 it
      | none => enqueueCopies s1 t.pkt t.es

/-- Cells under way over a die crossing that have arrived by now. -/
def arrivals (s : State) : State :=
  let due := s.net.flight.filter fun t => decide (t.ready ≤ s.clk)
  if due.isEmpty then s
  else due.foldl cellArrive { s with net := { s.net with flight := s.net.flight.filter fun t => !decide (t.ready ≤ s.clk) } }

end Sys2Proof.Machine
end

