-- ==== Sys2Proof/Machine/Admit.lean ====
section
/-!
DEFINITION. Stage 8 (R243-R275): deadlines, virtual finish times, the decision, replication, the keeper's sweep and the
conservation check; the cells an acceptance reserves (R288, R297, R298, R302) and the stage-A queue they enter.
-/
namespace Sys2Proof.Machine

/-! ### Lanes (R280, R284-R286) -/

/-- Key of a flowlet bucket. -/
def bucketKey (sl h : Nat) : Nat := sl * 4096 + h % 4096

/-- Lane of a bucket before containment: a move made at this very clock does not hold for a verdict (R286). -/
def bucketLane (s : State) (sl h : Nat) : Nat :=
  let k := bucketKey sl h
  match storeFind s.net.moved k with
  | some m => if m.2 = s.clk then m.1 else (storeGet (h % 8, 0) s.net.flowlet k).1
  | none => (storeGet (h % 8, 0) s.net.flowlet k).1

/-- Lane a verdict uses: a contained lane's buckets have moved (Table 16-3). -/
def laneFor (s : State) (sl h : Nat) : Nat :=
  let j := bucketLane s sl h
  if isContained s (.lane j) then (storeGet (j, 0) s.net.flowlet (2 ^ 20 + 8 * sl + j)).1 else j

/-- A verdict uses its bucket: the time is set, a move of this clock is abandoned and counted (R286). -/
def useBucket (s : State) (sl h : Nat) : State :=
  let k := bucketKey sl h
  let j := bucketLane s sl h
  let ab := (storeFind s.net.moved k).any fun m => m.2 == s.clk
  let s1 := { s with net := { s.net with
    flowlet := storePut k (j, admNow s) s.net.flowlet
    moved := if ab then storeDel k s.net.moved else s.net.moved } }
  if ab then bump s1 .gze sl 0 2 1 0 else s1

/-- Append cells to a stage-A queue. -/
def pushCells (s : State) (sl lane kind : Nat) (tags : List Tag) : State :=
  if tags.isEmpty then s
  else if s.net.stageA.any fun q => q.slice == sl && q.lane == lane && q.kind == kind
  then { s with net := { s.net with stageA := s.net.stageA.map fun (q : StageA) =>
    if q.slice = sl ∧ q.lane = lane ∧ q.kind = kind then { q with cells := q.cells ++ tags } else q } }
  else { s with net := { s.net with stageA := s.net.stageA ++ [⟨sl, lane, kind, tags⟩] } }

/-- Cells of a length. -/
def cellsOf (len : Nat) : Nat := cdiv len 256

/-- Cells of a frame in the holding buffer so far. -/
def cellsHere (p : Pkt) : Nat := if p.tail then cellsOf p.data.length else p.data.length / 256

/-- Tags of cells [a, b) of a pass for an egress slice, ready at a clock. -/
def tagsFor (pkt es pass a b ready : Nat) : List Tag := (List.range (b - a)).map fun i => ⟨pkt, a + i, es, pass, ready⟩

/-! ### Arithmetic (R248, R249, R251) -/

/-- Sum in admission time. -/
def admAdd (a b : Nat) : Nat := (a + b) % 2 ^ 48

/-- The service term. -/
def svcUnits (bits rate : Nat) : Nat := cdiv (bits * 65536000) rate

/-- Word w of a queue's configuration in a holder's epoch (Table 8-9). -/
def admQ (s : State) (ep : List Nat) (port cls w : Nat) : Nat := ogetP s ep .adm (sliceOf port) 2 1 (8 * (port % 48) + cls) w

/-- bits of R248. -/
def admBits (len growth ovh : Nat) : Nat := (max 1 ((len + growth : Int) + sgn 8 ovh) * 8).toNat

/-- transit_bound in ns without the Burlap component; `sf` is the store-and-forward component (R251). -/
def tbOn (s : State) (ep : List Nat) (port cls sf : Nat) : Nat :=
  let es := sliceOf port
  fgetP s ep admPathOnTwillNs es 0 + fgetP s ep admPathOnEgressNs es 0 + txNs s port
    + (if eeeOn s port then fget s macEeeCtlTwTxNs port 0 else 0)
    + (if (portSt s port).park = .parking ∨ (portSt s port).park = .waking then 500 else 0)
    + gateNs s port cls (portMbps s port (admGbps s port)) + sf

/-- vft of a path (R249). -/
def vftOf (s : State) (port cls tb bits : Nat) : Nat :=
  let q := queue s port cls
  let t := admAdd (admNow s) (tb * 65536)
  admAdd (if q.idle then t else admMax t q.v) (svcUnits bits q.rate)

/-- The queue holds no cells and has no spill (R37). -/
def queueBare (s : State) (port cls : Nat) : Bool :=
  !(queue s port cls).spill && (queueItems s port cls).all fun it => it.place == .transit

/-- Cut-through is permitted (R37, R252, R253). -/
def cutOk (s : State) (src : Source) (port cls : Nat) : Bool :=
  queueBare s port cls && match src with
    | .inject _ => true
    | .port n => decide (curGbps s port ≤ curGbps s n)

/-- Store-and-forward component in ns. -/
def sfNs (s : State) (src : Source) (len : Nat) (cut : Bool) : Nat :=
  match src with
  | .inject _ => 0
  | .port n => if cut then 0 else cdiv (len * 8) (curGbps s n)

/-! ### Pools (R256, R302, R334) -/

/-- A grant of n tokens. -/
def takeTokens (s : State) (es c n : Nat) : State :=
  { s with net := { s.net with tokens := storePut (es * 4 + c) ⟨ovfTokens s es c - n * 65536, 0, s.clk⟩ s.net.tokens } }

/-- Some channel is contained or being contained. -/
def chanLost (s : State) : Bool := (List.range 192).any fun i => chanState s i == 5 || chanState s i == 6

/-- A block touches a contained channel: it is never allocated again (R337). -/
def blockLost (s : State) (b : Nat) : Bool :=
  (chansOf s (2048 * b) 2048).any fun i => chanState s i == 5 || chanState s i == 6

/-- Blocks of a slice's range that are free. -/
def freeBlocks (s : State) (es : Nat) : Nat :=
  let b := fget s bpmBlkBaseBlk es 0
  let n := fget s bpmBlkCountCount es 0
  n - (s.net.blocks.filter fun e => e.1 == es).length
    - (if chanLost s then ((List.range n).filter fun x => blockLost s (b + x)).length else 0)

/-- Stream blocks that n more cells of a queue would begin (R301). -/
def newBlocks (q : QueueSt) (n : Nat) : List Nat :=
  ((List.range (n / 8 + 2)).map fun i => q.next / 8 + i).filter fun b =>
    decide (b * 8 < q.next + n) && !(q.blks.any fun e => e.1 == b)

/-- The class grants n tokens (R256, R302). -/
def grantOk (s : State) (es port cls c n : Nat) : Bool :=
  decide (n * 65536 ≤ ovfTokens s es c) && decide ((newBlocks (queue s port cls) n).length ≤ freeBlocks s es)

/-- A free block of a slice's range; which one is the device's choice (log entry 8). -/
def takeBlock (s : State) (es : Nat) : Nat × State :=
  let n := fget s bpmBlkCountCount es 0
  let base := fget s bpmBlkBaseBlk es 0
  let r := choose s n
  let b := base + nextFree (fun x => s.net.blocks.contains (es, base + x) || (chanLost s && blockLost s (base + x))) n n r.1
  (b, { r.2 with net := { r.2.net with blocks := r.2.net.blocks ++ [(es, b)] } })

/-- Append n cells of an item, from cell `first` on, to its queue's spill stream (R301). -/
def appendStream (s : State) (it : Item) (first n : Nat) : State :=
  let q := queue s it.port it.cls
  let r := (newBlocks q n).foldl (fun (a : List (Nat × Nat) × State) b =>
    let x := takeBlock a.2 it.es
    (a.1 ++ [(b, x.1)], x.2)) ([], s)
  putQueue r.2 it.port it.cls { q with
    blks := q.blks ++ r.1, next := q.next + n, spill := true
    stream := q.stream ++ (List.range n).map fun i => ⟨it.id, first + i, q.next + i, .awaited⟩ }

/-- A free descriptor of a slice, on chip or Burlap-resident (device's choice). -/
def takeDesc (s : State) (es : Nat) (brl : Bool) : Nat × State :=
  let n := if brl then 16777216 else 131072
  let r := choose s n
  (nextFree (fun x => s.net.items.any fun it => it.es == es && it.brl == brl && it.desc == x) n n r.1, r.2)

/-! ### Acceptance (R258) -/

/-- The gate counts an accepted item (R44, R269). -/
def countAccepted (s : State) (p : Pkt) : State :=
  let s1 := ledger s p.slice p.src p.res.tenant 0
  if p.tail then ledgerBytes s1 p.slice p.src p.res.tenant 0 (frameLen p) else s1

/-- An item of a packet for an egress queue. -/
def mkItem (s : State) (p : Pkt) (port cls : Nat) : Item :=
  { id := s.net.nextId, pkt := p.id, islice := p.slice, src := p.src, tenant := p.res.tenant, es := sliceOf port,
    port := port, cls := cls, desc := 0, mc := false, brl := false, cut := false, resteered := false, dl := 0, vft := 0,
    nh := p.nh, tmpl := p.tmpl, hash := p.hash, len := lenEst s p, growth := 0, cells := cellsOf (lenEst s p), pass := 0,
    place := .transit, sent := 0, txEnd := 0, bad := false, out := [], upTo := 0, pad := 0, node := [] }

/-- Add an item with a descriptor of its own. -/
def addItem (s : State) (it : Item) : State :=
  let d := takeDesc s it.es it.brl
  { d.2 with net := { d.2.net with nextId := d.2.net.nextId + 1, items := d.2.net.items ++ [{ it with desc := d.1 }] } }

/-- The head is handed to Twill: its context is free (R35); a frame already known bad ends its items (R39). -/
def handOver (s : State) (p : Pkt) (lane kind : Nat) (slices : List Nat) : State :=
  let s1 := putPkt (sliceEvt s p.slice 2) { p with
    stage := .accepted, lane := lane, copies := (s.net.items.filter fun it => it.pkt == p.id).length }
  let s2 := pushCells s1 p.slice lane kind (slices.flatMap fun es => tagsFor p.id es 0 0 (cellsHere p) (s.clk + 8))
  if p.tail && (p.fcsBad || p.oversize) then failWhere s2 (fun it => it.pkt == p.id) 7 else s2

/-- A unicast head is accepted: V, descriptor, cells or tokens, ledger (R258, R288). -/
def acceptUni (s : State) (p : Pkt) (it : Item) (lane : Nat) : State :=
  let s1 := putQueue s it.port it.cls { queue s it.port it.cls with v := it.vft, idle := false }
  let s1 := if it.cut then sliceEvt s1 p.slice 7 else if it.brl then sliceEvt s1 p.slice 8 else s1
  let s2 := bump (countAccepted s1 p) .adm it.es 2 3 (8 * (it.port % 48) + it.cls) 0
  let s3 := addItem s2 it
  let s4 := if it.brl
    then appendStream (takeTokens s3 it.es (bitsOf (admQ s p.ep it.port it.cls 1) 10 9) it.cells) it 0 it.cells
    else allocChain s3 p.id it.es 0 (8 * (it.port % 48) + it.cls) it.cells 1 [] false
  let s5 := if it.brl
    then
      let s' := putQueue s4 it.port it.cls { queue s4 it.port it.cls with fifo := (queue s4 it.port it.cls).fifo ++ [it.id] }
      (itemOf s' it.id).elim s' (writeDesc s')
    else s4
  handOver s5 p lane 1 [it.es]

/-! ### Subscriber nodes (R355, R356) -/

/-- Node that meters a tenant on a port. -/
def meterNode (s : State) (port tenant : Nat) : Option Nat :=
  let sl := sliceOf port
  let m := oget s .egs (6 * sl) 1 3 tenant 0
  let n := m % 2 ^ 11
  if (portSt s port).hier && bit m 31 && bit (nodeW s sl n 0) 31 && bitsOf (nodeW s sl n 2) 8 0 == port then some n else none

/-! ### The verdict (R257) -/

/-- What the keeper decides. -/
inductive Verdict | on (vft : Nat) | brl (vft : Nat) | no (reason : Nat)
  deriving DecidableEq, Repr

/-- The decision of R256 and R257 for a unicast head of length len, growth g, deadline dl and profile time d. A head for a contained
egress slice or scheduler is refused with reason contained (DESIGN CHOICE, log entry 121). -/
def decideUni (s : State) (p : Pkt) (port cls len g d dl sf : Nat) : Verdict :=
  let es := sliceOf port
  let q := queue s port cls
  let w0 := admQ s p.ep port cls 0
  let w1 := admQ s p.ep port cls 1
  let bits := admBits len g (w1 % 256)
  let cells := cellsOf len
  let spillEn := bit w1 8
  let tb := tbOn s p.ep port cls sf
  if d = 0 then .no 5
  else if isShut s (.slice es) || isShut s (.sched (port / 8)) then .no 10
  else if queueOn s port cls = false then .no 6
  else if q.lost then .no 9
  else if q.rate = 0 then .no 1
  else
    let von := vftOf s port cls tb bits
    let resid := (von + 2 ^ 48 - admNow s) % 2 ^ 48
    let room := ownerFits s es (8 * (port % 48) + cls) cells
    let descFree := decide (descOn s es < 131072)
    let onPath := !q.spill && (!spillEn || decide (resid ≤ bitsOf w0 29 0 * 65536)) && room && descFree
    let brlDesc := decide (descBrl s es < fgetP s p.ep admDescBrlLimitLimit es 0)
    let mayBrl := spillEn && decide (4000 ≤ d)
    if onPath then (if later von dl then .no 1 else .on von)
    else if mayBrl && brlDesc && grantOk s es port cls (bitsOf w1 10 9) cells then
      let vb := vftOf s port cls (tb + fgetP s p.ep admPathBrlBrlNs es 0) bits
      if later vb dl then .no 1 else .brl vb
    else if later von dl then .no 1
    else if !mayBrl then (if !room then .no 2 else if !descFree then .no 4 else .no 1)
    else if !brlDesc then .no 4
    else .no 3

/-- A unicast head at the keeper. -/
def verdictUni (s : State) (p : Pkt) (lane d dl : Nat) : State :=
  let port := nhPort (nhW s p.ep (p.slice / 2) p.nh 0)
  let cls := p.res.tc
  let es := sliceOf port
  let e := eccCheck s (pageOf .adm es 0) 0 1 id (fun a => putQueue a port cls { queue a port cls with lost := true })
  let s1 := e.2
  let len := lenEst s1 p
  let g := growthOf s1 p.ep p.slice p.tmpl
  let cut := cutOk s1 p.src port cls
  let it := { mkItem s1 p port cls with dl := dl, growth := g, cut := cut }
  let node := meterNode s1 port p.res.tenant
  let need := (len + g + 20) * 65536
  let enter := fun (x : Item) =>
    match node with
    | none => acceptUni s1 p x lane
    | some n =>
      let t := nodeTok s1 es n
      if t < need then refuse (bump s1 .egs (6 * es) 1 4 n 1) p 1 (some (port, cls))
      else
        let s2 := { s1 with net := { s1.net with nodes := storePut (es * 2048 + n) ⟨t - need, 0, s1.clk⟩ s1.net.nodes } }
        acceptUni (bump s2 .egs (6 * es) 1 4 n 0) p x lane
  match decideUni s1 p port cls len g d dl (sfNs s1 p.src len cut) with
  | .no r => refuse s1 p r (some (port, cls))
  | .on v => enter { it with vft := v }
  | .brl v => enter { it with vft := v, brl := true, place := .queued }

/-! ### Replication (R260, R261, R297, R298) -/

/-- Members of a head's list: port and template, valid ones in list order. -/
def listMembers (s : State) (p : Pkt) (l : Nat) : List (Nat × Nat) :=
  let h := ogetP s p.ep .bpm p.slice 1 1 l 0
  if bit h 31 = false then []
  else (List.range (bitsOf h 28 18)).filterMap fun i =>
    let m := ogetP s p.ep .bpm p.slice 1 2 (h % 2 ^ 18 + i) 0
    if bit m 31 then some (m % 512, if bit m 21 then bitsOf m 20 9 else p.tmpl) else none

/-- Add the copies of one egress slice with their chain (R298): count r, or passes of 254 copies with the engine's
reference when r exceeds 255. -/
def addCopies (s : State) (p : Pkt) (es dl : Nat) (ms : List (Nat × Nat)) : State :=
  let first := s.net.nextId
  let s1 := ms.foldl (fun a m =>
    let it := { mkItem a p m.1 8 with
      tmpl := m.2, mc := true, dl := dl, growth := growthOf a p.ep p.slice m.2, place := .residue }
    bump (addItem (countAccepted a p) it) .bpm es 1 3 0 1) s
  let r := ms.length
  let n := cellsOf (lenEst s p)
  if r ≤ 255 then allocChain s1 p.id es 0 384 n r [] false
  else bump (allocChain s1 p.id es 0 384 n 255 ((List.range (r - 254)).map fun i => first + 254 + i) true) .bpm es 1 3 3 0

/-- A copy is refused with reason egress down (R261): its refusal and its own mirror record (R308). -/
def refuseCopy (p : Pkt) (s : State) (m : Nat × Nat) : State :=
  mirror (lgrBump (countRefusal s p.slice p.src 7) p.slice 3 p.res.tenant 4 1) p m.1 p.res.tc true 3 7 none false false false

/-- A REPLICATE head at the keeper. -/
def verdictRep (s : State) (p : Pkt) (lane d dl l : Nat) : State :=
  let arr := match p.src with | .port n => some n | .inject _ => none
  let all := (listMembers s p l).filter fun m => !(p.flooded && arr == some m.1)
  let down := all.filter fun m => portDown s m.1
  let live := all.filter fun m => !portDown s m.1
  let slices := (List.range 8).filter fun es => live.any fun m => sliceOf m.1 == es
  let cells := cellsOf (lenEst s p)
  let refuseDown := fun (a : State) => down.foldl (refuseCopy p) a
  if d = 0 then refuse s p 5 none
  else if live.isEmpty then
    headGone (if down.isEmpty then s else refuseDown (sliceEvt s p.slice 3)) { p with staged := false }
  else if !(slices.all fun es => ownerFits s es 384 cells) then refuse (refuseDown s) p 2 none
  else if !(slices.all fun es => decide (descOn s es + (live.filter fun m => sliceOf m.1 == es).length ≤ 131072)) then
    refuse (refuseDown s) p 4 none
  else
    let s1 := slices.foldl (fun a es => addCopies a p es dl (live.filter fun m => sliceOf m.1 == es)) (refuseDown s)
    handOver s1 p lane 2 slices

/-- The class queue a unicast head is for (R259). -/
def targetOf (s : State) (p : Pkt) : Option (Nat × Nat) :=
  if p.list.isSome then none else some (nhPort (nhW s p.ep (p.slice / 2) p.nh 0), p.res.tc)

/-- A head at the gate (R243, R271, R274, R280). -/
def atGate (s0 : State) (p : Pkt) : State :=
  let s := arrivals s0
  let lane := laneFor s p.slice p.hash
  let kind := if p.list.isSome then 2 else 1
  let limit := if p.list.isSome then fgetP s p.ep gzeSaCfgMcLimit p.slice 0 else fgetP s p.ep gzeSaCfgALimit p.slice 0
  if limit ≤ stageACount s p.slice lane kind then
    (if p.gated then s else putPkt (sliceEvt (bump s .gze p.slice 0 2 2 0) p.slice 9) { p with gated := true })
  else
    let s1 := useBucket s p.slice p.hash
    if sliceShut s1 p.slice then refuse s1 p 10 (targetOf s1 p)
    else
      let e := eccCheck s1 (pageOf .adm p.slice 0) 0 1 id id
      if e.1 then refuse e.2 p 9 (targetOf e.2 p)
      else
        let prof := p.res.dlp.getD (ogetP e.2 p.ep .adm p.slice 1 2 p.res.tenant 0 % 256)
        let d := ogetP e.2 p.ep .adm p.slice 1 1 prof p.res.tc % 2 ^ 30
        let dl := admAdd (admOf p.arr) (d * 65536)
        match p.list with
        | some l => verdictRep e.2 p lane d dl l
        | none => verdictUni e.2 p lane d dl

/-! ### Sweeps and checks -/

/-- KEEPER_SWEEP (R250): once per ms, every queue whose V is earlier than now becomes idle. -/
def execKeeperSweep (sl : Nat) (s : State) : Out :=
  run (sl < 8) s <|
    if running s && passedNs s (storeGet 0 s.net.keptAt sl) 1000000 then
      let now := admNow s
      let qs := s.net.queues.map fun e =>
        if e.1 / 432 = sl ∧ e.1 % 9 < 8 ∧ e.2.idle = false ∧ later now e.2.v = true then (e.1, { e.2 with idle := true }) else e
      { s with net := { s.net with
          keptAt := storePut sl s.clk s.net.keptAt
          queues := qs.filter fun e => e.2 != queueReset } }
    else s

/-- CARRY_END (R264): the admission time has reached the V held at the edge. -/
def execCarryEnd (p cls : Nat) (s : State) : Out :=
  run (p < 384 && cls < 8) s <|
    let q := queue s p cls
    match q.carry with
    | none => s
    | some c => if later c.1 (admNow s) then s else putQueue s p cls { q with carry := none }

/-- CHK_DIFF of a difference: 32 bits, saturating. -/
def diffWord (d : Int) : Nat := unsgn 32 (max (-(2 ^ 31 : Int)) (min (2 ^ 31 - 1) d))

/-- CONSERVATION_CHECK (R270): the oldest check due of the slice is reported; an injection inverts bit 0 of the difference the checker
sees (R463). -/
def execConservationCheck (sl : Nat) (s : State) : Out :=
  run (sl < 8) s <| match s.net.checks.find? fun c => c.slice == sl with
    | none => s
    | some c =>
      let s1 := { s with net := { s.net with checks := s.net.checks.erase c } }
      let s2 := fset (fset (fset s1 lgrChkStatTrigger sl 0 c.trig) lgrChkTimeTime sl 0 (c.time / 65536)) lgrInFlightN sl 0 c.held
      if c.skip then fset s2 lgrChkStatSkipped sl 0 1
      else
        let s3 := fset (fbump (fset s2 lgrChkStatSkipped sl 0 0) lgrChkStatChecks sl 0) lgrChkDiffDiff sl 0 (diffWord c.diff)
        let inj := takeInj s3 (pageOf .lgr sl 0) 0
        let d := if inj.1 then (if c.diff % 2 = 0 then c.diff + 1 else c.diff - 1) else c.diff
        if d ≠ 0 then fireLow (fset inj.2 lgrChkStatImbalance sl 0 1) (pageOf .lgr sl 0) 0 else inj.2

end Sys2Proof.Machine
end

