-- ==== Sys2Proof/Machine/Twill.lean ====
section
/-!
DEFINITION. Twill (R276-R287), multicast residue (R298-R300), spill and prefetch (R301-R305), re-steering (R207, R265,
R306) and the mirror writer (R309, R310).
-/
namespace Sys2Proof.Machine

/-! ### Slots and transfers -/

/-- Slot number of this clock (R276): the counter starts at reset release. -/
def slotNow (s : State) : Nat := (s.clk - s.boot.relAt) % 8

/-- Die of a slice or a middle lane. -/
def dieOf (n : Nat) : Nat := n / 4

/-- A replay stalls cells from one die to the other (R283). -/
def stalled (s : State) (a b : Nat) : Bool := s.net.linkStall.isSome && dieOf a != dieOf b

/-- The end has already moved its cells of this clock; else it is marked. -/
def oncePerClk (s : State) (k : Nat) : Bool × State :=
  if storeFind s.net.xferAt k = some s.clk then (false, s)
  else (true, { s with net := { s.net with xferAt := storePut k s.clk s.net.xferAt } })

/-- Cells queued in a lane for an egress slice (TWL.OCC). -/
def laneOcc (s : State) (lane es : Nat) : Nat := (storeGet [] s.net.laneQ (lane * 8 + es)).length

/-- Bit e of the room bitmap a lane sent in the slot before (R279); a replay clears those whose cells would cross (R283). -/
def laneRoom (s : State) (sl lane es : Nat) : Bool := bit (s.net.room.getD lane 0) es && !stalled s sl lane

/-- The room bitmaps the lanes send at the end of a clock for the next (R279): room for four cells more. -/
def roomTick (s : State) : State :=
  if s.net.laneQ.isEmpty && s.net.room.all (· == 255) && (List.range 8).all (fun j => decide (4 ≤ fget s twlCfgCredit j 0)) then s
  else
    let map_ := fun (j : Nat) =>
      (List.range 8).foldl (fun a e => if laneOcc s j e + 4 ≤ fget s twlCfgCredit j 0 then a + 2 ^ e else a) 0
    { s with net := { s.net with room := (List.range 8).map map_ } }

/-- A cell in its lane's queue, which leaves in order of arrival (R279). -/
def laneInsert (l : List Tag) (t : Tag) : List Tag :=
  (l.filter fun u => decide (u.ready ≤ t.ready)) ++ t :: l.filter fun u => decide (t.ready < u.ready)

/-- A re-steered cell has left its slice (R296, R306). -/
def cellLeft (s : State) (t : Tag) : State :=
  match s.net.items.find? fun it => it.pkt == t.pkt && it.pass == t.pass && !it.mc with
  | some it => leaveOld s it (some t.idx)
  | none => s

/-- A counter of TWL OBJ 0x01: cells in, out, stall clocks of an egress slice. -/
def twlCount (s : State) (lane es c n : Nat) : State := bumpBy s .twl lane 0 1 es c n

/-- Up to `n` cells leave a stage-A queue for its lane, in order, as long as the front cell is in the queue and its
egress slice had room in the slot before. -/
def sendA : Nat → State → Nat → Nat → Nat → Nat × State
  | 0, s, _, _, _ => (0, s)
  | n + 1, s, sl, lane, kind =>
    let key := if kind = 0 then 8 else lane
    match (s.net.stageA.find? fun q => q.slice == sl && q.lane == key && q.kind == kind).bind (·.cells.head?) with
    | none => (n + 1, s)
    | some t =>
      if s.clk < t.ready ∨ laneRoom s sl lane t.es = false then (n + 1, s)
      else
        let s1 := { s with net := { s.net with stageA := s.net.stageA.map fun (q : StageA) =>
          if q.slice = sl ∧ q.lane = key ∧ q.kind = kind then { q with cells := q.cells.drop 1 } else q } }
        let at_ := s.clk + 1 + (if dieOf sl = dieOf lane then 0 else 6)
        let k := lane * 8 + t.es
        let s2 := { s1 with net := { s1.net with
          laneQ := storePut k (laneInsert (storeGet [] s1.net.laneQ k) { t with ready := at_ }) s1.net.laneQ } }
        let s3 := twlCount (bump s2 .gze sl 0 2 (if kind = 0 then 5 else if kind = 1 then 3 else 4) 0) lane t.es 0 1
        sendA n (if kind = 0 then cellLeft s3 t else s3) sl lane kind

/-- STAGE_A_TRANSFER (R276-R279): the connected lane takes up to four cells: re-steer (one), unicast, multicast. -/
def execStageATransfer (sl : Nat) (s : State) : Out :=
  run (sl < 8) s <|
    let o := oncePerClk s sl
    if running s = false ∨ o.1 = false then s
    else
      let lane := (sl + slotNow s) % 8
      let r := sendA 1 o.2 sl lane 0
      let u := sendA (3 + r.1) r.2 sl lane 1
      let m := sendA u.1 u.2 sl lane 2
      if stalled s sl lane then (List.range 8).foldl (fun a es =>
        if s.net.stageA.any fun q => q.slice == sl && (q.lane == lane || q.kind == 0) && q.cells.any (·.es == es)
        then twlCount a lane es 2 1 else a) m.2
      else m.2

/-- Up to `n` cells of a lane's queue go to an egress slice, in order of arrival. A cell whose memory is uncorrectable
fails its packet's items (R311). -/
def sendB : Nat → State → Nat → Nat → State
  | 0, s, _, _ => s
  | n + 1, s, lane, es =>
    let k := lane * 8 + es
    match (storeGet [] s.net.laneQ k).head? with
    | none => s
    | some t =>
      if s.clk < t.ready then s
      else
        let s1 := { s with net := { s.net with
          laneQ := storeSet [] k ((storeGet [] s.net.laneQ k).drop 1) s.net.laneQ } }
        let s2 := twlCount s1 lane es 1 1
        let e := eccCheck s2 (pageOf .twl lane 0) 0 1 id id
        let s3 := if e.1 then failWhere e.2 (fun it => it.pkt == t.pkt && it.es == es && it.pass == t.pass) 3
          else if dieOf lane = dieOf es then cellArrive e.2 t
          else { e.2 with net := { e.2.net with flight := e.2.net.flight ++ [{ t with ready := s.clk + 6 }] } }
        sendB n s3 lane es

/-- STAGE_B_TRANSFER (R277, R290). -/
def execStageBTransfer (lane : Nat) (s : State) : Out :=
  run (lane < 8) s <|
    let a := arrivals s
    let o := oncePerClk a (8 + lane)
    let es := (lane + slotNow s) % 8
    if running s = false then s
    else if o.1 = false ∨ stalled s lane es = true then a
    else sendB 4 o.2 lane es

/-! ### Flowlets (R285) -/

/-- The occupancies of this clock are added to the window's sums (R285). -/
def occTick (s : State) : State :=
  if s.net.stageA.all fun q => q.cells.isEmpty then s
  else
    let add := fun (m : Store Nat) (q : StageA) =>
      let k := 8 * q.slice + q.lane
      if q.kind = 1 then storeSet 0 k (storeGet 0 m k + stageACount s q.slice q.lane 1) m else m
    { s with net := { s.net with occSum := s.net.stageA.foldl add s.net.occSum } }

/-- IMBALANCE_WINDOW (R285): the window's average occupancies are compared: STAT.HOT, and the lane buckets move to. -/
def execImbalanceWindow (sl : Nat) (s : State) : Out :=
  run (sl < 8) s <|
    let from_ := storeGet 0 s.net.occAt sl
    if running s = false ∨ passedNs s from_ (fget s gzeImbCfgImbWinNs sl 0) = false then s
    else
      let w := s.clk - from_
      let sum := fun j => storeGet 0 s.net.occSum (8 * sl + j)
      let total := (List.range 8).foldl (fun a j => a + sum j) 0
      let isHot := fun j => decide (total + 8 * fget s gzeImbCfgImbThresh sl 0 * w < 8 * sum j)
      let s1 := fset s gzeStatHot sl 0 (((List.range 8).filter isHot).foldl (fun a j => a + 2 ^ j) 0)
      let cool := match coolest sum (fun j => !isContained s (.lane j)) with
        | some c => storePut sl c s1.net.cool
        | none => storeDel sl s1.net.cool
      { s1 with net := { s1.net with
          cool := cool
          occSum := (List.range 8).foldl (fun m j => storeDel (8 * sl + j) m) s1.net.occSum
          occAt := storePut sl s.clk s1.net.occAt } }

/-- The scan of a slice while a lane is hot (R285): the next bucket that names one, moved when it is idle. -/
def scanSlice (s : State) (sl : Nat) : State :=
  let hot := fget s gzeStatHot sl 0
  match storeFind s.net.cool sl with
  | none => s
  | some c =>
    if hot = 0 ∨ fget s gzeImbCfgBalEn sl 0 = 0 then s
    else
      let entry := fun (b : Nat) => storeGet (b % 8, 0) s.net.flowlet (bucketKey sl b)
      let from_ := storeGet 0 s.net.scan sl
      match ((List.range 4096).map fun k => (from_ + k) % 4096).find? fun b => bit hot (entry b).1 with
      | none => s
      | some b =>
        let k := bucketKey sl b
        let edge := (admNow s + 2 ^ 48 - fget s gzeFlowletFlowletNs sl 0 * 65536 % 2 ^ 48) % 2 ^ 48
        let s1 := { s with net := { s.net with scan := storePut sl ((b + 1) % 4096) s.net.scan } }
        if later edge (entry b).2 then
          { s1 with net := { s1.net with
            flowlet := storePut k (c, (entry b).2) s1.net.flowlet, moved := storePut k ((entry b).1, s1.clk) s1.net.moved } }
        else s1

/-- Flowlets at a core clock (R285, R286): the moves of the last clock stand and are counted, and each slice scans one bucket. -/
def flowTick (s : State) : State :=
  let s1 := s.net.moved.foldl (fun a m => bump a .gze (m.1 / 4096) 0 2 0 0) s
  let s2 := if s1.net.moved.isEmpty then s1 else { s1 with net := { s1.net with moved := [] } }
  if running s2 && !s2.net.cool.isEmpty then (List.range 8).foldl scanSlice s2 else s2

/-! ### Multicast (R298-R300) -/

/-- REPLICATION_PASS (R298): every cell holds only the engine's reference, so the next pass starts. -/
def execReplicationPass (id es : Nat) (s : State) : Out :=
  run (es < 8) s <| match chainOf s id es 0 with
    | none => s
    | some c =>
      if c.engine = false ∨ (c.cells.any fun x => x.ref != 1) = true then s
      else if c.later.isEmpty then dropRefs s id es 0 0 c.cells.length
      else
        let last := decide (c.later.length ≤ 255)
        let now := if last then c.later else c.later.take 254
        let ref := if last then now.length else 255
        let s1 := putChain s { c with
          cells := c.cells.map fun x => { x with ref := ref }
          later := c.later.drop now.length, engine := !last }
        enqueueCopies (bump s1 .bpm es 1 3 3 0) id es

/-- RESIDUE_REEXAMINE (R299). -/
def execResidueReexamine (es : Nat) (s : State) : Out :=
  run (es < 8) s (if running s then residueAgain s es else s)

/-- MULTICAST_RESIDUE_EXPIRED (R300): at or after the deadline; a port ready at that clock takes the copy instead. -/
def execMulticastResidueExpired (it : Nat) (s : State) : Out :=
  run true s <| match itemOf s it with
    | none => s
    | some x =>
      if x.place ≠ .residue ∨ later x.dl (admOf (tbNow s)) = true ∨ running s = false then s
      else
        let s1 := enqueueCopies s x.pkt x.es
        match itemOf s1 it with
        | none => s1
        | some y => if y.place = .residue then fail (bump s1 .bpm x.es 1 3 2 0) y 4 else s1

/-! ### Spill and prefetch -/

/-- STAGING_FLUSH (R301): a staging block whose first cell came FLUSH_NS ago is written in part. -/
def execStagingFlush (p cls : Nat) (s : State) : Out :=
  run (p < 384 && cls < 8) s <|
    let q := queue s p cls
    match q.staging.find? fun b => passedNs s b.2 (fget s bpmSpillCfgFlushNs (sliceOf p) 0) with
    | none => s
    | some b => writeBlock s p cls b.1 (q.stream.filter fun c => c.pos / 8 == b.1 && c.st == .staged)

/-- Items with a cell in a stream block at given positions. -/
def blockItems (q : QueueSt) (blk : Nat) (sel : SpillPos → Bool) : List Nat :=
  ((q.stream.filter fun c => c.pos / 8 == blk && sel c.st).map (·.item)).eraseDups

/-- A spill write ends (R305): an error response fails each packet with a cell in the block. -/
def spillEnd (s : State) (r : BReq) (code : Nat) : State :=
  if code < 2 then s
  else
    let bad := blockItems (queue s (r.tag.getD 0 0) (r.tag.getD 1 0)) (r.tag.getD 2 0) fun st => st == .burlap || st == .reading
    failWhere s (fun it => bad.contains it.id) 3

/-- Cells of a queue's stream read or being read into the prefetch pool. -/
def pooled (q : QueueSt) : Nat := (q.stream.filter fun c => c.st == .reading || c.st == .gauze).length

/-- Prefetch pool cells in use in a slice. -/
def poolUsed (s : State) (es : Nat) : Nat :=
  (s.net.queues.filter fun e => e.1 / 432 == es).foldl (fun a e => a + pooled e.2) 0

/-- The next block of a queue to read: the first cell of its stream not yet read lies there, written (R303). -/
def nextBlock (q : QueueSt) : Option Nat :=
  match q.stream.find? fun c => c.st != .reading && c.st != .gauze with
  | some c => if c.st = .burlap then some (c.pos / 8) else none
  | none => none

/-- A queue wants a block read: fewer than PREFETCH_CELLS cells of its head are there, or not the whole packet at its head. -/
def wantsBlock (s : State) (es : Nat) (q : QueueSt) : Bool :=
  decide (pooled q < fget s bpmSpillCfgPrefetchCells es 0)
    || q.stream.any fun c => q.fifo.head? == some c.item && c.st != .reading && c.st != .gauze

/-- PREFETCH_READ_ISSUE (R303): one block per core clock, queues in ascending index: a read for each piece of it. -/
def execPrefetchReadIssue (es : Nat) (s : State) : Out :=
  run (es < 8) s <|
    let o := oncePerClk s (16 + es)
    if running s = false ∨ o.1 = false ∨ fget s bpmPfPoolCells es 0 < poolUsed s es + 8 then s
    else
      match s.net.queues.find? fun e => e.1 / 432 == es && e.1 % 9 != 8 && wantsBlock s es e.2 && (nextBlock e.2).isSome with
      | none => s
      | some e =>
        let port := e.1 / 9
        let cls := e.1 % 9
        let blk := (nextBlock e.2).getD 0
        let base := ((e.2.blks.find? fun b => b.1 == blk).elim 0 (·.2)) * 2048
        let mine := e.2.stream.filter fun c => c.pos / 8 == blk && c.st == .burlap
        let n := pieceLen s / 256
        let stream := e.2.stream.map fun (c : SpillCell) => if mine.contains c then { c with st := .reading } else c
        let s1 := putQueue o.2 port cls { e.2 with stream := stream }
        (List.range (8 / n)).foldl (fun a k =>
          enqueue a (newReq a 1 (base + k * pieceLen s) (pieceLen s) false []
            ([port, cls, blk] ++ (mine.filter fun c => c.pos % 8 / n == k).map fun c => c.pos % 8))) s1

/-- The bytes of a prefetched cell are those of its packet. -/
def takeCell (s : State) (c : SpillCell) (bytes : List Byte) : State :=
  match (itemOf s c.item).bind fun it => pktOf s it.pkt with
  | none => s
  | some p => putPkt s { p with data := patch p.data (256 * c.idx) bytes }

/-- The word cannot be read. -/
def unreadable : Decoded → Bool
  | .bad _ => true
  | .poison => true
  | _ => false

/-- A prefetch read ends (R304, R305, R328): the cells that could be read are in Gauze, the packets of the others fail; a success for
a packet that has ended is late. A queue whose last Burlap cell has come leaves spill state. The packets of a contained channel are
left to its containment (R337). -/
def prefetchEnd (s : State) (r : BReq) (code : Nat) (l : List (Nat × Decoded)) : State :=
  let port := r.tag.getD 0 0
  let cls := r.tag.getD 1 0
  let blk := r.tag.getD 2 0
  let asked := r.tag.drop 3
  let own := fun (c : SpillCell) => c.pos / 8 == blk && c.st == .reading && asked.contains (c.pos % 8)
  let mine := (queue s port cls).stream.filter own
  let s0 := if code < 2 ∧ mine.length < asked.length then hchCount s r.chan 6 else s
  if code = 4 ∨ mine.isEmpty = true then s0
  else
    let words := fun (c : SpillCell) => l.filter fun e => e.1 / 256 == r.addr / 2048 * 8 + c.pos % 8
    let bad := fun (c : SpillCell) => code == 5 || (words c).any fun e => unreadable e.2
    let s1 := mine.foldl (fun a c => if bad c then a else takeCell a c (spanBytes (words c) 0 256)) s0
    let gone := (mine.filter bad).map (·.item)
    let s2 := failWhere s1 (fun it => gone.contains it.id) 3
    let q := queue s2 port cls
    let stream := q.stream.map fun c => if own c then { c with st := .gauze } else c
    let s3 := putQueue s2 port cls { q with stream := stream, spill := q.spill && stream.any fun c => c.st != .gauze }
    if stream.any (fun c => c.pos / 8 == blk && c.st == .reading) then s3 else bump s3 .bpm (sliceOf port) 1 3 8 0

/-! ### Re-steering (R207, R265, R306) -/

/-- Every cell of an item is in Gauze or in the prefetch pool, its tail's among them. -/
def cellsIn (s : State) (it : Item) : Bool :=
  (pktOf s it.pkt).elim false (·.tail) &&
    if it.brl then
      let mine := (queue s it.port it.cls).stream.filter fun c => c.item == it.id
      mine.all fun c => c.st == .gauze
    else (chainOf s it.pkt it.es it.pass).elim false fun c => c.cells.all (·.here)

/-- The backup a packet moves to: next hop, port, vft, growth, template; none where it fails (R207, R265). -/
def resteerTo (s : State) (it : Item) : Option (Nat × Nat × Nat × Nat × Nat) :=
  match pktOf s it.pkt with
  | none => none
  | some p =>
    let k := it.es / 2
    if it.mc ∨ later (admNow s) it.dl = true ∨ fgetP s p.ep nhpProtCfgResteerEn k 0 = 0 then none
    else match backupOf s p.ep k it.nh with
      | none => none
      | some b =>
        let w := nhW s p.ep k b 0
        let port := nhPort w
        let es := sliceOf port
        let tmpl := p.res.edit.getD (nhTmpl w)
        let g := growthOf s p.ep it.es tmpl
        let q := queue s port it.cls
        let bits := admBits it.len g (admQ s p.ep port it.cls 1 % 256)
        let v := vftOf s port it.cls (tbOn s p.ep port it.cls (cdiv (64 * it.cells) 100)) bits
        if q.spill ∨ q.lost ∨ queueOn s port it.cls = false ∨ q.rate = 0
            ∨ ownerFits s es (8 * (port % 48) + it.cls) it.cells = false ∨ 131072 ≤ descOn s es ∨ later v it.dl = true
        then none else some (b, port, v, g, tmpl)

/-- Move a packet to its backup queue (R265, R306): a descriptor and a chain there, the cells in the re-steer queue of the slice that
holds them, also where both are one slice (log entry 16). -/
def moveItem (s : State) (it : Item) (b port v g tmpl : Nat) : State :=
  let es := sliceOf port
  let own := 8 * (port % 48) + it.cls
  let d := takeDesc s es false
  let s2 := idleIfEmpty (putItem (offList d.2 it) { it with
    es := es, port := port, desc := d.1, pass := it.pass + 1, nh := b, tmpl := tmpl, growth := g, vft := v, resteered := true
    brl := false, cut := false, place := .resteer }) it.port it.cls
  let s3 := putQueue s2 port it.cls { queue s2 port it.cls with v := v, idle := false }
  let s4 := bump s3 .nhp (it.port / 96) 0 5 (8 * (it.port % 96) + 4) 0
  let s5 := allocChain s4 it.pkt es (it.pass + 1) own it.cells 1 [] false
  let s6 := pushCells s5 it.es 8 0 (tagsFor it.pkt es (it.pass + 1) 0 it.cells s.clk)
  { s6 with net := { s6.net with resteerSent := s6.net.resteerSent ++ [⟨it.id, it.es, es, it.pass + 1, s6.clk⟩] } }

/-- The re-steer engine of a slice (R207) takes the oldest packet queued for a port of the slice in link loss. One that may move waits
for its cells, and the younger ones wait behind it. -/
def resteerSlice (s : State) (sl : Nat) : State :=
    let o := oncePerClk s (24 + sl)
    if running s = false ∨ o.1 = false then s
    else match s.net.items.find? fun it => it.es == sl && it.place == .queued && (portSt s it.port).loss with
      | none => s
      | some it => match resteerTo o.2 it with
        | none => fail o.2 it 1
        | some (b, port, v, g, tmpl) => if cellsIn s it then moveItem o.2 it b port v g tmpl else s

/-- RESTEER_JOIN (R306): a re-steered packet whose cells have all come joins its queue, unless an earlier one of the same source slice
has not. -/
def execResteerJoin (sl : Nat) (s : State) : Out :=
  run (sl < 8) s <|
    let live := s.net.resteerSent.filter fun t => (itemOf s t.pkt).any fun it => it.place == .resteer
    let first := fun (t : Tag) => (live.find? fun u => u.idx == t.idx) == some t
    match live.find? fun t => t.es == sl && first t && (itemOf s t.pkt).any (cellsIn s) with
    | none => s
    | some t => match itemOf s t.pkt with
      | none => s
      | some it => joinQueue { s with net := { s.net with resteerSent := live.erase t } } it

/-! ### Mirror rings (R309, R310) -/

/-- A counter of the mirror writer on GZE[S0]. -/
def mirCount (s : State) (c : Nat) : State := bump s .gze 0 1 1 c 0

/-- MIRROR_RECORD_WRITE (R309, R310): the writer takes the oldest record of its queue. -/
def execMirrorRecordWrite (s : State) : Out :=
  run true s <| match s.net.mirq with
    | [] => s
    | m :: rest =>
      let s1 := { s with net := { s.net with mirq := rest } }
      let r := m.ring
      let size := 2 ^ fget s gzeMirCtlSizeLog2 0 r
      let head := fget s gzeMirHeadHead 0 r
      let base := fget s gzeMirBaseHiAddr 0 r * 2 ^ 32 + fget s gzeMirBaseLoAddr 0 r * 256
      let at_ := addr36 s (base + 160 * head)
      if fget s gzeMirCtlEn 0 r = 0 then mirCount s1 4
      else if ringFull head (fget s gzeMirTailTail 0 r) size then mirCount s1 5
      else if fget s brlEffMirrorGbs 0 0 = 0 then mirCount s1 6
      else
        let w := burlapWrite s1 3 at_ m.bytes
        if 4 ≤ w.1 then mirCount w.2 6
        else
          let nh := (head + 1) % size
          let s2 := fset w.2 gzeMirHeadHead 0 r nh
          if ringNotify nh (fget s gzeMirCtlNotifyLog2 0 r) then pulse s2 (48 + r) else s2

end Sys2Proof.Machine
end

