-- ==== Sys2Proof/Machine/Burlap.lean ====
section
/-!
DEFINITION. Burlap's channels as their controllers run them: requests, order, column commands, responses, retries, refresh and scrub
(R317-R330), temperature and states (R336-R338), training (R339, R340).
-/
namespace Sys2Proof.Machine

/-! ### Order (R323) -/

/-- Channel-local address of a request. -/
def reqCa (s : State) (r : BReq) : Nat := (burlapAt s r.addr).2

/-- Two requests touch an atom in common; in the descriptor store two slots N apart share one (R320). -/
def sameAtom (s : State) (a b : BReq) : Bool :=
  let l := atomsOf s b.addr (reqLen b)
  (atomsOf s a.addr (reqLen a)).any l.contains

/-- Requests of a pseudo-channel whose column command is pending, in their order of arrival. -/
def waiting (s : State) (i pc : Nat) : List BReq := (outstanding s i pc).filter fun r => !r.issued

/-- The requests of a list before one of them. -/
def olderIn (l : List BReq) (r : BReq) : List BReq := l.takeWhile fun x => x.id != r.id

/-- The pseudo-channel is in in-order mode (R323): a pending read that arrived on an earlier clock matches the bank and row of an older
pending write. -/
def inOrder (s : State) (i pc : Nat) : Bool :=
  let l := waiting s i pc
  l.any fun r => !r.write && decide (r.since < s.clk) && (olderIn l r).any fun w => w.write
    && bankOf (reqCa s w) == bankOf (reqCa s r) && rowNo (reqCa s w) == rowNo (reqCa s r)

/-! ### Acceptance (R322) -/

/-- Class of a requester: overflow (spill, prefetch, descriptors), mirror, Holtarun (with DMA), counters, and those without a share. -/
def reqClass (who : Nat) : Nat :=
  match who with
  | 0 => 0 | 1 => 0 | 2 => 0
  | 3 => 1
  | 4 => 2 | 6 => 2
  | 5 => 3
  | _ => 4

/-- Weight of a class: its effective share (R322). -/
def classWeight (s : State) (c : Nat) : Nat :=
  match c with
  | 0 => (List.range 4).foldl (fun a k => a + fget s brlEffOvfGbs 0 k) 0
  | 1 => fget s brlEffMirrorGbs 0 0
  | 2 => fget s brlEffHolGbs 0 0
  | 3 => fget s brlEffCntGbs 0 0
  | _ => 0

/-- The class served next among those that wait, by weighted round robin, and the turns after it; a class that does not wait lends
its weight (R322, log entry 122). -/
def nextClass (s : State) (key : Nat) (classes : List Nat) : Option Nat × Store Int :=
  let total := classes.foldl (fun a c => a + classWeight s c) 0
  let add := fun (m : Store Int) (c : Nat) => storeSet (0 : Int) (key * 8 + c) (storeGet (0 : Int) m (key * 8 + c) + (classWeight s c : Int)) m
  let up : Store Int := classes.foldl add s.hbm.credit
  let best := classes.foldl (fun (a : Option Nat) c =>
    match a with
    | none => some c
    | some b => if storeGet (0 : Int) up (key * 8 + b) < storeGet (0 : Int) up (key * 8 + c) then some c else some b) none
  (best, best.elim up fun c => storeSet (0 : Int) (key * 8 + c) (storeGet (0 : Int) up (key * 8 + c) - (total : Int)) up)

/-- One waiting request of a pseudo-channel is accepted, if it has room: the oldest of the class whose turn it is. -/
def acceptOne (s : State) (i pc : Nat) : State :=
  let held := s.hbm.reqs.filter fun r => r.chan == i && r.pc == pc && r.held
  if 64 ≤ (outstanding s i pc).length then s
  else
    let n := nextClass s (i * 2 + pc) ((List.range 5).filter fun c => held.any fun r => reqClass r.who == c)
    match n.1.bind fun c => held.find? fun r => reqClass r.who == c with
    | none => s
    | some r =>
      let r1 := { r with held := false, since := s.clk }
      accepted { s with hbm := { s.hbm with
        reqs := (s.hbm.reqs.filter fun x => x.id != r.id) ++ [r1], credit := n.2 } } r1

/-- A pseudo-channel at a core clock: it accepts what it has room for, and counts the clock if a requester still stalls (R322). -/
def acceptHeld (s : State) (i pc : Nat) : State :=
  let s1 := (List.range 64).foldl (fun a _ => acceptOne a i pc) s
  if s1.hbm.reqs.any fun r => r.chan == i && r.pc == pc && r.held then hchCount s1 i 12 else s1

/-- Pseudo-channels (channel, number) of the requests that a test picks. -/
def pcsOf (s : State) (pick : BReq → Bool) : List (Nat × Nat) :=
  ((s.hbm.reqs.filter pick).map fun r => (r.chan, r.pc)).eraseDups

/-- Burlap's requests at a core clock: acceptance and stalls (R322), and the entries into in-order mode (R323). -/
def burlapTick (s : State) : State :=
  if s.hbm.reqs.isEmpty && s.hbm.inord.isEmpty then s
  else
    let s1 := (pcsOf s (·.held)).foldl (fun a e => acceptHeld a e.1 e.2) s
    let now := ((pcsOf s1 fun r => !r.issued && !r.held).filter fun e => inOrder s1 e.1 e.2).map fun e => e.1 * 2 + e.2
    let s2 := now.foldl (fun a k => if s1.hbm.inord.contains k then a else hchCount a (k / 2) 11) s1
    { s2 with hbm := { s2.hbm with inord := now } }

/-! ### The end of a request (R321, R327) -/

/-- The response leaves towards the requester (log entry 7): the pins show the code. -/
def respond (s : State) (who i id code : Nat) : State := emit s (.hbm i (8 + code) (id * 16 + who))

/-- Both copies of a descriptor have failed (R321): the packet's blocks are freed, the loss is counted, BRL source 3 fires. -/
def descLost (s : State) (gd : Nat) : State :=
  let s1 := fireLow (brlCount s 2) (pageOf .brl 0 0) 3
  match s1.net.items.find? fun it => it.brl && descGd it == gd with
  | none => s1
  | some it =>
    let s2 := unqueue s1 it
    { s2 with net := { s2.net with items := s2.net.items.filter fun x => x.id != it.id } }

/-- A descriptor read that failed (R321): copy 1 is read and the fallback counted, or the descriptor is lost. -/
def descFailed (s : State) (r : BReq) : State :=
  let k := (r.addr - gsOf s) / 32
  if running s = false then s
  else if k < 8 * 16777216 ∧ r.tag = [] then
    let q := newReq s 2 (descAddr s k 1) r.len false [] [k]
    let s1 := brlCount s 3
    if 4 ≤ q.code then descLost (respond s1 2 q.chan q.id q.code) k else enqueue s1 q
  else descLost s (r.tag.getD 0 k)

/-- A request ends with a response code and, of a read, the words it found. -/
def finish (s : State) (r : BReq) (code : Nat) (l : List (Nat × Decoded)) : State :=
  let s1 := respond (delReq s r.id) r.who r.chan r.id code
  if r.who = 0 ∧ r.tag ≠ [] then spillEnd s1 r code
  else if r.who = 1 ∧ r.tag ≠ [] then prefetchEnd s1 r code l
  else if r.who = 2 ∧ r.write = false ∧ 2 ≤ code then descFailed s1 r
  else s1

/-- BURLAP_REQUEST (R317, R322, R337): answered ERR_REGION or ERR_CONTAINED, taken, or waiting at 64 outstanding. -/
def execBurlapRequest (who addr len : Nat) (data : List Byte) (s : State) : Out :=
  run (who < 9) s <|
    let write := !data.isEmpty
    let n := if write then data.length else len
    if running s = false ∨ n = 0 then s
    else
      let r := newReq s who addr n write data []
      let s1 := enqueue s r
      if 4 ≤ r.code then finish s1 r r.code [] else s1

/-! ### Column commands (R323, R324, R329) -/

/-- A write takes effect at its column commands: a spill write at the positions of its tag, any other at its address. -/
def writeColumn (s : State) (r : BReq) : Nat × State :=
  if r.who = 0 ∧ 3 < r.tag.length then
    (((List.range r.data.length).map (256 * ·)).zip (r.tag.drop 3)).foldl (fun (a : Nat × State) e =>
      let w := burlapPut a.2 0 (r.addr / 2048 * 2048 + 256 * e.2) (slice r.data e.1 256)
      (max a.1 w.1, w.2)) (0, s)
  else burlapPut s r.who r.addr r.data

/-- Stored words that [a, a + n) touches. -/
def storedWords (s : State) (a n : Nat) : List Nat :=
  (List.range ((a + n + 7) / 8 - a / 8)).map fun k => hbmWord s (8 * (a / 8 + k))

/-- BURLAP_COMMAND_ISSUE (R323): the oldest ready request, preferring an open row outside in-order mode; none ahead of an
older one to the same atom. A read takes the words as they are now. -/
def execBurlapCommandIssue (i pc : Nat) (s : State) : Out :=
  run (i < 192 && pc < 2) s <|
    let l := waiting s i pc
    let ready := l.filter fun r => !((olderIn l r).any (sameAtom s r))
    let openRow := fun (r : BReq) => storeFind s.hbm.rows (bankKey i pc (bankOf (reqCa s r))) == some (rowNo (reqCa s r))
    let pick := if inOrder s i pc then l.head? else (ready.find? openRow).or ready.head?
    let live := fun (r : BReq) => chanThere s i && chanTakes s r.who i
    match pick with
    | none => s
    | some r =>
      if running s = false ∨ live r = false then s
      else if r.write && !r.data.isEmpty then
        let w := writeColumn s r
        putReq w.2 { r with issued := true, code := w.1 }
      else
        let s1 := (atomsOf s r.addr r.len).foldl (fun a e => column a false e) s
        putReq s1 { r with issued := true, got := storedWords s r.addr r.len }

/-! ### Responses (R326-R328) -/

/-- Words as read, with the bits the wires showed in error, decoded. -/
def decodeGot (r : BReq) (errs : List (Nat × Nat)) : List (Nat × Decoded) :=
  ((List.range r.got.length).zip r.got).map fun e =>
    (8 * (r.addr / 8 + e.1), decodeWord (errs.foldl (fun m x => if x.1 = e.1 then Nat.xor m (x.2 % 2 ^ 72) else m) e.2))

/-- A prefetch read still has a packet that waits for it. -/
def wanted (s : State) (r : BReq) : Bool :=
  r.who != 1 || r.tag.isEmpty
    || (queue s (r.tag.getD 0 0) (r.tag.getD 1 0)).stream.any fun c =>
      c.pos / 8 == r.tag.getD 2 0 && c.st == .reading && (r.tag.drop 3).contains (c.pos % 8)

/-- A read has come back (R326-R328). `again`: it was a retry. -/
def readBack (s : State) (r : BReq) (errs : List (Nat × Nat)) (again : Bool) : State :=
  let page := pageOf .hch r.chan 0
  let e := eccCheck s page 0 1 (fun a => hchCount a r.chan 2) id
  let l0 := decodeGot r errs
  let l := if e.1 then (8 * (r.addr / 8), Decoded.bad 0xFF) :: l0.drop 1 else l0
  match spanEnd l with
  | .ok c =>
    let s1 := if c then fire (hchCount e.2 r.chan 2) page 0 else e.2
    finish (if again then hchCount s1 r.chan 5 else s1) r 0 l
  | .poison a => finish (poisonRead e.2 r.chan r.who a) r 3 l
  | .ue a syn =>
    if r.tries < fget s brlRetryRetryMax 0 0 ∧ e.1 = false ∧ wanted s r = true then putReq e.2 { r with late := true, since := s.clk }
    else finish (ueRead e.2 r.chan r.who a syn e.1) r 2 l

/-- The stack reported a command/address parity error (R328): the command is issued again under the retry count; when that has run
out the request ends as an uncorrectable read does (log entry 123). -/
def parityError (s : State) (r : BReq) : State :=
  let s1 := hchCount s r.chan 17
  if r.tries < fget s brlRetryRetryMax 0 0 ∧ wanted s r = true then putReq s1 { r with issued := false, tries := r.tries + 1 }
  else finish (ueRead s1 r.chan r.who r.addr 0 false) r 2 (decodeGot r [(0, 3)])

/-- A request whose column command has issued gets its response (R327). -/
def respondTo (s : State) (r : BReq) (back : ReadBits) : State :=
  if r.late = true ∨ r.held = true ∨ r.issued = false then s
  else if 4 ≤ r.code then finish s r r.code []
  else if back.parity then parityError s r
  else if r.write then finish s r r.code []
  else readBack s r back.errs false

/-- The request of the spill writer or the prefetcher: it ends in a command of its own. -/
def inner (r : BReq) : Bool := decide (r.who < 2) && !r.tag.isEmpty

/-- BURLAP_RESPONSE (R327). Requests of the spill writer and the prefetcher end in their own commands. -/
def execBurlapResponse (id : Nat) (back : ReadBits) (s : State) : Out :=
  run true s <| match s.hbm.reqs.find? fun r => r.id == id && !inner r with
    | none => s
    | some r => if running s then respondTo s r back else s

/-- SPILL_WRITE_RESPONSE (R305): an error response fails each packet with a cell in the block. -/
def execSpillWriteResponse (id : Nat) (parity : Bool) (s : State) : Out :=
  run true s <| match s.hbm.reqs.find? fun r => r.id == id && inner r && r.who == 0 with
    | none => s
    | some r => if running s then respondTo s r ⟨[], parity⟩ else s

/-- PREFETCH_RETURN (R304, R305): a prefetch read comes back. -/
def execPrefetchReturn (id : Nat) (back : ReadBits) (s : State) : Out :=
  run true s <| match s.hbm.reqs.find? fun r => r.id == id && inner r && r.who == 1 with
    | none => s
    | some r => if running s then respondTo s r back else s

/-- READ_RETRY (R328): a re-read RETRY_NS after the last read. -/
def execReadRetry (id : Nat) (errs : List (Nat × Nat)) (s : State) : Out :=
  run true s <| match s.hbm.reqs.find? fun r => r.id == id && r.late with
    | none => s
    | some r =>
      if running s && passedNs s r.since (fget s brlRetryRetryNs 0 0) then
        let s1 := (atomsOf s r.addr r.len).foldl (fun a e => column a false e) (hchCount s r.chan 4)
        let r1 := { r with tries := r.tries + 1, late := false, got := storedWords s r.addr r.len }
        readBack (putReq s1 r1) r1 errs true
      else s

/-- A read of the packet's cells ends at this clock. -/
def endsNow (s : State) (x : Item) (c : Instr) : Bool :=
  match c with
  | .prefetchReturn id _ => s.hbm.reqs.any fun r => r.id == id && inner r && !r.late && r.issued
      && (queue s x.port x.cls).stream.any fun k => k.item == x.id && k.st == .reading
        && r.tag.take 3 == [x.port, x.cls, k.pos / 8] && (r.tag.drop 3).contains (k.pos % 8)
  | _ => false

/-- EXTERNAL_READ_TIMEOUT (R47, R305, R328): a read has not returned by the packet's deadline, on which clock a return still wins
(R45). Its retries are cancelled. -/
def execExternalReadTimeout (it : Nat) (s : State) : Out :=
  run true s <| match itemOf s it with
  | none => s
  | some x =>
    let reading := (queue s x.port x.cls).stream.any fun c => c.item == it && c.st == .reading
    if reading && !later x.dl (admOf (tbNow s)) && running s && !s.pending.any (endsNow s x) then
      let s1 := fail s x 9
      { s1 with hbm := { s1.hbm with reqs := s1.hbm.reqs.filter fun r => !(r.late && !wanted s1 r) } }
    else s

/-! ### Containment (R337) -/

/-- The core clock after the containment of a channel began: it enters CONTAINING, its requests end with ERR_CONTAINED, those that
wait for a retry too, and the shares are derived again. -/
def chanStops (s : State) (i : Nat) : State :=
  if chanState s i = 0 ∨ chanState s i = 6 then s
  else
    let s1 := deriveShares (fset s hchChStatState i 0 5)
    ((s1.hbm.reqs.filter fun r => r.chan == i).map (·.id)).foldl (fun a id =>
      match a.hbm.reqs.find? fun r => r.id == id with
      | none => a
      | some r => finish a r 4 []) s1

/-! ### Refresh and scrub (R324, R325) -/

/-- REFPB (R324): a per-bank refresh closes its bank. An all-bank one closes every bank of the pseudo-channel; it is taken only where
per-bank refresh has missed its interval. -/
def execRefpb (i pc bank : Nat) (all : Bool) (s : State) : Out :=
  run (i < 192 && pc < 2 && bank < 48) s <|
    let missed := passedNs s (storeGet 0 s.hbm.refAt (i * 2 + pc)) (Config.refInterval (fget s hchChStatTemp i 0) + 1)
    if chanThere s i && running s && (!all || missed) then
      let hit := fun (k : Nat) => if all then k / 48 == i * 2 + pc else k == bankKey i pc bank
      let s1 := { s with hbm := { s.hbm with rows := s.hbm.rows.filter fun e => !hit e.1
                                             refAt := storePut (i * 2 + pc) s.clk s.hbm.refAt } }
      hchCount (emit s1 (.hbm i (if all then 3 else 2) (bank + 48 * pc))) i (if all then 14 else 13)
    else s

/-- Words of an atom of a channel: their keys. -/
def atomKeys (s : State) (i atom : Nat) : List Nat := (List.range 8).map fun w => wordKey (chanIdx s i) (64 * atom + 8 * w)

/-- SCRUB_READ (R325): the first reads the atom; where a word needed correction, the next writes it back, unless a write
to the atom was accepted between. -/
def execScrubRead (i atom : Nat) (s : State) : Out :=
  run (i < 192 && atom < 12582912) s <|
    let st := chanState s i
    if running s = false ∨ chanThere s i = false ∨ st = 5 ∨ st = 6 then s
    else
      let f := okraFetch s (4 + i / 32)
      if f.1 = false then f.2
      else
        let s1 := column f.2 false (chanIdx s i, atom)
        let key := i * 2 ^ 24 + atom
        let keys := atomKeys s1 i atom
        let word := fun k => storeGet 0 s1.hbm.mem k
        match s1.hbm.scrub.find? fun e => e.1 == key with
        | some e =>
          let s2 := { s1 with hbm := { s1.hbm with scrub := s1.hbm.scrub.filter fun x => x.1 != key } }
          if e.2 then brlCount s2 4
          else keys.foldl (fun a k => match decodeWord (word k) with
            | .fixed d => hchCount { a with hbm := { a.hbm with mem := storeSet 0 k (fresh d) a.hbm.mem } } i 16
            | _ => a) s2
        | none =>
          let bads := (keys.zip (List.range 8)).filterMap fun e => match decodeWord (word e.1) with
            | .bad syn => some (e.2, syn)
            | .poison => some (e.2, 3)
            | _ => none
          let fix := keys.any fun k => match decodeWord (word k) with | .fixed _ => true | _ => false
          let s2 := bads.foldl (fun a b => logErr a i 4 7 (burlapFrom a (chanIdx a i) (64 * atom + 8 * b.1)) b.2) s1
          let s3 := if fix then fire (hchCount s2 i 2) (pageOf .hch i 0) 0 else s2
          if fix then { s3 with hbm := { s3.hbm with scrub := s3.hbm.scrub ++ [(key, false)] } } else s3

/-! ### States (R336-R338) -/

/-- Containment of a channel begins by software (R337). -/
def containChan (s : State) (i : Nat) : State := if chanThere s i then beginContain s (.chan i) else s

/-- CH_CTL.IN_SERVICE written 1 while TRAINING (R336). -/
def inService (s : State) (i : Nat) : State :=
  if chanState s i = 2 then deriveShares (fset s hchChStatState i 0 3) else s

/-- TEMPERATURE_REPORT (R338). -/
def execTemperatureReport (stack temp : Nat) (s : State) : Out :=
  run (stack < 6 && temp < 256) s <|
    if stackOff s stack then s
    else
      let hi := fget s brlThermThrHi 0 0
      let lo := fget s brlThermThrLo 0 0
      let r := (List.range 32).foldl (fun (a : Bool × State) n =>
        let i := 32 * stack + n
        let a1 := fset a.2 hchChStatTemp i 0 temp
        if chanState a1 i = 3 ∧ hi ≤ temp then (true, fire (fset a1 hchChStatState i 0 4) (pageOf .hch i 0) 5)
        else if chanState a1 i = 4 ∧ temp ≤ lo then (true, fire (fset a1 hchChStatState i 0 3) (pageOf .hch i 0) 5)
        else (a.1, a1)) (false, s)
      if r.1 then deriveShares r.2 else r.2

/-! ### Training (R339, R340) -/

/-- A write of TRN_CTL.GO = 1: the first leaves RESET; a run begins unless the channel is in service without PERIODIC. -/
def trainGo (s : State) (i : Nat) : State :=
  let st := chanState s i
  let s1 := if st = 1 then fset s hchChStatState i 0 2 else s
  let may := st == 1 || st == 2 || ((st == 3 || st == 4) && fget s hchTrnCtlPeriodic i 0 == 1)
  if may && fget s hchTrnStatBusy i 0 == 0 then
    let s2 := fset (fset (fset s1 hchTrnStatDone i 0 0) hchTrnStatTimeout i 0 0) hchTrnStatBusy i 0 1
    { s2 with hbm := { s2.hbm with train := storePut i s.clk s2.hbm.train } }
  else s1

/-- TRAINING_RUN_DONE (R339): the run's errors of each bit are added. -/
def execTrainingRunDone (i : Nat) (errs : List Nat) (s : State) : Out :=
  run (i < 192) s <|
    if fget s hchTrnStatBusy i 0 = 1 then
      let pc := fget s hchTrnCtlPc i 0
      let s1 := ((List.range 36).zip errs).foldl (fun a e => bumpBy a .hch i 2 0x13 (36 * pc + e.1) 0 e.2) s
      fset (fset { s1 with hbm := { s1.hbm with train := storeDel i s1.hbm.train } } hchTrnStatBusy i 0 0) hchTrnStatDone i 0 1
    else s

/-- TRAINING_TIMEOUT (R339): TRN_TMO_US after the start; a result on the same edge wins (R45). -/
def execTrainingTimeout (i : Nat) (s : State) : Out :=
  run (i < 192) s <| match storeFind s.hbm.train i with
    | none => s
    | some t =>
      let done := s.pending.any fun c => match c with | .trainingRunDone k _ => k == i | _ => false
      if passedNs s t (fget s hchTrnTmoUsUs i 0 * 1000) && !done then
        fire (fset (fset { s with hbm := { s.hbm with train := storeDel i s.hbm.train } } hchTrnStatBusy i 0 0)
          hchTrnStatTimeout i 0 1) (pageOf .hch i 0) 4
      else s

/-- A step of the OBJ 0x16 object moves one tap (R340): signed, at most ±2, on a channel in service; the tap stays in 0-511. -/
def tapStep (s : State) (i b v : Nat) : State :=
  let d := sgn 3 v
  let obj := if bit v 3 then 0x11 else 0x10
  let st := chanState s i
  if (st = 3 ∨ st = 4) ∧ -2 ≤ d ∧ d ≤ 2 ∧ v < 16 then
    oset s .hch i 2 obj b 0 (max 0 (min 511 ((oget s .hch i 2 obj b 0 : Int) + d))).toNat
  else s

/-- LOG_CLR.CLEAR = 1 empties the log and LOST (R330). -/
def logClear (s : State) (i : Nat) : State :=
  let s1 := fset (fset s hchLogStatCount i 0 0) hchLogStatLost i 0 0
  (List.range 64).foldl (fun a k => oset a .hch i 1 1 (k / 4) (k % 4) 0) s1

/-- Every populated channel is ACTIVE or CONTAINED (R336). -/
def allInService (s : State) : Bool :=
  (List.range 192).all fun i => !chanThere s i || chanState s i == 3 || chanState s i == 6

/-- BRL.CTL.EN goes to 1: every overflow bucket is full (R334, R513). -/
def burlapOn (s : State) : State := { s with net := { s.net with tokens := [] } }

end Sys2Proof.Machine
end

