-- ==== Sys2Proof/Machine/Time.lean ====
section
/-!
DEFINITION. The time base's loads (R370), the transmit timestamp FIFO (R375), PPS and ToD (R377-R379).
-/
namespace Sys2Proof.Machine

/-- A counter of TIM OBJ 0x04. -/
def timCount (s : State) (c : Nat) : State := bump s .tim 0 0 4 c 0

/-- Replace the time record. -/
def withTim (s : State) (t : TimeSt) : State := { s with tim := t }

/-- A TIM source fires. -/
def timFire (s : State) (src : Nat) : State := fireLow s (pageOf .tim 0 0) src

/-! ### Loads -/

/-- A write of LOAD_CTL with GO = 1 (R370). -/
def loadGo (s : State) (cancel atPps : Bool) : State :=
  if cancel then fset s timStatLoadWait 0 0 0
  else if atPps then fset s timStatLoadWait 0 0 1
  else withTim s { s.tim with loadDue := some (tickNow s + 1) }

/-- Signed OFS_NS of PPS_OUT. -/
def ppsOfs (s : State) : Int := sgn 32 (fget s timPpsOutOfsOfsNs 0 0)

/-- The last second whose PPS_OUT edge has been passed, plus one; 0 before the first. -/
def ppsNext (s : State) : Nat := (((nsOf (tbNow s) : Int) - ppsOfs s) / 1000000000 + 1).toNat

/-- GATE_POS of a port follows the time base (R359-R361). -/
def showGate (s : State) (p : Nat) : State :=
  let g := p / 8
  let n := p % 8
  let act := fsetB s egsPortStatGateAct g n (gateOn s p)
  if gateOn s p then
    fset act egsGatePosPos g n (gatePosOf (gateList s p) (gateAt s p (tbPort s 0 + (txNs s p + 40) * 10)) 0)
  else act

/-- A load may take effect: no slice holds a descriptor and no MAC is enabled (R370). -/
def loadMay (s : State) : Bool :=
  s.net.items.isEmpty && !((List.range 384).any fun p => fget s macCfgEnable p 0 == 1)

/-! ### Timed strobes (R72) -/

/-- Programmed time of a timed strobe, in ns. -/
def tstrobeNs (s : State) (n : Nat) : Nat :=
  (fget s glbTstrobeSecLoSec 0 n + fget s glbTstrobeSecHiSec 0 n * 2 ^ 32) * 1000000000 + fget s glbTstrobeNsNs 0 n

/-- The strobe fires. -/
def tstrobeGo (s : State) (n : Nat) : State :=
  strobe (fset (fset s glbTstrobeCtlArm 0 n 0) glbTstrobeCtlFired 0 n 1) (fget s glbTstrobeCtlMask 0 n) s.clk (some n)

/-- Tenths of ns before which a time has passed on an earlier core clock. -/
def tbPassed (s : State) : Nat :=
  let tick := ((s.clk - 1) * 16 - s.tim.lockU) / 40
  if tick < s.tim.baseTick then s.tim.base else tbAt s tick + 1

/-- An armed strobe whose time lies before `limit`, in tenths, fires at once, late (R72, R370). -/
def tstrobeLate (limit : Nat) (s : State) (n : Nat) : State :=
  if fget s glbTstrobeCtlArm 0 n = 1 ∧ tstrobeNs s n * 10 < limit
  then tstrobeGo (fset s glbTstrobeCtlLate 0 n 1) n else s

/-! ### Transmit timestamps -/

/-- A time in ps as whole ns and 2⁻¹⁶ ns, truncated. -/
def psParts (ps : Nat) : Nat × Nat := (ps / 1000, ps % 1000 * 65536 / 1000)

/-- A port's timestamp in tenths of a ns, adjusted by a signed 16-bit number of ps (R373), in ps. -/
def adjusted (t adj : Nat) : Nat := ((t * 100 : Int) + sgn 16 adj).toNat

/-- Entries of the transmit timestamp FIFO. -/
def fifoSize : Nat := 1024

/-- An entry is in the FIFO: counted, line 72 pulses. -/
def fifoIn (s : State) : State := pulse (timCount s 0) 72

/-- Push into the FIFO (R375): [port, tag, ns, fraction]. An entry that finds it full waits for a pop of the same core clock. -/
def fifoPush (s : State) (port tag ps : Nat) : State :=
  let s1 := withTim s { s.tim with fifo := s.tim.fifo ++ [[port, tag, (psParts ps).1, (psParts ps).2]] }
  if s.tim.fifo.length < fifoSize then fifoIn s1 else s1

/-- The oldest entry is popped; one that waited for the pop is in. -/
def fifoPop (s : State) : State :=
  let s1 := withTim s { s.tim with fifo := s.tim.fifo.drop 1 }
  if fifoSize < s.tim.fifo.length then fifoIn s1 else s1

/-- With the core clock's end the entries that found the FIFO full are discarded, counted, and fire TIM source 0. -/
def fifoTick (s : State) : State :=
  (s.tim.fifo.drop fifoSize).foldl (fun a _ => timFire (timCount a 1) 0)
    (withTim s { s.tim with fifo := s.tim.fifo.take fifoSize })

/-- A time value as three object words (R392). -/
def timeWords (ns frac : Nat) : List Nat :=
  let sec := ns / 1000000000
  [ns % 1000000000, sec % 2 ^ 32, sec / 2 ^ 32 % 2 ^ 16 + frac % 65536 * 65536]

/-! ### PPS and ToD -/

/-- PPS_OUT_EDGE (R377): the rise at a whole second plus OFS_NS, or the fall WIDTH_US later. -/
def execPpsOutEdge (s : State) : Out :=
  run true s <|
    if fget s timCtlPpsOutEn 0 0 = 1 ∧ s.tim.ppsOutSec < ppsNext s then
      let sec := ppsNext s - 1
      let s1 := emit (withTim s { s.tim with ppsOutSec := ppsNext s, ppsRise := some s.clk }) .ppsOut
      if fget s timCtlTodTxEn 0 0 = 1 then withTim s1 { s1.tim with todDue := some (s.clk + clksOfNs 10000000, sec) } else s1
    else match s.tim.ppsRise with
      | some t => if passedNs s t (fget s timPpsOutCfgWidthUs 0 0 * 1000) then withTim s { s.tim with ppsRise := none } else s
      | none => s

/-- PPS_IN_EDGE (R378), which also releases a waiting load (R370). -/
def execPpsInEdge (sub : Nat) (s : State) : Out :=
  run (sub < 7) s <|
    if fget s timCtlPpsInEn 0 0 = 0 then s
    else
      let s1 := timCount (if s.tim.cap.getD 1 0 = 1 then timCount s 5 else s) 4
      let s2 := withTim s1 { s1.tim with cap := [tbPort s sub, 1], ppsInAt := s.clk, ppsLost := false }
      let s3 := pulse s2 73
      if fget s timStatLoadWait 0 0 = 1
      then fset (withTim s3 { s3.tim with loadDue := some (tickNext s) }) timStatLoadWait 0 0 0 else s3

/-- PPS_IN_LOST (R378, R45): no edge for 1.1 s, its last clock included; once for each silent interval. -/
def execPpsInLost (s : State) : Out :=
  run true s <|
    if fget s timCtlPpsInEn 0 0 = 1 ∧ s.tim.ppsLost = false ∧ passedNs s s.tim.ppsInAt 1100000000 = true
        ∧ s.pending.any (fun c => match c with | .ppsInEdge _ => true | _ => false) = false
    then timFire (withTim s { s.tim with ppsLost := true }) 1 else s

/-- One bit of CRC-8 with polynomial 0x07. -/
def crc8Bits : Nat → Nat → Nat
  | 0, c => c
  | n + 1, c => crc8Bits n (if 128 ≤ c then Nat.xor (c * 2 % 256) 7 else c * 2 % 256)

/-- CRC-8 of Table 12-1. -/
def crc8 (l : List Byte) : Nat := l.foldl (fun c b => crc8Bits 8 (Nat.xor c b.toNat)) 0

/-- The ToD message of a second (Table 12-1). -/
def todMsg (s : State) (sec : Nat) : List Byte :=
  let m := toBE 2 0x4B5A ++ toBE 1 1 ++ toBE 1 11 ++ toBE 6 sec ++ toBE 2 (fget s timTodCfgUtcOfs 0 0)
    ++ toBE 1 (fget s timTodCfgFlags 0 0) ++ toBE 1 (fget s timTodCfgClass 0 0) ++ toBE 1 0
  m ++ toBE 1 (crc8 (m.drop 2))

/-- TOD_SEND (R379): 10 ms after the PPS_OUT edge. -/
def execTodSend (s : State) : Out :=
  run true s <| match s.tim.todDue with
    | none => s
    | some t =>
      if s.clk < t.1 then s
      else
        let s1 := withTim s { s.tim with todDue := none }
        if fget s timCtlTodTxEn 0 0 = 1 then timCount (emit s1 (.tod (todMsg s t.2))) 6 else s1

/-- TOD_RECEIVE (R379). -/
def execTodReceive (bytes : List Byte) (s : State) : Out :=
  run true s <|
    if fget s timCtlTodRxEn 0 0 = 0 then s
    else if bytes.length = 16 ∧ ofBE (bytes.take 2) = 0x4B5A ∧ crc8 (slice bytes 2 13) = byteAt bytes 15 then
      withTim s { s.tim with tod := bytes }
    else timFire (timCount s 7) 2

end Sys2Proof.Machine
end

