-- ==== Sys2Proof/Machine/Telemetry.lean ====
section
/-!
DEFINITION. Latency histograms (R380-R384), the Muslin ring and its records (R385-R390).
-/
namespace Sys2Proof.Machine

/-- Replace the telemetry record. -/
def withTel (s : State) (t : TelSt) : State := { s with tel := t }

/-- A counter of TEL page 1 OBJ 0x02. -/
def telCount (s : State) (sl c : Nat) : State := bump s .tel sl 1 2 c 0

/-- A histogram as a window starts. -/
def histZero : Hist := ⟨List.replicate 16 0, 0, 0, false, false, false⟩

/-- Bin of a delay in ns (R380). -/
def histBin (d : Nat) : Nat := (List.range 15).foldl (fun b k => if 256 * 2 ^ k ≤ d then k + 1 else b) 0

/-- A sample in a histogram and its accumulator (R380, R381). -/
def histAdd (h : Hist) (d : Nat) : Hist :=
  let b := histBin d
  let oflow := h.sat || decide (2 ^ 48 ≤ h.sum + d)
  { h with bins := h.bins.set b (min (2 ^ 32 - 1) (h.bins.getD b 0 + 1))
           sum := if oflow then 2 ^ 48 - 1 else h.sum + d
           cnt := min (2 ^ 32 - 1) (h.cnt + 1), sat := oflow }

/-- A delay sample of queue `q` of a port, with the memory check of R384. -/
def delaySample (s : State) (port q d : Nat) : State :=
  let sl := sliceOf port
  let e := eccCheck s (pageOf .tel sl 0) 0 1 (fun a => telCount a sl 5) (fun a => telCount a sl 6)
  let h := if e.1 then { histZero with memErr := true, bad := true } else storeGet histZero e.2.tel.hist (qKey port q)
  withTel e.2 { e.2.tel with hist := storeSet histZero (qKey port q) (histAdd h d) e.2.tel.hist }

/-! ### Records -/

/-- A record made now (Table 12-2): SEQ is filled when it is written. -/
def mkRec (s : State) (sl typ subj : Nat) (body : List Byte) : List Byte :=
  let t := nsOf (tbNow s)
  toLE 1 typ ++ toLE 1 sl ++ toLE 2 0 ++ toLE 4 subj ++ toLE 4 (t % 1000000000) ++ toLE 4 (t / 1000000000) ++ slice body 0 112

/-- A record waits for the writer. -/
def pushRec (s : State) (sl prio : Nat) (bytes : List Byte) : State :=
  withTel s { s.tel with pend := s.tel.pend ++ [⟨sl, prio, bytes⟩] }

/-- Index of a lost count: TYPE 1-6, 7 for submitted records of other types. -/
def lostIdx (typ : Nat) : Nat := if 1 ≤ typ ∧ typ ≤ 6 then typ else 7

/-- Write one record at the head of a slice's ring (R385). -/
def ringWrite (s : State) (sl : Nat) (rec_ : List Byte) : State :=
  let h := fget s telRingHeadHead sl 0
  let seq := storeGet 0 s.tel.seq sl
  let at_ := shmBase + fget s telRingBaseBase sl 0 * 128 + 128 * h
  let nh := (h + 1) % 2 ^ fget s telRingCtlSizeLog2 sl 0
  let s1 := memWrite s at_ (patch rec_ 2 (toLE 2 seq))
  let s2 := telCount (fset s1 telRingHeadHead sl 0 nh) sl 0
  let s3 := withTel s2 { s2.tel with seq := storeSet 0 sl ((seq + 1) % 65536) s2.tel.seq }
  if ringNotify nh (fget s telRingCtlNotifyLog2 sl 0) then pulse s3 (64 + sl) else s3

/-- Free entries of a slice's ring. -/
def ringFree (s : State) (sl : Nat) : Nat :=
  let n := 2 ^ fget s telRingCtlSizeLog2 sl 0
  n - 1 - (fget s telRingHeadHead sl 0 + n - fget s telRingTailTail sl 0 % n) % n

/-- The writer of a slice takes one record (R386). -/
def muslinStep (s : State) (sl : Nat) : State :=
  let on_ := fget s telRingCtlEn sl 0 == 1
  let lost := (List.range 8).map fun t => storeGet 0 s.tel.lost (8 * sl + t)
  if on_ && decide (2 ≤ ringFree s sl) && lost.any (· != 0) then
    let body := (List.range 7).flatMap fun t => toLE 4 (min 0xFFFFFFFF (lost.getD (t + 1) 0))
    ringWrite (withTel s { s.tel with lost := (List.range 8).foldl (fun m t => storeDel (8 * sl + t) m) s.tel.lost }) sl
      (mkRec s sl 7 0 body)
  else
    let mine := s.tel.pend.filter fun r => r.slice == sl
    match (List.range 7).findSome? fun p => mine.find? fun r => r.prio == p with
    | none => s
    | some r =>
      let s1 := withTel s { s.tel with pend := s.tel.pend.erase r }
      if on_ && decide (1 ≤ ringFree s sl) then ringWrite s1 sl r.bytes
      else
        let k := 8 * sl + lostIdx (byteAt r.bytes 0)
        fire (telCount (withTel s1 { s1.tel with lost := storePut k (storeGet 0 s1.tel.lost k + 1) s1.tel.lost }) sl 1)
          (pageOf .tel sl 0) 2

/-- MUSLIN_RECORD_WRITE (R386): each slice's writer takes at most one record per core clock. -/
def execMuslinRecordWrite (s : State) : Out :=
  run true s <| (List.range 8).foldl (fun a sl =>
    let o := oncePerClk a (32 + sl)
    if o.1 then muslinStep o.2 sl else a) s

/-- MEAN_NS of a window (R383): all ones when SAT is set; a free value where no sample came. -/
def meanNs (h : Hist) (free : Nat) : Nat :=
  if h.sat then 0xFFFFFFFF else if h.cnt = 0 then free % 2 ^ 32 else min 0xFFFFFFFF (h.sum / h.cnt)

/-- Body of a HISTOGRAM record. -/
def histBody (h : Hist) (winMs free : Nat) : List Byte :=
  h.bins.flatMap (toLE 4) ++ toLE 8 h.sum ++ toLE 4 h.cnt ++ toLE 4 (meanNs h free)
    ++ toLE 4 (b2n h.sat + 2 * b2n (h.cnt != 0 && !h.sat && !h.bad) + 4 * b2n h.memErr) ++ toLE 4 winMs

/-- Port n of a slice is selected by a pair of LO and HI registers. -/
def portBit (s : State) (sl n : Nat) (lo hi : Fld) : Bool :=
  if n < 32 then bit (fget s lo sl 0) n else bit (fget s hi sl 0) (n - 32)

/-- A window of a slice ends (R382, R383): records from the export copy, the new window at zero. A memory error stays for the next
record of its queue. -/
def windowClose (s : State) (sl : Nat) : State :=
  let win := fget s telHistCtlWinMs sl 0
  let qs := (List.range 432).filter fun k => portBit s sl (k / 9) telHistPortsLoPorts telHistPortsHiPorts
  let s1 := qs.foldl (fun a k =>
    let h := storeGet histZero a.tel.hist (432 * sl + k)
    let r := mkRec a sl 2 (48 * sl + k / 9 + 512 * (k % 9)) (histBody h win (Config.freeWord a.free))
    pushRec { a with free := a.free + 1 } sl 2 r) s
  let next := s1.tel.hist.filterMap fun e =>
    if e.1 / 432 ≠ sl then some e
    else if e.2.memErr = true ∧ qs.contains (e.1 % 432) = false then some (e.1, { histZero with memErr := true }) else none
  telCount (withTel s1 { s1.tel with hist := next }) sl 2

/-- The windows that end with this core clock end, the samples of the clock in them. -/
def windowTick (s : State) : State :=
  let t := s.tel.closing.foldl windowClose s
  withTel t { t.tel with closing := [] }

/-- HISTOGRAM_WINDOW_END (R382): at the millisecond whose number is a multiple of WIN_MS; the window takes the samples of this core
clock too. -/
def execHistogramWindowEnd (sl : Nat) (s : State) : Out :=
  run (sl < 8) s <|
    let win := fget s telHistCtlWinMs sl 0
    let ms := nsOf (tbNow s) / 1000000
    if running s = false ∨ win = 0 ∨ ms % win ≠ 0 ∨ storeFind s.tel.winAt sl = some ms then s
    else withTel s { s.tel with winAt := storePut sl ms s.tel.winAt, closing := s.tel.closing ++ [sl] }

/-- LEDGER_SNAPSHOT (R388): every SNAP_MS. -/
def execLedgerSnapshot (sl : Nat) (s : State) : Out :=
  run (sl < 8) s <|
    let ms := fget s telSnapCtlSnapMs sl 0
    if running s = false ∨ ms = 0 ∨ passedNs s (storeGet 0 s.tel.snapAt sl) (ms * 1000000) = false then s
    else
      let src := (List.range 112).filter fun x => decide (x < 48) || count s .lgr sl 1 1 x 0 != 0
      let s1 := src.foldl (fun a x => pushRec a sl 3 (mkRec a sl 3 x
        ((List.range 7).flatMap fun c => toLE 8 (count a .lgr sl 1 1 x c)))) s
      telCount (withTel s1 { s1.tel with snapAt := storePut sl s.clk s1.tel.snapAt }) sl 3

/-- Bytes of the submission object from a requester (R390): INDEX 0 keeps the first half, INDEX 1 submits. Answers false
for a reserved TYPE. -/
def submitRec (s : State) (sl who idx : Nat) (half : List Byte) : Bool × State :=
  let k := 2 * sl + who
  if idx = 0 then (true, withTel s { s.tel with half := storePut k half s.tel.half })
  else match storeFind s.tel.half k with
    | none => (true, s)
    | some h =>
      let s1 := withTel s { s.tel with half := storeDel k s.tel.half }
      let typ := byteAt h 0
      if typ = 4 ∨ typ = 5 ∨ 128 ≤ typ then
        let r := patch (h ++ half) 0 ((mkRec s sl typ (ofLE (slice h 4 4)) []).take 16)
        (true, telCount (pushRec s1 sl 6 r) sl 4)
      else (false, s1)

/-- A candidate for a postcard (R389): one in 2^PCARD_LOG2 of the port emits a record. -/
def postcard (s : State) (it : Item) (p : Pkt) (t len disp : Nat) : State :=
  let sl := sliceOf it.port
  let n := it.port % 48
  let m := bitsOf (tmplW s p.ep sl it.tmpl 0) 22 21
  if portBit s sl n telPcardPortsLoPorts telPcardPortsHiPorts = false ∨ bit (tmplW s p.ep sl it.tmpl 0) 0 = false
      ∨ (m ≠ 1 ∧ m ≠ 2) then s
  else
    let c := storeGet 0 s.tel.cand it.port + 1
    let s1 := fun v => withTel s { s.tel with cand := storeSet 0 it.port v s.tel.cand }
    if c < 2 ^ fget s telPcardCtlPcardLog2 sl 0 then s1 c
    else
      let ns := fun x => toLE 4 (nsOf x % 1000000000) ++ toLE 4 (nsOf x / 1000000000)
      let body := ns p.arr ++ ns t ++ toLE 2 (fracOf p.arr) ++ toLE 2 (fracOf t) ++ toLE 4 it.hash ++ toLE 2 (srcKey p.src)
        ++ toLE 2 it.tenant ++ toLE 2 disp ++ toLE 2 len ++ it.node
      bump (pushRec (s1 0) sl 5 (mkRec s sl 6 (it.port + 512 * (if it.mc then 8 else it.cls)) body)) .tel sl 0 3 n 0

end Sys2Proof.Machine
end

