-- ==== Sys2Proof/Machine/Egress.lean ====
section
/-!
DEFINITION. Stages 12 to 14 (R342-R368): eligibility, the due rule, deficit round robin, the frame's start with its edit
(R216, R230), its end (R41, R374, R389), shapers, gates, flush, queue samples, and the edit memory's half copy (R213).
-/
namespace Sys2Proof.Machine

/-! ### Eligibility (R342, R343) -/

/-- L + G + n bytes of an item. -/
def lineBytes (it : Item) (n : Int) : Nat := ((it.len + it.growth : Int) + n).toNat

/-- Line time of n bytes at a rate in Gb/s, in units of 0.04 ns. -/
def lineUnits (n gbps : Nat) : Nat := cdiv (n * 200) gbps

/-- Head of a queue. -/
def headOf (s : State) (p q : Nat) : Option Item := (queue s p q).fifo.head?.bind (itemOf s)

/-- The frame fits before its gate closes (R362). -/
def gateFits (s : State) (p q : Nat) (it : Item) : Bool :=
  match gateLeft s p q with
  | none => true
  | some t => decide (cdiv (lineBytes it 20 * 8000) (portMbps s p (curGbps s p)) * 10 ≤ t)

/-- The gate of a queue is open, but its head does not fit. -/
def gateWaits (s : State) (p q : Nat) (it : Item) : Bool :=
  (gateLeft s p q).elim false (fun t => decide (0 < t)) && !gateFits s p q it

/-- Shapers hold tokens; an absent shaper never limits (R357). -/
def shapersOk (s : State) (p q : Nat) : Bool :=
  let x := portSt s p
  !x.hier || ((shpRate (portShpWords s p) == 0 || decide (0 < x.tok))
    && (shpRate (shpWords s p q) == 0 || decide (0 < (queue s p q).tok)))

/-- The queue's class is not stopped; the multicast queue stops under PAUSE only (R97, R343). -/
def unpaused (s : State) (p q : Nat) : Bool :=
  let x := portSt s p
  decide ((if q = 8 then x.pauseAll else x.pauseEnd.getD q 0) ≤ nowU s)

/-- The frame may start under R37: its last cell is in Gauze, or it is cut-through; of a spilled one the first cell must be in Gauze
(R343). -/
def mayStart (s : State) (it : Item) : Bool :=
  cellsIn s it || (it.cut && (!it.brl
    || (queue s it.port it.cls).stream.any fun c => c.item == it.id && c.idx == 0 && c.st == .gauze))

/-- The head may be served, shapers aside. -/
def servable (s : State) (p q : Nat) : Bool :=
  (headOf s p q).elim false fun it => queueOn s p q && unpaused s p q && mayStart s it && gateFits s p q it

/-- The port may start a frame now: its MAC is enabled, its PORT_DOWN bit clear, none of its units contained, its
transmitter awake, its line free within this core clock, and no frame without its tail on it. -/
def portFree (s : State) (p : Nat) : Bool :=
  let x := portSt s p
  running s && portThere s p && fget s macCfgEnable p 0 == 1 && !portDown s p
    && !isShut s (.sched (p / 8)) && !isShut s (.port p) && !sliceShut s (sliceOf p)
    && !x.lpiTx && x.wakeAt.elim true (fun t => decide (t ≤ s.clk)) && decide (x.txFree < nowU s + 16)
    && x.tx.all fun id => (itemOf s id).elim true fun it => (pktOf s it.pkt).elim true (·.tail)

/-! ### The due rule (R349) -/

/-- B_c: bits of the packets of a class queue that have not started. -/
def backlogBits (s : State) (p c : Nat) : Nat :=
  ((queueItems s p c).filter fun it => it.place != .sending).foldl (fun a it =>
    a + admBits it.len it.growth (admQ s (itemEp s it) p c 1 % 256)) 0

/-- D_c in admission time. -/
def dueTime (s : State) (p c : Nat) : Nat :=
  let q := queue s p c
  let rate := q.carry.elim q.rate (·.2)
  let back := (cdiv (backlogBits s p c * 1000) rate + txNs s p + 40) * 65536
  (q.v + 2 ^ 48 - back % 2 ^ 48) % 2 ^ 48

/-- The class queue is due. -/
def isDue (s : State) (p c : Nat) : Bool :=
  decide (c < 8) && !(queue s p c).fifo.isEmpty && !later (dueTime s p c) (admAdd (admNow s) (blockNs s p * 65536))

/-- The eligible due queue with the earliest D_c, the lowest number among equals. -/
def dueQueue (s : State) (p : Nat) : Option Nat :=
  ((List.range 8).filter fun c => servable s p c && isDue s p c).foldl (fun (a : Option Nat) c =>
    match a with
    | none => some c
    | some b => if later (dueTime s p b) (dueTime s p c) then some c else some b) none

/-! ### Deficit round robin (R345) -/

/-- A deficit kept in 24 signed bits. -/
def clip24 (d : Int) : Int := max (-(2 ^ 23 : Int)) (min (2 ^ 23 - 1) d)

/-- The loop of R345 over the queues left. -/
def drr : Nat → State → Nat → Option Nat × State
  | 0, s, _ => (none, s)
  | k + 1, s, p =>
    let x := portSt s p
    let q := x.cur
    let y := queue s p q
    let c := if servable s p q && shapersOk s p q && !y.credited
      then { y with deficit := min (y.deficit + quantum s p q x.hier) (2 ^ 23 - 1), credited := true } else y
    let line : Int := ((headOf s p q).elim 0 fun it => lineBytes it 20 : Nat)
    if servable s p q && shapersOk s p q && decide (line ≤ c.deficit) then
      (some q, putQueue s p q { c with deficit := c.deficit - line })
    else
      let s1 := putQueue s p q { c with deficit := if y.fifo.isEmpty then 0 else c.deficit, credited := false }
      drr k (putPort s1 p { x with cur := (q + 1) % 9 }) p

/-! ### Late discard (R267) and gate waits -/

/-- A head later than its deadline and LATE_DROP_US ends late discarded; so does each head that comes after it. -/
def dropLate : Nat → State → Nat → Nat → State
  | 0, s, _, _ => s
  | n + 1, s, p, c =>
    match headOf s p c with
    | none => s
    | some it =>
      let w := admQ s (itemEp s it) p c 1
      if bit w 11 && later (admOf (tbNow s)) (admAdd it.dl (bitsOf w 31 12 * 1000 * 65536))
      then dropLate n (fail s it 8) p c else s

/-- Gate waits of heads that do not fit, counted once for each frame (R362). -/
def countWaits (s : State) (p : Nat) : State :=
  (List.range 9).foldl (fun a q =>
    match headOf a p q with
    | none => a
    | some it =>
      if gateWaits a p q it && !(queue a p q).gateWait
      then bump (putQueue a p q { queue a p q with gateWait := true }) .egs (p / 8) 0 4 (p % 8) 1 else a) s

/-! ### The start of a frame -/

/-- A queue counter of EGS OBJ 0x03. -/
def egsCount (s : State) (p q c n : Nat) : State := bumpBy s .egs (p / 8) 0 3 (9 * (p % 8) + q) c n

/-- Shapers are debited in hierarchical mode; absent ones hold no tokens (R357). -/
def debit (s : State) (p q : Nat) (it : Item) : State :=
  let x := portSt s p
  if x.hier = false then s
  else
    let n : Int := it.len + it.growth
    let pw := portShpWords s p
    let qw := shpWords s p q
    let s1 := if shpRate pw = 0 then s else putPort s p { x with tok := x.tok - (n + shpOvh pw) * 65536 }
    if shpRate qw = 0 then s1
    else
      let y := queue s1 p q
      putQueue s1 p q { y with tok := y.tok - (n + shpOvh qw) * 65536 }

/-- A Gauze cell of a packet has been found uncorrectable as it was read (R311): every copy in the slice that has not sent it fails,
one on the line with an inverted FCS. -/
def cellBad (s : State) (it : Item) (idx : Nat) : State :=
  failWhere s (fun x => x.pkt == it.pkt && x.es == it.es && x.pass == it.pass && decide (x.sent ≤ idx)) 3

/-- The check of a Gauze cell as it is read. -/
def cellCheck (s : State) (es : Nat) : Bool × State :=
  eccCheck s (pageOf .gze es 0) 0 1 (fun a => bump a .gze es 0 2 6 0) (fun a => bump a .gze es 0 2 7 0)

/-- The memories read for a frame's start: queue configuration, next hop, template and data lines, cells, links. The
first that is uncorrectable fails the packet, a cell every copy of it (R311), a configuration object the whole queue (R210, R231,
R367). Links that are lost leave the packet to the containment of the slice, where the severity of BPM source 1 contains it (R312). -/
def startChecks (s : State) (p q : Nat) (it : Item) : Bool × State :=
  let es := sliceOf p
  let cfg := eccCheck s (pageOf .egs (p / 8) 0) 0 1 id id
  if cfg.1 then
    (true, failWhere (putQueue cfg.2 p q { queue cfg.2 p q with badCfg := true })
      (fun x => x.port == p && x.cls == q && x.place != .sending) 3)
  else
    let nh := eccCheck cfg.2 (pageOf .nhp (es / 2) 0) 0 1 id id
    let ed := eccCheck nh.2 (pageOf .edt es 0) 0 1 (fun a => bump a .edt es 0 5 0 0) (fun a => bump a .edt es 0 5 1 0)
    let ge := cellCheck ed.2 es
    let lk := eccCheck ge.2 (pageOf .bpm es 0) 0 1 (fun a => bump a .bpm es 1 3 5 0) id
    let s1 := if ed.1 then edtRewrite (edtCount lk.2 es (p % 48) 7) (itemEp s it) es it.tmpl else lk.2
    if nh.1 || ed.1 then (true, match itemOf s1 it.id with | none => s1 | some x => fail s1 x 3)
    else if ge.1 then (true, cellBad s1 it 0)
    else if lk.1 then
      (true, if isContained s1 (.slice es) then s1 else match itemOf s1 it.id with | none => s1 | some x => fail s1 x 3)
    else (false, s1)

/-- What an edit takes from a packet and the pages of its egress slice (R211, R222, R228). -/
def edInOf (s : State) (p : Pkt) (it : Item) : EdIn :=
  let es := it.es
  let t := tmplWords s p.ep es it.tmpl
  let data := bitsOf (t.getD 2 0) 12 0
  let now := tbPort s 0
  { t := t, sids := dataLines s p.ep es data (sidLines (t.getD 0 0))
    enc := dataLines s p.ep es (data + sidLines (t.getD 0 0)) (cdiv (bitsOf (t.getD 2 0) 20 13) 64)
    nh2 := nhW s p.ep (es / 2) it.nh 2, nh3 := nhW s p.ep (es / 2) it.nh 3
    station := fgetP s p.ep macStationLoAddr it.port 0 + fgetP s p.ep macStationHiAddr it.port 0 * 2 ^ 32
    hash := it.hash, namespace_ := fgetP s p.ep edtIoamCfgNamespace es 0, optType := fgetP s p.ep edtIoamCfgOptType es 0
    nodeId := fgetP s p.ep edtIoamNodeNodeId es 0, traceType := fgetP s p.ep edtIoamTypeType es 0
    src := srcKey p.src, port := it.port, sec := nsOf now / 1000000000, nsec := nsOf now % 1000000000
    transit := (now - p.arr) / 10, tenant := it.tenant
    cells := ((queueItems s it.port it.cls).filter fun x => x.place != .resteer).foldl (fun a x => a + (x.cells - x.sent)) 0 }

/-- Edit counters of a frame (R232). -/
def edCounts (s : State) (it : Item) (i : EdIn) (e : Ed) : State :=
  let n := it.port % 48
  let up := fun (b : Bool) c (a : State) => if b then edtCount a it.es n c else a
  up e.ioam 6 (up e.vlan 5 (bumpBy (up (bit (i.w 0) 0) 2 s) .edt it.es 0 3 (8 * n + 4) 0 e.short))

/-- The chosen head is handed off: charges, memory checks, edit (R216, R230), and the line is taken. -/
def startFrame (s : State) (p q : Nat) (it : Item) (due : Bool) : State :=
  let y := queue s p q
  let s1 := putQueue s p q { y with
    deficit := if due then clip24 (y.deficit - lineBytes it 20) else y.deficit, gateWait := false }
  let s2 := egsCount (egsCount (debit s1 p q it) p q 0 1) p q 1 (lineBytes it 20)
  let c := startChecks (if due then egsCount s2 p q 2 1 else s2) p q it
  if c.1 then c.2
  else match pktOf c.2 it.pkt with
    | none => c.2
    | some k =>
      let i := edInOf c.2 k it
      let body := if k.tail then k.data.take (k.data.length - 4) else k.data
      let pad := if k.tail then 0 else it.len - 4 - k.data.length
      let e := editFrame i (body ++ List.replicate pad 0) k.slots
      let s3 := edCounts c.2 it i e
      if k.tail ∧ 16128 < e.fr.length + 4 then fail (edtCount s3 it.es (p % 48) 3) it 2
      else
        let x := portSt s3 p
        let at_ := max x.txFree (nowU s3)
        let s4 := putItem s3 { it with
          place := .sending, txEnd := at_, out := e.fr, upTo := body.length, pad := pad
          node := nodeData { i with traceType := 127 } (match edSlot e (bitsOf (i.w 1) 2 0) with
            | some o => byteAt e.fr (o + 7)
            | none => 0) }
        let s5 := putQueue s4 p q { queue s4 p q with fifo := (queue s4 p q).fifo.filter (· != it.id) }
        putPort s5 p { x with
          tx := x.tx ++ [it.id], wakeAt := none
          txFree := at_ + lineUnits (max 64 (e.fr.length + 4) + 20) (curGbps s5 p) }

/-- Decisions made on this clock: by a slice (number 0-7), or for a port (8 and up). -/
def decisions (s : State) (k : Nat) : Nat :=
  match storeFind s.net.decided k with
  | some e => if e.1 = s.clk then e.2 else 0
  | none => 0

/-- One decision more. -/
def decides (s : State) (k : Nat) : State :=
  { s with net := { s.net with decided := storePut k (s.clk, decisions s k + 1) s.net.decided } }

/-- SCHEDULER_DECISION (R343-R349): at most 8 a core clock for the slice, and 2 for one port (R344). -/
def execSchedulerDecision (p : Nat) (s : State) : Out :=
  run (p < 384) s <|
    let full := decide (8 ≤ decisions s (sliceOf p)) || decide (2 ≤ decisions s (8 + p))
    let s1 := decides (decides (arrivals s) (sliceOf p)) (8 + p)
    if running s = false ∨ full = true then s
    else
      let s2 := (List.range 8).foldl (fun a c => dropLate (queue a p c).fifo.length a p c) s1
      if portFree s2 p = false then s2
      else
        let s3 := countWaits s2 p
        match dueQueue s3 p with
        | some c => (headOf s3 p c).elim s3 fun it => startFrame s3 p c it true
        | none =>
          let r := drr 9 s3 p
          match r.1 with
          | none => r.2
          | some q => (headOf r.2 p q).elim r.2 fun it => startFrame r.2 p q it false

/-! ### The end of a frame -/

/-- Cells of a frame on the line whose last byte has left the edit by now, as the line takes their bytes (DESIGN CHOICE, log entry
125); the last one leaves with the frame's end, and none before it has come. -/
def cellsLeft (s : State) (it : Item) : Nat :=
  let byLine := (nowU s - it.txEnd) * curGbps s it.port / 200 / 256
  let come := if it.brl
    then ((queue s it.port it.cls).stream.filter fun c => c.item == it.id && c.st == .gauze).length + it.sent
    else (chainOf s it.pkt it.es it.pass).elim 0 fun c => (c.cells.takeWhile (·.here)).length
  min (it.cells - 1) (min byLine come)

/-- A frame's cells up to number `n` have left the edit: each is checked as it is read, and given up (R296, R303, R311). -/
def sendCells (s : State) (id n : Nat) : State :=
  (List.range n).foldl (fun a i =>
    match itemOf a id with
    | none => a
    | some it =>
      if i < it.sent then a
      else
        let e := if i = 0 then (false, a) else cellCheck a it.es
        if e.1 then cellBad e.2 it i
        else
          let b := if it.brl then leaveStream e.2 it.port it.cls fun c => c.item == id && c.idx == i
            else dropRefs e.2 it.pkt it.es it.pass i (i + 1)
          putItem b { it with sent := i + 1 }) s

/-- The frames on the line at a core clock: cells leave the edit one by one (R296). -/
def sendTick (s : State) : State :=
  if running s then
    (s.net.items.filter fun it => it.place == .sending && decide (it.sent < cellsLeft s it)).foldl
      (fun a it => (itemOf a it.id).elim a fun x => sendCells a x.id (cellsLeft a x)) s
  else s

/-- Bytes, without FCS, a started frame ends with: the awaited bytes of its tail take the place of the padding. -/
def finalBytes (k : Pkt) (it : Item) : List Byte :=
  let total := if k.tail then k.data.length - 4 else k.data.length
  let f := it.out.take (it.out.length - it.pad)
  if it.upTo ≤ total then f ++ (k.data.take total).drop it.upTo else f.take (f.length - (it.upTo - total))

/-- One-step write of T (ps) at the PTP header (R374). -/
def oneStep (fr : List Byte) (off mode ps : Nat) : List Byte :=
  let ns := ps / 1000
  let corr := (ofBE (slice fr (off + 8) 8) + (psParts ps).2) % 2 ^ 64
  let f := patch (patch fr (off + 34) (toBE 6 (ns / 1000000000) ++ toBE 4 (ns % 1000000000))) (off + 8) (toBE 8 corr)
  if mode = 3 then patch f (off - 2) (toBE 2 0) else f

/-- The TS_MODE action at the egress port (R374): `t` is the transmit timestamp in tenths of a ns. -/
def stamp (s : State) (k : Pkt) (port t : Nat) (fr : List Byte) : List Byte × State :=
  let ps := adjusted t (fget s timPortTsAdjTxAdjPs 0 port)
  if k.tsMode = 1 then (fr, fifoPush s port k.tsTag ps)
  else if k.tsMode = 2 ∨ k.tsMode = 3 then
    if fr.length + 4 < k.tsOff + 44 ∨ (k.tsMode = 3 ∧ k.tsOff < 10) then (fr, timCount s 3)
    else (oneStep fr k.tsOff k.tsMode ps, timCount s 2)
  else (fr, s)

/-- A frame without its tail, or one found too long by it, is cut at 16,124 bytes with an inverted FCS (R230). -/
def cutFrame (s : State) (it : Item) (f : List Byte) : State :=
  let s1 := macCount (emit s (.frame it.port (f.take 16124) true)) it.port 13
  fail (edtCount s1 it.es (it.port % 48) 3) it 2

/-- The last bit of a frame leaves, at moment `u` in units of 0.04 ns (R17, R41, R380, R389). The MAC's own frames and those with an
inverted FCS do not count as frames transmitted (DESIGN CHOICE, log entry 109). -/
def transmitted (s : State) (it : Item) (k : Pkt) (f : List Byte) (u : Nat) : State :=
  let p := it.port
  let now := tbUnit s u
  let fr := f ++ List.replicate (60 - f.length) 0
  let len := fr.length + 4
  let r := stamp s k p (tbUnit s (u - lineUnits len (curGbps s p))) fr
  let s1 := bumpBy (macCount (emit (sliceEvt r.2 it.es 13) (.frame p r.1 false)) p 9) .mac p 0 1 10 0 len
  let s2 := bumpBy (bump s1 .edt it.es 0 4 it.tenant 0) .edt it.es 0 4 it.tenant 1 len
  let disp := if later (admOf now) it.dl then 1 else 0
  let s3 := postcard (delaySample s2 p it.cls ((now - k.arr) / 10)) it k now len disp
  let s4 := dispose s3 it disp 0 (some now)
  let x := portSt s4 p
  putPort s4 p { x with idleAt := s.clk, winBytes := x.winBytes + len + 20 }

/-- TRANSMIT_END (R41): the oldest frame on the port's line, once its line time and the transmit latency have passed. -/
def execTransmitEnd (p : Nat) (s : State) : Out :=
  run (p < 384) s <|
    match (portSt s p).tx.head?.bind (itemOf s) with
    | none => s
    | some it => match pktOf s it.pkt with
      | none => s
      | some k =>
        let f := finalBytes k it
        let end_ := it.txEnd + lineUnits (max 64 (min (f.length + 4) 16128) + 8) (curGbps s p) + txNs s p * 25
        if running s = false ∨ nowU s < end_ then s
        else if (k.tail = false ∧ 16124 ≤ f.length) ∨ 16128 < f.length + 4 then cutFrame s it f
        else if cellsIn s it then transmitted s it k f end_
        else s

/-! ### Shapers, hierarchical exit, gates -/

/-- A bucket of the scheduler's state with its check: an uncorrectable one is full and its deficit 0 (R367). -/
def stateCheck (s : State) (p : Nat) : Bool × State := eccCheck s (pageOf .egs (p / 8) 0) 0 1 id id

/-- Units a refill adds: ⌊RATE_MBPS × 0.00512 × 2¹⁶⌋. -/
def refillUnits (rate : Nat) : Nat := rate * 33554432 / 100000

/-- The refill falls on the edge of the flip that changed the shaper: it uses the old values, and they stay in force (R358). -/
def onFlip (s : State) (p : Nat) : Bool := storeFind s.pg.flipAt (groupOf s (pageOf .egs (p / 8) 0)) == some s.clk

/-- SHAPER_REFILL (R357, R358): at the clock whose number modulo 64 is the shaper's slot. `q` = 9 is the port shaper. -/
def execShaperRefill (p q : Nat) (s : State) : Out :=
  run (p < 384 && q < 10) s <|
    let n := p % 8
    let slot := if q = 9 then n else (8 + 9 * n + q) % 64
    let o := oncePerClk s (4096 + p * 16 + q)
    if running s = false ∨ s.clk % 64 ≠ slot ∨ o.1 = false then s
    else
      let e := stateCheck o.2 p
      let s1 := e.2
      if q = 9 then
        let x := portSt s1 p
        let w := if onFlip s p then portShpWords s1 p else portShpCfg s1 p
        let top : Int := shpDepth w
        putPort s1 p { x with
          tok := if e.1 then top else min (x.tok + refillUnits (shpRate w)) top
          shp := if onFlip s p then x.shp else none }
      else
        let y := queue s1 p q
        let w := if onFlip s p then shpWords s1 p q else (qcfg s1 p q 1, qcfg s1 p q 2)
        let top : Int := shpDepth w
        putQueue s1 p q { y with
          tok := if e.1 then top else min (y.tok + refillUnits (shpRate w)) top
          shp := if onFlip s p then y.shp else none
          deficit := if e.1 then 0 else y.deficit }

/-- HIERARCHICAL_EXIT (R353): every automatic hold of a MODE 2 port has passed. -/
def execHierarchicalExit (p : Nat) (s : State) : Out :=
  run (p < 384) s <|
    if running s && (portSt s p).hier && serviceMode s p == 2 && holdsPast s p then hierExit s p else s

/-- GATE_CHANGE (R359, R360): GATE_POS reaches the entry in force. -/
def execGateChange (p : Nat) (s : State) : Out :=
  run (p < 384) s (if running s then showGate s p else s)

/-! ### Flush (R364) -/

/-- QUEUE_FLUSH_STEP (R364): the oldest packet of a flushing queue whose cells have come ends flushed; an empty queue
sets FLUSH_DONE. -/
def execQueueFlushStep (p q : Nat) (s : State) : Out :=
  run (p < 384 && q < 9) s <|
    let o := oncePerClk s (12288 + p * 16 + q)
    if running s = false ∨ bit (qcfg s p q 3) 1 = false ∨ o.1 = false then s
    else
      let held := (queueItems o.2 p q).filter fun it => it.place != .sending && it.place != .residue
      if held.isEmpty then
        (if (queueItems o.2 p q).any fun it => it.place == .sending then o.2
         else putQueue o.2 p q { queue o.2 p q with flushDone := true })
      else match held.find? fun it => (it.brl || cellsIn o.2 it) && (pktOf o.2 it.pkt).elim true (·.tail) with
        | none => o.2
        | some it => fail (egsCount o.2 p q 3 1) it 5

/-! ### Queue samples (R366) -/

/-- A QUEUE_SAMPLE record (Table 12-3). -/
def sampleRec (s : State) (p q : Nat) : List Byte :=
  let items := queueItems s p q
  let y := queue s p q
  let brl := (y.stream.filter fun c => c.st == .burlap || c.st == .reading).length
  let gz := items.foldl (fun a it => a + (if it.brl then 0 else it.cells - it.sent)) 0
    + (y.stream.filter fun c => c.st == .gauze).length
  let delay := match (headOf s p q).bind fun it => pktOf s it.pkt with
    | none => 0
    | some k => (tbNow s - k.arr) / 10
  let d : Int := if q = 8 ∨ y.idle then 0 else sgn 48 ((y.v + 2 ^ 48 - admNow s) % 2 ^ 48)
  mkRec s (sliceOf p) 1 (p + 512 * q)
    (toLE 4 gz ++ toLE 4 brl ++ toLE 4 items.length ++ toLE 4 (min 0xFFFFFFFF delay)
      ++ toLE 4 (unsgn 32 (d / 65536)) ++ toLE 4 (if q = 8 then 0 else y.rate))

/-- QUEUE_SAMPLE (R366): the next queue of a group with SAMPLE_EN, each once in INTERVAL_US and one a core clock for the
slice. -/
def execQueueSample (g : Nat) (s : State) : Out :=
  run (g < 48) s <|
    let us := fget s egsSampleCtlIntervalUs g 0
    let sl := g / 6
    let o := oncePerClk s (40 + sl)
    if running s = false ∨ us = 0 ∨ o.1 = false then s
    else
      let due := (List.range 72).find? fun k =>
        bit (qcfg s (8 * g + k / 9) (k % 9) 3) 2 && passedNs s (storeGet 0 s.tel.sampAt (72 * g + k)) (us * 1000)
      match due with
      | none => s
      | some k =>
        let s1 := withTel o.2 { o.2.tel with sampAt := storePut (72 * g + k) s.clk o.2.tel.sampAt }
        if 512 ≤ (s1.tel.pend.filter fun r => r.slice == sl && r.prio == 4).length then bump s1 .egs (6 * sl) 1 5 1 0
        else bump (pushRec s1 sl 4 (sampleRec s1 (8 * g + k / 9) (k % 9))) .egs (6 * sl) 1 5 0 0

/-! ### The half copy of an EDT page (R213) -/

/-- Objects of a page that the last flip replaced. -/
def batchOf (s : State) (page : Nat) : List Nat :=
  ((s.cfg.old.filter fun e => keyPage e.1 == page && decide (2 ^ 64 ≤ e.1)).map fun e => e.1 / 16).eraseDups

/-- EDT_HALF_COPY (R213): no reference to the previous epoch is left, so the copy into the released half begins; its end,
one core clock per object, is fixed now. -/
def execEdtHalfCopy (sl : Nat) (s : State) : Out :=
  run (sl < 8) s <|
    let page := pageOf .edt sl 0
    if running s && fget s edtStatHeld sl 0 == 1 && fget s edtStatCopy sl 0 == 0 && epochRefs s (groupOf s page) == 0
    then
      let s1 := fset s edtStatCopy sl 0 1
      { s1 with net := { s1.net with xferAt := storePut (48 + sl) (s.clk + (batchOf s page).length) s1.net.xferAt } }
    else s

/-- EDT_COPY_END (R213): one object per core clock has been copied. -/
def execEdtCopyEnd (sl : Nat) (s : State) : Out :=
  run (sl < 8) s <|
    let page := pageOf .edt sl 0
    if running s && fget s edtStatCopy sl 0 == 1
        && decide (storeGet 0 s.net.xferAt (48 + sl) ≤ s.clk)
    then
      let s1 := fset s edtStatCopy sl 0 0
      if epochRefs s (groupOf s page) = 0 then fset (dropOld s1 page) edtStatHeld sl 0 0 else s1
    else s

end Sys2Proof.Machine
end

