-- ==== Sys2Proof/Machine/Gate.lean ====
section
/-!
DEFINITION. The order of one core clock at the pools and queues (R250, R255, R273, R295, R304): what is released on a clock is
released before a request of that clock is tested, and requests are taken in the keeper's order, whatever order their commands wait
in (log entry 126).
-/
namespace Sys2Proof.Machine

/-- The state a meaning answers with; the state itself where it answers none. -/
def thenState (s : State) (o : Out) : State :=
  match o with
  | .next t => t
  | _ => s

/-- The releases among the commands that wait on this clock: an end of a packet, or a read from Burlap (R304). Each has no effect a
second time on the clock. -/
def releaseOf (s : State) (c : Instr) : State :=
  match c with
  | .transmitEnd p => thenState s (execTransmitEnd p s)
  | .queueFlushStep p q => thenState s (execQueueFlushStep p q s)
  | .multicastResidueExpired it => thenState s (execMulticastResidueExpired it s)
  | .externalReadTimeout it => thenState s (execExternalReadTimeout it s)
  | .spillWriteResponse id parity => thenState s (execSpillWriteResponse id parity s)
  | .prefetchReturn id back => thenState s (execPrefetchReturn id back s)
  | _ => s

/-- The releases of this clock are applied. -/
def releases (s : State) : State := s.pending.foldl releaseOf s

/-- RESTEER (R207, R306). -/
def execResteer (sl : Nat) (s : State) : Out := run (sl < 8) s (resteerSlice (releases s) sl)

/-- Slices whose re-steer command waits on this clock. -/
def resteersDue (s : State) : List Nat := s.pending.filterMap fun c => match c with | .resteer sl => some sl | _ => none

/-- A head is at the gate: metered, and a short frame only with its tail (R38, R243). -/
def gateReady (p : Pkt) : Bool := p.stage == .metered && (p.tail || decide (256 < p.data.length))

/-- Heads whose verdict waits on this clock and comes before that of a head: of a lower slice, or of the same one and earlier in
arrival (R255). -/
def headsBefore (s : State) (p : Pkt) : List Nat :=
  let due := s.pending.filterMap fun c => match c with | .admissionVerdict id => some id | _ => none
  let mine := s.net.pkts.filter fun q => gateReady q && due.contains q.id && q.id != p.id
  let older := (s.net.pkts.takeWhile fun q => q.id != p.id).map (·.id)
  (List.range (p.slice + 1)).flatMap fun sl =>
    (mine.filter fun q => q.slice == sl && (decide (sl < p.slice) || older.contains q.id)).map (·.id)

/-- The verdict on one head (R257). A short frame known bad is neither refused nor accepted (R38). -/
def verdictOn (s : State) (id : Nat) : State :=
  match pktOf s id with
  | none => s
  | some p =>
    if gateReady p then
      if p.tail && p.fcsBad && decide (p.data.length ≤ 256) then dropGone s { p with staged := false } else atGate s p
    else s

/-- ADMISSION_VERDICT (R255, R257): on a clock the releases come first, then re-steers, then heads in ascending slice, within one in
order of arrival. -/
def execAdmissionVerdict (id : Nat) (s : State) : Out :=
  run true s <| match pktOf s id with
    | none => s
    | some p =>
      if running s && gateReady p then
        let s1 := (resteersDue s).foldl resteerSlice (releases s)
        verdictOn ((headsBefore s p).foldl verdictOn s1) id
      else s

end Sys2Proof.Machine
end

