-- ==== Sys2Proof/Machine/Objects.lean ====
section
/-!
DEFINITION. Writes of mailbox objects, through a mailbox (R75) or a DMA table write port (R420): reserved encodings of each
object type (R53), targets that refuse writes for the present, and the effect of a write.
-/
namespace Sys2Proof.Machine

/-! ### Reserved encodings of the object types -/

/-- Word n of an object write. -/
def wd (l : List Nat) (n : Nat) : Nat := l.getD n 0

/-- A signed overhead outside −32 to +63. -/
def badOverhead (v : Nat) : Bool := decide (sgn 8 v < -32) || decide (63 < sgn 8 v)

/-- A transition's NEXT is reserved: 512 to 1,022 (R130). -/
def badNext (n : Nat) : Bool := decide (512 ≤ n) && decide (n ≤ 1022)

/-- Parser node record (R130). -/
def badNode (l : List Nat) : Bool :=
  bit (wd l 0) 31 &&
    (decide (32 < bitsOf (wd l 0) 16 11) || (bit (wd l 0) 17 && bitsOf (wd l 0) 16 11 == 0)
      || decide (16 < bitsOf (wd l 1) 17 13) || decide (8192 < bitsOf (wd l 1) 12 0 + bitsOf (wd l 1) 17 13)
      || badNext (bitsOf (wd l 0) 27 18)
      || (List.range 4).any (fun k => let e := wd l (4 + k)
          (bit e 21 && decide (144 < bitsOf e 20 13 + bitsOf e 12 8 + 1)) || bitsOf e 31 22 != 0)
      || bitsOf (wd l 0) 30 28 != 0 || bitsOf (wd l 1) 31 27 != 0 || bitsOf (wd l 2) 31 30 != 0 || bitsOf (wd l 3) 31 28 != 0)

/-- Transition entry (R129, R130). -/
def badTransition (l : List Nat) : Bool := badNext (wd l 2 % 1024) || bitsOf (wd l 2) 31 10 != 0

/-- Action record (R146). -/
def badAction (l : List Nat) : Bool :=
  bitsOf (wd l 0) 31 28 != 0 || bitsOf (wd l 1) 31 30 != 0 || bitsOf (wd l 2) 31 21 != 0 || bitsOf (wd l 3) 31 29 != 0

/-- The Radish table that owns a bank under the shadow classifier configuration (R153): the enabled one that names it, else
the lowest-numbered disabled one. BANKS of a tree table names no bank (R143; DEDUCED, log entry 112). -/
def shadowOwner (s : State) (page : Nat) : Option Nat :=
  let sl := bankSlice page
  let own := (List.range 16).filter fun t =>
    fgetS s clsTblCfgMech sl t == 0 && bit (fgetS s clsTblCfgBanks sl t) (bankNo page)
  (own.find? fun t => fgetS s clsTblCfgEn sl t == 1).or own.head?

/-- Width in units of a bank under the shadow classifier configuration (R153); 0 when no table names it. -/
def shadowUnits (s : State) (page : Nat) : Nat :=
  (shadowOwner s page).elim 0 fun t => units (fgetS s clsTblCfgWidth (bankSlice page) t)

/-- Radish entry objects (R153). -/
def badEntry (s : State) (page obj idx : Nat) (l : List Nat) : Bool :=
  let u := shadowUnits s page
  u == 0 || decide (2048 / u ≤ idx)
    || (if obj = 1 then bit (wd l 0) 30 else ((l.zip (List.range l.length)).foldl (fun a e => a + e.1 * 2 ^ (32 * e.2)) 0) / 2 ^ (80 * u) != 0)

/-- Next hop (R198). -/
def badNextHop (s : State) (l : List Nat) : Bool :=
  let w0 := wd l 0
  let w1 := wd l 1
  bitsOf w0 31 24 != 0 || bitsOf w1 31 21 != 0 || bitsOf (wd l 3) 31 28 != 0 ||
    match w0 % 8 with
    | 0 => bitsOf w0 23 3 != 0 || w1 != 0
    | 1 => decide (384 ≤ nhPort w0) || groupOff s (nhPort w0 / 8)
    | 2 => bitsOf w0 23 19 != 0 || w1 != 0
    | 3 => bitsOf w0 23 19 != 0 || bitsOf w1 31 12 != 0
    | 4 => bitsOf w0 23 9 != 0 || w1 != 0
    | _ => true

/-- ECMP group descriptor (R199). -/
def badGroup (l : List Nat) : Bool :=
  let base := bitsOf (wd l 0) 20 0
  let n := bitsOf (wd l 1) 12 0
  bitsOf (wd l 0) 31 21 != 0 || bitsOf (wd l 1) 30 13 != 0
    || (bit (wd l 1) 31 && (n == 0 || decide (4096 < n) || decide (2097152 < base + n)))

/-- Edit template (R214, R229). -/
def badTemplate (l : List Nat) : Bool :=
  let w0 := wd l 0
  let encLen := bitsOf (wd l 2) 20 13
  let enc := bitsOf w0 24 23
  let v6 := bit w0 25
  let lines := sidLines w0 + (if enc = 0 then 0 else cdiv encLen 64)
  let r := bitsOf (wd l 3) 22 16
  bit w0 0 &&
    (decide (128 < staticGrowth l) || decide (4 < bitsOf w0 12 10) || decide (8 < bitsOf w0 17 14) || decide (6 < bitsOf w0 20 18)
      || bitsOf w0 22 21 == 3 || enc == 3 || (bitsOf w0 22 21 == 1 && (r == 0 || decide (26 < r)))
      || (enc == 1 && encLen != (if v6 then 70 else 50))
      || (enc == 2 && !((if v6 then [58, 62, 66] else [38, 42, 46]).contains encLen))
      || (lines != 0 && decide (8192 < bitsOf (wd l 2) 12 0 + lines))
      || bitsOf w0 31 27 != 0 || bitsOf (wd l 1) 31 27 != 0 || bitsOf (wd l 2) 31 21 != 0 || bitsOf (wd l 3) 31 23 != 0
      || (List.range 8).any (fun k => bitsOf (wd l (4 + k)) 8 0 != 0) || bitsOf (wd l 12) 7 0 != 0
      || bitsOf (wd l 15) 15 14 != 0 || bitsOf (wd l 15) 31 30 != 0)

/-- Policer record (R235). -/
def badPolicer (l : List Nat) : Bool :=
  badOverhead (bitsOf (wd l 2) 31 24) || (bitsOf (wd l 3) 25 24 == 1 && decide (wd l 1 < wd l 0)) || bit (wd l 3) 31

/-- Deadline profile (R244). -/
def badProfile (l : List Nat) : Bool :=
  l.any fun w => bitsOf w 31 30 != 0 || (decide (1 ≤ w) && decide (w ≤ 749)) || decide (1000000000 < w % 2 ^ 30)

/-- Queue configuration of the keeper (Table 8-9). -/
def badAdmQueue (l : List Nat) : Bool :=
  let us := bitsOf (wd l 1) 31 12
  bitsOf (wd l 0) 31 30 != 0 || decide (1000000000 < bitsOf (wd l 0) 29 0) || badOverhead (bitsOf (wd l 1) 7 0)
    || decide (1000000 < us) || (bit (wd l 1) 11 && us == 0)

/-- Replication list header (R297). -/
def badList (l : List Nat) : Bool :=
  let n := bitsOf (wd l 0) 28 18
  decide (262144 < bitsOf (wd l 0) 17 0 + n) || decide (1024 < n) || bitsOf (wd l 0) 30 29 != 0

/-- Replication list member (R297). -/
def badMember (s : State) (l : List Nat) : Bool :=
  let p := bitsOf (wd l 0) 8 0
  decide (384 ≤ p) || groupOff s (p / 8) || bitsOf (wd l 0) 30 22 != 0

/-- Egress queue configuration (Table 11-4). -/
def badEgsQueue (l : List Nat) : Bool :=
  decide (1600000 < bitsOf (wd l 1) 20 0) || bitsOf (wd l 1) 31 21 != 0 || decide (bitsOf (wd l 2) 23 0 < 64)
    || badOverhead (bitsOf (wd l 2) 31 24) || bitsOf (wd l 3) 31 3 != 0

/-- Gate entry (Table 11-5). -/
def badGate (l : List Nat) : Bool :=
  let ns := bitsOf (wd l 0) 29 0
  decide (ns < 8) || decide (1000000000 < ns) || bitsOf (wd l 0) 31 30 != 0 || bitsOf (wd l 1) 31 9 != 0

/-- Subscriber node (Table 11-5); the ranges bind a valid node (log entry 17). -/
def badSub (l : List Nat) : Bool :=
  let rate := bitsOf (wd l 0) 20 0
  bitsOf (wd l 0) 30 21 != 0 || bitsOf (wd l 1) 31 24 != 0 || bitsOf (wd l 2) 31 9 != 0 || wd l 3 != 0
    || (bit (wd l 0) 31 && (rate == 0 || decide (1600000 < rate) || decide (bitsOf (wd l 1) 23 0 < 64)
      || decide (384 ≤ bitsOf (wd l 2) 8 0)))

/-- Peer entry (Table 15-8), judged against the shadow of the other entries. -/
def badPeer (s : State) (idx : Nat) (l : List Nat) : Bool :=
  let id := wd l 0 % 65536
  let rto := bitsOf (wd l 1) 19 0
  let off := fun p => decide (384 ≤ p) || groupOff s (p / 8)
  (bit (wd l 0) 31 && (id == fgetS s prnCfgChipId 0 0 || (List.range 64).any fun k =>
      k != idx && bit (ogetS s .prn 0 3 1 k 0) 31 && ogetS s .prn 0 3 1 k 0 % 65536 == id))
    || decide (rto < 10) || decide (1000000 < rto) || off (bitsOf (wd l 2) 8 0) || off (bitsOf (wd l 2) 24 16)
    || bitsOf (wd l 0) 30 16 != 0 || bitsOf (wd l 1) 31 24 != 0 || bitsOf (wd l 2) 14 9 != 0 || bitsOf (wd l 2) 30 25 != 0
    || bitsOf (wd l 4) 31 16 != 0 || bitsOf (wd l 6) 31 16 != 0 || wd l 7 != 0

/-- An object write carries a reserved encoding. -/
def objBad (s : State) (page obj idx : Nat) (l : List Nat) : Bool :=
  match pageRow page with
  | none => true
  | some r =>
    match r.blk, pnumOf r page, obj with
    | .prs, 0, 1 => badNode l
    | .prs, 0, 2 => badTransition l
    | .cls, 0, 1 => badAction l
    | .rdh, _, o => badEntry s page o idx l
    | .nhp, 0, 1 => badNextHop s l
    | .nhp, 0, 2 => badGroup l
    | .nhp, 0, 3 => bitsOf (wd l 0) 31 20 != 0
    | .nhp, 0, 4 => bitsOf (wd l 0) 30 16 != 0
    | .edt, 0, 1 => badTemplate l
    | .pol, 0, 1 => badPolicer l
    | .adm, 1, 1 => badProfile l
    | .adm, 1, 2 => bitsOf (wd l 0) 31 8 != 0
    | .adm, 2, 1 => badAdmQueue l
    | .bpm, 0, 1 => decide (98304 < bitsOf (wd l 1) 16 0) || bitsOf (wd l 0) 31 17 != 0 || bitsOf (wd l 1) 31 17 != 0
    | .bpm, 1, 1 => badList l
    | .bpm, 1, 2 => badMember s l
    | .egs, 0, 1 => badEgsQueue l
    | .egs, 1, 1 => badGate l
    | .egs, 1, 2 => badSub l
    | .egs, 1, 3 => bitsOf (wd l 0) 30 11 != 0
    | .prn, 3, 1 => badPeer s idx l
    | .holx, 0, 6 => decide (16 ≤ bitsOf (wd l 0) 4 0) || bitsOf (wd l 0) 30 5 != 0
    | .hch, 2, 0x10 => bitsOf (wd l 0) 31 9 != 0
    | .hch, 2, 0x11 => bitsOf (wd l 0) 31 9 != 0
    | .hch, 2, 0x12 => bitsOf (wd l 0) 31 9 != 0
    | _, _, _ => false

/-- The object is keyed (R63). -/
def objKeyed (page obj : Nat) : Bool :=
  (pageRow page).elim false fun r =>
    (r.blk == .prn && pnumOf r page == 3 && obj == 1)
      || (r.blk == .hch && pnumOf r page == 2 && (obj == 0x10 || obj == 0x11 || obj == 0x12 || obj == 0x16))

/-! ### Targets that take no write now -/

/-- A write waits for its target: a syncing bank (R155), a copying EDT page, a table command port (R188, R190). -/
def objWaits (s : State) (page obj : Nat) : Bool :=
  (pageRow page).elim false fun r =>
    match r.blk with
    | .rdh => obj != 4 && bankSyncing s page
    | .edt => decide (obj ≤ 2) && fget s edtStatCopy (instOf r page) 0 == 1
    | .lek => pnumOf r page == 0 && obj == 1 && !portTakes s false
    | .chd => pnumOf r page == 0 && obj == 1 && !portTakes s true
    | _ => false

/-- The former active half of the target is held (R204, R213): mailbox writes are ignored. -/
def objHeld (s : State) (page obj : Nat) : Bool :=
  (pageRow page).elim false fun r =>
    match r.blk with
    | .nhp => decide (obj ≤ 4) && fget s nhpStatHeld (instOf r page) 0 == 1
    | .edt => decide (obj ≤ 2) && fget s edtStatHeld (instOf r page) 0 == 1
    | _ => false

/-! ### The write -/

/-- A tree memory word lies inside the region of a valid descriptor of the active configuration, or of the previous one
while it has readers (R163). -/
def treeProtected (s : State) (k a : Nat) : Bool :=
  (List.range 16).any fun t => [false, true].any fun old =>
    (!old || fget s treStatOldReaders k 0 == 1) && fgetE s old treTreeCtlValid k t == 1
      && decide (fgetE s old treTreeImgBaseImgBase k t ≤ a)
      && decide (a < fgetE s old treTreeImgBaseImgBase k t + fgetE s old treTreeImgWordsImgWords k t)

/-- The words of an object are written to its shadow or its only copy. -/
def objStore (s : State) (page obj idx : Nat) (sh : Bool) (l : List Nat) : State :=
  ((List.range l.length).zip l).foldl (fun a e =>
    let k := objKey page obj idx e.1
    if sh then setShd a k (BitVec.ofNat 32 e.2) else setAct a k (BitVec.ofNat 32 e.2)) s

/-- The effect of an accepted object write (its words already judged). -/
def objApply (s : State) (page obj idx : Nat) (o : Obj) (l : List Nat) : State :=
  match pageRow page with
  | none => s
  | some r =>
    let i := instOf r page
    match r.blk, obj with
    | .tre, 1 => if treeProtected s i idx then bump s .tre i 0 2 0 0 else objStore s page obj idx false l
    | .lek, 1 => { s with tbl := { s.tbl with cmds := s.tbl.cmds ++ [⟨false, l.flatMap (toLE 4)⟩] } }
    | .chd, 1 => { s with tbl := { s.tbl with cmds := s.tbl.cmds ++ [⟨true, l.flatMap (toLE 4)⟩] } }
    | .hch, 0x16 => tapStep s i idx (wd l 0)
    | .hch, n => if o.kind != .rw || (decide (n ≤ 0x12) && chanState s i != 2) then s else objStore s page obj idx false l
    | .holc, 1 => objStore s page obj idx false [wd l 0, wd l 1 % 65536]
    | _, _ =>
      match o.kind with
      | .sh => if groupPending s (groupOf s page) || objHeld s page obj then s else objStore s page obj idx true l
      | .rw => objStore s page obj idx false l
      | _ => s

/-- A write of an object, with its reserved encodings (R53, R75): whether it was taken. -/
def objWrite (s : State) (page obj idx : Nat) (l : List Nat) : Bool × State :=
  match objAt page obj with
  | none => (false, s)
  | some o => if objBad s page obj idx l then (false, s) else (true, objApply s page obj idx o l)

/-! ### Table write ports (Table 14-3) -/

/-- A table write port: record bytes, and the pages it reaches for an instance field; none where the field is not
listed. -/
def tablePort (port inst : Nat) : Option (Nat × List Nat) :=
  let all := fun (b : Blk) (n pn : Nat) => (List.range n).map fun i => pageOf b i pn
  match port with
  | 0x01 => if inst < 8 then some (32, [pageOf .prs inst 0]) else if inst = 255 then some (32, all .prs 8 0) else none
  | 0x02 => if inst < 8 then some (12, [pageOf .prs inst 0]) else if inst = 255 then some (12, all .prs 8 0) else none
  | 0x03 => if inst < 8 then some (16, [pageOf .cls inst 0]) else none
  | 0x04 => if inst < 128 then some (96, [320 + inst]) else none
  | 0x05 => if inst < 4 then some (32, [pageOf .tre inst 0]) else none
  | 0x06 => some (64, [pageOf .lek 0 0])
  | 0x07 => some (64, [pageOf .chd 0 0])
  | 0x08 => some (16, all .nhp 4 0)
  | 0x09 => some (8, all .nhp 4 0)
  | 0x0A => some (4, all .nhp 4 0)
  | 0x0B => some (4, all .nhp 4 0)
  | 0x0C => some (64, all .edt 8 0)
  | 0x0D => some (64, all .edt 8 0)
  | 0x0E => if inst < 8 then some (16, [pageOf .pol inst 0]) else none
  | 0x0F => some (32, all .adm 8 1)
  | 0x10 => some (4, all .adm 8 1)
  | 0x11 => some (4, all .bpm 8 1)
  | 0x12 => some (4, all .bpm 8 1)
  | _ => none

/-- Object type a port writes (the first of the three of a Radish entry), and the objects it has. -/
def portObj (port : Nat) : Nat × Nat :=
  match port with
  | 0x01 => (1, 512) | 0x02 => (2, 8192) | 0x03 => (1, 16384) | 0x04 => (1, 2048) | 0x05 => (1, 524288)
  | 0x08 => (1, 1048576) | 0x09 => (2, 65536) | 0x0A => (3, 2097152) | 0x0B => (4, 16384) | 0x0C => (1, 4096)
  | 0x0D => (2, 8192) | 0x0E => (1, 16384) | 0x0F => (1, 256) | 0x10 => (2, 16384) | 0x11 => (1, 65536) | 0x12 => (2, 262144)
  | _ => (1, 2 ^ 32)

/-- The object writes of one record on one page: object type and words. -/
def recordWrites (port : Nat) (rec_ : List Byte) : List (Nat × List Nat) :=
  let ws := (List.range (rec_.length / 4)).map fun k => ofLE (slice rec_ (4 * k) 4)
  if port = 4 then [(2, ws.take 10), (3, (ws.drop 10).take 10), (1, (ws.drop 20).take 1)] else [((portObj port).1, ws)]

/-- The record's target refuses writes for now (R420). -/
def recordWaits (s : State) (port : Nat) (pages : List Nat) : Bool :=
  let obj := (portObj port).1
  pages.all (pageReady s) && pages.any fun p => objWaits s p obj || objHeld s p obj
    || (port != 5 && groupPending s (groupOf s p))

/-- Words 21-23 of a Radish record must be zero (R153). -/
def recordZeros (port : Nat) (rec_ : List Byte) : Bool := port != 4 || (rec_.drop 84).all (· == 0)

/-- One record reaches its target: whether it was taken whole, else it is ignored (R420, R514). -/
def recordWrite (s : State) (port idx : Nat) (pages : List Nat) (rec_ : List Byte) : Bool × State :=
  let ws := recordWrites port rec_
  let at_ := if port = 6 ∨ port = 7 then 0 else idx
  if pages.all (pageReady s) && recordZeros port rec_ && pages.all fun p => ws.all fun w => !objBad s p w.1 at_ w.2 then
    (true, pages.foldl (fun a p => ws.foldl (fun b w => (objWrite b p w.1 at_ w.2).2) a) s)
  else (false, s)

end Sys2Proof.Machine
end

