-- ==== Sys2Proof/Machine/Dma.lean ====
section
/-!
DEFINITION. The DMA engine (R418-R433): starts, descriptor fetches and their checks, bursts and arbitration, errors on
the main path and in fall-back, table write ports, completion pulses, and stops. One read of a channel is outstanding at a
time (log entry 18).
-/
namespace Sys2Proof.Machine

/-! ### Channels -/

/-- A channel at reset. -/
def chanReset : Chan :=
  { gen := 0, phase := 0, desc := [], loc := 0, moved := 0, len := 0, reqAt := 0, late := 0, buf := [], recs := 0,
    ignored := false, tries := 0, stop := false, waited := 0, since := 0, stallAt := none }

/-- State of a channel. -/
def dmaCh (s : State) (c : Nat) : Chan := storeGet chanReset s.dma.chans c

/-- Replace a channel's state. -/
def putCh (s : State) (c : Nat) (x : Chan) : State :=
  { s with dma := { s.dma with chans := storeSet chanReset c x s.dma.chans } }

/-- Change a channel's state. -/
def modCh (s : State) (c : Nat) (f : Chan → Chan) : State := putCh s c (f (dmaCh s c))

/-- A counter of a channel page. -/
def dmaCount (s : State) (c k n : Nat) : State := bumpBy s .dmac c 0 1 k 0 n

/-- A counter of the common page. -/
def dmaCommon (s : State) (k : Nat) : State := bump s .dmax 32 0 1 k 0

/-- STATE of a channel. -/
def dmaState (s : State) (c : Nat) : Nat := fget s dmacChStatState c 0

/-- A channel that takes a start: IDLE or HALTED. -/
def dmaFree (s : State) (c : Nat) : Bool := dmaState s c == 0 || dmaState s c == 4

/-- The host answers DMA: the link is up, in D0 (R496, R500). -/
def hostThere (s : State) : Bool := s.boot.link && !s.boot.d3

/-- The channel halts with a code; an error source fires with it (R424, R425, R428). -/
def dmaHalt (s : State) (c code : Nat) : State :=
  let s1 := fset (fset s dmacChStatState c 0 4) dmacChStatHalt c 0 code
  let s2 := modCh s1 c fun x => { x with phase := 0, stop := false, stallAt := none, buf := [] }
  let s3 := if code = 8 then fset s2 dmacChStatPending c 0 0 else s2
  if code = 6 ∨ code = 7 then fire s3 (pageOf .dmac c 0) 1
  else if 3 ≤ code ∧ code ≤ 5 then fire s3 (pageOf .dmac c 0) 2 else s3

/-! ### Descriptors (R418, R419) -/

/-- Fields of Table 14-1. -/
def dSrc (d : List Byte) : Nat := ofLE (slice d 0 8)
def dDst (d : List Byte) : Nat := ofLE (slice d 8 8)
def dNext (d : List Byte) : Nat := ofLE (slice d 16 8) / 32 * 32
def dLen (d : List Byte) : Nat := ofLE (slice d 24 3)
def dEnd (d : List Byte) : Bool := bit (byteAt d 27) 0
def dSrcSpace (d : List Byte) : Nat := byteAt d 28 % 16
def dDstSpace (d : List Byte) : Nat := byteAt d 28 / 16

/-- Port, instance and first index of a space 3 address (Table 14-2). -/
def dPort (d : List Byte) : Nat := dDst d / 2 ^ 32 % 256
def dInst (d : List Byte) : Nat := dDst d / 2 ^ 40 % 256
def dIndex (d : List Byte) : Nat := dDst d % 2 ^ 32

/-- [a, a + n) lies in the TCMs by core or in shared memory. -/
def inHol (a n : Nat) : Bool :=
  (decide (0x1000000 ≤ a) && decide (a + n ≤ 0x1400000)) || inShm a n

/-- An address of space 1 or 2 fits a descriptor of `n` bytes. -/
def spaceBad (sp a n : Nat) : Bool :=
  match sp with
  | 1 => a % 32 != 0 || n % 32 != 0
  | 2 => !inHol (a % 2 ^ 36) n
  | _ => false

/-- The descriptor is bad (R419). -/
def descBad (d : List Byte) : Bool :=
  decide (2 < dSrcSpace d) || decide (3 < dDstSpace d) || dLen d == 0
    || spaceBad (dSrcSpace d) (dSrc d) (dLen d) || spaceBad (dDstSpace d) (dDst d) (dLen d)
    || byteAt d 27 / 4 != 0
    || (dDstSpace d == 3 && match tablePort (dPort d) (dInst d) with
      | none => true
      | some r => dLen d % r.1 != 0
          || (dPort d != 6 && dPort d != 7 && decide ((portObj (dPort d)).2 < dIndex d + dLen d / r.1)))

/-- DONE_GEN and STATUS are written back as one 2-byte write (R424). -/
def writeBack (s : State) (c status : Nat) : State :=
  let x := dmaCh s c
  let bytes : List Byte := [BitVec.ofNat 8 x.gen, BitVec.ofNat 8 status]
  if fget s dmacChCfgDescSpace c 0 = 1 then (if inShm (x.loc + 30) 2 then memWrite s (x.loc + 30) bytes else s)
  else if hostThere s then emit s (.hostWrite (x.loc + 30) bytes) else s

/-- The channel requests the descriptor at an address. -/
def fetchDesc (s : State) (c a : Nat) : State :=
  let s1 := fset (fset s dmacCurDescLoAddr c 0 a) dmacCurDescHiAddr c 0 (a / 2 ^ 32)
  let s2 := modCh s1 c fun x => { x with
    phase := 1, loc := a, desc := [], moved := 0, len := 32, reqAt := s.clk, buf := [], recs := 0, ignored := false }
  if fget s2 dmacChCfgDescSpace c 0 = 0 ∧ hostThere s2 = true then emit s2 (.hostRead c a 32) else s2

/-- A start (R423): CH_DESC is fetched under CH_CTL.GEN. -/
def dmaBegin (s : State) (c : Nat) : State :=
  let s1 := fset (fset (fset (fset s dmacChStatState c 0 1) dmacChStatHalt c 0 0) dmacCurIndexN c 0 0) dmacBadCountN c 0 0
  let s2 := dmaCount (modCh s1 c fun x => { chanReset with gen := fget s1 dmacChCtlGen c 0, late := x.late }) c 5 1
  fetchDesc s2 c (fget s2 dmacChDescHiAddr c 0 * 2 ^ 32 + fget s2 dmacChDescLoAddr c 0 * 32)

/-- CH_CTL.GO (R423); a contained channel takes no start. -/
def dmaGo (s : State) (c : Nat) : State :=
  if dmaFree s c && !isContained s (.dma c) then dmaBegin s c else s

/-- A start requested by a pulse (R423): at once, held, or absorbed and counted. -/
def dmaChain (s : State) (c : Nat) : State :=
  if isContained s (.dma c) then s
  else if dmaFree s c then dmaBegin s c
  else if fget s dmacChStatPending c 0 = 0 then fset s dmacChStatPending c 0 1
  else dmaCount s c 6 1

/-- The channel stops (R431): the descriptor in progress takes STATUS 0x86. -/
def stopNow (s : State) (c : Nat) : State :=
  if dmaFree s c then s
  else dmaHalt (if (dmaCh s c).desc.isEmpty then s else writeBack s c 0x86) c 8

/-- A stalled channel counts its CLK_MGT cycles (Table 14-7). -/
def stallClock (s : State) (c : Nat) : State :=
  if (dmaCh s c).stallAt.any fun t => (s.clk - t) % 2 == 0 then dmaCount s c 7 1 else s

/-- At a core clock: channels asked to stop between bursts stop (R431), and held starts begin, the clock after a halt (R423). -/
def dmaTick (s : State) : State :=
  (s.dma.chans.map (·.1)).foldl (fun s c =>
    let a := stallClock s c
    let x := dmaCh a c
    if fget a dmacChStatPending c 0 = 1 ∧ dmaFree a c = true then dmaBegin (fset a dmacChStatPending c 0 0) c
    else if x.stop = true ∧ (x.phase = 2 ∨ x.phase = 4) ∧ dmaFree a c = false then stopNow a c
    else a) s

/-- CH_CTL.STOP (R431, R432): at the next burst boundary, which between bursts is the end of this clock; a chain that ends on this
clock, or has ended, ends as it would. -/
def dmaStop (s : State) (c : Nat) : State :=
  if dmaFree s c || (dmaCh s c).phase == 5 then s else modCh s c fun x => { x with stop := true }

/-- Every channel stops at once (R431, R500). -/
def stopAll (s : State) : State := (s.dma.chans.map (·.1)).foldl stopNow s

/-- A descriptor has been finished with a status: written back, and NEXT, the chain's end or its limit follow (R424-R426). -/
def descDone (s : State) (c status : Nat) : State :=
  let s1 := dmaCount (fset (writeBack s c status) dmacCurIndexN c 0 (fget s dmacCurIndexN c 0 + 1)) c 1 1
  let x := dmaCh s1 c
  if dEnd x.desc then modCh s1 c fun y => { y with phase := 5 }
  else if 65536 ≤ fget s1 dmacCurIndexN c 0 then dmaHalt s1 c 5
  else fetchDesc s1 c (dNext x.desc)

/-- A descriptor ends with an error (R428): marked bad on the main path, the channel halts in fall-back. -/
def descError (s : State) (c code : Nat) : State :=
  let s1 := dmaCount (fset s dmacBadCountN c 0 (min 65535 (fget s dmacBadCountN c 0 + 1))) c 2 1
  if fget s1 dmacChCfgMode c 0 = 0 then
    descDone (modCh (fire s1 (pageOf .dmac c 0) 0) c fun x => { x with buf := [] }) c code
  else dmaHalt (writeBack s1 c code) c 6

/-! ### Memory of the device as the engine reaches it -/

/-- A word of TCM or shared memory is read or written: an injected error is corrected or uncorrectable (R408). -/
def holEcc (s : State) (a : Nat) : Bool × State :=
  let c := (a - 0x1000000) / 0x40000 % 16
  if inShm a 1 then eccCheck s (pageOf .holx 16 0) 0 1 (fun t => bump t .holx 16 0 8 2 0) (fun t => bump t .holx 16 0 8 3 0)
  else eccCheck s (pageOf .holc c 0) 0 1 (fun t => bump t .holc c 0 2 4 0) (fun t => bump t .holc c 0 2 5 0)

/-- Bytes of a source in the device; none on an error (0x85). -/
def devRead (s : State) (sp a n : Nat) : Option (List Byte) × State :=
  if sp = 1 then burlapRead s 6 (addr36 s a) n
  else
    let e := holEcc s (a % 2 ^ 36)
    if e.1 then (none, e.2) else (some (memBytes e.2 (a % 2 ^ 36) n), e.2)

/-- Bytes reach a destination; the error code, or none. -/
def devWrite (s : State) (c sp a : Nat) (bytes : List Byte) : Option Nat × State :=
  match sp with
  | 0 => if hostThere s then (none, emit s (.hostWrite (a % 2 ^ 64) bytes)) else (some 0x82, s)
  | 1 =>
    let w := burlapWrite s 6 (addr36 s a) bytes
    (if 2 ≤ w.1 then some 0x85 else none, w.2)
  | 2 => (none, memWrite s (a % 2 ^ 36) bytes)
  | _ => (none, modCh s c fun x => { x with buf := x.buf ++ bytes })

/-! ### Bursts (R421, R422) -/

/-- A burst's bytes have been written: the channel goes on; the end of the chain wins over a stop (R432). -/
def burstDone (s : State) (c n : Nat) : State :=
  let s1 := dmaCount (fset s dmacChStatState c 0 1) c 0 n
  let s2 := modCh s1 c fun x => { x with moved := x.moved + n, tries := 0, phase := 2, since := s.clk, waited := 0 }
  let x := dmaCh s2 c
  let last := decide (x.moved = dLen x.desc) && dDstSpace x.desc != 3 && dEnd x.desc
  if x.stop && !last then stopNow s2 c
  else if dDstSpace x.desc = 3 then modCh s2 c fun y => { y with phase := 4 }
  else if x.moved = dLen x.desc then descDone s2 c 1 else s2

/-- The burst of a channel is tried, with the retries fall-back mode leaves (the first argument bounds them). -/
def tryBurst : Nat → State → Nat → State
  | 0, s, _ => s
  | fuel + 1, s, c =>
    let x := dmaCh s c
    let a := dSrc x.desc + x.moved
    let again := fun (t : State) (code : Nat) =>
      if (dmaCh t c).stop then stopNow t c
      else if fget t dmacChCfgMode c 0 = 1 ∧ (dmaCh t c).tries < fget t dmacChCfgRetryMax c 0 then
        tryBurst fuel (dmaCount (fset (modCh t c fun y => { y with tries := y.tries + 1 }) dmacChStatState c 0 3) c 3 1) c
      else descError t c code
    if dSrcSpace x.desc = 0 then
      if hostThere s then
        emit (modCh s c fun y => { y with phase := 3, reqAt := s.clk }) (.hostRead c a x.len)
      else again s 0x81
    else match devRead s (dSrcSpace x.desc) a x.len with
      | (none, t) => again t 0x85
      | (some bytes, t) => match devWrite t c (dDstSpace x.desc) (dDst x.desc + x.moved) bytes with
        | (none, u) => burstDone u c x.len
        | (some code, u) => again u code

/-- A read of a channel has failed. -/
def readFailed (s : State) (c code : Nat) : State :=
  if (dmaCh s c).stop then stopNow s c
  else if fget s dmacChCfgMode c 0 = 1 ∧ (dmaCh s c).tries < fget s dmacChCfgRetryMax c 0 then
    tryBurst 17 (dmaCount (fset (modCh s c fun y => { y with tries := y.tries + 1 }) dmacChStatState c 0 3) c 3 1) c
  else descError s c code

/-- The channel has a burst ready. -/
def burstReady (s : State) (c : Nat) : Bool :=
  (dmaCh s c).phase == 2 && !isContained s (.dma c)

/-- The channel the engine grants next (R421). -/
def burstPick (s : State) : Option Nat :=
  let ready := (List.range 32).filter (burstReady s)
  let starving := ready.filter fun c => decide (15 ≤ (dmaCh s c).waited)
  match starving with
  | c :: r => some (r.foldl (fun b d => if (dmaCh s d).since < (dmaCh s b).since then d else b) c)
  | [] =>
    match (List.range 4).find? fun p => ready.any fun c => fget s dmacChCfgPrio c 0 == p with
    | none => none
    | some p =>
      let l := ready.filter fun c => fget s dmacChCfgPrio c 0 == p
      let last := storeGet 31 s.dma.turn p
      (l.find? fun c => decide (last < c)).or l.head?

/-- A burst is granted to a channel (R421): its turn at its priority, and the waits of the others that are ready. -/
def dmaGrant (s : State) (c : Nat) : State :=
  let p := fget s dmacChCfgPrio c 0
  (List.range 32).foldl (fun a d =>
    if d ≠ c ∧ burstReady a d = true then
      modCh a d fun x => { x with waited := if p < fget a dmacChCfgPrio d 0 then x.waited + 1 else 0 }
    else a) { s with dma := { s.dma with lastBurst := some s.clk, turn := storePut p c s.dma.turn } }

/-- Bytes of a channel's next burst (R421): to the next 512-byte boundary of the source, or to the descriptor's end. -/
def burstLen (x : Chan) : Nat := min (512 - (dSrc x.desc + x.moved) % 512) (dLen x.desc - x.moved)

/-- DMA_BURST (R421): the engine grants a burst to the channel its arbitration picks, 4 CLK_MGT cycles after the last. -/
def execDmaBurst (c : Nat) (s : State) : Out :=
  run (c < 32) s <|
    if burstPick s = some c ∧ s.boot.mgmtUp = true ∧ s.dma.lastBurst.elim true (fun t => decide (t + 8 ≤ s.clk)) = true then
      let s1 := dmaGrant s c
      tryBurst 17 (modCh s1 c fun y => { y with len := burstLen (dmaCh s1 c), waited := 0 }) c
    else s

/-! ### Fetch and completion -/

/-- A descriptor fetch has failed (R424). -/
def fetchFailed (s : State) (c : Nat) : State :=
  if fget s dmacChCfgMode c 0 = 1 ∧ (dmaCh s c).tries < fget s dmacChCfgRetryMax c 0 then
    if (dmaCh s c).stop then stopNow s c else
    let s1 := dmaCount (fset (modCh s c fun y => { y with tries := y.tries + 1 }) dmacChStatState c 0 3) c 3 1
    fetchDesc s1 c (dmaCh s1 c).loc
  else dmaHalt s c 7

/-- A descriptor has been fetched: checked, then moved (R419, R424). -/
def descIn (s : State) (c : Nat) (d : List Byte) : State :=
  let s1 := fset (modCh s c fun x => { x with tries := 0 }) dmacChStatState c 0 1
  let x := dmaCh s1 c
  if byteAt d 29 ≠ x.gen then dmaHalt s1 c 3
  else if byteAt d 30 = x.gen then dmaHalt s1 c 4
  else
    let s2 := modCh s1 c fun y => { y with desc := d, phase := 2, since := s.clk, waited := 0 }
    if x.stop then stopNow s2 c
    else if descBad d then descError s2 c 0x84 else s2

/-- DESCRIPTOR_FETCH (R418, R424): the fetched bytes arrive, or an error completion (other than 32 bytes); a descriptor in
shared memory is read there. `late`: the completion of a request that had timed out (R429). -/
def execDescriptorFetch (c : Nat) (bytes : List Byte) (late : Bool) (s : State) : Out :=
  run (c < 32) s <|
    let x := dmaCh s c
    if late then (if x.late = 0 then s else dmaCount (modCh s c fun y => { y with late := y.late - 1 }) c 4 1)
    else if x.phase = 1 ∧ s.boot.mgmtUp = true ∧ isContained s (.dma c) = false then
      if fget s dmacChCfgDescSpace c 0 = 0 then
        (if bytes.length = 32 ∧ hostThere s = true then descIn s c bytes else fetchFailed s c)
      else if inShm x.loc 32 then
        let e := holEcc s x.loc
        if e.1 then fetchFailed e.2 c else descIn e.2 c (memBytes e.2 x.loc 32)
      else fetchFailed s c
    else s

/-- DMA_READ_COMPLETION (R422): the data of the outstanding read, or an error completion (another length). -/
def execDmaReadCompletion (c : Nat) (bytes : List Byte) (late : Bool) (s : State) : Out :=
  run (c < 32) s <|
    let x := dmaCh s c
    if late then (if x.late = 0 then s else dmaCount (modCh s c fun y => { y with late := y.late - 1 }) c 4 1)
    else if x.phase = 3 ∧ s.boot.mgmtUp = true then
      if bytes.length = x.len ∧ hostThere s = true then
        match devWrite s c (dDstSpace x.desc) (dDst x.desc + x.moved) bytes with
        | (none, u) => burstDone u c x.len
        | (some code, u) => readFailed u c code
      else readFailed s c 0x81
    else s

/-- A command of this clock brings the completion that a channel awaits. -/
def dmaComes (c : Nat) : Instr → Bool
  | .descriptorFetch k _ late => k == c && !late
  | .dmaReadCompletion k _ late => k == c && !late
  | _ => false

/-- DMA_COMPLETION_TIMEOUT (R427, R429): TMO_US after the request, unless the completion comes on this clock (R45); one that still
comes is late. -/
def execDmaCompletionTimeout (c : Nat) (s : State) : Out :=
  run (c < 32) s <|
    let x := dmaCh s c
    if (x.phase = 3 ∨ (x.phase = 1 ∧ fget s dmacChCfgDescSpace c 0 = 0))
        ∧ passedNs s x.reqAt (fget s dmacChTmoTmoUs c 0 * 1000) = true ∧ s.pending.any (dmaComes c) = false then
      let s1 := dmaCommon (modCh s c fun y => { y with late := y.late + 1 }) 1
      if x.phase = 3 then readFailed s1 c 0x83 else fetchFailed s1 c
    else s

/-! ### Table write ports (R420) -/

/-- The first record of the channel's buffer reaches its target, and a stall ends; one its target ignores is
counted and marks the descriptor (R420). -/
def recordTake (s : State) (c bytes : Nat) (pages : List Nat) : State :=
  let x := dmaCh s c
  let s1 := if x.stallAt.isSome then fset s dmacChStatState c 0 1 else s
  let w := recordWrite s1 (dPort x.desc) (dIndex x.desc + x.recs) pages (x.buf.take bytes)
  let s2 := modCh w.2 c fun y => { y with
    buf := y.buf.drop bytes, recs := y.recs + 1, stallAt := none, ignored := y.ignored || !w.1 }
  if w.1 then s2 else dmaCommon s2 0

/-- With less than a record in the buffer the channel reads on, or has done its descriptor. -/
def recordNext (s : State) (c bytes : Nat) : State :=
  let x := dmaCh s c
  if bytes ≤ x.buf.length then s
  else if x.moved = dLen x.desc then descDone s c (if x.ignored then 2 else 1)
  else modCh s c fun y => { y with phase := 2, since := s.clk, waited := 0 }

/-- TABLE_RECORD_WRITE (R420): the next record is staged, or the channel stalls while its target refuses writes. -/
def execTableRecordWrite (c : Nat) (s : State) : Out :=
  run (c < 32) s <|
    let x := dmaCh s c
    match tablePort (dPort x.desc) (dInst x.desc) with
    | none => s
    | some r =>
      if x.phase ≠ 4 ∨ s.boot.mgmtUp = false ∨ isContained s (.dma c) = true then s
      else if x.buf.length < r.1 then recordNext s c r.1
      else if recordWaits s (dPort x.desc) r.2 then
        if x.stallAt = none then fset (modCh s c fun y => { y with stallAt := some s.clk }) dmacChStatState c 0 2 else s
      else recordNext (recordTake s c r.1 r.2) c r.1

/-! ### The end of a chain (R426, R430) -/

/-- CHAIN_END (R426, R428, R430). -/
def execChainEnd (c : Nat) (s : State) : Out :=
  run (c < 32) s <|
    if (dmaCh s c).phase = 5 ∧ s.boot.mgmtUp = true then
      let quiet := fget s dmacChCfgSuppressBad c 0 == 1 && fget s dmacBadCountN c 0 != 0
      let s1 := fset (fset s dmacChStatState c 0 0) dmacChStatHalt c 0 (if quiet then 2 else 1)
      let s2 := modCh s1 c fun x => { x with phase := 0, stop := false, buf := [] }
      if quiet then s2
      else match fget s2 dmacChCfgPulse c 0 with
        | 1 => strobeSlow s2 (fget s2 dmacChCfgStrobeMask c 0)
        | 2 => pulse s2 (144 + c)
        | 3 => dmaChain s2 (fget s2 dmacChCfgChainCh c 0)
        | _ => s2
    else s

/-- Writes of CH_CFG, CH_TMO and CH_DESC are ignored while the channel works. -/
def dmaCfgHeld (s : State) (page off : Nat) : Bool :=
  (pageRow page).elim false fun r => r.blk == .dmac && [0x100, 0x104, 0x108, 0x10C].contains off && !dmaFree s (instOf r page)

/-- A timeout that does not exceed the replay budget is refused (R429). -/
def tmoRefused (s : State) (v : Nat) : Bool := decide (v % 65536 * 1000 ≤ fget s dmaxReplayNsNs 32 0)

/-- CMN_STAT.CFG_REFUSED sets, it is counted, and common source 0 fires (R429). -/
def tmoRefuse (s : State) : State :=
  fire (dmaCommon (fset s dmaxCmnStatCfgRefused 32 0 1) 2) (pageOf .dmax 32 0) 0

end Sys2Proof.Machine
end

