-- ==== Sys2Proof/Machine/Hart.lean ====
section
/-!
DEFINITION. Holtarun beside its instructions: threads as records (R394), new frames' records, the punt and inject engines
(R409, R410), cluster timers, and restarts (R416), with the start of the boot ROM (R466, R479, R480).
-/
namespace Sys2Proof.Machine

/-! ### Threads -/

/-- An IDLE context never started. -/
def hartIdle : Hart :=
  { st := .idle, user := false, pc := 0, x := List.replicate 32 0, csr := [], pmp := List.replicate 16 (0, 0), gen := 0,
    exitV := none, resv := none, tsHi := 0, waitAt := 0, waitArg := 0, waitEnd := none, rd := 0, was := .idle, bulk := false, raw := 0 }

/-- Record of a thread. -/
def hartOf (s : State) (h : Nat) : Hart := storeGet hartIdle s.hol.harts h

/-- Replace a thread's record. -/
def putHart (s : State) (h : Nat) (t : Hart) : State :=
  { s with hol := { s.hol with harts := storeSet hartIdle h t s.hol.harts } }

/-- A context starts at an address in M mode with arguments, its registers and CSRs reset. -/
def startHart (s : State) (h pc : Nat) (args : List Nat) : State :=
  let t := hartOf s h
  putHart s h { hartIdle with
    st := .ready, pc := pc, gen := t.gen, exitV := t.exitV, tsHi := t.tsHi
    x := (List.range 32).map fun n => if 10 ≤ n then args.getD (n - 10) 0 else 0 }

/-- Integer register write; x0 stays zero. -/
def setX (t : Hart) (rd v : Nat) : Hart := if rd = 0 then t else { t with x := t.x.set rd (v % 2 ^ 64) }

/-- The thread's minstret counts an instruction. -/
def countRetired (t : Hart) : Hart := { t with csr := storeSet 0 0xB02 ((storeGet 0 t.csr 0xB02 + 1) % 2 ^ 64) t.csr }

/-! ### The issue wheel (R395) -/

/-- CLK_CTL cycle of a core clock. -/
def cycleAt (clk : Nat) : Nat := clk * 16 / 20

/-- What a core's wheel gave last. -/
def issued (s : State) (c : Nat) : Issue := storeGet ⟨0, 0, 0, [], false, false⟩ s.hol.wheel c

/-- What a core's wheel gave in this cycle already. -/
def issuedNow (s : State) (c : Nat) : Option Issue :=
  let r := issued s c
  if r.n ≠ 0 ∧ r.cycle = cycleAt s.clk then some r else none

/-- The thread to which a core's slot of this cycle goes: its owner, or the next READY one after it. -/
def slotThread (s : State) (c : Nat) : Option Nat :=
  ((List.range 8).map fun k => 8 * c + (cycleAt s.clk + k) % 8).find? fun h => (hartOf s h).st == .ready

/-! ### Performance counters and samples (R412, R413) -/

/-- An event of kind C (Table 13-8). -/
def evtC (e : Nat) : Bool := [1, 3, 4, 5, 6, 13, 16].contains e

/-- Value of a 48-bit counter of a core (HOL OBJ 0x01). -/
def perfGet (s : State) (c k : Nat) : Nat := oget s .holc c 0 1 k 0 + oget s .holc c 0 1 k 1 % 65536 * 2 ^ 32

/-- Set a counter. -/
def perfSet (s : State) (c k v : Nat) : State := oset (oset s .holc c 0 1 k 0 (v % 2 ^ 32)) .holc c 0 1 k 1 (v / 2 ^ 32 % 65536)

/-- Add to a counter, saturating (R48). -/
def perfAdd (s : State) (c k n : Nat) : State := perfSet s c k (min (2 ^ 48 - 1) (perfGet s c k + n))

/-- Counters that the events of a thread raise, with the increments. -/
def perfHits (s : State) (h : Nat) (user : Bool) (evs : List Nat) : List (Nat × Nat) :=
  let c := h / 8
  if fget s holcPerfCtlFreeze c 0 = 1 then []
  else (List.range 8).filterMap fun k =>
    let e := fget s holcPerfSelEvent c k
    let n := (evs.filter (· == e)).length
    let mode := if user then fget s holcPerfSelU c k else fget s holcPerfSelM c k
    if n ≠ 0 ∧ e ≠ 0 ∧ fget s holcPerfSelEn c k = 1
        ∧ (evtC e = true ∨ (bit (fget s holcPerfSelThreads c k) (h % 8) = true ∧ mode = 1))
    then some (k, n) else none

/-- The dual-issue bit of a sample: 1 for the second instruction of a cycle; the first cannot know yet what the pipeline issues
beside it (free value). -/
def dualMark (s : State) (h : Nat) : Nat × State :=
  if (issuedNow s (h / 8)).any (fun r => r.th == h && r.n == 2) then (1, s) else choose s 2

/-- A sample record (Table 13-9) enters the core's ring; LATENCY is the pipeline's (free value). -/
def threadSample (s : State) (h : Nat) (user : Bool) (pc raw : Nat) (hits : List (Nat × Nat)) (evs : List Nat) : State :=
  let c := h / 8
  let size := 2 ^ fget s holcSampRctlSizeLog2 c 0
  let head := fget s holcSampPtrHead c 0
  let has := fun (l : List Nat) => b2n (l.any evs.contains)
  if ringFull head (fget s holcSampPtrTail c 0) size then
    let s1 := fire (bump s .holc c 0 2 1 0) (pageOf .holc c 0) 2
    { s1 with hol := { s1.hol with sampLost := storePut c 1 s1.hol.sampLost } }
  else
    let lat := choose s 65536
    let dual := dualMark lat.2 h
    let marks := hits.foldl (fun a e => a + 2 ^ e.1) 0 + has [11] * 2 ^ 8 + has [12] * 2 ^ 9 + has [14] * 2 ^ 10
      + has [15] * 2 ^ 11 + has [18, 19] * 2 ^ 12 + has [30] * 2 ^ 13 + dual.1 * 2 ^ 14
    let ns := nsOf (tbNow s)
    let rec_ := toLE 8 pc ++ toLE 4 raw ++ toLE 1 h ++ toLE 1 (b2n user + 2 * storeGet 0 s.hol.sampLost c) ++ toLE 2 lat.1
      ++ toLE 4 marks ++ toLE 4 (ns % 1000000000) ++ toLE 4 (ns / 1000000000) ++ toLE 4 0
    let s1 := memWrite dual.2 (shmBase + fget s holcSampBaseBase c 0 * 32 + 32 * head) rec_
    let nh := (head + 1) % size
    let s2 := bump (fset s1 holcSampPtrHead c 0 nh) .holc c 0 2 0 0
    let s3 := { s2 with hol := { s2.hol with sampLost := storeDel c s2.hol.sampLost } }
    if ringNotify nh (fget s3 holcSampRctlNotifyLog2 c 0) then pulse s3 (176 + c) else s3

/-- The sampler counts an instruction (R413). -/
def sampleStep (s : State) (h : Nat) (user : Bool) (pc raw : Nat) (retired : Bool) (hits : List (Nat × Nat))
    (evs : List Nat) : State :=
  let c := h / 8
  let n := if fget s holcSampCtlSrc c 0 = 1 then (hits.find? fun e => e.1 == fget s holcSampCtlCnt c 0).elim 0 (·.2)
    else b2n (retired && bit (fget s holcSampThreadsThreads c 0) (h % 8))
  if fget s holcSampCtlEn c 0 = 0 ∨ n = 0 then s
  else
    let v := storeGet 0 s.hol.sampCnt c + n
    let put := fun (x : Nat) => { s with hol := { s.hol with sampCnt := storeSet 0 c x s.hol.sampCnt } }
    if v < fget s holcSampCtlPeriod c 0 then put v else threadSample (put 0) h user pc raw hits evs

/-- An instruction's events reach the counters and the sampler of its core. -/
def account (s : State) (h : Nat) (user : Bool) (pc raw : Nat) (retired : Bool) (evs : List Nat) : State :=
  let all := if retired then 2 :: evs else evs
  let hits := perfHits s h user all
  sampleStep (hits.foldl (fun a e => perfAdd a (h / 8) e.1 e.2) s) h user pc raw retired hits all

/-- The cycle that ended gave a core's slot to no thread: none was READY. -/
def slotIdle (s : State) (c : Nat) : Bool :=
  let r := issued s c
  !(r.n != 0 && r.cycle + 1 == cycleAt s.clk) && slotThread s c == none

/-- Counters of cycles (event 1) and of slots with no READY thread (event 5) advance with the clock. -/
def perfTick (s : State) : State :=
  let n := cycleAt s.clk - cycleAt (s.clk - 1)
  if n = 0 ∨ s.boot.mgmtUp = false then s
  else
    (s.cfg.act.filter fun e => decide (e.1 < 2 ^ 64) && decide (16 ≤ keyPage e.1) && decide (keyPage e.1 < 32)
      && decide (0x140 ≤ e.1 % 4096) && decide (e.1 % 4096 < 0x160) && bit e.2.toNat 31
      && (bitsOf e.2.toNat 6 0 == 1 || (bitsOf e.2.toNat 6 0 == 5 && slotIdle s (keyPage e.1 - 16)))).foldl
      (fun a e =>
        let c := keyPage e.1 - 16
        if fget a holcPerfCtlFreeze c 0 = 1 then a else perfAdd a c ((e.1 % 4096 - 0x140) / 4) n) s

/-! ### Waits that end -/

/-- A waiting thread's 4-byte instruction retires with a result. -/
def wakeHart (s : State) (h v : Nat) (evs : List Nat) : State :=
  let t := hartOf s h
  account (putHart s h { countRetired (setX t t.rd v) with st := .ready, pc := (t.pc + 4) % 2 ^ 64, waitEnd := none })
    h t.user t.pc t.raw true evs

/-- What JOIN.W returns for a generation that is gone (R400) and for a contained context (Table 16-3). -/
def joinGone : Nat := 0x8000000000000000

/-! ### Frames that enter the device -/

/-- The record of a frame in the holding buffer. -/
def newPkt (id sl : Nat) (src : Source) (data : List Byte) (tail : Bool) (arr clk : Nat) : Pkt :=
  { id := id, slice := sl, src := src, data := data, tail := tail, rcvd := if tail then data.length else 0, fcsBad := false, oversize := false, arr := arr,
    stage := .holding, since := clk, ep := [], epLow := 0, known := false, node := 0, ptr := 0, steps := 0, exts := 0,
    extHit := false, kv := List.replicate 144 0, slots := List.replicate 8 none, endOk := false, mal := 0,
    unparsed := false,
    res := { tenant := 0, tc := 0, dlp := none, policer := none, mirror := none, edit := none, redirect := none,
             counters := [] }
    nh := 2 ^ 20, tmpl := 4096, hash := 0, list := none, flooded := false, staged := false, tsMode := 0, tsTag := 0,
    tsOff := 0, gated := false, lane := 0, copies := 0 }

/-- Bytes held in the holding buffer of a slice. -/
def heldBytes (s : State) (sl : Nat) : Nat :=
  (s.net.pkts.filter fun p => p.slice == sl && p.stage == .holding).foldl (fun a p => a + p.data.length) 0

/-- Bytes of a slice's holding buffer (R35). -/
def holdSize : Nat := 2097152

/-! ### The punt engine (R409) -/

/-- The frontend carries one frame more: 200 Gb/s and 150 Mpps together (R410). -/
def feUse (s : State) (n : Nat) : State :=
  { s with hol := { s.hol with feFree := max s.hol.feFree (nowU s) + max n 167 } }

/-- The engine may carry a frame now. -/
def feReady (s : State) : Bool :=
  s.boot.mgmtUp && s.hol.restartAt == none && decide (s.hol.feFree ≤ nowU s)

/-- The frame of a queue whose tail came first (ties: the lowest slice). -/
def puntNext (s : State) (q : Nat) : Option Punt :=
  (s.hol.punts.filter fun u => u.q == q && u.tailAt.isSome).foldl (fun (a : Option Punt) u =>
    match a with
    | none => some u
    | some b =>
      let tu := u.tailAt.getD 0
      let tb := b.tailAt.getD 0
      if tu < tb ∨ (tu = tb ∧ u.slice < b.slice) then some u else some b) none

/-- A punt queue's ring has a free slot and is enabled. -/
def puntRoom (s : State) (q : Nat) : Bool :=
  fget s holxPqCtlEn 16 q == 1
    && !ringFull (fget s holxPqPtrHead 16 q) (fget s holxPqPtrTail 16 q) (2 ^ fget s holxPqCtlSizeLog2 16 q)

/-- Some punt can be written now. -/
def puntWaits (s : State) : Bool := s.hol.punts.any fun u => u.tailAt.isSome && puntRoom s u.q

/-- A punt record of Table 13-6. -/
def puntRecord (s : State) (u : Punt) (captured : Nat) (cut kv : Bool) : List Byte :=
  let ps := adjusted u.arr (if u.src < 0x8000 then fget s timPortTsAdjRxAdjPs 0 u.src else 0)
  let t := psParts ps
  toLE 4 (t.1 % 1000000000) ++ toLE 4 (t.1 / 1000000000) ++ toLE 2 t.2 ++ toLE 2 u.src ++ toLE 2 u.data.length
    ++ toLE 2 captured ++ toLE 1 u.reason ++ toLE 1 u.mal ++ toLE 1 (b2n cut + 2 * b2n kv) ++ toLE 1 u.slice
    ++ toLE 2 (u.tenant % 2 ^ 14) ++ toLE 1 (u.tc % 8) ++ [0]
    ++ toLE 4 (if u.nh < 2 ^ 20 then u.nh else 0xFFFFFFFF) ++ toLE 4 u.action
    ++ slice u.kv 144 16 ++ List.replicate 16 0

/-- A punt is written to the ring of its queue (R409): its record and as much of its frame as the slot holds; the frame leaves
its cells. -/
def puntWrite (s : State) (q : Nat) (u : Punt) : State :=
  let head := fget s holxPqPtrHead 16 q
  let slot := 2 ^ fget s holxPqCtlSlotLog2 16 q
  let kv := fget s holxPqCtlKv 16 q == 1
  let frame := u.data.take (u.data.length - 4)
  let room := slot - 64 - (if kv then 160 else 0)
  let cap := min room frame.length
  let cut := decide (cap < frame.length)
  let rec_ := puntRecord s u cap cut kv ++ (if kv then slice u.kv 0 160 else []) ++ frame.take cap
  let s1 := engineWrite s (fget s holxPqBaseAddr 16 q * 256 + head * slot) rec_
  let next := (head + 1) % 2 ^ fget s holxPqCtlSizeLog2 16 q
  let s2 := pqCount (fset s1 holxPqPtrHead 16 q next) q 0
  let s3 := bumpBy s2 .holx 16 0 2 (8 * q + 1) 0 cap
  let s4 := puntDone (feUse (if cut then pqCount s3 q 4 else s3) u.data.length) u
  if ringNotify next (fget s4 holxPqCtlNotifyLog2 16 q) then pulse s4 (80 + q) else s4

/-- PUNT_RECORD_WRITE (R409). -/
def execPuntRecordWrite (q : Nat) (s : State) : Out :=
  run (q < 64) s <|
    match puntNext s q with
    | none => s
    | some u => if puntRoom s q = false ∨ feReady s = false then s else puntWrite s q u

/-! ### The inject engine (R410) -/

/-- A counter of an inject queue. -/
def iqCount (s : State) (q c n : Nat) : State := bumpBy s .holx 16 0 4 (4 * q + c) 0 n

/-- The queue carries the Perrun engine's frames (R436). -/
def prnQueue (s : State) (q : Nat) : Bool := prnOn s && q == fget s prnCfgIq 0 0

/-- The Perrun frame handed over next: ACK-only frames, HELLO frames, messages by priority; the oldest of a rank. -/
def prnFirst (s : State) : Option PFrame :=
  s.prn.outq.foldl (fun (a : Option PFrame) f =>
    match a with
    | none => some f
    | some b => if f.rank < b.rank then some f else some b) none

/-- A queue has a frame to serve. -/
def iqReady (s : State) (q : Nat) : Bool :=
  fget s holxIqCtlEn 16 q == 1 && if prnQueue s q then !s.prn.outq.isEmpty else
    fget s holxIqPtrHead 16 q != fget s holxIqPtrTail 16 q % 2 ^ fget s holxIqCtlSizeLog2 16 q

/-- A queue with a frame has turns left in the round. -/
def iqLeft (s : State) (q : Nat) : Bool := iqReady s q && decide (storeGet 0 s.hol.iqUsed q < fget s holxIqCtlWeight 16 q)

/-- Queues in the order of the round robin, from the one after the last served. -/
def iqOrder (s : State) : List Nat := (List.range 64).map fun k => (s.hol.iqTurn + 1 + k) % 64

/-- The queue the round robin serves, one frame per turn: the next with work and a turn left in its round of WEIGHT turns; when
none has one a new round begins (log entry 19). -/
def iqPick (s : State) : Option Nat := ((iqOrder s).find? (iqLeft s)).or ((iqOrder s).find? (iqReady s))

/-- The round robin has served a queue. -/
def iqServed (s : State) (q : Nat) : State :=
  let n := storeGet 0 s.hol.iqUsed q
  let used := if n < fget s holxIqCtlWeight 16 q then storePut q (n + 1) s.hol.iqUsed else [(q, 1)]
  { s with hol := { s.hol with iqTurn := q, iqUsed := used } }

/-- A descriptor ends with a status: written back, HEAD advances, line 74 pulses. -/
def iqEnd (s : State) (q a status : Nat) : State :=
  let s1 := engineWrite s (a + 11) [BitVec.ofNat 8 status]
  let s2 := fset s1 holxIqPtrHead 16 q ((fget s1 holxIqPtrHead 16 q + 1) % 2 ^ fget s1 holxIqCtlSizeLog2 16 q)
  pulse (iqServed s2 q) 74

/-- A bad descriptor is counted and fires cluster source 5. -/
def iqBad (s : State) (q a status : Nat) : State :=
  iqEnd (fire (iqCount s q status 1) (pageOf .holx 16 0) 5) q a status

/-- The holding buffer of the queue's slice has room for a frame (without its FCS). -/
def iqRoom (s : State) (q len : Nat) : Bool :=
  running s && decide (heldBytes s (injSlice s q) + len + 4 ≤ holdSize)

/-- A frame enters the slice of its queue (R27), with its timestamp fields (R374). -/
def injectFrame (s : State) (q : Nat) (frame : List Byte) (mode off tag : Nat) : State :=
  let sl := injSlice s q
  let id := freshId s
  let p := { newPkt id.1 sl (.inject q) (frame ++ [0, 0, 0, 0]) true (tbNow s) s.clk with
    tsMode := mode, tsOff := off, tsTag := tag }
  let s1 := { id.2 with net := { id.2.net with pkts := id.2.net.pkts ++ [p] } }
  feUse (iqCount (iqCount (sliceEvt s1 sl 6) q 0 1) q 1 frame.length) frame.length

/-- INJECT_DESCRIPTOR (R410, R27, R436): the queue's descriptor, or the Perrun engine's next frame, is served. -/
def execInjectDescriptor (q : Nat) (s : State) : Out :=
  run (q < 64) s <|
    if feReady s = false ∨ puntWaits s = true ∨ iqPick s ≠ some q then s
    else if prnQueue s q then
      match prnFirst s with
      | none => s
      | some f =>
        if iqRoom s q f.bytes.length = false then s
        else
          let s1 := { s with prn := { s.prn with outq := s.prn.outq.erase f } }
          iqServed (injectFrame s1 q f.bytes 0 0 0) q
    else
      let a := fget s holxIqBaseAddr 16 q * 256 + 32 * fget s holxIqPtrHead 16 q
      match engineRead s a 32 with
      | (none, t) => iqBad t q a 3
      | (some d, t) =>
        let len := ofLE (slice d 8 2)
        if len < 60 ∨ 16124 < len then iqBad t q a 2
        else match engineRead t (ofLE (slice d 0 8)) len with
          | (none, u) => iqBad u q a 3
          | (some frame, u) =>
            if iqRoom u q len = false then u
            else iqEnd (injectFrame u q frame (byteAt d 10 % 4) (ofLE (slice d 12 2)) (ofLE (slice d 14 2))) q a 1

/-! ### Timers -/

/-- CLUSTER_TIMER_EXPIRY (Table 13-12): PERIOD_US after EN was set, or after the last expiry. -/
def execClusterTimerExpiry (i : Nat) (s : State) : Out :=
  run (i < 16) s <|
    let due := storeGet 0 s.hol.tmrAt i + fget s holxTmrPeriodUs 16 i * 25000
    if s.boot.mgmtUp = true ∧ fget s holxTmrEn 16 i = 1 ∧ due ≤ nowU s then
      let s1 := pulse s (16 + i)
      if fget s holxTmrOneshot 16 i = 1 then fset s1 holxTmrEn 16 i 0
      else { s1 with hol := { s1.hol with tmrAt := storePut i due s1.hol.tmrAt } }
    else s

/-! ### Restart (R416) -/

/-- Dirty lines are written back to Burlap and the cache is empty. -/
def flushCache (s : State) : State :=
  let s1 := (s.hol.cache.filter (·.dirty)).foldl (fun a l =>
    (burlapWrite a 4 (holBase a + 64 * l.line) l.data).2) s
  { s1 with hol := { s1.hol with cache := [] } }

/-- The cluster stops (R416 steps 1-3): threads at an instruction boundary, cache clean and empty, TCMs zero. -/
def clusterStop (s : State) : State :=
  let s1 := fset (bump (flushCache s) .holx 16 0 8 5 0) holxClStatRestarting 16 0 1
  { s1 with hol := { s1.hol with
    restartAt := some s1.clk
    mem := s1.hol.mem.filter fun e => decide (shmBase ≤ e.1)
    harts := s1.hol.harts.map fun e => (e.1,
      if e.2.st = .waitEvent ∨ e.2.st = .waitJoin ∨ e.2.st = .waitMem then { e.2 with st := .ready, waitEnd := none } else e.2) } }

/-- The ROM begins (R466, R479, R480): PHASE ROM_INIT; after a control-plane restart the active patch and SerDes firmware
count as applied. -/
def romInit (s : State) (again : Bool) : State :=
  let s1 := fset (fset (fset s bootStatPhase 0 0 1) bootStatRestart 0 0 (b2n again)) bootStatLimitReason 0 0 0
  let s2 := [1, 2, 3, 4].foldl (fun a t =>
    let b := fset a bootImgStatResult 0 (t - 1) 0
    if again ∧ (t = 2 ∨ t = 4) then b
    else fset (fset (fset b bootImgStatApplied 0 (t - 1) 0) bootImgStatCopy 0 (t - 1) 0) bootImgVerVersion 0 (t - 1) 0) s1
  { s2 with boot := { s2.boot with
    dir := [], dirRead := false, cands := [], typ := 1, hostLeft := 0
    images := if again then s2.boot.images.filter (fun i => i.typ == 2 || i.typ == 4) else [] } }

/-- CLUSTER_RESTART_DONE (R416 step 4): within 5 µs context 0.0 starts at the boot ROM and every other context is IDLE. A
warm reset has set PHASE to RESET; a control-plane restart has not. -/
def execClusterRestartDone (s : State) : Out :=
  run true s <|
    if s.hol.restartAt = none then s
    else
      let s1 := { s with hol := { s.hol with
        restartAt := none
        harts := s.hol.harts.map fun e => (e.1, { hartIdle with gen := e.2.gen, exitV := e.2.exitV, tsHi := e.2.tsHi }) } }
      romInit (startHart (fset s1 holxClStatRestarting 16 0 0) 0 0 []) (fget s1 bootStatPhase 0 0 != 0)

end Sys2Proof.Machine
end

