-- ==== Sys2Proof/Machine/Perrun.lean ====
section
/-!
DEFINITION. The Perrun engine (R434-R450): submission, acknowledgements, receive order and rings, HELLO, coordinated epochs. Its
timers stand in Receive.lean, beside the frames that may stop them.
-/
namespace Sys2Proof.Machine

/-! ### Submission (R438, R439) -/

/-- DEADLINE_US of a priority. -/
def prioDeadline (s : State) (p : Nat) : Nat :=
  fget s (match p with
    | 0 => prnPrioCfg0DeadlineUs | 1 => prnPrioCfg1DeadlineUs | 2 => prnPrioCfg2DeadlineUs | _ => prnPrioCfg3DeadlineUs) 0 0

/-- RTO_US and RETX_MAX of a peer. -/
def peerRto (s : State) (peer : Nat) : Nat := bitsOf (peerW s peer 1) 19 0
def peerRetx (s : State) (peer : Nat) : Nat := bitsOf (peerW s peer 1) 23 20

/-- Unacknowledged messages of a peer and priority. -/
def inWindow (s : State) (peer prio : Nat) : Nat :=
  (s.prn.msgs.filter fun m => m.peer == peer && m.prio == prio).length

/-- A transmit ring holds a descriptor. -/
def txqReady (s : State) (p : Nat) : Bool :=
  fget s prnTxqCtlEn 0 p == 1 && fget s prnTxqPtrHead 0 p != fget s prnTxqPtrTail 0 p % 2 ^ fget s prnTxqCtlSizeLog2 0 p

/-- Address of the descriptor at HEAD. -/
def txqAt (s : State) (p : Nat) : Nat := fget s prnTxqBaseAddr 0 p * 256 + 32 * fget s prnTxqPtrHead 0 p

/-- HEAD of a transmit ring advances. -/
def txqNext (s : State) (p : Nat) : State :=
  fset s prnTxqPtrHead 0 p ((fget s prnTxqPtrHead 0 p + 1) % 2 ^ fget s prnTxqCtlSizeLog2 0 p)

/-- The descriptor at HEAD ends with a status without becoming a message. -/
def txqFail (s : State) (p status : Nat) : State :=
  let a := txqAt s p
  let s1 := memWrite (memWrite s (a + 12) (toLE 1 status ++ [0])) (a + 20) (toLE 4 (lTime s))
  fireLow (txqNext s1 p) 9 3

/-- The descriptor at HEAD of a ring is bad (R438). -/
def txqBad (s : State) (d : List Byte) : Bool :=
  let typ := byteAt d 10
  let peer := byteAt d 11
  let len := ofLE (slice d 8 2)
  decide (typ < 1) || decide (6 < typ) || decide (1024 < len) || decide (64 ≤ peer) || !peerOn s peer
    || !inHol (ofLE (slice d 0 8)) (max 1 len)

/-- The message a descriptor at an address makes (R438, R439). -/
def txqMsg (s : State) (pr a : Nat) : PMsg :=
  let d := memBytes s a 32
  let peer := byteAt d 11
  { id := s.prn.nextMsg, peer := peer, prio := pr, typ := byteAt d 10, desc := a
    body := memBytes s (ofLE (slice d 0 8)) (ofLE (slice d 8 2)), seq := nextSeq s peer pr
    dl := (admNow s + prioDeadline s pr * 1000 * 65536) % 2 ^ 48, retx := 0, route := 2, sentAt := none }

/-- A message leaves its ring: its SEQ is written to the descriptor, and it is unacknowledged from here (R438, R439). -/
def txqTake (s : State) (pr : Nat) (m : PMsg) : State :=
  let s1 := txqNext (memWrite s (m.desc + 16) (toLE 4 m.seq)) pr
  { s1 with prn := { s1.prn with
    msgs := s1.prn.msgs ++ [m], nextMsg := s1.prn.nextMsg + 1
    sendSeq := storePut (4 * m.peer + pr) ((m.seq + 1) % 2 ^ 32) s1.prn.sendSeq } }

/-- TRANSMIT_DESCRIPTOR (R438). -/
def execTransmitDescriptor (pr : Nat) (s : State) : Out :=
  run (pr < 4) s <|
    if s.boot.mgmtUp = false ∨ prnOn s = false ∨ txqReady s pr = false then s
    else
      let d := memBytes s (txqAt s pr) 32
      let m := txqMsg s pr (txqAt s pr)
      if txqBad s d then txqFail (prnCount s 11) pr 5
      else if 64 ≤ inWindow s m.peer pr then s
      else msgFirst (txqTake s pr m) m

/-! ### Reception (R435, R440) -/

/-- A frame the MAC gives to the engine (R435). -/
def prnMine (s : State) (p : Nat) (fr : List Byte) : Bool :=
  prnOn s && ofBE (slice fr 12 2) == 0x88B5 && byteAt fr 14 == 0x50
    && ofBE (slice fr 0 6) == fget s macStationHiAddr p 0 * 2 ^ 32 + fget s macStationLoAddr p 0

/-- Peer of a chip ID whose enabled route is on a port, with that route. -/
def peerAt (s : State) (chip p : Nat) : Option (Nat × Nat) :=
  ((List.range 64).filter fun k => peerOn s k && peerW s k 0 % 65536 == chip).foldl (fun (a : Option (Nat × Nat)) k =>
    match a with
    | some x => some x
    | none => ((List.range 2).find? fun r => routeOn s k r && routePort s k r == p).map fun r => (k, r)) none

/-- EXP of a peer and priority changes: an acknowledgement is due on the route of arrival. -/
def setExp (s : State) (peer prio v route : Nat) : State :=
  { s with prn := { s.prn with
    expSeq := storePut (4 * peer + prio) (v % 2 ^ 32) s.prn.expSeq
    ackDue := storePut (4 * peer + prio) (s.clk, route) s.prn.ackDue } }

/-- Receive records of Table 15-5. -/
def rxRecord (s : State) (h : PHeld) (result : Nat) : List Byte :=
  toLE 2 (peerW s h.peer 0 % 65536) ++ toLE 1 h.peer ++ toLE 1 (h.typ + 64 * h.route) ++ toLE 4 h.seq
    ++ toLE 2 h.body.length ++ toLE 1 result ++ [0] ++ toLE 4 (nsOf h.arr % 1000000000)
    ++ toLE 4 (nsOf h.arr / 1000000000) ++ List.replicate 12 0 ++ h.body

/-- What becomes of a message whose turn has come. -/
inductive Turn | taken | full | refused
  deriving DecidableEq, Repr

/-- A message is written to its receive ring (R440, R449). -/
def rxWrite (s : State) (h : PHeld) (result : Nat) : Turn × State :=
  let p := h.prio
  let size := 2 ^ fget s prnRxqCtlSizeLog2 0 p
  let slot := 2 ^ fget s prnRxqCtlSlotLog2 0 p
  let head := fget s prnRxqPtrHead 0 p
  if fget s prnRxqCtlEn 0 p = 0 ∨ ringFull head (fget s prnRxqPtrTail 0 p) size = true ∨ slot - 32 < h.body.length then
    (.full, fireLow (peerCount s h.peer p 11 1) 9 4)
  else
    let s1 := memWrite s (fget s prnRxqBaseAddr 0 p * 256 + head * slot) (rxRecord s h result)
    let next := (head + 1) % size
    let s2 := peerCount (fset s1 prnRxqPtrHead 0 p next) h.peer p 7 1
    (.taken, if ringNotify next (fget s2 prnRxqCtlNotifyLog2 0 p) then pulse s2 (32 + p) else s2)

/-- A timed strobe is armed by Perrun: a write of its registers on this clock is without effect (R72, R448). -/
def armStrobe (s : State) (n lo hi ns mask : Nat) : State :=
  let s1 := fset (fset (fset s glbTstrobeSecLoSec 0 n lo) glbTstrobeSecHiSec 0 n hi) glbTstrobeNsNs 0 n ns
  let s2 := fset (fset s1 glbTstrobeCtlMask 0 n mask) glbTstrobeCtlArm 0 n 1
  { s2 with pg := { s2.pg with was := storePut (armKey n) 1 s2.pg.was } }

/-- An EPOCH message whose turn has come (R448). A strobe that software writes on this clock counts as it was before. -/
def epochIn (s : State) (h : PHeld) : Turn × State :=
  let n := fget s prnCfgTstrobe 0 0
  let mask := ofLE (slice h.body 0 2)
  let lo := ofLE (slice h.body 4 4)
  let hi := ofLE (slice h.body 8 2)
  let ns := ofLE (slice h.body 12 4)
  let at_ := (lo + hi * 2 ^ 32) * 1000000000 + ns
  if at_ ≤ nsOf (tbNow s) then (.refused, prnCount s 10)
  else if (storeFind s.pg.was (fldKey glbTstrobeCtlArm 0 n)).elim (fget s glbTstrobeCtlArm 0 n)
      (fun w => bitsOf w glbTstrobeCtlArm.hi glbTstrobeCtlArm.lo) = 0 then
    match rxWrite s h 1 with
    | (.taken, t) => (.taken, armStrobe (prnCount t 8) n lo hi ns mask)
    | r => r
  else if fget s glbTstrobeSecLoSec 0 n = lo ∧ fget s glbTstrobeSecHiSec 0 n = hi ∧ fget s glbTstrobeNsNs 0 n = ns
      ∧ fget s glbTstrobeCtlMask 0 n = mask then rxWrite s h 2
  else (.refused, prnCount s 9)

/-- The message with SEQ = EXP: late, written, or not (R440). -/
def takeTurn (s : State) (h : PHeld) : State × Bool :=
  let r := if later32 h.dl (lTime s) = false then (Turn.taken, peerCount s h.peer h.prio 9 1)
    else if h.typ = 5 ∧ fget s prnCfgEpochEn 0 0 = 1 then epochIn s h
    else rxWrite s h 0
  match r.1 with
  | .taken => (setExp r.2 h.peer h.prio (h.seq + 1) h.route, true)
  | _ => (r.2, false)

/-- The held messages that follow in sequence are written; the first argument bounds them. -/
def drainHeld : Nat → State → Nat → Nat → State
  | 0, s, _, _ => s
  | n + 1, s, peer, prio =>
    match s.prn.held.find? fun h => h.peer == peer && h.prio == prio && h.seq == expOf s peer prio with
    | none => s
    | some h =>
      let s1 := { s with prn := { s.prn with held := s.prn.held.erase h } }
      let r := takeTurn s1 h
      if r.2 then drainHeld n r.1 peer prio else r.1

/-- A sequenced message (R440). -/
def sequenced (s : State) (h : PHeld) (low incarn : Nat) : State :=
  let peer := h.peer
  let prio := h.prio
  let s1 := if storeGet 0 s.prn.seen peer = incarn then s
    else
      let a := (List.range 4).foldl (fun b p => setExp b peer p low h.route) s
      peerCount { a with prn := { a.prn with
        seen := storePut peer incarn a.prn.seen, held := a.prn.held.filter fun x => x.peer != peer } } peer prio 12 1
  let s2 := if later32 low (expOf s1 peer prio) then
      let e := expOf s1 peer prio
      let gone := s1.prn.held.filter fun x => x.peer == peer && x.prio == prio && later32 low x.seq
      let a := { s1 with prn := { s1.prn with held := s1.prn.held.filter fun x => !gone.contains x } }
      drainHeld 33 (peerCount (peerCount (setExp a peer prio low h.route) peer prio 10 ((low + 2 ^ 32 - e) % 2 ^ 32))
        peer prio 9 gone.length) peer prio
    else s1
  let e := expOf s2 peer prio
  let d := (h.seq + 2 ^ 32 - e) % 2 ^ 32
  if d = 0 then
    let r := takeTurn s2 h
    if r.2 then drainHeld 33 r.1 peer prio else r.1
  else if d ≤ 32 then
    if s2.prn.held.any fun x => x.peer == peer && x.prio == prio && x.seq == h.seq then
      setExp (peerCount s2 peer prio 8 1) peer prio e h.route
    else if 256 ≤ (s2.prn.held.filter fun x => x.prio == prio).length then prnCount s2 4
    else setExp { s2 with prn := { s2.prn with held := s2.prn.held ++ [h] } } peer prio e h.route
  else if later32 e h.seq then setExp (peerCount s2 peer prio 8 1) peer prio e h.route
  else prnCount s2 4

/-- An acknowledgement (R442). -/
def ackIn (s : State) (peer prio seq sack : Nat) : State :=
  let hit := fun (q : Nat) => later32 seq q
    || (let d := (q + 2 ^ 32 - seq) % 2 ^ 32; decide (1 ≤ d) && decide (d ≤ 32) && bit sack (d - 1))
  let done := s.prn.msgs.filter fun m => m.peer == peer && m.prio == prio && hit m.seq
  let late := s.prn.failed.filter fun f => f.1 == peer && f.2.1 == prio && hit f.2.2
  let s1 := done.foldl (fun a m => msgEnd a m 1) s
  peerCount { s1 with prn := { s1.prn with failed := s1.prn.failed.filter fun f => !late.contains f } } peer prio 6 late.length

/-- A frame consumed by the engine (R435, R440-R445). `fr` has no FCS; `arr` is its arrival time. -/
def prnIn (s : State) (p : Nat) (fr : List Byte) (arr : Nat) : State :=
  let s0 := prnCount s 0
  let inj := takeInj s0 9 0
  let s1 := inj.2
  let len := ofBE (slice fr 22 2)
  let typ := byteAt fr 16 % 16
  let prio := byteAt fr 16 / 16 % 4
  if inj.1 || decide (fr.length < len + 52) || ofBE (slice fr (48 + len) 4) != crc32c (slice fr 14 (34 + len)) then
    fireLow (prnCount s1 1) 9 0
  else if byteAt fr 15 ≠ 1 ∨ 8 ≤ typ then prnCount s1 2
  else if ofBE (slice fr 20 2) ≠ fget s1 prnCfgChipId 0 0 then prnCount s1 3
  else match peerAt s1 (ofBE (slice fr 18 2)) p with
    | none => prnCount s1 3
    | some (peer, r) =>
      let s2 := if bit (byteAt fr 17) 0
        then ackIn s1 peer (byteAt fr 17 / 2 % 4) (ofBE (slice fr 36 4)) (ofBE (slice fr 40 4)) else s1
      if typ = 0 then s2
      else if typ = 7 then
        routeShow (prnCount { s2 with prn := { s2.prn with hello := storePut (2 * peer + r) s2.clk s2.prn.hello } } 6) peer r
      else
        sequenced s2 { peer := peer, prio := prio, seq := ofBE (slice fr 24 4), typ := typ, route := r,
                       dl := ofBE (slice fr 32 4), arr := arr, body := slice fr 48 len }
          (ofBE (slice fr 28 4)) (ofBE (slice fr 44 4))

/-- A Perrun frame of some types arrives whole, with a good FCS, on a port whose MAC runs. -/
def prnArrive (s : State) (p : Nat) (bytes : List Byte) (types : List Nat) : State :=
  if macRuns s p && decide (64 ≤ bytes.length) && prnMine s p bytes && types.contains (byteAt bytes 16 % 16) then
    prnIn (bumpBy (macCount s p 0) .mac p 0 1 1 0 bytes.length) p (bytes.take (bytes.length - 4)) (tbPort s 0)
  else s

/-- PERRUN_ACK (R442). -/
def execPerrunAck (p : Nat) (bytes : List Byte) (s : State) : Out := run (p < 384) s (prnArrive s p bytes [0])

/-- PERRUN_HELLO (R445). -/
def execPerrunHello (p : Nat) (bytes : List Byte) (s : State) : Out := run (p < 384) s (prnArrive s p bytes [7])

/-- PERRUN_LEARN (R440). -/
def execPerrunLearn (p : Nat) (bytes : List Byte) (s : State) : Out := run (p < 384) s (prnArrive s p bytes [1])

/-- PERRUN_AGE (R440). -/
def execPerrunAge (p : Nat) (bytes : List Byte) (s : State) : Out := run (p < 384) s (prnArrive s p bytes [2])

/-- PERRUN_WITHDRAW (R440). -/
def execPerrunWithdraw (p : Nat) (bytes : List Byte) (s : State) : Out := run (p < 384) s (prnArrive s p bytes [3])

/-- PERRUN_PROT (R440). -/
def execPerrunProt (p : Nat) (bytes : List Byte) (s : State) : Out := run (p < 384) s (prnArrive s p bytes [4])

/-- PERRUN_TELEM (R440). -/
def execPerrunTelem (p : Nat) (bytes : List Byte) (s : State) : Out := run (p < 384) s (prnArrive s p bytes [6])

/-- PERRUN_EPOCH (R448). -/
def execPerrunEpoch (p : Nat) (bytes : List Byte) (s : State) : Out := run (p < 384) s (prnArrive s p bytes [5])

/-! ### HELLO, routes, acknowledgements (R441, R445) -/

/-- HELLO_SEND (R445): every enabled route whose HELLO is due. -/
def execHelloSend (s : State) : Out :=
  run true s <|
    if s.boot.mgmtUp = false ∨ prnOn s = false then s
    else (List.range 64).foldl (fun a peer => (List.range 2).foldl (fun b r =>
      if routeOn b peer r && decide (storeGet 0 b.prn.helloAt (2 * peer + r) + helloClks b ≤ b.clk) then
        let c := { b with prn := { b.prn with helloAt := storePut (2 * peer + r) b.clk b.prn.helloAt } }
        prnCount (prnFrame c (ackFor c peer r) 1 peer r 7 0 0 0 0 []) 5
      else b) a) s

/-- ROUTE_DOWN (R445): ROUTE_STAT follows the conditions, among them the HELLOs missed. -/
def execRouteDown (peer rt : Nat) (s : State) : Out :=
  run (peer < 64 && rt < 2) s <| if s.boot.mgmtUp then routeShow s peer rt else s

/-- ACK_ONLY (R441): ACK_DELAY_NS after a change not yet acknowledged. -/
def execAckOnly (peer pr : Nat) (s : State) : Out :=
  run (peer < 64 && pr < 4) s <|
    match storeFind s.prn.ackDue (4 * peer + pr) with
    | none => s
    | some d =>
      let r := ackRoute s peer d.2
      if prnOn s && peerOn s peer && (routeUp s peer r || (r != d.2 && routeOn s peer r)) && passedNs s d.1 (fget s prnAckDelayNsNs 0 0) then
        prnCount (prnFrame s (some pr) 0 peer r 0 pr 0 0 0 []) 7
      else s

/-! ### Flips (R438, R439, R444) -/

/-- The descriptor that waits at HEAD of a ring for a peer that is off ends FAILED_DISABLED. -/
def dropWaiting (s : State) (p : Nat) (off : Nat → Bool) : State :=
  if txqReady s p ∧ off (byteAt (memBytes s (txqAt s p) 32) 11) = true then txqFail s p 6 else s

/-- A flip has turned the engine or peers off (R438): `off` names them. -/
def prnOff (s : State) (engine : Bool) (off : Nat → Bool) : State :=
  let s1 := (s.prn.msgs.filter fun m => off m.peer).foldl (fun a m => msgEnd a m 6) s
  let s2 := (List.range 4).foldl (fun a p => dropWaiting a p off) s1
  { s2 with prn := { s2.prn with
    held := s2.prn.held.filter fun h => !off h.peer
    ackDue := s2.prn.ackDue.filter fun e => !off (e.1 / 4)
    outq := if engine then [] else s2.prn.outq } }

/-- A peer becomes enabled at a flip (R439): its sequences start at 0 with a new incarnation. -/
def peerStart (s : State) (peer : Nat) : State :=
  { s with prn := { s.prn with
    incarn := storePut peer (lTime s) s.prn.incarn
    failed := s.prn.failed.filter fun f => f.1 != peer
    sendSeq := s.prn.sendSeq.filter fun e => e.1 / 4 != peer } }

/-- A route becomes enabled at a flip (R445): its first HELLO counts from here. -/
def helloStart (s : State) (peer r : Nat) : State :=
  { s with prn := { s.prn with helloAt := storePut (2 * peer + r) s.clk s.prn.helloAt, hello := storeDel (2 * peer + r) s.prn.hello } }

/-- The peer table and PRIO_CFG hold an enabled peer whose retry budget is not below a DEADLINE_US (R444). -/
def prnRefuses (s : State) : Bool :=
  (List.range 64).any fun k =>
    let w1 := peerW s k 1
    peerOn s k && [prnPrioCfg0DeadlineUs, prnPrioCfg1DeadlineUs, prnPrioCfg2DeadlineUs, prnPrioCfg3DeadlineUs].any
      fun f => decide (fget s f 0 0 ≤ (bitsOf w1 23 20 + 1) * bitsOf w1 19 0)

end Sys2Proof.Machine
end

