-- ==== Sys2Proof/Machine/Receive.lean ====
section
/-!
DEFINITION. Frames that arrive: their first bytes and their tail (R34-R40, R93-R96, R104, R435), and what the tail settles
for an accepted packet (R39, R94, R269, R291) and for a punt (R409).
-/
namespace Sys2Proof.Machine

/-! ### Control frames -/

/-- The MAC consumes a frame that begins with these bytes: MAC control (R96), park (R104), Perrun (R435). -/
def macTakes (s : State) (p : Nat) (fr : List Byte) : Bool :=
  ofBE (slice fr 12 2) == 0x8808
    || (ofBE (slice fr 12 2) == 0x88B5 && byteAt fr 14 == 0xF0)
    || prnMine s p fr

/-- A park frame acts by its OP (Table 3-9). -/
def parkIn (s : State) (p ver op seq : Nat) : State :=
  parkFrameIn s p ver fun a =>
    match op with
    | 1 => onParkReq a p seq
    | 2 => onParkAck a p seq
    | 3 => onParkNak a p seq
    | 4 => onParkReady a p
    | 5 => onWakeReq a p seq
    | 6 => onWakeReady a p
    | _ => a

/-- A consumed frame with a good FCS acts. -/
def macActs (s : State) (p : Nat) (fr : List Byte) (arr : Nat) : State :=
  if ofBE (slice fr 12 2) = 0x8808 then
    match ofBE (slice fr 14 2) with
    | 0x0001 => pauseApply (macConsume s p fr.length 5) p (ofBE (slice fr 16 2))
    | 0x0101 => pfcApply (macConsume s p fr.length 6) p (byteAt fr 17) ((List.range 8).map fun c => ofBE (slice fr (18 + 2 * c) 2))
    | _ => macConsume s p fr.length 7
  else if byteAt fr 14 = 0xF0 ∧ ofBE (slice fr 12 2) = 0x88B5 then parkIn s p (byteAt fr 15) (byteAt fr 16) (byteAt fr 17)
  else prnIn (bumpBy (macCount s p 0) .mac p 0 1 1 0 fr.length) p (fr.take (fr.length - 4)) arr

/-! ### The first bytes -/

/-- A frame goes to the holding buffer of the port's slice (R35), unless it is full. The port's record then names its
packet, or keeps the bytes only to count them. -/
def holdFrame (s : State) (p : Nat) (bytes : List Byte) (tail fcsOk : Bool) (arr : Nat) : State :=
  if holdSize < heldBytes s (sliceOf p) + bytes.length then
    modPort (countRefusal s (sliceOf p) (.port p) 8) p fun x => { x with rx := none, rxCtl := bytes, rxDrop := true }
  else
    let id := freshId s
    let k := { newPkt id.1 (sliceOf p) (.port p) bytes tail arr s.clk with fcsBad := tail && !fcsOk }
    let s1 := { id.2 with net := { id.2.net with pkts := id.2.net.pkts ++ [k] } }
    pauseRise (modPort s1 p fun x => { x with rx := if tail then none else some id.1, rxCtl := [], rxDrop := false }) p

/-- FRAME_RECEIVE (R35, R40): the first bytes of a frame, stamped at the first bit after the delimiter. Fewer than 64
bytes, and the bytes of a frame the MAC consumes, stay in the MAC until the tail. -/
def execFrameReceive (p sub : Nat) (bytes : List Byte) (s : State) : Out :=
  run (p < 384 && sub < 7) s <|
    let x := portSt s p
    if macRuns s p = false ∨ x.rx ≠ none ∨ x.rxCtl ≠ [] ∨ bytes = [] then s
    else
      let arr := tbPort s sub
      let s1 := modPort s p fun y => { y with rxAt := arr }
      if bytes.length < 64 ∨ macTakes s p bytes = true then modPort s1 p fun y => { y with rxCtl := bytes, rxDrop := false }
      else if fget s macCfgMaxFrame p 0 < bytes.length then modPort s1 p fun y => { y with rxCtl := bytes, rxDrop := true }
      else holdFrame s1 p bytes false true arr

/-! ### The tail -/

/-- MAC counters of a frame that has ended (R94, R113): runt, oversize, FCS error, or good. -/
def macJudge (s : State) (p len : Nat) (fcsOk : Bool) : State :=
  if len < 64 then macCount s p 3
  else if fget s macCfgMaxFrame p 0 < len then macCount s p 4
  else if fcsOk then bumpBy (macCount s p 0) .mac p 0 1 1 0 len
  else macCount s p 2

/-- The chain of a packet in a slice (of its first pass: it leaves it only with its tail in) takes the cells its tail needs, or gives back those it does not (R291). -/
def settleChain (s : State) (id es need : Nat) : State :=
  match chainOf s id es 0 with
  | none => s
  | some c =>
    let have_ := c.cells.length
    if need < have_ then
      let freed := ((c.cells.drop need).filter fun x => x.ref != 0).length
      uncharge (putChain s { c with cells := c.cells.take need }) es c.owner freed
    else if need = have_ then s
    else if ownerFits s es c.owner (need - have_) then
      let ref := c.cells.getLast?.elim 1 (·.ref)
      let r := takeCells (need - have_) s es ref []
      putChain (charge r.2 es c.owner (need - have_)) { c with cells := c.cells ++ r.1 }
    else failWhere s (fun it => it.pkt == id && it.es == es) 7

/-- The spill stream of a Burlap-path item follows the cells of its tail. -/
def settleStream (s : State) (it : Item) (need : Nat) : State :=
  if it.cells < need then appendStream s it it.cells (need - it.cells)
  else
    let q := queue s it.port it.cls
    putQueue s it.port it.cls { q with stream := q.stream.filter fun c => !(c.item == it.id && decide (need ≤ c.idx)) }

/-- The items of a packet know its cells; their length stays the L of the verdict (R248). -/
def settleItems (s : State) (id need : Nat) : State :=
  let slices := (List.range 8).filter fun es => s.net.items.any fun it => it.pkt == id && it.es == es
  let s1 := slices.foldl (fun a es => settleChain a id es need) s
  (s1.net.items.filter fun it => it.pkt == id).foldl (fun a it =>
    let b := if it.brl then settleStream a it need else a
    putItem b { it with cells := need }) s1

/-- The punt of a frame whose tail has come: discarded with an FCS error or an oversize, else ready to be written. -/
def settlePunt (s : State) (k : Pkt) : State :=
  match s.hol.punts.find? fun u => u.pkt == k.id && u.tailAt == none with
  | none => s
  | some u =>
    let need := cdiv k.data.length 256
    if k.fcsBad || k.oversize then puntDone (pqCount s u.q 5) u
    else if u.cells < need ∧ ownerFits s u.slice cpuOwner (need - u.cells) = false then
      puntDone (fire (pqCount s u.q 2) (pageOf .holx 16 0) 3) u
    else
      let s1 := if u.cells < need then charge s u.slice cpuOwner (need - u.cells) else uncharge s u.slice cpuOwner (u.cells - need)
      { s1 with hol := { s1.hol with punts := s1.hol.punts.map fun x =>
        if x.pkt = k.id then { x with data := k.data, cells := need, tailAt := some s1.clk } else x } }

/-- The tail of an accepted packet: bytes of the ledger (R269), cells (R291), the cells still to cross (R39, R94). -/
def acceptedTail (s : State) (k : Pkt) (had : Nat) : State :=
  let s1 := (List.range k.copies).foldl (fun a _ => ledgerBytes a k.slice k.src k.res.tenant 0 (frameLen k)) s
  let need := cellsOf k.data.length
  let s2 := settleItems s1 k.id need
  let slices := (List.range 8).filter fun es => s2.net.items.any fun it => it.pkt == k.id && it.es == es
  let s3 := pushCells s2 k.slice k.lane (if k.list.isSome then 2 else 1)
    (slices.flatMap fun es => tagsFor k.id es 0 had need (s2.clk + 8))
  let s4 := if k.fcsBad || k.oversize then failWhere s3 (fun it => it.pkt == k.id) 7 else s3
  if s4.net.items.any fun it => it.pkt == k.id then s4 else delPkt s4 k.id

/-- The tail of a stored frame (R38, R39, R94, R151). A frame found too long before the gate is dropped; later it is
stored up to MAX_FRAME. -/
def storedTail (s : State) (p : Nat) (k : Pkt) (bytes : List Byte) (fcsOk : Bool) : State :=
  let whole := k.data ++ bytes
  let maxLen := fget s macCfgMaxFrame p 0
  let tooLong := decide (maxLen < whole.length)
  let k1 := { k with
    data := if tooLong then whole.take maxLen else whole, tail := true, rcvd := whole.length, oversize := tooLong, fcsBad := !fcsOk && !tooLong }
  let s1 := countActions (macJudge s p whole.length fcsOk) k1
  match k.stage with
  | .accepted => acceptedTail (settlePunt (putPkt s1 k1) k1) k1 (cellsHere k)
  | .holding =>
    if tooLong then pauseFall (dropGone s1 { k1 with staged := false }) p
    else if holdSize < heldBytes s1 k.slice + bytes.length then
      pauseFall (delPkt (countRefusal s1 k.slice k.src 8) k.id) p
    else pauseRise (putPkt s1 k1) p
  | .metered => if tooLong then dropGone s1 { k1 with staged := false } else putPkt s1 k1
  | _ => if tooLong then dropGone s1 { k1 with staged := false } else putPkt s1 k1

/-- FRAME_TAIL (R38, R39, R94, R96, R291, R295): the remaining bytes through the FCS, with its verdict. -/
def execFrameTail (p : Nat) (bytes : List Byte) (fcsOk : Bool) (s : State) : Out :=
  run (p < 384) s <| if running s = false then s else
    let x := portSt s p
    let s0 := modPort s p fun y => { y with rx := none, rxCtl := [], rxDrop := false }
    match x.rx with
    | some id => (match pktOf s id with
      | none => s0
      | some _ =>
        let s1 := releases s0
        (pktOf s1 id).elim s1 fun k => storedTail s1 p k bytes fcsOk)
    | none =>
      if x.rxCtl = [] then s
      else
        let whole := x.rxCtl ++ bytes
        let bad := decide (whole.length < 64) || decide (fget s macCfgMaxFrame p 0 < whole.length)
        if x.rxDrop || bad then macJudge s0 p whole.length fcsOk
        else if macTakes s p whole then (if fcsOk then macActs s0 p whole x.rxAt else macCount s0 p 2)
        else
          let s1 := holdFrame (macJudge s0 p whole.length fcsOk) p whole true fcsOk x.rxAt
          modPort s1 p fun y => { y with rx := none, rxCtl := [], rxDrop := false }

/-! ### Timers that what arrives on their clock forestalls (R45) -/

/-- What a command of this clock brings to a port: a frame, or the lock of its lanes. -/
def hear (s : State) (c : Instr) : State :=
  thenState s <| match c with
    | .perrunAck p b => execPerrunAck p b s
    | .perrunHello p b => execPerrunHello p b s
    | .perrunLearn p b => execPerrunLearn p b s
    | .perrunAge p b => execPerrunAge p b s
    | .perrunWithdraw p b => execPerrunWithdraw p b s
    | .perrunProt p b => execPerrunProt p b s
    | .perrunTelem p b => execPerrunTelem p b s
    | .perrunEpoch p b => execPerrunEpoch p b s
    | .parkAck p v q => execParkAck p v q s
    | .parkNak p v q => execParkNak p v q s
    | .parkReady p v q => execParkReady p v q s
    | .wakeReady p v q => execWakeReady p v q s
    | .wakeLanesLocked p => execWakeLanesLocked p s
    | .frameTail p b ok => execFrameTail p b ok s
    | _ => .next s

/-- The state once all that waits on this clock has arrived. -/
def heard (s : State) : State := s.pending.foldl hear s

/-- WAKE_TIMEOUT (R105, R45). -/
def execWakeTimeout (p : Nat) (s : State) : Out :=
  run (p < 384) s <|
    let x := portSt s p
    let y := portSt (heard s) p
    if x.park == .waking && passedNs s x.parkAt (bitsOf (parkTmr s p) 31 16 * 1000) && !(y.readySent && y.readyRcvd) then
      upperDown (setPark (modPort (fire (macCount s p 18) (pageOf .mac p 0) 0) p fun x => { x with failAt := some s.clk })
        p .parked) p
    else s

/-- PARK_RTO (R105, R45): a third unanswered request, or no PARK_READY after agreement, abandons the park. -/
def execParkRto (p : Nat) (s : State) : Out :=
  run (p < 384) s <|
    let x := portSt s p
    let y := portSt (heard s) p
    if x.park == .parking && passedNs s x.parkAt (bitsOf (parkTmr s p) 15 0 * 1000)
        && y.park == .parking && y.agreed == x.agreed && !y.readyRcvd then
      if x.agreed then abandonPark s p
      else if x.reqs < 3 then
        modPort (sendPark s p 1 x.parkSeq) p fun x => { x with reqs := x.reqs + 1, parkAt := s.clk }
      else abandonPark s p
    else s

/-- The acknowledgement of a message has come, or comes on this clock: it has ended. -/
def acked (s : State) (id : Nat) : Bool := (msgOf (heard s) id).isNone

/-- RETRANSMIT (R443): RTO_US after the last transmission, unless the acknowledgement comes on this clock (R45). -/
def execRetransmit (id : Nat) (s : State) : Out :=
  run true s <| match msgOf s id with
    | none => s
    | some m => match m.sentAt with
      | none => s
      | some t =>
        if passedNs s t (peerRto s m.peer * 1000) = false ∨ acked s id = true then s
        else if later m.dl (admNow s) = false then msgEnd s m 2
        else if peerRetx s m.peer ≤ m.retx then msgEnd s m 3
        else msgAgain s m

/-- MESSAGE_DEADLINE (R443): the deadline passes, unless the acknowledgement comes on this clock (R442). -/
def execMessageDeadline (id : Nat) (s : State) : Out :=
  run true s <| match msgOf s id with
    | none => s
    | some m => if later m.dl (admNow s) || acked s id then s else msgEnd s m 2

end Sys2Proof.Machine
end

