-- ==== Sys2Proof/Machine/Faults.lean ====
section
/-!
DEFINITION. Containment of units (R456-R458), warm reset (R73, R459, R465, R479), clocks, die link, temperature and rails
(R23, R32, R486, R498, R507).
-/
namespace Sys2Proof.Machine

/-! ### Containment (R456, Table 16-3) -/

/-- What a unit does on the core clock after the firing. -/
def unitStops (s : State) (u : Cunit) : State :=
  match u with
  | .slice n => (List.range 48).foldl (fun a k => downSets a (48 * n + k)) s
  | .sched g => (List.range 8).foldl (fun a k => downSets a (8 * g + k)) s
  | .port p => if portThere s p && running s then linkLoss s p else s
  | .chan i => chanStops s i
  | .dma c => dmaStop s c
  | .core c => (s.hol.harts.filter fun e => e.2.st == .waitJoin && e.2.waitArg % 256 / 8 == c).foldl
      (fun a e => wakeHart a e.1 joinGone []) s
  | _ => s

/-- The core clock after a firing: its units stop taking new work. -/
def containTick (s : State) : State :=
  (s.flt.containing.filter fun e => e.2 + 1 == s.clk).foldl (fun a e => unitStops a e.1) s

/-- A packet has a cell in a middle lane or queued for it. -/
def inLane (s : State) (j : Nat) (it : Item) : Bool :=
  let mine := fun (t : Tag) => t.pkt == it.pkt && t.es == it.es && t.pass == it.pass
  s.net.stageA.any (fun q => q.lane == j && q.cells.any mine)
    || s.net.laneQ.any (fun e => e.1 / 8 == j && e.2.any mine)

/-- A packet has a cell in a block that touches a channel (R337). -/
def onChan (s : State) (i : Nat) (it : Item) : Bool :=
  let q := queue s it.port it.cls
  q.blks.any fun b => q.stream.any (fun c => c.item == it.id && c.pos / 8 == b.1)
    && (chansOf s (2048 * b.2) 2048).contains i

/-- The packets a unit holds, which fail "fault containment". -/
def unitHolds (s : State) (u : Cunit) (it : Item) : Bool :=
  match u with
  | .slice n => it.es == n
  | .sched g => it.port / 8 == g
  | .lane j => inLane s j it
  | .chan i => it.brl && onChan s i it
  | _ => false

/-- The cells of a lane are gone. -/
def clearLane (s : State) (j : Nat) : State :=
  { s with net := { s.net with
    stageA := s.net.stageA.map fun q => if q.lane = j then { q with cells := [] } else q
    laneQ := s.net.laneQ.filter fun e => e.1 / 8 != j } }

/-- CONTAINMENT_COMPLETE (R456 steps 2-4, R457, R458): the walk of the n-th containing unit ends. SEV4 stops a walk. -/
def execContainmentComplete (n : Nat) (s : State) : Out :=
  run (n < 4096) s <|
    match s.flt.containing[n]? with
    | none => s
    | some e =>
      if s.flt.stopped = true ∨ s.clk ≤ e.2 then s
      else
        let s1 := failWhere s (unitHolds s e.1) 6
        let s2 := match e.1 with
          | .lane j => clearLane s1 j
          | .chan i => fset s1 hchChStatState i 0 6
          | _ => s1
        { s2 with flt := { s2.flt with
          containing := s2.flt.containing.filter fun x => x != e, contained := s2.flt.contained ++ [e.1] } }

/-! ### Warm reset (R73, R465, R479) -/

/-- The page keeps its values through a warm reset: its block's default group is G0. -/
def keptPage (page : Nat) : Bool := (pageRow page).elim true fun r => r.group == 0

/-- Configuration after a warm reset: reset values on the pages that are reset, no shadows pending there, no old epoch. -/
def warmCfg (c : CfgSt) : CfgSt :=
  { act := c.act.filter fun e => keptPage (keyPage e.1)
    shd := c.shd.filter fun e => keptPage (keyPage e.1)
    old := []
    cnt := c.cnt.filter fun e => keptPage (keyPage e.1) }

/-- Page management after a warm reset. -/
def warmPages (p : PageSt) : PageSt :=
  { p with
    unlocked := p.unlocked.filter fun k => keptPage (k / 2)
    mbx := p.mbx.filter fun e => keptPage e.1
    flips := []
    dpEp := []
    crcRun := p.crcRun.filter fun e => keptPage e.1
    flipAt := []
    intPin := p.intPin.filter fun e => keptPage e.1 }

/-- The data plane is held in reset: its pages at their reset values, what was in it gone, its HBM requests answered, its outputs
squelched. -/
def planeReset (s : State) : State :=
  let s1 := squelchLanes s (List.range 384)
  let s2 := s1.hbm.reqs.foldl (fun a r => respond a r.who r.chan r.id 4) s1
  let s3 := { s2 with
    cfg := warmCfg s2.cfg, pg := warmPages s2.pg
    net := { netStart with nextId := s2.net.nextId }, tbl := { tblStart with okr := s2.tbl.okr }, hbm := hbmStart, tel := telStart
    hol := { s2.hol with punts := [] }
    boot := { s2.boot with dpUp := false } }
  let s4 := (List.range 16).foldl (fun a g => fset a glbEpochStatCur 0 g 0) (fset s3 brlCtlEn 0 0 0)
  routesAll (deriveShares s4)

/-- A warm reset starts (R465, R479, Table 16-4); during POR_N or another one the request has no effect. -/
def warmStart (s : State) : State :=
  if s.boot.por = false ∨ s.flt.warmAt ≠ none then s
  else
    let s1 := planeReset (stopAll s)
    let s2 := { s1 with
      tbl := { s1.tbl with okr := [] }
      flt := { s1.flt with contained := [], containing := [], sev3At := none, warmAt := some s1.clk }
      boot := { s1.boot with images := [], serdes := [] } }
    let s3 := (List.range 10).foldl (fun a i => fset (fset (showOkra a i) okrPatchVerVer i 0 0) okrStatBaseOnly i 0 0) s2
    clusterStop (fset s3 bootStatPhase 0 0 0)

/-- WARM_RESET_COMPLETE (R459, R465): the reset ends and FAULT_N is released. -/
def execWarmResetComplete (s : State) : Out :=
  run true s <|
    if s.flt.warmAt = none then s else { s with flt := { s.flt with warmAt := none, faultN := false } }

/-- AUTO_WARM (R459): AUTO_DELAY_US after the first SEV3 firing. -/
def execAutoWarm (s : State) : Out :=
  run true s <| match s.flt.sev3At with
    | none => s
    | some t =>
      if fget s glbFaultCtlAutoWarm 0 0 = 1 ∧ passedNs s t (fget s glbFaultCtlAutoDelayUs 0 0 * 1000) = true
      then warmStart s else s

/-! ### Clocks (R32, R498) -/

/-- The monitors are armed from fuse sense until POR_N falls (R486). -/
def armed (s : State) : Bool := s.boot.por && s.boot.fuses != 0

/-- A lane's PLL has lost lock. -/
def laneLost (s : State) (i : Nat) : State :=
  fire (fset (fset s sdsLaneStatPllLock i 0 0) sdsLaneStatCdrLock i 0 0) (pageOf .sds i 0) 0

/-- A port whose lanes have lost their clock reports loss of link. -/
def portLost (s : State) (p : Nat) : State :=
  if portThere s p && fget s pcsPortStatAligned (p / 8) (p % 8) == 1
  then setCond (setCond (loseAlign s p) p 0 true) p 1 true else s

/-- PLL_LOSS_OF_LOCK (R32): root, SerDes chiplet 1-8, HBM PHY of stack 9-14. -/
def execPllLossOfLock (which : Nat) (s : State) : Out :=
  run (which < 15) s <|
    if armed s = false then s
    else if which = 0 then fire s 0 2
    else if which < 9 then
      (if running s then
        let n := which - 1
        let s1 := (List.range 48).foldl (fun a k => laneLost a (48 * n + k)) (squelchLanes s ((List.range 48).map (48 * n + ·)))
        (List.range 48).foldl (fun a k => portLost a (48 * n + k)) s1
       else s)
    else if stackOff s (which - 9) then s
    else (List.range 32).foldl (fun a k => fire a (pageOf .hch (32 * (which - 9) + k) 0) 6) s

/-! ### Die-to-die link (R23, R283) -/

/-- TWL.STAT.REPLAY_STALL of every lane. -/
def showStall (s : State) (v : Nat) : State := (List.range 8).foldl (fun a j => fset a twlStatReplayStall j 0 v) s

/-- DIE_LINK_REPLAY (R23, R283): a flit is replayed, or an injection at the flit check makes it so (R464). -/
def execDieLinkReplay (s : State) : Out :=
  run true s <|
    if s.boot.por = false ∨ s.boot.locked = false then s
    else
      let s1 := fire (takeInj s 0 5).2 0 5
      if s1.net.linkStall.isSome then s1
      else showStall { s1 with net := { s1.net with linkStall := some s1.clk } } 1

/-- DIE_LINK_REPLAY_END (R23): the stalled connections resume. -/
def execDieLinkReplayEnd (s : State) : Out :=
  run true s <|
    if s.net.linkStall = none then s else showStall { s with net := { s.net with linkStall := none } } 0

/-- DIE_LINK_FAILURE (R23): the errors have persisted for more than 1 ms. -/
def execDieLinkFailure (s : State) : Out :=
  run true s <| match s.net.linkStall with
    | none => s
    | some t => if t * 16 + 25000000 < nowU s then fire s 0 4 else s

/-! ### Temperature and rails (R486, R507) -/

/-- THERMAL_SENSOR_PASS (R507): sources 0 and 6 fire on the first reading at their thresholds. -/
def execThermalSensorPass (tj : Nat) (s : State) : Out :=
  run (tj < 256) s <|
    if armed s = false then s
    else
      let was := fget s glbThermTjC 0 0
      let warn := fget s glbThermWarnC 0 0
      let s1 := fset { s with flt := { s.flt with overWarn := decide (warn ≤ tj) } } glbThermTjC 0 0 tj
      let s2 := if s.flt.overWarn = false ∧ warn ≤ tj then fire s1 0 6 else s1
      if was < 120 ∧ 120 ≤ tj then fire s2 0 0 else s2

/-- CORE_RAIL_FAULT (R486): a core rail has been outside 0.64-0.84 V for more than 10 µs. -/
def execCoreRailFault (s : State) : Out := run true s (if armed s then fire s 0 1 else s)

end Sys2Proof.Machine
end

