-- ==== Sys2Proof/Machine/Boot.lean ====
section
/-!
DEFINITION. Power-on, the boot ROM's work and its images (R466-R480), limited mode (R473, R475), the PCIe link (R429, R496,
R500) and SMBus (R502, R503). The verdicts of the hash, signature and decryption engines are operands.
-/
namespace Sys2Proof.Machine

/-! ### Power-on (R466, R492, R494) -/

/-- Key of GLB.GRAVE_CAUSE. -/
def graveKey : Nat := regKey 0 0x184

/-- POR_N_ASSERT (R494): every part is reset but the grave latch and GRAVE_CAUSE (R492). -/
def execPorNAssert (s : State) : Out :=
  run true s { State.reset with
    free := s.free, out := s.out
    cfg := { State.reset.cfg with act := s.cfg.act.filter fun e => e.1 == graveKey }
    flt := { State.reset.flt with grave := s.flt.grave, stopped := s.flt.grave } }

/-- POR_N_RELEASE (R466). -/
def execPorNRelease (s : State) : Out :=
  run true s <|
    if s.boot.por then s else { s with boot := { s.boot with por := true, porAt := s.clk } }

/-- FUSE_SENSE (R466, R485): a good check makes FUSE_SKU valid, with the reset values its code gives BRL; a failed one
fires GLB source 3. AVS is valid from here. -/
def execFuseSense (ok : Bool) (code mv0 mv1 : Nat) (s : State) : Out :=
  run (code < 16 && mv0 < 1024 && mv1 < 1024) s <|
    if s.boot.por = false ∨ s.boot.fuses ≠ 0 then s
    else
      let s1 := fset (fset s glbAvsDie0Mv 0 0 mv0) glbAvsDie1Mv 0 0 mv1
      let s2 := { s1 with boot := { s1.boot with fuses := if ok then 1 else 2 } }
      if ok = false then fire s2 0 3
      else
        let s3 := fset s2 glbFuseSkuCode 0 0 code
        if code = 2 then
          fset (((List.range 4).zip [663, 663, 662, 662]).foldl (fun a e =>
              fset (fset a brlOvfGbs 0 e.1 e.2) brlEffOvfGbs 0 e.1 e.2) s3)
            brlDeliverableGbs 0 0 6533
        else s3

/-- The clocks of the management plane run and context 0.0 starts at the boot ROM. -/
def clocksRun (s : State) (pll : Bool) : State :=
  let s1 := { s with
    boot := { s.boot with locked := pll, mgmtUp := true }
    tim := { s.tim with lockU := nowU s, base := 0, baseTick := 0 } }
  romInit (startHart s1 0 0 []) false

/-- ROOT_PLL_LOCK (R466, R369). -/
def execRootPllLock (s : State) : Out :=
  run true s <| if s.boot.fuses = 0 ∨ s.boot.mgmtUp = true then s else clocksRun s true

/-- PLL_LOCK_TIMEOUT (R466, R460, R45): 1 ms after POR_N release without lock, the last clock included, GLB source 2 fires; the management plane and
Holtarun then run from REFCLK_CORE. -/
def execPllLockTimeout (s : State) : Out :=
  run true s <|
    if s.boot.por = false ∨ s.boot.mgmtUp = true ∨ passedNs s s.boot.porAt 1000000 = false
        ∨ s.pending.contains .rootPllLock = true then s
    else clocksRun (fire s 0 2) false

/-- GRAVE_LATCH_CLEAR (R492): the supplies have been removed. -/
def execGraveLatchClear (s : State) : Out :=
  run true s <|
    if s.boot.por then s
    else { setAct s graveKey 0 with flt := { s.flt with grave := false, stopped := false } }

/-! ### Sources (R467-R469) -/

/-- The flash directory of Table 17-2, when it is good. -/
def readDir (b : List Byte) : Option (List (Nat × Nat × Nat × Nat)) :=
  let n := ofLE (slice b 6 2)
  if b.length < 12 + 16 * n ∨ ofLE (slice b 0 4) ≠ 0x44465A4B ∨ ofLE (slice b 4 2) ≠ 1 ∨ n < 1 ∨ 16 < n
      ∨ ofLE (slice b 8 4) ≠ crc32c (slice b 12 (16 * n)) then none
  else some ((List.range n).map fun k =>
    (byteAt b (12 + 16 * k), byteAt b (13 + 16 * k), ofLE (slice b (16 + 16 * k) 4), ofLE (slice b (20 + 16 * k) 4)))

/-- FLASH_DIRECTORY_READ (R467, R468): at ROM_INIT, by CTL.SRC. -/
def execFlashDirectoryRead (bytes : List Byte) (s : State) : Out :=
  run true s <|
    if fget s bootStatPhase 0 0 ≠ 1 ∨ s.boot.dirRead = true ∨ s.boot.mgmtUp = false then s
    else
      let src := fget s bootCtlSrc 0 0
      let s1 := { s with boot := { s.boot with dirRead := true } }
      if src = 1 then fset s1 bootStatPhase 0 0 3
      else match readDir bytes with
        | some d => fset { s1 with boot := { s1.boot with dir := d } } bootStatPhase 0 0 2
        | none => fset s1 bootStatPhase 0 0 (if src = 0 then 3 else 2)

/-- An image type has a result of 1 in this boot. -/
def typeDone (s : State) (t : Nat) : Bool := fget s bootImgStatResult 0 (t - 1) == 1

/-- A container could not be read (R469): RESULT 9, BOOT source 2. -/
def readError (s : State) (t : Nat) : State :=
  fire { fset s bootImgStatResult 0 (t - 1) 9 with boot := { s.boot with cands := t :: s.boot.cands } } 1 2

/-- HOST_CTL.GO (R469, R475): in HOST_WAIT or LIMITED the bundle is fetched; every applied image is discarded. -/
def bundleGo (s : State) : State :=
  let phase := fget s bootStatPhase 0 0
  if phase ≠ 3 ∧ phase ≠ 7 then s
  else
    let s1 := romInit s (fget s bootStatRestart 0 0 == 1 && phase == 3)
    let s2 := if phase = 7 then
        (List.range 10).foldl (fun a i => fset (showOkra a i) okrPatchVerVer i 0 0)
          { s1 with tbl := { s1.tbl with okr := [] }, boot := { s1.boot with serdes := [] } }
      else s1
    let n := fget s2 bootHostLenLen 0 0
    let s3 := fset { s2 with boot := { s2.boot with dirRead := true } } bootStatPhase 0 0 4
    if hostThere s3 then
      fset (emit { s3 with boot := { s3.boot with hostLeft := n } }
        (.hostRead 31 (fget s bootHostAddrHiAddr 0 0 * 2 ^ 32 + fget s bootHostAddrLoAddr 0 0 * 64) n)) bootHostStatState 0 0 1
    else fset (readError s3 1) bootHostStatState 0 0 3

/-! ### The container (R470, Table 17-3) -/

/-- Fields of a container header. -/
def cType (b : List Byte) : Nat := byteAt b 8
def cVersion (b : List Byte) : Nat := ofLE (slice b 12 4)
def cLen (b : List Byte) : Nat := ofLE (slice b 16 4)
def cLoad (b : List Byte) : Nat := ofLE (slice b 24 8)
def cEntry (b : List Byte) : Nat := ofLE (slice b 32 8)
def cCompat (b : List Byte) : List (Nat × Nat) :=
  (List.range (ofLE (slice b 68 2))).map fun k => (byteAt b (72 + 8 * k), ofLE (slice b (76 + 8 * k) 4))
def cPayload (b : List Byte) : List Byte := slice b 640 (cLen b)

/-- Bytes from i to j - 1 are zero. -/
def zeros (b : List Byte) (i j : Nat) : Bool := (slice b i (j - i)).all (· == 0)

/-- Bytes a container occupies. -/
def cSize (b : List Byte) : Nat := 640 + cdiv (cLen b) 64 * 64

/-- A section of a MICROCODE_PATCH payload (Table 17-8). -/
structure PatchSec where
  mask : Nat
  first : Nat
  hooks : List Nat
  words : List Nat
  deriving DecidableEq, Repr

/-- The sections of a payload, when each is well formed; the first argument bounds them. -/
def patchSecs : Nat → List Byte → Option (List PatchSec)
  | 0, _ => none
  | n + 1, b =>
    if b = [] then some []
    else
      let mask := ofLE (slice b 0 2)
      let words := ofLE (slice b 2 2)
      let hooks := ofLE (slice b 4 2)
      let first := ofLE (slice b 6 2)
      let size := 16 + 4 * hooks + 16 * words
      let hs := (List.range hooks).map fun k => ofLE (slice b (16 + 4 * k) 4)
      if b.length < size ∨ mask = 0 ∨ 1024 ≤ mask ∨ 64 < hooks ∨ 1024 ≤ first ∨ 1024 < first + words
          ∨ zeros b 8 16 = false ∨ hs.any (fun h => decide (3071 < h % 4096) || bitsOf h 30 22 != 0) = true then none
      else (patchSecs n (b.drop size)).map fun r =>
        ⟨mask, first, hs, (List.range words).map fun k => ofLE (slice b (16 + 4 * hooks + 16 * k) 16)⟩ :: r

/-- A section written to a store (R477): a valid hook replaces the hook of its base word or takes a free place. -/
def patchStore (o : OkraSt) (p : PatchSec) : OkraSt :=
  { o with
    patch := ((List.range p.words.length).zip p.words).foldl (fun m e => storePut (p.first + e.1) e.2 m) o.patch
    hooks := (p.hooks.filter (bit · 31)).foldl (fun l h =>
      if l.any fun x => x % 4096 == h % 4096 then l.map fun x => if x % 4096 = h % 4096 then h else x else l ++ [h]) o.hooks }

/-- Every store after a payload, from empty patch areas. -/
def patchAll (secs : List PatchSec) : List OkraSt :=
  (List.range 10).map fun i => (secs.filter fun p => bit p.mask i).foldl patchStore ⟨i, [], []⟩

/-- [a, a + n) may hold an image (Table 17-5). -/
def loadOk (a n : Nat) : Bool :=
  (decide (0x1000000 ≤ a) && decide (a + n ≤ 0x1400000))
    || (inShm a n && (decide (a + n ≤ shmBase + 0x3F0000) || decide (shmBase + 0x400000 ≤ a)))

/-- The payload fits its destination (Table 17-5). -/
def destOk (s : State) (b : List Byte) : Bool :=
  match cType b with
  | 1 => loadOk (cLoad b) (cLen b) && decide (cLoad b ≤ cEntry b) && decide (cEntry b < cLoad b + cLen b)
  | 2 => (match patchSecs (cLen b + 1) (cPayload b) with
    | none => false
    | some secs => (patchAll secs).all fun o => decide (o.hooks.length ≤ 64))
  | 3 => loadOk (cLoad b) (cLen b) && decide (cLoad b ≤ cEntry b) && decide (cEntry b < cLoad b + cLen b)
    && !(s.boot.images.any fun i => i.typ == 1 && decide (cLoad b < i.load + i.len) && decide (i.load < cLoad b + cLen b))
  | _ => decide (cLen b ≤ 524288)

/-- Check 1 of R471. -/
def formatOk (s : State) (b : List Byte) : Bool :=
  let t := cType b
  let n := ofLE (slice b 68 2)
  ofLE (slice b 0 4) == 0x55415A4B && ofLE (slice b 4 2) == 1 && ofLE (slice b 6 2) == 640
    && decide (1 ≤ t) && decide (t ≤ 4) && decide (byteAt b 9 < 2) && decide (byteAt b 10 < 4) && byteAt b 11 == 0
    && decide (1 ≤ cLen b) && decide (cLen b ≤ 4194304) && zeros b 20 24 && (t == 1 || t == 3 || zeros b 24 40)
    && decide (1 ≤ n) && decide (n ≤ 32) && zeros b 70 72 && zeros b (72 + 8 * n) 328 && zeros b 328 384 && zeros b 576 640
    && zeros b (640 + cLen b) (cSize b)
    && ((List.range n).all fun k => let kind := byteAt b (72 + 8 * k)
        decide (kind ≤ 4) && kind != t && zeros b (73 + 8 * k) (76 + 8 * k) && (kind != 0 || zeros b (77 + 8 * k) (80 + 8 * k)))
    && destOk s b

/-- Two images are tested with each other (R472). -/
def paired (t v : Nat) (c : List (Nat × Nat)) (i : Image) : Bool := c.contains (i.typ, i.version) || i.compat.contains (t, v)

/-- The result of a container (R471, R472, R480), by the order of the checks. -/
def containerResult (s : State) (b : List Byte) (keyOk sigOk tagOk : Bool) : Nat :=
  let t := cType b
  let again := fget s bootStatRestart 0 0 == 1 && (t == 2 || t == 4)
  if formatOk s b = false then 2
  else if keyOk = false then 3
  else if sigOk = false then 4
  else if bit (byteAt b 9) 0 ∧ tagOk = false then 5
  else if (cCompat b).contains (0, fget s glbRevisionStep 0 0) = false then 6
  else if !((s.boot.images.filter fun i => i.typ != t).all (paired t (cVersion b) (cCompat b))) then 7
  else if again ∧ (s.boot.images.any fun i => i.typ == t && i.version == cVersion b) = false then 10
  else 1

/-- The destination of a refused container is zeroed; a control-plane restart leaves the patch and the SerDes firmware. -/
def zeroDest (s : State) (b : List Byte) : State :=
  if destOk s b = false then s
  else match cType b with
    | 1 => memWrite s (cLoad b) (List.replicate (cLen b) 0)
    | 3 => memWrite s (cLoad b) (List.replicate (cLen b) 0)
    | 2 => if fget s bootStatRestart 0 0 = 1 then s
      else (List.range 10).foldl showOkra { s with tbl := { s.tbl with okr := [] } }
    | _ => if fget s bootStatRestart 0 0 = 1 then s else { s with boot := { s.boot with serdes := [] } }

/-- The payload reaches its destination (Table 17-5). -/
def writeDest (s : State) (b : List Byte) : State :=
  let again := fget s bootStatRestart 0 0 == 1
  match cType b with
  | 1 => memWrite s (cLoad b) (cPayload b)
  | 3 => memWrite s (cLoad b) (cPayload b)
  | 2 =>
    if again then s
    else
      let okr := patchAll ((patchSecs (cLen b + 1) (cPayload b)).getD [])
      (List.range 10).foldl (fun a i => fset (showOkra a i) okrPatchVerVer i 0 (cVersion b)) { s with tbl := { s.tbl with okr := okr } }
  | _ => if again then s else { s with boot := { s.boot with serdes := cPayload b } }

/-- A container has been judged: applied, or refused with its destination zeroed and its BOOT source. -/
def judged (s : State) (src t : Nat) (b : List Byte) (code : Nat) : State :=
  let i := t - 1
  let s1 := fset (fset { s with boot := { s.boot with cands := t :: s.boot.cands, typ := t } } bootImgStatResult 0 i code)
    bootImgStatCopy 0 i src
  if code = 1 then
    let img : Image := ⟨t, cVersion b, cCompat b, cLoad b, cLen b, cEntry b⟩
    let s2 := writeDest (fset (fset s1 bootImgStatApplied 0 i 1) bootImgVerVersion 0 i (cVersion b)) b
    fset { s2 with boot := { s2.boot with images := (s2.boot.images.filter fun x => x.typ != t) ++ [img] } } bootStatPhase 0 0 5
  else if code = 10 then s1
  else
    let s2 := zeroDest s1 b
    fire s2 1 (if code ≤ 5 then 0 else 1)

/-- The flash candidate tried next (R472): the first entry, in directory order, of the lowest type not yet applied. -/
def nextEntry (s : State) : Option (Nat × Nat × Nat × Nat) :=
  match ([1, 2, 3, 4].filter fun t => !typeDone s t).find? fun t => s.boot.dir.any fun e => e.1 == t with
  | none => none
  | some t => s.boot.dir.find? fun e => e.1 == t

/-- The bundle's load has failed (R469). -/
def bundleFailed (s : State) (t : Nat) : State :=
  let s1 := readError s t
  fset { s1 with boot := { s1.boot with hostLeft := 0 } } bootHostStatState 0 0 3

/-- CONTAINER_CHECK (R469, R471, R472): the next flash candidate, or the next container of the bundle. -/
def execContainerCheck (src : Nat) (bytes : List Byte) (keyOk sigOk tagOk : Bool) (s : State) : Out :=
  run (src < 3) s <|
    let phase := fget s bootStatPhase 0 0
    let t := cType bytes
    if src < 2 then
      (if (phase ≠ 2 ∧ phase ≠ 5) ∨ s.boot.hostLeft ≠ 0 then s
       else match nextEntry s with
        | none => s
        | some e =>
          if e.2.1 ≠ src then s
          else
            let s1 := { s with boot := { s.boot with dir := s.boot.dir.erase e } }
            if bytes.length ≠ e.2.2.2 ∨ bytes.length ≠ cSize bytes ∨ t ≠ e.1 then
              (if bytes.length ≠ e.2.2.2 then readError s1 e.1 else judged s1 src e.1 bytes 2)
            else judged s1 src t bytes (containerResult s1 bytes keyOk sigOk tagOk))
    else if (phase ≠ 4 ∧ phase ≠ 5) ∨ s.boot.hostLeft = 0 then s
    else if bytes.length ≠ cSize bytes ∨ s.boot.hostLeft < bytes.length then bundleFailed s s.boot.typ
    else
      let s1 := { s with boot := { s.boot with hostLeft := s.boot.hostLeft - bytes.length } }
      if t < 1 ∨ 4 < t then judged s1 2 s1.boot.typ bytes 2
      else if typeDone s1 t ∨ t < s1.boot.typ then s1
      else judged s1 2 t bytes (containerResult s1 bytes keyOk sigOk tagOk)

/-! ### The end of the boot (R473-R475) -/

/-- No candidate of a type is left. -/
def typeClosed (s : State) (t : Nat) : Bool :=
  let phase := fget s bootStatPhase 0 0
  (phase == 2 || phase == 4 || phase == 5) && s.boot.hostLeft == 0 && !(s.boot.dir.any fun e => e.1 == t)

/-- The type has failed: required without an applied image, or tried without one (R473). -/
def typeFailed (s : State) (t : Nat) : Bool :=
  typeClosed s t && fget s bootImgStatApplied 0 (t - 1) == 0 && (t != 2 || s.boot.cands.contains 2)

/-- The fuses do not let the device run: the check failed, or the code is 0 or reserved, which counts as 0 (Table 0-2). -/
def fusesFail (s : State) : Bool := s.boot.fuses == 2 || sku s == 0

/-- Version and entry of an applied image. -/
def imageOf (s : State) (t : Nat) : Option Image := s.boot.images.find? fun i => i.typ == t

/-- DATA_PLANE_RELEASE (R474): every required type is applied. The grave latch keeps the data plane stopped (R461). -/
def execDataPlaneRelease (s : State) : Out :=
  run true s <|
    if s.boot.mgmtUp = false ∨ s.hol.restartAt ≠ none ∨ s.flt.warmAt ≠ none ∨ fusesFail s = true
        ∨ [1, 2, 3, 4].any (fun t => !typeClosed s t && !typeDone s t) = true ∨ [1, 2, 3, 4].any (typeFailed s) = true then s
    else
      let again := fget s bootStatRestart 0 0
      let s1 := fset { s with boot := { s.boot with
        dpUp := !s.flt.grave, relAt := if s.boot.dpUp then s.boot.relAt else s.clk } } bootStatPhase 0 0 6
      let s2 := if s.boot.dpUp then s1 else (List.range 384).foldl (fun a p => if portThere a p then deriveRates a p false else a) s1
      let s3 := if fget s2 bootHostStatState 0 0 = 1 then fset s2 bootHostStatState 0 0 2 else s2
      startHart s3 0 ((imageOf s3 1).elim 0 (·.entry)) [(imageOf s3 3).elim 0 (·.entry), again, (imageOf s3 4).elim 0 (·.version)]

/-- The data plane is held in reset when it was released (R480). -/
def holdPlane (s : State) : State := if s.boot.dpUp then planeReset s else s

/-- LIMITED_MODE_ENTRY (R473, R475): the first type that failed, or the fuses. -/
def execLimitedModeEntry (s : State) : Out :=
  run true s <|
    let phase := fget s bootStatPhase 0 0
    if s.boot.mgmtUp = false ∨ s.hol.restartAt ≠ none ∨ s.flt.warmAt ≠ none ∨ phase = 0 ∨ phase = 3 ∨ 6 ≤ phase then s
    else
      let why := if fusesFail s then some 1 else ([1, 2, 3, 4].find? (typeFailed s)).map (1 + ·)
      match why with
      | none => s
      | some r =>
        let s1 := holdPlane s
        let s2 := fset (fset s1 bootStatPhase 0 0 7) bootStatLimitReason 0 0 r
        let s3 := if fget s2 bootHostStatState 0 0 = 1 then fset s2 bootHostStatState 0 0 3 else s2
        { s3 with hol := { s3.hol with harts := s3.hol.harts.map fun e =>
          if e.1 = 0 then e else (e.1, { e.2 with st := .idle }) } }

/-! ### PCIe (R429, R496, R500) -/

/-- What the PCIe configuration space shows (Table 18-9): Vendor, Device, Revision, Subsystem Vendor and Subsystem ID, the last
being the ordering code (R5). -/
def configIds (s : State) : List Nat := [0x1FD7, 0x4816, 0x02, 0x1FD7, fget s glbFuseSkuCode 0 0]

/-- PERST_N (R496): the link, the configuration space and the PCIE page are reset. -/
def execPerstN (s : State) : Out :=
  run true s <|
    let pg := pageOf .pcie 0 0
    let s1 := { s with
      boot := { s.boot with link := false, d3 := false }
      cfg := { s.cfg with act := s.cfg.act.filter fun e => keyPage e.1 != pg }
      pg := { s.pg with unlocked := s.pg.unlocked.filter (fun k => k / 2 != pg), mbx := storeDel pg s.pg.mbx
                        crcRun := storeDel pg s.pg.crcRun, intPin := storeDel pg s.pg.intPin } }
    fset s1 dmaxReplayNsNs 32 0 0

/-- PCIE_LINK_DOWN (R496): PCIE source 2 fires; REPLAY_NS reads 0. -/
def execPcieLinkDown (s : State) : Out :=
  run true s <|
    if s.boot.link then
      fire (fset { s with boot := { s.boot with link := false } } dmaxReplayNsNs 32 0 0) (pageOf .pcie 0 0) 2
    else s

/-- PCIE_LINK_UP (R429): the link trains; REPLAY_NS is the budget at its rate and width. -/
def execPcieLinkUp (gen width replay : Nat) (s : State) : Out :=
  run (3 ≤ gen && gen < 7 && width < 9 && replay < 4294967296) s <|
    fset { s with boot := { s.boot with link := true } } dmaxReplayNsNs 32 0 replay

/-- D3HOT_ENTRY (R500): DMA stops under R431. -/
def execD3hotEntry (s : State) : Out :=
  run true s <| let s1 := stopAll s; { s1 with boot := { s1.boot with d3 := true } }

/-! ### SMBus (R502, R503) -/

/-- Register a command code selects (Table 18-11), as an offset of its page. -/
def smbusReg (code : Nat) : Option (Nat × Nat) :=
  match code with
  | 1 => some (0, 0x100) | 2 => some (0, 0x104) | 3 => some (0, 0x108) | 4 => some (0, 0x18C)
  | 5 => some (0, 0x190) | 6 => some (0, 0x180) | 7 => some (0, 0x184) | 8 => some (1, 0x104)
  | _ => none

/-- SMBUS_BLOCK_READ (R502, R503): count 4, then the register, least significant byte first; zero for other codes. -/
def execSmbusBlockRead (code : Nat) (s : State) : Out :=
  run (code < 256) s <|
    emit s (.smbus (4 :: toLE 4 ((smbusReg code).elim 0 fun r => (actW s (regKey r.1 r.2)).toNat)))

/-- SMBUS_WRITE (R503): acknowledged and ignored. -/
def execSmbusWrite (_bytes : List Byte) (s : State) : Out := run true s (emit s .smbusAck)

/-- SMBUS_TIMEOUT (R502): the transaction is abandoned and the bus released; the block keeps nothing of it. -/
def execSmbusTimeout (s : State) : Out := run true s s

end Sys2Proof.Machine
end

