-- ==== Sys2Proof/Machine/Flip.lean ====
section
/-!
DEFINITION. Flips (R65-R71, R515): the refusals of a commit, the copy of the shadows, and what each block does at its
group's flip; timed strobes (R72).
-/
namespace Sys2Proof.Machine

/-! ### The copy -/

/-- A page is in one of the groups of a mask. -/
def inMask (s : State) (mask page : Nat) : Bool := bit mask (groupOf s page)

/-- A block's page `pn` of instance `i` is in one of the groups of a mask. -/
def took (s : State) (mask : Nat) (b : Blk) (i pn : Nat) : Bool := inMask s mask (pageOf b i pn)

/-- Shadow words that a flip of the groups of a mask takes. -/
def taken (s : State) (mask : Nat) : Store Word := s.cfg.shd.filter fun e => inMask s mask (keyPage e.1)

/-- Active word after the flip: a register takes its SH fields from the shadow, an object all of it (R64, R65). -/
def flipWord (s : State) (k : Nat) (w : Word) : Word :=
  if k < 2 ^ 64 then
    match regAt (keyPage k) (k % 4096) with
    | none => w
    | some g => BitVec.ofNat 32 (shadowWord g.1.flds (actW s k).toNat w.toNat)
  else w

/-- Configuration after a flip of the groups of a mask (R65): shadows copied, and on data-plane pages the replaced words
kept for the heads of the previous epoch. -/
def flipCfg (s : State) (mask : Nat) : CfgSt :=
  let e := taken s mask
  { act := e.foldl (fun a x => storeSet (resetOf x.1) x.1 (flipWord s x.1 x.2) a) s.cfg.act
    shd := s.cfg.shd.filter fun x => !inMask s mask (keyPage x.1)
    old := e.foldl (fun a x => if isDP (keyPage x.1) then storePut x.1 (actW s x.1) a else a)
      (s.cfg.old.filter fun x => !inMask s mask (keyPage x.1))
    cnt := s.cfg.cnt }

/-- The state as the flip would leave its configuration. -/
def after (s : State) (mask : Nat) : State := { s with cfg := flipCfg s mask }

/-! ### Refused values (R46, R515) -/

/-- The shadow of a field takes back the active value. -/
def keepFld (s : State) (f : Fld) (i n : Nat) : State :=
  let k := fldKey f i n
  match storeFind s.cfg.shd k with
  | none => s
  | some w => setShd s k (BitVec.ofNat 32 (putBits w.toNat f.hi f.lo (fget s f i n)))

/-- The shadows of an object type of a page take back the active words. -/
def keepObj (s : State) (page obj : Nat) : State :=
  { s with cfg := { s.cfg with shd := s.cfg.shd.filter fun e =>
      !(decide (2 ^ 64 ≤ e.1) && keyPage e.1 == page && e.1 / 2 ^ 28 % 256 == obj) } }

/-- The flip would change a field. -/
def alters (s : State) (mask : Nat) (f : Fld) (i n : Nat) : Bool :=
  fget (after s mask) f i n != fget s f i n

/-- COMMIT_REFUSED of a page sets and its source fires. -/
def refused (s : State) (f : Fld) (i src : Nat) : State := fire (fset s f i 0 1) (pageOf f.blk i f.page) src

/-- Twill bound in ns (R281). -/
def twillNs (s : State) : Nat :=
  let a := (List.range 8).foldl (fun m k => max m (fget s gzeSaCfgALimit k 0)) 0
  let c := (List.range 8).foldl (fun m k => max m (fget s twlCfgCredit k 0)) 0
  cdiv ((20 + 8 * cdiv a 3 + 8 * cdiv c 4) * 16) 25

/-- BRL_NS (R254), TWILL_NS (R282) and the blocking rule (R351) of one slice's ADM page, against the retry budget and the
Twill bound the same request would bring (log entry 20). -/
def admJudge (mask : Nat) (s : State) (k : Nat) : State :=
  let t := after s mask
  let a := alters s mask admPathBrlBrlNs k 0
    && decide (fget t admPathBrlBrlNs k 0 ≤ fget t brlRetryRetryMax 0 0 * fget t brlRetryRetryNs 0 0)
  let s1 := if a then keepFld s admPathBrlBrlNs k 0 else s
  let b := alters s1 mask admPathOnTwillNs k 0 && decide (fget t admPathOnTwillNs k 0 < twillNs t)
  let s2 := if b then keepFld s1 admPathOnTwillNs k 0 else s1
  let u := after s2 mask
  let c := (alters s2 mask admPathOnTwillNs k 0 || alters s2 mask admPathOnEgressNs k 0)
    && (List.range 48).any fun n => blockBroken u (48 * k + n)
  let s3 := if c then keepFld (keepFld s2 admPathOnTwillNs k 0) admPathOnEgressNs k 0 else s2
  if a || b || c then refused s3 admStatCommitRefused k 2 else s3

/-- FLOWLET_NS of one slice exceeds the Twill bound (R287). -/
def flowletJudge (mask : Nat) (s : State) (k : Nat) : State :=
  let t := after s mask
  if alters s mask gzeFlowletFlowletNs k 0 && decide (fget t gzeFlowletFlowletNs k 0 ≤ twillNs t)
  then refused (keepFld s gzeFlowletFlowletNs k 0) gzeStatCommitRefused k 2 else s

/-- CREDIT and A_LIMIT (R282, R287): refused on every page that would change one, when the bound would rise above a
TWILL_NS or reach a FLOWLET_NS. -/
def boundJudge (s : State) (mask : Nat) : State :=
  let t := after s mask
  let b := twillNs t
  if decide (twillNs s < b)
      && (List.range 8).any (fun k => decide (fget t admPathOnTwillNs k 0 < b) || decide (fget t gzeFlowletFlowletNs k 0 ≤ b))
  then
    let s1 := (List.range 8).foldl (fun a k => if alters s mask twlCfgCredit k 0
      then refused (keepFld a twlCfgCredit k 0) twlStatCommitRefused k 2 else a) s
    (List.range 8).foldl (fun a k => if alters s mask gzeSaCfgALimit k 0
      then refused (keepFld a gzeSaCfgALimit k 0) gzeStatCommitRefused k 2 else a) s1
  else s

/-- Owners and PF_POOL of one slice (R294). -/
def bpmJudge (mask : Nat) (s : State) (k : Nat) : State :=
  let page := pageOf .bpm k 0
  let mine := (taken s mask).any fun e => keyPage e.1 == page
  if mine then
    let t := after s mask
    let bad := (List.range 386).any fun o => decide (oget t .bpm k 0 1 o 1 % 2 ^ 17 < oget t .bpm k 0 1 o 0 % 2 ^ 17)
    if bad || decide (sharedSize t k < 0)
    then refused (keepFld (keepObj s page 1) bpmPfPoolCells k 0) bpmStatCommitRefused k 3 else s
  else s

/-- The Burlap budget and the retry budget (R332), judged at every flip of their pages' groups. -/
def brlJudge (s : State) (mask : Nat) : State :=
  let t := after s mask
  let use_ := fget t brlHolGbs 0 0 + fget t brlCntGbs 0 0
    + 2 * (fget t brlOvfGbs 0 1 + fget t brlOvfGbs 0 2 + fget t brlOvfGbs 0 3)
  let a := took s mask .brl 0 1 && decide (deliverable t < use_)
  let s1 := if a
    then fset ((List.range 4).foldl (fun x c => keepFld x brlOvfGbs 0 c)
      (keepFld (keepFld (keepFld s brlMirrorGbs 0 0) brlHolGbs 0 0) brlCntGbs 0 0)) brlStatCode 0 0 1
    else s
  let b := took s mask .brl 0 0
    && (List.range 8).any fun k => decide (fget t admPathBrlBrlNs k 0 ≤ fget t brlRetryRetryMax 0 0 * fget t brlRetryRetryNs 0 0)
  let s2 := if b then fset (keepFld (keepFld s1 brlRetryRetryNs 0 0) brlRetryRetryMax 0 0) brlStatCode 0 0 2 else s1
  if a || b then refused s2 brlStatCommitRefused 0 0 else s2

/-- The Perrun peer table and PRIO_CFG (R444). -/
def prnJudge (s : State) (mask : Nat) : State :=
  if (took s mask .prn 0 0 || took s mask .prn 0 3) && prnRefuses (after s mask) then
    refused ([prnPrioCfg0DeadlineUs, prnPrioCfg1DeadlineUs, prnPrioCfg2DeadlineUs, prnPrioCfg3DeadlineUs].foldl
      (fun a f => keepFld a f 0 0) (keepObj s (pageOf .prn 0 3) 1)) prnStatCommitRefused 0 1
  else s

/-- Every refusal of a flip of the groups of a mask. -/
def judgeAll (s : State) (mask : Nat) : State :=
  let s1 := (List.range 8).foldl (admJudge mask) s
  let s2 := boundJudge ((List.range 8).foldl (flowletJudge mask) s1) mask
  prnJudge (brlJudge ((List.range 8).foldl (bpmJudge mask) s2) mask) mask

/-! ### What the blocks do at their flip

`s` is the state before the edge, `t` the state after the copy. -/

/-- The link of a port is judged again under a changed LINK_CTL (R108, R109). -/
def linkAgain (t : State) (p : Nat) : State :=
  let u := upCheck t p
  if lossDue u p then linkLoss u p else u

/-- A port's mode changes (R87): it loses alignment at the edge and retrains under the new mode, in link loss once DOWN_HOLD has
passed (R108); a port no longer there ends by link loss, and begins anew when a layout makes it again. -/
def modeFlip (s t : State) (p : Nat) : State :=
  let u := squelchLanes t ((activeLanes s p).map (laneInst p))
  if portThere t p then deriveRates (retrain u p) p false
  else
    let v := linkLoss u p
    [pcsPortStatUpWait, pcsPortStatRetrain, pcsPortStatSd, pcsPortStatRf, pcsPortStatLf, pcsPortStatAligned].foldl
      (fun a f => fset a f (p / 8) (p % 8) 0)
      (modPort v p fun x => { portReset with downAt := x.downAt, rx := x.rx, hier := x.hier, tok := x.tok })

/-- Lanes of a group: powered where a port covers them, else LANE_STAT is zero (R84). -/
def laneFlip (g : Nat) (t : State) (l : Nat) : State :=
  let i := 8 * g + l
  match laneOwner (actW t (layoutKey g)).toNat l with
  | none => setAct t (fldKey sdsLaneStatPowered i 0) 0
  | some _ => fset t sdsLaneStatPowered i 0 1

/-- PCS: modes, lanes, link rules, the blocking rule (R84, R87, R351). -/
def pcsFlip (mask : Nat) (s t : State) (g : Nat) : State :=
  if took s mask .pcs g 0 then
    let u := (List.range 8).foldl (laneFlip g) t
    (List.range 8).foldl (fun a n =>
      let p := 8 * g + n
      let b := if portMode s p = portMode t p then (if portThere t p then linkAgain a p else a) else modeFlip s a p
      if portThere b p ∨ portThere s p = true then showBlock b p else b) u
  else t

/-- SDS: a lane put into loopback reports loss of alignment to its port (R114). -/
def sdsFlip (mask : Nat) (s t : State) (i : Nat) : State :=
  if took s mask .sds i 0 && fget t sdsLaneCfgLoopback i 0 != 0 then
    match laneOwner (actW t (layoutKey (i / 8))).toNat (i % 8) with
    | none => t
    | some sp =>
      let p := 8 * (i / 8) + sp
      if fget t pcsPortStatAligned (p / 8) sp = 1 then setCond (setCond (loseAlign t p) p 0 true) p 1 true else t
  else t

/-- MAC: pause thresholds, parking (R107), the blocking rule. A transmitter in low-power idle stays there until its next frame,
also when the flip clears EN (DESIGN CHOICE, log entry 107). -/
def macFlip (mask : Nat) (s t : State) (p : Nat) : State :=
  if took s mask .mac p 0 then
    let u := pauseFall (pauseRise t p) p
    let v := if fget s macParkCtlEn p 0 == 1 && fget u macParkCtlEn p 0 == 0 && (portSt u p).park == .parked
      then startWake u p none else u
    if portThere v p then showBlock v p else v
  else t

/-- RDH: the bank syncs from the flip on (R155). -/
def rdhFlip (mask : Nat) (s t : State) (page : Nat) : State :=
  if inMask s mask page then
    let k := regKey page 0x100
    let u := setAct t k (BitVec.ofNat 32 (putBits (actW t k).toNat 24 24 1))
    { u with tbl := { u.tbl with syncs := storePut page u.clk (storeDel (page + 4096) u.tbl.syncs) } }
  else t

/-- TRE: OLD_READERS where a descriptor changed (R168). -/
def treFlip (mask : Nat) (s t : State) (k : Nat) : State :=
  let page := pageOf .tre k 0
  let desc := fun (key : Nat) => decide (regKey page 0x100 ≤ key) && decide (key < regKey page 0x300)
  if inMask s mask page && (taken s mask).any fun e => desc e.1 && actW t e.1 != actW s e.1
  then fset t treStatOldReaders k 0 1 else t

/-- LEK, one pair (R179, R180): the shadow half becomes active, the sync is due, the digest of the batch is taken. -/
def leekFlip (mask : Nat) (s t : State) (k : Nat) : State :=
  if took s mask .lek k 0 then
    let crc := crc32c (storeGet [] t.tbl.leekLog k).flatten
    let t1 := { t with tbl := { t.tbl with
      leekO := storePut k (leekAct t k) t.tbl.leekO, leekA := storeSet [] k t.tbl.leekS t.tbl.leekA
      leekLog := storeDel k t.tbl.leekLog, leekSync := storeDel k t.tbl.leekSync } }
    fset (fset t1 lekStatSync k 0 1) lekDigestCrc k 0 crc
  else t

/-- LEK (R179, R180): each pair's flip; at its own, K0 compares the four digests. -/
def lekFlip (mask : Nat) (s t : State) : State :=
  let t1 := (List.range 4).foldl (leekFlip mask s) t
  if took s mask .lek 0 0 then
    let inj := takeInj t1 (pageOf .lek 0 0) 2
    if inj.1 || (List.range 4).any (fun k => fget t1 lekDigestCrc k 0 != fget t1 lekDigestCrc 0 0)
    then fire (fset inj.2 lekStatDiverged 0 0 1) (pageOf .lek 0 0) 2 else fset inj.2 lekStatDiverged 0 0 0
  else t1

/-- CHD: deferred changes are due (R186). -/
def chdFlip (mask : Nat) (s t : State) : State :=
  if (List.range 4).any fun k => took s mask .chd k 0
  then { t with tbl := { t.tbl with deferAt := some t.clk } } else t

/-- NHP and EDT: the former active half is held for the previous epoch, and then for its copy (R204, R213). -/
def heldFlip (mask : Nat) (s t : State) (f : Fld) (i : Nat) : State :=
  let page := pageOf f.blk i 0
  if inMask s mask page then
    fsetB t f i 0 (decide (0 < epochRefs t (groupOf t page)) || t.cfg.old.any fun e => keyPage e.1 == page && decide (2 ^ 64 ≤ e.1))
  else t

/-- EDT: as `heldFlip`; a copy still under way gives way to that of the new batch (DESIGN CHOICE, log entry 117). -/
def edtFlip (mask : Nat) (s t : State) (k : Nat) : State :=
  let u := heldFlip mask s t edtStatHeld k
  if inMask s mask (pageOf .edt k 0) then fset u edtStatCopy k 0 0 else u

/-- POL: a record whose MODE changed has full buckets, of the sizes of the new record (R240); a policer not yet used has them at
its first use. -/
def polFlip (mask : Nat) (s t : State) : State :=
  let page := fun sl => pageOf .pol sl 0
  let hit := (taken s mask).filterMap fun e =>
    if 2 ^ 64 ≤ e.1 ∧ e.1 % 16 = 3 ∧ bitsOf (actW s e.1).toNat 25 24 ≠ bitsOf (actW t e.1).toNat 25 24 then
      ((List.range 8).find? fun sl => page sl == keyPage e.1).map fun sl =>
        (polKey sl (e.1 / 16 % 2 ^ 24), bitsOf (actW t (e.1 - 1)).toNat 23 0 * 65536, bitsOf (actW t e.1).toNat 23 0 * 65536)
    else none
  let policers := hit.foldl (fun m h =>
    if (storeFind m h.1).isSome then storePut h.1 ⟨h.2.1, h.2.2, t.clk⟩ m else m) t.net.policers
  { t with net := { t.net with policers := policers } }

/-- A class shaper whose words a flip changes keeps those in force until its first refill after it (R358). -/
def shpFlip (s t : State) (p q : Nat) : State :=
  if qcfg s p q 1 = qcfg t p q 1 ∧ qcfg s p q 2 = qcfg t p q 2 then t
  else putQueue t p q { queue t p q with shp := some (shpWords s p q) }

/-- The same of the port shaper. -/
def portShpFlip (s t : State) (p : Nat) : State :=
  if portShpCfg s p = portShpCfg t p then t else putPort t p { portSt t p with shp := some (portShpWords s p) }

/-- The node buckets in use of a slice are settled under the records before the edge, and hold no more than the depth after it
(R355). -/
def nodesFlip (s t : State) (sl : Nat) : State :=
  { t with net := { t.net with nodes := t.net.nodes.map fun e =>
    if e.1 / 2048 = sl then (e.1, { e.2 with c := min (nodeTok s sl (e.1 % 2048)) (nodeBurst t sl (e.1 % 2048)), last := s.clk }) else e } }

/-- EGS, one port (R352-R354, R348, R361, R364): service mode, queues, rates, gates. -/
def egsPortFlip (s t : State) (p : Nat) : State :=
  let touched := (List.range 9).filter fun q => (List.range 4).any fun w =>
    (storeFind s.cfg.shd (objKey (pageOf .egs (p / 8) 0) 1 (9 * (p % 8) + q) w)).isSome
  let u := touched.foldl (fun a q => putQueue a p q { queue a p q with
    badCfg := false
    flushDone := (queue a p q).flushDone && bit (qcfg s p q 3) 1 && bit (qcfg t p q 3) 1 }) t
  let u := touched.foldl (fun a q => shpFlip s a p q) (portShpFlip s u p)
  let m := serviceMode u p
  let v := if m = serviceMode s p then u
    else if m = 1 then hierEntry (modPort u p fun x => { x with recUntil := none, upUntil := none }) p
    else if (portSt u p).hier then hierExit u p else u
  let w := showHier (deriveRates v p (m != serviceMode s p)) p
  showGate w p

/-- EGS, one group. -/
def egsFlip (mask : Nat) (s t : State) (g : Nat) : State :=
  let t1 := if took s mask .egs g 1 && g % 6 == 0 then nodesFlip s t (g / 6) else t
  if took s mask .egs g 0 || took s mask .egs g 1
  then (List.range 8).foldl (fun a n => egsPortFlip s a (8 * g + n)) t1 else t1

/-- ADM: the blocking rule may hold again (R351). -/
def admFlip (mask : Nat) (s t : State) (k : Nat) : State :=
  if took s mask .adm k 0
  then (List.range 48).foldl (fun a n => if portThere a (48 * k + n) then showBlock a (48 * k + n) else a) t else t

/-- PRN (R438, R439, R445): engine or peers off or on, routes on. -/
def prnFlip (mask : Nat) (s t : State) : State :=
  if took s mask .prn 0 0 || took s mask .prn 0 3 then
    let was := fun k => prnOn s && peerOn s k
    let is_ := fun k => prnOn t && peerOn t k
    let u := if prnOn s && !prnOn t then prnOff t true fun _ => true else prnOff t false fun k => was k && !is_ k
    let v := (List.range 64).foldl (fun a k => if is_ k && !was k then peerStart a k else a) u
    let w := (List.range 128).foldl (fun a x =>
      if routeOn t (x / 2) (x % 2) && !routeOn s (x / 2) (x % 2) then helloStart a (x / 2) (x % 2) else a) v
    routesAll w
  else t

/-- The blocks' part in a flip of the groups of a mask. -/
def blocksFlip (mask : Nat) (s t : State) : State :=
  let t1 := (List.range 48).foldl (pcsFlip mask s) t
  let t2 := (List.range 384).foldl (macFlip mask s) ((List.range 384).foldl (sdsFlip mask s) t1)
  let t3 := (List.range 128).foldl (fun a k => rdhFlip mask s a (320 + k)) t2
  let t4 := chdFlip mask s (lekFlip mask s ((List.range 4).foldl (treFlip mask s) t3))
  let t5 := (List.range 4).foldl (fun a k => heldFlip mask s a nhpStatHeld k) t4
  let t6 := polFlip mask s ((List.range 8).foldl (fun a k => edtFlip mask s a k) t5)
  let t7 := (List.range 8).foldl (admFlip mask s) ((List.range 48).foldl (egsFlip mask s) t6)
  let t8 := if took s mask .brl 0 0 || took s mask .brl 0 1 then deriveShares (settleTokens s t7) else t7
  prnFlip mask s t8

/-! ### The flip (R68-R71) -/

/-- A head that left the holding buffer on the edge of a data-plane flip latches the new epoch of its group (R42). -/
def latchAgain (g ep low clk : Nat) (p : Pkt) : Pkt :=
  if p.stage = .parsing ∧ p.since = clk then { p with ep := p.ep.set g ep, epLow := putBits p.epLow g g low } else p

/-- CUR, the strobe-done line, the data-plane epoch and the flip's clock of one group (R42, R70, R71). -/
def groupFlip (mask : Nat) (s : State) (g : Nat) : State :=
  if bit mask g then
    let s1 := pulse (fset s glbEpochStatCur 0 g ((fget s glbEpochStatCur 0 g + 1) % 256)) g
    let s2 := { s1 with pg := { s1.pg with flipAt := storePut g s.clk s1.pg.flipAt } }
    if groupDP s g then
      let heads := s2.net.pkts.map (latchAgain g (dpEpoch s g + 1) (fget s1 glbEpochStatCur 0 g % 2) s.clk)
      { s2 with pg := { s2.pg with dpEp := storePut g (dpEpoch s g + 1) s2.pg.dpEp }, net := { s2.net with pkts := heads } }
    else s2
  else s

/-- Conservation checks at a data-plane flip (R270). -/
def flipChecks (mask : Nat) (s : State) : State :=
  if (List.range 16).any fun g => bit mask g && groupDP s g then
    { s with net := { s.net with checks := s.net.checks ++ ((List.range 8).filterMap fun sl =>
        if fget s lgrChkCtlFlipEn sl 0 = 1 then some (checkNow s sl 1) else none) } }
  else s

/-- The configuration CRC's runs of the groups' pages and the global run end (R80). -/
def endRuns (mask : Nat) (s : State) : State :=
  { s with pg := { s.pg with crcRun := s.pg.crcRun.filter fun e => e.1 != 32768 && !inMask s mask e.1 } }

/-- The groups of a mask flip at this edge. -/
def flipAll (mask : Nat) (s0 : State) : State :=
  let s := judgeAll s0 mask
  let t := (List.range 16).foldl (groupFlip mask) (after s mask)
  flipChecks mask (blocksFlip mask s (endRuns mask t))

/-- The flip may be taken: no named group has or had on this clock a referenced old epoch (R43), and its delay has passed
(R68). -/
def flipMay (s : State) (f : FlipReq) : Bool :=
  decide (f.ready ≤ s.clk)
    && !((List.range 16).any fun g => bit f.groups g && (s.pg.held.contains g || decide (0 < epochRefs s g)))

/-- FLIP (R68): the n-th waiting flip. -/
def execFlip (n : Nat) (s : State) : Out :=
  run (n < 16) s <| match s.pg.flips[n]? with
    | none => s
    | some f => if s.boot.mgmtUp && flipMay s f
      then flipAll f.groups { s with pg := { s.pg with flips := s.pg.flips.eraseIdx n } } else s

/-! ### Timed strobes (R72) -/

/-- TIMED_STROBE_FIRE (R72): at the first core clock at or after the tick that reaches the time. -/
def execTimedStrobeFire (n : Nat) (s : State) : Out :=
  run (n < 4) s <|
    if s.boot.mgmtUp && fget s glbTstrobeCtlArm 0 n == 1 && decide (tstrobeNs s n * 10 ≤ tbNow s) then tstrobeGo s n
    else s

/-- LOAD_APPLY (R370): the load takes effect or is refused at its tick. A load that skips a PPS_OUT edge suppresses it
(R377), a timed strobe whose time it passed fires at once, and the error window of every port ends unfinished (R110). -/
def execLoadApply (s : State) : Out :=
  run true s <| match s.tim.loadDue with
    | none => s
    | some t =>
      if tickNow s < t then s
      else
        let s1 := withTim s { s.tim with loadDue := none }
        if loadMay s = false then fset (timCount s1 8) timStatLoadRefused 0 0 1
        else
          let ns := (fget s timLoadSecLoSec 0 0 + fget s timLoadSecHiSec 0 0 * 2 ^ 32) * 1000000000 + fget s timLoadNsNs 0 0
          let s2 := withTim s1 { s1.tim with base := ns * 10, baseTick := t }
          let s3 := withTim s2 { s2.tim with ppsOutSec := ppsNext s2 }
          let s4 := (List.range 384).foldl (fun a p => if gateOn a p then showGate a p else a) s3
          let s5 := (List.range 384).foldl (fun a p => if portThere a p then windowEnd a p false else a) s4
          (List.range 4).foldl (tstrobeLate (tbNow s5)) s5

/-- At the end of a clock: LATE of a timed strobe whose flip waits under R68 (R72). -/
def lateTick (s : State) : State :=
  s.pg.flips.foldl (fun a f => if flipMay s f then a
    else f.timed.foldl (fun b e => fset b glbTstrobeCtlLate 0 e.1 1) a) s

/-- A clock begins: the groups whose earlier epoch is referenced (R43), no source has fired, no host write was put first, no word was
written. -/
def clockBegins (s : State) : State :=
  let held := if s.net.pkts.isEmpty && s.net.items.isEmpty then []
    else (List.range 16).filter fun g => decide (0 < epochRefs s g)
  { s with pg := { s.pg with held := held, fired := [], early := 0, was := [] } }

end Sys2Proof.Machine
end

