-- ==== Sys2Proof/Machine/Views.lean ====
section
/-!
DEFINITION. What a read of a register or of a mailbox object returns (R52, R64, R74): fields by access code, the values that
follow from the rest of the state, and the objects that are not stored as words.
-/
namespace Sys2Proof.Machine

/-! ### Registers -/

/-- Value of a register by the access codes of its fields: SH fields show the shadow, WO fields zero (R52, R64). -/
def plainRead (s : State) (page off : Nat) : Nat :=
  match regAt page off with
  | none => 0
  | some g =>
    let k := regKey page off
    g.1.flds.foldl (fun w f =>
      match f.acc with
      | .wo => w
      | .wk => w
      | .sh => w + bitsOf (shdW s k).toNat f.hi f.lo * 2 ^ f.lo
      | _ => w + bitsOf (actW s k).toNat f.hi f.lo * 2 ^ f.lo) 0

/-- The page has mailbox objects. -/
def hasMailbox (page : Nat) : Bool := (List.range 32).any fun o => (objAt page o).isSome

/-- Every unit of the page's instance is contained (R456). -/
def pageContained (s : State) (page : Nat) : Bool :=
  let u := unitsOf s page 0
  !u.isEmpty && u.all s.flt.contained.contains

/-- Common header (Tables 2-2 to 2-18), where it is not a stored word. -/
def headRead (s : State) (page off : Nat) : Nat :=
  match pageRow page with
  | none => 0
  | some r =>
    match off with
    | 0x00 => r.code * 2 ^ 20 + instOf r page * 2 ^ 8 + 1
    | 0x04 => (r.pages - 1) * 2 ^ 20 + pnumOf r page * 2 ^ 16 + (pageSrcs page).length * 2 ^ 4 + b2n r.dataPlane * 8 + 4
        + b2n (hasMailbox page) * 2 + 1
    | 0x08 => b2n (pageReady s page) + b2n (pageContained s page) * 2 + bitsOf (plainRead s page off) 2 2 * 4
        + b2n (pageDirty s page) * 8 + b2n (fget s bootStatPhase 0 0 == 7) * 16
    | 0x24 => groupOf s page + b2n (groupPending s (groupOf s page)) * 256
    | 0x2C => b2n (isUnlocked s .host page) + b2n (isUnlocked s .holtarun page) * 2
    | _ => if 0x40 ≤ off ∧ off < 0x80 ∧ (storeFind s.pg.mbx page).isSome = true then 0 else plainRead s page off

/-- GLB.PAGE_COUNT by ordering code (Table 2-22). -/
def pageCount (s : State) : Nat :=
  match sku s with
  | 2 => 0x09DF * 65536 + 1689
  | 3 => 0x0A3F * 65536 + 1577
  | _ => 0x0A3F * 65536 + 1881

/-- GLB.EPOCH_STAT of a group (Table 2-29). -/
def epochStat (s : State) (g : Nat) : Nat :=
  fget s glbEpochStatCur 0 g + b2n (groupPending s g) * 2 ^ 8
    + b2n (groupPending s g && decide (0 < epochRefs s g)) * 2 ^ 9 + b2n (groupDP s g) * 2 ^ 10
    + fget s glbEpochStatAbsorbed 0 g * 2 ^ 12

/-- RDH.BANK_STAT of a bank page (Table 5-11). -/
def bankStat (s : State) (page : Nat) : Nat :=
  let sl := bankSlice page
  let own := (List.range 16).find? fun t => fget s clsTblCfgEn sl t == 1 && fget s clsTblCfgMech sl t == 0
    && bit (fget s clsTblCfgBanks sl t) (bankNo page)
  let w := (actW s (regKey page 0x100)).toNat
  own.elim 0 (fun t => t * 2 ^ 28 + fget s clsTblCfgWidth sl t * 2 ^ 26 + 2 ^ 25)
    + bitsOf w 24 24 * 2 ^ 24 + activeHalf s page * 2 ^ 23 + bitsOf w 2 0

/-- Number of Table 13-1 for a thread state. -/
def hstateCode : HState → Nat
  | .idle => 0 | .ready => 1 | .waitEvent => 2 | .waitJoin => 3 | .waitMem => 4 | .halted => 5

/-- HOL.THR_STAT of a thread (Table 13-11). -/
def thrStat (s : State) (h : Nat) : Nat :=
  let t := hartOf s h
  t.gen % 256 * 2 ^ 16 + (if t.st = .waitEvent then min 255 t.waitArg else 0) * 2 ^ 8 + b2n t.user * 8 + hstateCode t.st

/-- Host reads outstanding, one PCIe tag each (Table 14-6, log entry 18). -/
def tagsUsed (s : State) : Nat :=
  (s.dma.chans.filter fun e => e.2.phase == 3 || (e.2.phase == 1 && fget s dmacChCfgDescSpace e.1 0 == 0)).length

/-- Device-wide channel index of BRL.CH_SUM as a state (Table 10-8). -/
def chSum (s : State) (w : Nat) : Nat :=
  (List.range 8).foldl (fun a j =>
    let i := 8 * w + j
    if i < chanN s then a + chanState s (chanInst s i) * 2 ^ (4 * j) else a) 0

/-- Registers of a block at 0x100-0xFFF that show other state. -/
def bodyRead (s : State) (r : DirRow) (page off : Nat) : Option Nat :=
  let i := instOf r page
  let pn := pnumOf r page
  let n4 := (off - 0x100) / 4
  match r.blk with
  | .glb =>
    if off = 0x10C then some (pageCount s)
    else if 0x200 ≤ off ∧ off < 0x240 then some (epochStat s ((off - 0x200) / 4))
    else if 0x240 ≤ off ∧ off < 0x280 then some (epochRefs s ((off - 0x240) / 4))
    else none
  | .pcs =>
    if 0x140 ≤ off ∧ off < 0x160 then
      let l := latNs s (8 * i + (off - 0x140) / 4)
      some (l.2 * 65536 + l.1)
    else none
  | .mac =>
    if off = 0x120 then some (curGbps s i * 65536 + bitsOf (plainRead s page off) 15 1 * 2 + b2n (linkUp s i)) else none
  | .sds =>
    if off = 0x104 ∧ fget s sdsLaneCfgLtEn i 0 = 1 then (storeFind s.net.taps i).map (· % 2 ^ 32) else none
  | .rdh => if off = 0x100 then some (bankStat s page) else none
  | .lek =>
    if pn = 0 ∧ off = 0x104 then some (leekCount (leekAct s i) 0)
    else if pn = 0 ∧ off = 0x108 then some (leekCount (leekAct s i) 1) else none
  | .adm =>
    if pn ≠ 0 then none
    else if off = 0x10C then some (descOn s i) else if off = 0x110 then some (descBrl s i) else none
  | .twl => if 0x120 ≤ off ∧ off < 0x140 then some (laneOcc s i ((off - 0x120) / 4)) else none
  | .bpm => if pn = 0 ∧ off = 0x114 then some (sharedSize s i - (sharedUsed s i : Nat)).toNat else none
  | .brl => if pn = 3 ∧ off < 0x160 then some (chSum s n4) else none
  | .hch =>
    if pn = 0 ∧ off = 0x104 then
      some (fget s hchChStatTemp i 0 * 2 ^ 24 + min 64 (outstanding s i 1).length * 2 ^ 16
        + min 64 (outstanding s i 0).length * 2 ^ 8 + b2n (inOrder s i 1) * 32 + b2n (inOrder s i 0) * 16 + chanState s i)
    else none
  | .holc => if off < 0x120 then some (thrStat s (8 * i + n4)) else none
  | .holx =>
    if off = 0x104 then
      some (((List.range 128).filter fun h => (hartOf s h).st == .idle).length * 2 ^ 16 + b2n s.hol.restartAt.isSome)
    else none
  | .dmax => if off = 0x108 then some (512 - tagsUsed s) else none
  | .okr =>
    if off = 0x104 then some (Config.okrBaseVer i % 2 ^ 32)
    else if off = 0x100 then some (plainRead s page off + b2n (!s.boot.dpUp) * 2 ^ 29) else none
  | _ => none

/-- Value of a register of an implemented page; a page that is not READY in limited mode reads zero (R475). -/
def regRead (s : State) (page off : Nat) : Nat :=
  match pageRow page with
  | none => 0
  | some r =>
    if regThere page off = false then 0
    else if off < 0x100 then headRead s page off
    else if pageReady s page = false ∧ fget s bootStatPhase 0 0 = 7 then 0
    else (bodyRead s r page off).getD (plainRead s page off)

/-! ### Objects that are not stored words -/

/-- Low and high word of a 64-bit value. -/
def two (v : Nat) : List Nat := [v % 2 ^ 32, v / 2 ^ 32 % 2 ^ 32]

/-- Words of a byte string, little-endian. -/
def byteWords (n : Nat) (l : List Byte) : List Nat := (List.range n).map fun k => ofLE (slice l (4 * k) 4)

/-- Data word of a Chard entry (Table 6-5). -/
def chdData (e : ChdEnt) : List Nat :=
  [e.nh % 2 ^ 20 + b2n e.hit * 2 ^ 20 + b2n e.stat * 2 ^ 21 + b2n e.learned * 2 ^ 22 + e.state % 4 * 2 ^ 23
    + e.ebit % 2 * 2 ^ 25 + e.origin % 8 * 2 ^ 26 + e.misses % 4 * 2 ^ 29, e.ltime % 2 ^ 32]

/-- CHD OBJ 0x02: slot `i` counts through the ways (Table 6-13); the most significant 80 key bits are in the first slot. -/
def chdSlotWords (s : State) (k i : Nat) : List Nat :=
  let w := i / 2 ^ 20
  let n := i % 2 ^ 20
  match s.tbl.chd.find? fun e => e.pair == k && e.way == w && decide (e.slot ≤ n) && decide (n < e.slot + chdSlots e.typ) with
  | none => [0, 0, 0, 0, 0]
  | some e => numWords 3 (ofBE (slice e.key (10 * (n - e.slot)) 10)) ++ (if n = e.slot then chdData e else [0, 0])

/-- CHD OBJ 0x03. -/
def stashWords (s : State) (k i : Nat) : List Nat :=
  match s.tbl.chd.find? fun e => e.pair == k && e.way == 4 && e.slot == i with
  | none => List.replicate 16 0
  | some e => numWords 10 (ofBE e.key) ++ chdData e ++ [0, 0, 0, 0]

/-- POL OBJ 0x02 (R242). -/
def polWords (s : State) (sl i : Nat) : List Nat :=
  let b := polBuckets s sl i (oget s .pol sl 0 1 i 0) (oget s .pol sl 0 1 i 1) (oget s .pol sl 0 1 i 2) (oget s .pol sl 0 1 i 3)
  two (b.1 / 65536) ++ two (b.2 / 65536)

/-- ADM page 2 OBJ 0x02 (Table 8-10). -/
def keeperWords (s : State) (sl i : Nat) : List Nat :=
  let p := 48 * sl + i / 8
  let q := queue s p (i % 8)
  [q.v % 2 ^ 32, q.v / 2 ^ 32 % 2 ^ 16 + b2n q.idle * 2 ^ 16 + b2n q.spill * 2 ^ 17 + b2n q.carry.isSome * 2 ^ 18
    + b2n q.lost * 2 ^ 19, q.rate % 2 ^ 21, min (2 ^ 24 - 1) (queueItems s p (i % 8)).length]

/-- EGS page 0 OBJ 0x02 (Table 11-5). -/
def egsWords (s : State) (g i : Nat) : List Nat :=
  let p := 8 * g + i / 9
  let c := i % 9
  let q := queue s p c
  [unsgn 24 q.deficit, unsgn 32 (q.tok / 65536), if c < 8 then q.rate % 2 ^ 21 else 0,
    b2n (isDue s p c) + b2n q.flushDone * 2 + gateNs s p c (portMbps s p (admGbps s p)) % 65536 * 65536]

/-- TIM objects (Table 12-8) and the state after the read: NEW clears, the FIFO pops. -/
def timRead (s : State) (obj : Nat) : List Nat × State :=
  match obj with
  | 1 => (timeWords (nsOf (tbNow s)) (fracOf (tbNow s)) ++ [0], s)
  | 2 =>
    match s.tim.cap with
    | [] => ([0, 0, 0, 0], s)
    | t :: f => (timeWords (nsOf t) (fracOf t) ++ [f.getD 0 0], withTim s { s.tim with cap := [t, 0] })
  | 3 =>
    match s.tim.fifo with
    | [] => ([0, 0, 0, 0], s)
    | e :: _ => ((2 ^ 31 + e.getD 0 0 % 512 * 65536 + e.getD 1 0 % 65536) :: timeWords (e.getD 2 0) (e.getD 3 0),
        fifoPop s)
  | _ => (byteWords 4 s.tim.tod, s)

/-- TEL page 0 OBJ 0x01 and 0x02 of an egress queue; CLR empties what was read. -/
def histRead (s : State) (sl obj i : Nat) (clr : Bool) : List Nat × State :=
  let h := storeGet histZero s.tel.hist (432 * sl + i)
  let put := fun (x : Hist) => if clr then withTel s { s.tel with hist := storeSet histZero (432 * sl + i) x s.tel.hist } else s
  if obj = 1 then (h.bins, put { h with bins := histZero.bins })
  else (two h.sum ++ [h.cnt, b2n h.sat], put { h with sum := 0, cnt := 0, sat := false })

/-- BPM page 0 OBJ 0x02: use and peak; CLR restarts the peak. -/
def ownerRead (s : State) (es o : Nat) (clr : Bool) : List Nat × State :=
  let u := usedOf s es o
  ([u, storeGet 0 s.net.peak (ownKey es o)],
    if clr then { s with net := { s.net with peak := storeSet 0 (ownKey es o) u s.net.peak } } else s)

/-- BPM page 0 OBJ 0x03: an on-chip descriptor; what a free one holds is open. -/
def descRead (s : State) (es d : Nat) : List Nat × State :=
  match s.net.items.find? fun it => it.es == es && !it.brl && it.desc == d with
  | some it => (byteWords 8 (descBytes s it), s)
  | none => ((List.range 8).map fun k => Config.freeWord (s.free + k) % 2 ^ 32, { s with free := s.free + 8 })

/-- OKR OBJ 0x01: a control-store word. -/
def okrWord (s : State) (i a : Nat) : List Nat :=
  numWords 4 (if a < 3072 then Config.okrBaseWord i a
    else (((okraOf s i).patch.find? fun e => e.1 == a - 3072).elim 0 (·.2)))

/-- A read-only object: its words, and the state after the read. -/
def roRead (s : State) (r : DirRow) (page obj idx : Nat) (o : Obj) (clr : Bool) : List Nat × State :=
  let i := instOf r page
  let stored := ((List.range o.words).map fun w => (actW s (objKey page obj idx w)).toNat, s)
  match r.blk, obj with
  | .chd, 2 => (chdSlotWords s i idx, s)
  | .chd, 3 => (stashWords s i idx, s)
  | .pol, 2 => (polWords s i idx, s)
  | .adm, 2 => (keeperWords s i idx, s)
  | .gze, 1 =>
    ([laneFor s i idx, (storeGet (0, 0) s.net.flowlet (bucketKey i idx)).2 / 65536 % 2 ^ 32], s)
  | .bpm, 2 => ownerRead s i idx clr
  | .bpm, 3 => descRead s i idx
  | .egs, 2 => (egsWords s i idx, s)
  | .tim, n => timRead s n
  | .tel, n => histRead s i n idx clr
  | .holx, 1 => ([storeGet 0 s.ev idx], if clr then { s with ev := storeDel idx s.ev } else s)
  | .okr, 1 => (okrWord s i idx, s)
  | .okr, 2 => ([(okraOf s i).hooks.getD idx 0], s)
  | _, _ => stored

/-- The counters of an object: their words, and the state after the read, which CLR empties (R74). Each LGR counter is checked
at every read of it (R274). -/
def cntRead (s0 : State) (r : DirRow) (page obj idx : Nat) (o : Obj) (clr : Bool) : List Nat × State :=
  let keys := (List.range (o.words / 2)).map fun c => objKey page obj idx (2 * c)
  let s := if r.blk = .lgr then (List.range (o.words / 2)).foldl (fun a c => lgrBump a (instOf r page) obj idx c 0) s0 else s0
  let ws := (keys.flatMap fun k => two (storeGet 0 s.cfg.cnt k)).take o.words
  if clr then
    (ws, { s with
      cfg := { s.cfg with cnt := keys.foldl (fun a k => storeDel k a) s.cfg.cnt }
      net := { s.net with noCheck := s.net.noCheck.filter fun k => !keys.contains k } })
  else (ws, s)

/-- CLR of a stored object (R74): its words become zero, as a write of it would make them; where zero is a reserved encoding,
their reset values. A keyed object, frozen or held shadows and tree words a lookup reads stay (log entry 21). -/
def objClear (s : State) (page obj idx : Nat) (o : Obj) : State :=
  let zero := List.replicate o.words 0
  let first := (List.range o.words).map fun w => (resetOf (objKey page obj idx w)).toNat
  if objKeyed page obj then s
  else objApply s page obj idx o (if objBad s page obj idx zero then first else zero)

/-- A mailbox read of an object (R74): its words as of this clock, and the state after it. CLR clears the object on that clock;
an object that shows live state has nothing of its own to clear (log entry 21). -/
def objRead (s : State) (page obj idx : Nat) (clr : Bool) : List Nat × State :=
  match pageRow page, objAt page obj with
  | some r, some o =>
    match o.kind with
    | .cnt => cntRead s r page obj idx o clr
    | .sh => ((List.range o.words).map fun w => (shdW s (objKey page obj idx w)).toNat, if clr then objClear s page obj idx o else s)
    | .rw => ((List.range o.words).map fun w => (actW s (objKey page obj idx w)).toNat, if clr then objClear s page obj idx o else s)
    | .ro => roRead s r page obj idx o clr
    | .wo => ([], s)
  | _, _ => ([], s)

/-- A requester reaches the register pages: the host while its link is up (R496). -/
def reqHere (s : State) (req : Requester) : Bool := req == .holtarun || s.boot.link

/-- The value a requester's read of 32 bits at a page offset returns, and the state after it: zero where the page is absent or a
byte enable is clear; a read of MBX_CTRL that returns VALID clears it (R52, Table 2-15). -/
def busRead (s : State) (req : Requester) (page off be : Nat) : Nat × State :=
  if reqHere s req = false ∨ pageThere s page = false ∨ off % 4 ≠ 0 ∨ 4096 ≤ off ∨ be ≠ 15 then (0, s)
  else
    let v := regRead s page off
    let k := regKey page off
    (v, if off = 0x34 ∧ bit v 8 = true then setAct s k (BitVec.ofNat 32 (putBits (actW s k).toNat 8 8 0)) else s)

end Sys2Proof.Machine
end

