-- ==== Sys2Proof/Machine/Bus.lean ====
section
/-!
DEFINITION. A write of a register page by a requester (R51-R62): what ignores it, the reserved encodings that one field alone
does not show, the writes that are held, and what a register does when it is written; the page's mailbox (R74-R76).
-/
namespace Sys2Proof.Machine

/-! ### Reserved encodings of several fields (R53) -/

/-- PCS.LAYOUT (R85, Table 3-1). -/
def layoutBad (w : Nat) : Bool :=
  decide (5 < bitsOf w 2 0) || decide (5 < bitsOf w 6 4) || (List.range 8).any fun sp =>
    let c := widthCode w sp
    let n := lanesOf c
    c != 0 && (n == 0 || sp % n != 0 || (List.range 8).any (fun x => decide (sp < x) && decide (x < sp + n) && widthCode w x != 0)
      || rateCode w sp == 0 || (fecAllowed (rateCode w sp) n).isEmpty || (n == 8 && bitsOf w 2 0 != bitsOf w 6 4))

/-- PCS.FEC_MODE against a layout (R86). -/
def fecBad (layout v : Nat) : Bool :=
  (List.range 8).any fun sp =>
    let n := lanesOf (widthCode layout sp)
    let f := bitsOf v (4 * sp + 3) (4 * sp)
    if n = 0 then f != 0 else !(fecAllowed (rateCode layout sp) n).contains f

/-- The FEC_MODE shadow after an accepted LAYOUT write (R86). -/
def fecFollow (old new fec : Nat) : Nat :=
  (List.range 8).foldl (fun a sp =>
    let n := lanesOf (widthCode new sp)
    let same := n == lanesOf (widthCode old sp) && rateCode new sp == rateCode old sp
    if n = 0 then putBits a (4 * sp + 3) (4 * sp) 0
    else if same then a
    else putBits a (4 * sp + 3) (4 * sp) ((fecAllowed (rateCode new sp) n).headD 0)) fec

/-- A signed byte lies outside −32 to 31. -/
def badTap (v : Nat) : Bool := decide (sgn 8 v < -32) || decide (31 < sgn 8 v)

/-- Shadow key segments of a classifier table: (offset, length). -/
def tblSegs (s : State) (sl t : Nat) : List (Nat × Nat) :=
  [(fgetS s clsTblKey0Seg0Off sl t, fgetS s clsTblKey0Seg0Len sl t), (fgetS s clsTblKey0Seg1Off sl t, fgetS s clsTblKey0Seg1Len sl t),
   (fgetS s clsTblKey1Seg2Off sl t, fgetS s clsTblKey1Seg2Len sl t), (fgetS s clsTblKey1Seg3Off sl t, fgetS s clsTblKey1Seg3Len sl t)]

/-- An enabled Radish table of the shadow configuration. -/
def tblRadish (s : State) (sl t : Nat) : Bool := fgetS s clsTblCfgEn sl t == 1 && fgetS s clsTblCfgMech sl t == 0

/-- The segments of an enabled Radish table exceed its key (R144, R145). -/
def tblLong (s : State) (sl t : Nat) : Bool :=
  tblRadish s sl t
    && decide (10 * units (fgetS s clsTblCfgWidth sl t) < (tblSegs s sl t).foldl (fun a e => a + e.2) 0)

/-- The shadow classifier configuration breaks a condition of R144. -/
def clsBad (s : State) (sl : Nat) : Bool :=
  let banks := fun t => fgetS s clsTblCfgBanks sl t
  ((List.range 16).any fun t => tblRadish s sl t && (banks t == 0 || (List.range 16).any fun u =>
      decide (t < u) && tblRadish s sl u && Nat.land (banks t) (banks u) != 0))
    || decide (1 < ((List.range 16).filter fun t => fgetS s clsTblCfgEn sl t == 1 && fgetS s clsTblCfgMech sl t == 1).length)
    || (List.range 16).any (tblLong s sl)

/-- A forwarding selection rule (R173, R176) of the shadow configuration. -/
def fwdBad (s : State) (k r : Nat) : Bool :=
  let kind := fgetS s lekFwdSelW1Kind k r
  let n := match kind with | 1 => 4 | 2 => 16 | 3 => 4 | 4 => 12 | _ => 0
  (kind != 0 && decide (160 < fgetS s lekFwdSelW1KeyOff k r + n))
    || (fgetS s lekFwdSelW1FlowEn k r == 1 && ((kind != 1 && kind != 2)
      || decide (160 < fgetS s lekFwdSelW1FlowAoff k r + (if kind = 2 then 32 else 8))
      || decide (160 < fgetS s lekFwdSelW1FlowPoff k r + 1) || decide (160 < fgetS s lekFwdSelW2FlowLoff k r + 4)))

/-- The shadow hash key of a pair (R200). -/
def hashBad (s : State) (k : Nat) : Bool :=
  let segs := [(fgetS s nhpHashKey0Seg0Off k 0, fgetS s nhpHashKey0Seg0Len k 0), (fgetS s nhpHashKey0Seg1Off k 0, fgetS s nhpHashKey0Seg1Len k 0),
    (fgetS s nhpHashKey1Seg2Off k 0, fgetS s nhpHashKey1Seg2Len k 0), (fgetS s nhpHashKey1Seg3Off k 0, fgetS s nhpHashKey1Seg3Len k 0)]
  decide (40 < segs.foldl (fun a e => a + e.2) 0) || segs.any fun e => decide (160 < e.1 + e.2)

/-- A gate schedule's control and cycle (Table 11-3) of the shadow configuration. -/
def gateBad (s : State) (g n : Nat) : Bool :=
  fgetS s egsGateCtlEn g n == 1
    && (fgetS s egsGateCtlEntries g n == 0 || decide (256 < fgetS s egsGateCtlEntries g n)
      || decide (fgetS s egsGateCycleCycleNs g n < 1000) || decide (1000000000 < fgetS s egsGateCycleCycleNs g n))

/-- A punt or inject ring outside shared memory and the window (Table 13-12). -/
def ringOut (a n : Nat) : Bool := !inShm a n && !inWin a n

/-- The value written is a reserved encoding whatever else the registers hold (R53). -/
def valueBad (s : State) (r : DirRow) (i pn off v : Nat) : Bool :=
  let size := fun (z : Nat) => (decide (1 ≤ z) && decide (z ≤ 3)) || decide (21 ≤ z)
  match r.blk with
  | .glb => decide (0x200 ≤ off) && decide (off < 0x240) && bitsOf v 15 12 != 0
  | .pcs => (off == 0x100 && layoutBad v) || (off == 0x104 && fecBad (shdW s (layoutKey i)).toNat v)
  | .sds => off == 0x104 && (badTap (bitsOf v 31 24) || badTap (bitsOf v 23 16) || badTap (bitsOf v 7 0))
  | .mac =>
    let w := (shdW s (layoutKey (i / 8))).toNat
    let rate := rateCode w (i % 8)
    (off == 0x104 && bit v 1 && bitsOf v 31 16 == 0)
      || (off == 0x110 && bit v 0 && !(lanesOf (widthCode w (i % 8)) == 1 && (rate == 1 || rate == 2)))
  | .pol => decide (0x110 ≤ off) && (List.range 16).any fun k => bitsOf v (2 * k + 1) (2 * k) == 3
  | .brl => pn == 0 && off == 0x108 && decide (bitsOf v 7 0 ≤ bitsOf v 15 8)
  | .lek => pn == 0 && ((off == 0x148 && size (bitsOf v 4 0)) || (off == 0x140 && bitsOf v 3 0 != 0)
      || (off == 0x100 && bitsOf v 1 0 != fgetS s lekCfgV6Set i 0 && leekCount (leekAct s i) 1 != 0))
  | .chd => pn == 0 && ((off == 0x148 && size (bitsOf v 4 0)) || (off == 0x140 && bitsOf v 3 0 != 0))
  | .tim => pn == 0 && off == 0x124 && (decide (sgn 32 v < -500000000) || decide (499999999 < sgn 32 v))
  | .boot => off == 0x138 && (decide (bitsOf v 24 0 < 640) || decide (16777216 < bitsOf v 24 0) || v % 64 != 0)
  | .egs => pn == 0 && decide (0x108 ≤ off) && decide (off < 0x180) && off % 16 == 8 && badOverhead (bitsOf v 31 24)
  | .holc => off == 0x160 && bit v 31
      && (bitsOf v 23 0 == 0 || (bit v 30 && evtC (fget s holcPerfSelEvent i (bitsOf v 28 26))))
  | .holx => decide (0x140 ≤ off) && decide (off < 0x180) && bit v 31 && bitsOf v 23 0 == 0
  | _ => false

/-- The registers the write would leave hold a reserved encoding (R53); `n` is the element written, `s` the state it would
leave. -/
def leftBad (s : State) (r : DirRow) (i pn off n : Nat) : Bool :=
  match r.blk with
  | .cls =>
    if off < 0x200 then
      let half := if off % 16 = 4 then (tblSegs s i n).take 2 else (tblSegs s i n).drop 2
      if off % 16 = 0 then clsBad s i else tblLong s i n || half.any fun e => decide (160 < e.1 + e.2)
    else false
  | .tre => decide (off < 0x300)
      && decide (524288 < fgetS s treTreeImgBaseImgBase i n + fgetS s treTreeImgWordsImgWords i n)
  | .lek => pn == 1 && off % 16 != 0 && fwdBad s i n
  | .nhp => (off == 0x104 || off == 0x108) && hashBad s i
  | .egs => pn == 1 && (off % 32 == 0 || off % 32 == 4) && gateBad s i n
  | .holx =>
    (decide (0x200 ≤ off) && decide (off < 0x600) && fget s holxPqCtlEn 16 n == 1
        && ringOut (fget s holxPqBaseAddr 16 n * 256) (2 ^ (fget s holxPqCtlSizeLog2 16 n + fget s holxPqCtlSlotLog2 16 n)))
      || (decide (0x600 ≤ off) && fget s holxIqCtlEn 16 n == 1
        && ringOut (fget s holxIqBaseAddr 16 n * 256) (32 * 2 ^ fget s holxIqCtlSizeLog2 16 n))
  | .prn =>
    (pn == 1 && fget s prnTxqCtlEn 0 n == 1 && !inHol (fget s prnTxqBaseAddr 0 n * 256) (32 * 2 ^ fget s prnTxqCtlSizeLog2 0 n))
      || (pn == 2 && fget s prnRxqCtlEn 0 n == 1
        && !inHol (fget s prnRxqBaseAddr 0 n * 256) (2 ^ (fget s prnRxqCtlSizeLog2 0 n + fget s prnRxqCtlSlotLog2 0 n)))
  | _ => false

/-! ### Writes that are held, in whole or in part -/

/-- The write is ignored for the present: time registers of an armed strobe (R72), DMA registers of a working channel (R423),
BRL.CTL.EN before every channel is in service (R336). -/
def writeHeld (s : State) (r : DirRow) (pn page off v : Nat) : Bool :=
  match r.blk with
  | .glb =>
    let n := (off - 0x120) / 16
    decide (0x120 ≤ off) && decide (off < 0x160)
      && ((off % 16 != 0 && fget s glbTstrobeCtlArm 0 n == 1) || (storeFind s.pg.was (armKey n)).isSome)
  | .dmac => dmaCfgHeld s page off
  | .brl => pn == 0 && off == 0x100 && bit v 0 && !allInService s
  | _ => false

/-- The value as far as its fields are not held: BRL.CTL keeps MODE, GRAIN and RATE while EN is 1 (Table 10-6), CH_CTL keeps
IN_SERVICE outside TRAINING (R336). -/
def writeValue (s : State) (r : DirRow) (i pn off v : Nat) : Nat :=
  match r.blk with
  | .brl => if pn = 0 ∧ off = 0x100 ∧ fget s brlCtlEn 0 0 = 1
      then putBits v 5 1 (bitsOf (actW s (regKey (pageOf .brl 0 0) 0x100)).toNat 5 1) else v
  | .hch => if pn = 0 ∧ off = 0x100 ∧ chanState s i ≠ 2 then putBits v 1 1 (fget s hchChCtlInService i 0) else v
  | _ => v

/-! ### What a written register does -/

/-- Owning table and width of a bank under the shadow classifier configuration. -/
def bankOwner (s : State) (page : Nat) : Option Nat × Nat := (shadowOwner s page, shadowUnits s page)

/-- Every entry of a bank's shadow half becomes invalid: the control words (OBJ 0x01) read zero. -/
def clearBank (s : State) (page : Nat) : State :=
  let mine := fun (k : Nat) => decide (2 ^ 64 ≤ k) && keyPage k == page && k / 2 ^ 28 % 256 == 1
  let kept := s.cfg.shd.map fun e => if mine e.1 then (e.1, 0) else e
  { s with cfg := { s.cfg with
      shd := (s.cfg.act.filter fun e => mine e.1).foldl (fun a e => storePut e.1 (0 : Word) a) kept } }

/-- A write of the shadow classifier configuration clears the banks whose width or owner it changes (R154). -/
def tblFollow (s t : State) (sl : Nat) : State :=
  (List.range 16).foldl (fun a b =>
    let page := 320 + 16 * sl + b
    if bankOwner s page = bankOwner t page then a else clearBank a page) t

/-- A SyncE output after a write of its configuration (R376): held while its lane has no CDR lock or the lane's port is in
link loss. -/
def synceFollow (s : State) (k : Nat) : State :=
  let lane := fget s timSynceCfgLane 0 k
  let port := laneOwner (actW s (layoutKey (lane / 8))).toNat (lane % 8)
  let lost := fget s sdsLaneStatCdrLock lane 0 == 0 || port.elim true fun sp => !linkUp s (8 * (lane / 8) + sp)
  let rest := s.tim.squelch.filter (· != k)
  let held := fget s timSynceCfgEn 0 k == 1 && fget s timSynceCfgSquelchEn 0 k == 1 && lost
  withTim s { s.tim with squelch := if held then rest ++ [k] else rest }

/-- TIM.CTL: PPS_OUT starts at the next edge, the silence of PPS_IN is measured from its enabling (R377, R378). -/
def timFollow (s t : State) : State :=
  let a := if fget s timCtlPpsOutEn 0 0 = 0 ∧ fget t timCtlPpsOutEn 0 0 = 1
    then withTim t { t.tim with ppsOutSec := ppsNext t } else t
  if fget s timCtlPpsInEn 0 0 = 0 ∧ fget a timCtlPpsInEn 0 0 = 1
  then withTim a { a.tim with ppsInAt := a.clk, ppsLost := false } else a

/-- The effect of an accepted write beside its fields: `s` before, `t` after the fields; `n` the element written. -/
def writeEffect (s t : State) (r : DirRow) (i pn page off n : Nat) (keyed : Bool) (v : Nat) : State :=
  match r.blk with
  | .glb =>
    if off = 0x110 then strobeSlow t v
    else if off = 0x170 then (if keyed && bit v 0 then warmStart t else t)
    else if 0x120 ≤ off ∧ off < 0x160 ∧ off % 16 = 0 ∧ fget s glbTstrobeCtlArm 0 n = 0 then tstrobeLate (tbPassed t) t n
    else t
  | .boot => if off = 0x13C ∧ bit v 0 = true then bundleGo t else t
  | .tim =>
    if pn ≠ 0 then t
    else if off = 0x100 then timFollow s t
    else if off = 0x110 then (if bit v 0 then loadGo t (bit v 2) (bit v 1) else t)
    else if off = 0x130 ∨ off = 0x134 then synceFollow t n
    else t
  | .brl =>
    if pn = 0 ∧ off = 0x100 then
      let a := if fget s brlCtlEn 0 0 = 0 ∧ fget t brlCtlEn 0 0 = 1 then burlapOn t else t
      if deliverable s = deliverable a then a else deriveShares a
    else t
  | .holx =>
    if off = 0x100 then (if keyed && bit v 0 && t.hol.restartAt == none then clusterStop t else t)
    else if off = 0x108 then (if 192 ≤ v % 256 then pulse t (v % 256) else t)
    else if 0x140 ≤ off ∧ off < 0x180 ∧ fget s holxTmrEn 16 n = 0 ∧ fget t holxTmrEn 16 n = 1
      then { t with hol := { t.hol with tmrAt := storePut n (nowU t) t.hol.tmrAt } }
    else if 0x200 ≤ off ∧ off < 0x600 ∧ off % 16 = 12 then pqRateWritten s t n
    else t
  | .dmac =>
    if off = 0x110 then
      let a := if bit v 0 then dmaGo t i else t
      if bit v 1 then dmaStop a i else a
    else t
  | .mac => if off = 0x11C ∧ portThere t i = true then showBlock t i else t
  | .pcs =>
    if off = 0x100 ∧ groupPending s (groupOf s page) = false then
      setShd t (fecKey i) (BitVec.ofNat 32 (fecFollow (shdW s (layoutKey i)).toNat v (shdW s (fecKey i)).toNat))
    else t
  | .cls => if off < 0x200 then tblFollow s t i else t
  | .lgr =>
    if off = 0x100 ∧ bit v 0 = true then { t with net := { t.net with checks := t.net.checks ++ [checkNow t i 3] } } else t
  | .hch =>
    if pn = 0 ∧ off = 0x100 then
      let a := if bit v 1 then inService t i else t
      if keyed && bit v 0 then containChan a i else a
    else if pn = 0 ∧ off = 0x10C ∧ bit v 0 = true then logClear t i
    else if pn = 2 ∧ off = 0x100 ∧ bit v 31 = true then trainGo t i
    else t
  | _ => t

/-- A write of a register at 0x100-0xFFF (R52, R53). -/
def bodyWrite (s : State) (page off : Nat) (keyed : Bool) (v : Nat) : State :=
  match pageRow page, regAt page off with
  | some r, some g =>
    let i := instOf r page
    let pn := pnumOf r page
    if regThere page off = false ∨ reservedIn g.1.flds v = true ∨ valueBad s r i pn off v = true
      ∨ writeHeld s r pn page off v = true then s
    else if r.blk = .dmac ∧ off = 0x104 ∧ tmoRefused s v = true then tmoRefuse s
    else
      let a := if r.blk = .glb ∧ 0x120 ≤ off ∧ off < 0x160 then wordKept s page off else s
      let t := plainWrite a page off keyed (writeValue s r i pn off v)
      if leftBad t r i pn off g.2 then s else writeEffect s t r i pn page off g.2 keyed v
  | _, _ => s

/-! ### The mailbox (R74-R76) -/

/-- The page's mailbox is in use. -/
def mbxBusy (s : State) (page : Nat) : Bool := (storeFind s.pg.mbx page).isSome

/-- The submission of a telemetry record names a TYPE that may not be submitted (R390). -/
def badSubmission (s : State) (page obj idx : Nat) : Bool :=
  let typ := (actW s (regKey page 0x40)).toNat % 256
  (pageRow page).elim false fun r => r.blk == .tel && pnumOf r page == 1 && obj == 1 && idx == 0
    && !(typ == 4 || typ == 5 || decide (128 ≤ typ))

/-- A learning ring message from firmware enters the ring (R194, R411): it passes every pair but its origin. A reserved TYPE
or a set reserved bit is a reserved encoding. -/
def ringInject (s : State) (l : List Nat) : State :=
  let typ := wd l 0 % 16
  let origin := bitsOf (wd l 0) 6 4
  if typ = 0 ∨ 4 < typ ∨ bit (wd l 0) 7 = true ∨ bitsOf (wd l 0) 31 18 ≠ 0 ∨ bitsOf (wd l 1) 31 14 ≠ 0 ∨ bitsOf (wd l 3) 31 16 ≠ 0
    ∨ bitsOf (wd l 4) 31 20 ≠ 0 ∨ wd l 6 ≠ 0 then s
  else
    let crc := crc32c ((l.take 7).flatMap (toLE 4))
    let msg := fun t => ⟨t, typ, origin, bitsOf (wd l 0) 15 8, bitsOf (wd l 0) 17 16, wd l 1, wd l 3 * 2 ^ 32 + wd l 2, wd l 4,
      wd l 5, crc == wd l 7⟩
    { s with tbl := { s.tbl with ring := s.tbl.ring ++ ((List.range 4).filter (· != origin)).map msg } }

/-- The effect of a mailbox write operation. -/
def mbxApply (s : State) (page : Nat) (op : MbxOp) : State :=
  match pageRow page with
  | none => s
  | some r =>
    let ws := op.data.map (·.toNat)
    if r.blk = .tel ∧ pnumOf r page = 1 ∧ op.obj = 1 then
      (submitRec s (instOf r page) (if op.owner = .host then 0 else 1) op.idx (ws.flatMap (toLE 4))).2
    else if r.blk = .holx ∧ op.obj = 5 then ringInject s ws
    else (objWrite s page op.obj op.idx ws).2

/-- The MBX_CTRL word with LEN, CLR and DIR as written. -/
def mbxStored (w v : Nat) : Nat := putBits (putBits w 7 4 (bitsOf v 7 4)) 2 1 (bitsOf v 2 1)

/-- A GO that names no operation is a reserved encoding (R75, R390). -/
def goBad (s : State) (page v : Nat) : Bool :=
  let a := (actW s (regKey page 0x30)).toNat
  match objAt page (bitsOf a 31 24) with
  | none => true
  | some o => decide (o.count ≤ bitsOf a 23 0) || !idxThere page (bitsOf a 31 24) (bitsOf a 23 0) || bitsOf v 7 4 + 1 != o.words || (!bit v 1 && o.kind == .wo)
      || (bit v 1 && badSubmission s page (bitsOf a 31 24) (bitsOf a 23 0))

/-- An operation meets its target: a write takes effect, a read takes its snapshot. -/
def mbxTake (s : State) (page : Nat) (op : MbxOp) : MbxOp × State :=
  if op.todo = false then (op, s)
  else if op.write then ({ op with todo := false }, mbxApply s page op)
  else
    let r := objRead s page op.obj op.idx op.clr
    ({ op with todo := false, data := r.1.map (BitVec.ofNat 32) }, r.2)

/-- An operation starts (R74): BUSY sets, VALID and TIMEOUT clear; it meets its target at once unless that accepts none now. -/
def mbxStart (s : State) (req : Requester) (page v : Nat) : State :=
  let a := (actW s (regKey page 0x30)).toNat
  let obj := bitsOf a 31 24
  let idx := bitsOf a 23 0
  let words := bitsOf v 7 4 + 1
  let w := putBits (mbxStored (actW s (regKey page 0x34)).toNat v) 13 8 ((if req = .host then 0 else 16) + 2)
  let s1 := setAct s (regKey page 0x34) (BitVec.ofNat 32 w)
  let hold := fun (t : State) (op : MbxOp) => { t with pg := { t.pg with mbx := storePut page op t.pg.mbx } }
  let data := if bit v 1 then (List.range words).map fun k => actW s (regKey page (0x40 + 4 * k)) else []
  let op : MbxOp := ⟨req, obj, idx, bit v 1, !bit v 1 && bit v 2, words, data, true, s.clk⟩
  if objWaits s page obj then hold s1 op else (let r := mbxTake s1 page op; hold r.2 r.1)

/-- A write of MBX_CTRL (R63, R74, R75). While BUSY only the GO is ignored; so is the GO of a write of a keyed object that is
not the keyed write. -/
def mbxCtrlWrite (s : State) (req : Requester) (page : Nat) (keyed : Bool) (v : Nat) : State :=
  let k := regKey page 0x34
  let keep := setAct s k (BitVec.ofNat 32 (mbxStored (actW s k).toNat v))
  let obj := bitsOf (actW s (regKey page 0x30)).toNat 31 24
  if bit v 0 = false ∨ mbxBusy s page = true then keep
  else if goBad s page v then s
  else if objKeyed page obj && bit v 1 && !keyed then keep
  else mbxStart s req page v

/-- The operation ends: VALID sets, BUSY clears; the data words take what a read returned, zeros after a timeout. -/
def mbxEnd (s : State) (page : Nat) (op : MbxOp) (timeout : Bool) : State :=
  let k := regKey page 0x34
  let s1 := { s with pg := { s.pg with mbx := storeDel page s.pg.mbx } }
  let s2 := setAct s1 k (BitVec.ofNat 32 (putBits (actW s1 k).toNat 10 8 (if timeout then 5 else 1)))
  if timeout then (List.range 16).foldl (fun a n => setAct a (regKey page (0x40 + 4 * n)) 0) s2
  else if op.write then s2
  else (List.range op.words).foldl (fun a n => setAct a (regKey page (0x40 + 4 * n)) (op.data.getD n 0)) s2

/-! ### A write by a requester -/

/-- INJECT naming a source that takes no injection or does not exist is a reserved encoding (R464). -/
def injBad (page v : Nat) : Bool :=
  match (pageSrcs page)[bitsOf v 3 0]? with
  | none => true
  | some x => !x.inj

/-- A write of a header register. -/
def headWrite (s : State) (req : Requester) (page off : Nat) (keyed : Bool) (v : Nat) : State :=
  match off with
  | 0x0C => intWrite s page v
  | 0x10 => plainWrite s page off keyed v
  | 0x14 => plainWrite s page off keyed v
  | 0x18 => sevWrite (wordKept s page off) page off 0 10 keyed v
  | 0x1C => sevWrite (wordKept s page off) page off 10 6 keyed v
  | 0x20 => if injBad page v then s else injectWrite s page keyed v
  | 0x24 => updGroupWrite s page v
  | 0x30 => plainWrite s page off keyed v
  | 0x34 => mbxCtrlWrite s req page keyed v
  | 0x3C => plainWrite s page off keyed v
  | _ => if 0x40 ≤ off ∧ off < 0x80 ∧ mbxBusy s page = false then plainWrite s page off keyed v else s

/-- A write of 32 bits by a requester at a page offset (R52, R61): without effect where the page is absent or not READY. On any
other page it is the requester's next write, so the lock re-arms, and it is the one keyed write where the page was unlocked. A
write whose offset is no register's or that leaves a byte enable clear does nothing else. -/
def oneWrite (s : State) (req : Requester) (page off be : Nat) (w : Word) : State :=
  if reqHere s req = false ∨ pageReady s page = false ∨ 4096 ≤ off then s
  else
    let v := w.toNat
    let keyed := isUnlocked s req page
    let s1 := setLock s req page false
    if off % 4 ≠ 0 ∨ be ≠ 15 then s1
    else if off = 0x28 then unlockWrite s1 req page v
    else if off < 0x100 then headWrite s1 req page off keyed v
    else bodyWrite s1 page off keyed v

/-! ### Two requesters on one clock (R54) -/

/-- A value with bits [hi:lo] replaced. -/
def withBits (v : Word) (hi lo x : Nat) : Word := BitVec.ofNat 32 (putBits v.toNat hi lo x)

/-- A register write: requester, page, byte offset, byte enables, value. -/
abbrev RegWrite := Requester × Nat × Nat × Nat × Word

/-- The register write a command is, if it is one. The five commands whose GO must name their own object write MBX_CTRL. -/
def writeOf : Instr → Option RegWrite
  | .registerWrite req page off be v => some (req, page, off, be, v)
  | .unlock req page v => some (req, page, 0x28, 15, v)
  | .updGroupWrite req page v => some (req, page, 0x24, 15, v)
  | .injectWrite req page v => some (req, page, 0x20, 15, v)
  | .mailboxRead req page v => some (req, page, 0x34, 15, withBits v 1 0 1)
  | .mailboxWrite req page v => some (req, page, 0x34, 15, withBits v 1 0 3)
  | .strobeRequest req v => some (req, 0, 0x110, 15, v)
  | .pcsLayoutWrite req g v => some (req, pageOf .pcs g 0, 0x100, 15, v)
  | .tblCfgWrite req sl t v => some (req, pageOf .cls sl 0, 0x100 + 0x10 * t, 15, v)
  | .chkCtlGo req sl v => some (req, pageOf .lgr sl 0, 0x100, 15, withBits v 0 0 1)
  | .contain req i v => some (req, pageOf .hch i 0, 0x100, 15, withBits v 0 0 1)
  | .trainingRun req i v => some (req, pageOf .hch i 2, 0x100, 15, withBits v 31 31 1)
  | .inService req i v => some (req, pageOf .hch i 0, 0x100, 15, withBits v 1 1 1)
  | .burlapEnable req v => some (req, pageOf .brl 0 0, 0x100, 15, withBits v 0 0 1)
  | .logClr req i v => some (req, pageOf .hch i 0, 0x10C, 15, withBits v 0 0 1)
  | .load req v => some (req, pageOf .tim 0 0, 0x110, 15, withBits (withBits v 0 0 1) 2 2 0)
  | .loadCancel req v => some (req, pageOf .tim 0 0, 0x110, 15, withBits (withBits v 0 0 1) 2 2 1)
  | .evSig req v => some (req, pageOf .holx 16 0, 0x108, 15, v)
  | .controlPlaneRestart req v => some (req, pageOf .holx 16 0, 0x100, 15, withBits v 0 0 1)
  | .dmaGo req c v => some (req, pageOf .dmac c 0, 0x110, 15, withBits v 0 0 1)
  | .dmaStop req c v => some (req, pageOf .dmac c 0, 0x110, 15, withBits v 1 1 1)
  | .chTmoWrite req c v => some (req, pageOf .dmac c 0, 0x104, 15, v)
  | .hostBundleGo req v => some (req, pageOf .boot 0 0, 0x13C, 15, withBits v 0 0 1)
  | .warmReset req false v => some (req, 0, 0x170, 15, withBits v 0 0 1)
  | .timestampFifoPop req v => some (req, pageOf .tim 0 0, 0x34, 15, withBits v 1 0 1)
  | .ppsCaptureRead req v => some (req, pageOf .tim 0 0, 0x34, 15, withBits v 1 0 1)
  | .recordSubmit req sl v => some (req, pageOf .tel sl 1, 0x34, 15, withBits v 1 0 3)
  | .learningMessageInject req v => some (req, pageOf .holx 16 0, 0x34, 15, withBits v 1 0 3)
  | .tapStep req i v => some (req, pageOf .hch i 2, 0x34, 15, withBits v 1 0 3)
  | _ => none

/-- The mailbox of a page names an object: OBJ, and INDEX where it matters. -/
def mbxNames (s : State) (page obj : Nat) (idx : Option Nat) : Bool :=
  let a := (actW s (regKey page 0x30)).toNat
  bitsOf a 31 24 == obj && idx.elim true (· == bitsOf a 23 0)

/-- A command that names an object does its write only where its page's mailbox names that object (log entry 3). -/
def writeDue (s : State) : Instr → Bool
  | .timestampFifoPop _ _ => mbxNames s (pageOf .tim 0 0) 3 none
  | .ppsCaptureRead _ _ => mbxNames s (pageOf .tim 0 0) 2 none
  | .recordSubmit _ sl _ => mbxNames s (pageOf .tel sl 1) 1 (some 1)
  | .learningMessageInject _ _ => mbxNames s (pageOf .holx 16 0) 5 none
  | .tapStep _ i _ => mbxNames s (pageOf .hch i 2) 0x16 none
  | _ => true

/-- The host's writes that wait, oldest first, up to the last one of a register: those which a Holtarun write to it lets pass on
the same clock, since a requester's own writes keep their order (R54). -/
def hostAhead (page off : Nat) (l : List Instr) : List Instr :=
  let w := l.filter fun c => (writeOf c).elim false (·.1 == .host)
  (w.reverse.dropWhile fun c => (writeOf c).elim true fun x => x.2.1 != page || x.2.2.1 != off).reverse

/-- A waiting host write is done now, before a Holtarun write: it has no effect when its own turn comes. -/
def doEarly (s : State) (c : Instr) : State :=
  match writeOf c with
  | none => s
  | some x =>
    let t := if writeDue s c then oneWrite s x.1 x.2.1 x.2.2.1 x.2.2.2.1 x.2.2.2.2 else s
    { t with pg := { t.pg with early := t.pg.early + 1 } }

/-- No waiting host write comes before a requester's write of a register on this clock, and the write itself has not been done before its
turn (R54). -/
def busFree (s : State) (req : Requester) (page off : Nat) : Bool :=
  match req with
  | .host => s.pg.early == 0
  | .holtarun => ((hostAhead page off s.pending).drop s.pg.early).isEmpty

/-- A write of 32 bits by a requester (R52, R54, R61). Where the host writes a register on the same clock as Holtarun, the
host's write comes first. -/
def busWrite (s : State) (req : Requester) (page off be : Nat) (w : Word) : State :=
  let s1 := if req = .holtarun then ((hostAhead page off s.pending).drop s.pg.early).foldl doEarly s else s
  oneWrite s1 req page off be w

/-- A command's register write: a host write already done before one of Holtarun on this clock does nothing more. -/
def commandWrite (s : State) (c : Instr) : State :=
  match writeOf c with
  | none => s
  | some x =>
    if x.1 = .host ∧ 0 < s.pg.early then { s with pg := { s.pg with early := s.pg.early - 1 } }
    else if writeDue s c then busWrite s x.1 x.2.1 x.2.2.1 x.2.2.2.1 x.2.2.2.2
    else s

end Sys2Proof.Machine
end

