-- ==== Sys2Proof/Machine/Operands.lean ====
section
/-!
DEFINITION. Operand forms of the instructions a Holtarun thread executes (R393, R396): the fields and immediates of the 32-bit
formats, and the 32-bit instruction each compressed one stands for. R393 refers to the RISC-V specifications; the formats
here are those of RV64IMAC (PRESUMED, log entry 30).
-/
namespace Sys2Proof.Machine

/-! ### Fields of a 32-bit instruction -/

def iOp (w : Nat) : Nat := bitsOf w 6 0
def iRd (w : Nat) : Nat := bitsOf w 11 7
def iF3 (w : Nat) : Nat := bitsOf w 14 12
def iRs1 (w : Nat) : Nat := bitsOf w 19 15
def iRs2 (w : Nat) : Nat := bitsOf w 24 20
def iF7 (w : Nat) : Nat := bitsOf w 31 25

/-- Sign extension of the low `w` bits to 64. -/
def sx (w v : Nat) : Nat := unsgn 64 (sgn w v)

/-- I-type immediate. -/
def immI (w : Nat) : Nat := sx 12 (bitsOf w 31 20)

/-- S-type immediate. -/
def immS (w : Nat) : Nat := sx 12 (bitsOf w 31 25 * 32 + bitsOf w 11 7)

/-- B-type immediate. -/
def immB (w : Nat) : Nat :=
  sx 13 (bitsOf w 31 31 * 4096 + bitsOf w 7 7 * 2048 + bitsOf w 30 25 * 32 + bitsOf w 11 8 * 2)

/-- U-type immediate. -/
def immU (w : Nat) : Nat := sx 32 (bitsOf w 31 12 * 4096)

/-- J-type immediate. -/
def immJ (w : Nat) : Nat :=
  sx 21 (bitsOf w 31 31 * 2 ^ 20 + bitsOf w 19 12 * 4096 + bitsOf w 20 20 * 2048 + bitsOf w 30 21 * 2)

/-! ### Building 32-bit instructions -/

def mkR (f7 rs2 rs1 f3 rd op : Nat) : Nat := f7 * 2 ^ 25 + rs2 * 2 ^ 20 + rs1 * 2 ^ 15 + f3 * 2 ^ 12 + rd * 2 ^ 7 + op
def mkI (imm rs1 f3 rd op : Nat) : Nat := imm % 4096 * 2 ^ 20 + rs1 * 2 ^ 15 + f3 * 2 ^ 12 + rd * 2 ^ 7 + op
def mkS (imm rs2 rs1 f3 : Nat) : Nat :=
  imm / 32 % 128 * 2 ^ 25 + rs2 * 2 ^ 20 + rs1 * 2 ^ 15 + f3 * 2 ^ 12 + imm % 32 * 2 ^ 7 + 0x23
def mkB (imm rs2 rs1 f3 : Nat) : Nat :=
  bitsOf imm 12 12 * 2 ^ 31 + bitsOf imm 10 5 * 2 ^ 25 + rs2 * 2 ^ 20 + rs1 * 2 ^ 15 + f3 * 2 ^ 12
    + bitsOf imm 4 1 * 2 ^ 8 + bitsOf imm 11 11 * 2 ^ 7 + 0x63
def mkJ (imm rd : Nat) : Nat :=
  bitsOf imm 20 20 * 2 ^ 31 + bitsOf imm 10 1 * 2 ^ 21 + bitsOf imm 11 11 * 2 ^ 20 + bitsOf imm 19 12 * 2 ^ 12 + rd * 2 ^ 7 + 0x6F

/-! ### Compressed instructions -/

/-- Signed 6-bit immediate of the CI format, as 64 bits. -/
def cImm (c : Nat) : Nat := sx 6 (bitsOf c 12 12 * 32 + bitsOf c 6 2)

/-- Registers x8-x15 of the three-bit fields. -/
def cRd (c : Nat) : Nat := 8 + bitsOf c 4 2
def cRs (c : Nat) : Nat := 8 + bitsOf c 9 7

/-- Offsets of C.LW and C.SW, of C.LD and C.SD. -/
def cOffW (c : Nat) : Nat := bitsOf c 5 5 * 64 + bitsOf c 12 10 * 8 + bitsOf c 6 6 * 4
def cOffD (c : Nat) : Nat := bitsOf c 6 5 * 64 + bitsOf c 12 10 * 8

/-- Offset of C.J. -/
def cOffJ (c : Nat) : Nat :=
  sx 12 (bitsOf c 12 12 * 2048 + bitsOf c 8 8 * 1024 + bitsOf c 10 9 * 256 + bitsOf c 6 6 * 128 + bitsOf c 7 7 * 64
    + bitsOf c 2 2 * 32 + bitsOf c 11 11 * 16 + bitsOf c 5 3 * 2)

/-- Offset of C.BEQZ and C.BNEZ. -/
def cOffB (c : Nat) : Nat :=
  sx 9 (bitsOf c 12 12 * 256 + bitsOf c 6 5 * 64 + bitsOf c 2 2 * 32 + bitsOf c 11 10 * 8 + bitsOf c 4 3 * 2)

/-- Quadrant 0. -/
def expandC0 (c : Nat) : Option Nat :=
  match bitsOf c 15 13 with
  | 0 =>
    let imm := bitsOf c 10 7 * 64 + bitsOf c 12 11 * 16 + bitsOf c 5 5 * 8 + bitsOf c 6 6 * 4
    if imm = 0 then none else some (mkI imm 2 0 (cRd c) 0x13)
  | 2 => some (mkI (cOffW c) (cRs c) 2 (cRd c) 0x03)
  | 3 => some (mkI (cOffD c) (cRs c) 3 (cRd c) 0x03)
  | 6 => some (mkS (cOffW c) (cRd c) (cRs c) 2)
  | 7 => some (mkS (cOffD c) (cRd c) (cRs c) 3)
  | _ => none

/-- The arithmetic group of quadrant 1. -/
def expandCA (c : Nat) : Option Nat :=
  let rd := cRs c
  let r2 := cRd c
  let sh := bitsOf c 12 12 * 32 + bitsOf c 6 2
  match bitsOf c 11 10 with
  | 0 => some (mkI sh rd 5 rd 0x13)
  | 1 => some (mkI (1024 + sh) rd 5 rd 0x13)
  | 2 => some (mkI (cImm c) rd 7 rd 0x13)
  | _ => match bitsOf c 12 12, bitsOf c 6 5 with
    | 0, 0 => some (mkR 32 r2 rd 0 rd 0x33)
    | 0, 1 => some (mkR 0 r2 rd 4 rd 0x33)
    | 0, 2 => some (mkR 0 r2 rd 6 rd 0x33)
    | 0, _ => some (mkR 0 r2 rd 7 rd 0x33)
    | _, 0 => some (mkR 32 r2 rd 0 rd 0x3B)
    | _, 1 => some (mkR 0 r2 rd 0 rd 0x3B)
    | _, _ => none

/-- Quadrant 1. -/
def expandC1 (c : Nat) : Option Nat :=
  let rd := bitsOf c 11 7
  match bitsOf c 15 13 with
  | 0 => some (mkI (cImm c) rd 0 rd 0x13)
  | 1 => if rd = 0 then none else some (mkI (cImm c) rd 0 rd 0x1B)
  | 2 => some (mkI (cImm c) 0 0 rd 0x13)
  | 3 =>
    if rd = 2 then
      let imm := sx 10 (bitsOf c 12 12 * 512 + bitsOf c 4 3 * 128 + bitsOf c 5 5 * 64 + bitsOf c 2 2 * 32 + bitsOf c 6 6 * 16)
      if imm = 0 then none else some (mkI imm 2 0 2 0x13)
    else if cImm c = 0 then none else some (cImm c % 2 ^ 20 * 4096 + rd * 2 ^ 7 + 0x37)
  | 4 => expandCA c
  | 5 => some (mkJ (cOffJ c) 0)
  | 6 => some (mkB (cOffB c) 0 (cRs c) 0)
  | _ => some (mkB (cOffB c) 0 (cRs c) 1)

/-- Quadrant 2. -/
def expandC2 (c : Nat) : Option Nat :=
  let rd := bitsOf c 11 7
  let r2 := bitsOf c 6 2
  match bitsOf c 15 13 with
  | 0 => some (mkI (bitsOf c 12 12 * 32 + r2) rd 1 rd 0x13)
  | 2 => if rd = 0 then none else
    some (mkI (bitsOf c 3 2 * 64 + bitsOf c 12 12 * 32 + bitsOf c 6 4 * 4) 2 2 rd 0x03)
  | 3 => if rd = 0 then none else
    some (mkI (bitsOf c 4 2 * 64 + bitsOf c 12 12 * 32 + bitsOf c 6 5 * 8) 2 3 rd 0x03)
  | 4 =>
    if bitsOf c 12 12 = 0 then
      if r2 = 0 then (if rd = 0 then none else some (mkI 0 rd 0 0 0x67)) else some (mkR 0 r2 0 0 rd 0x33)
    else if r2 = 0 then (if rd = 0 then some 0x00100073 else some (mkI 0 rd 0 1 0x67))
    else some (mkR 0 r2 rd 0 rd 0x33)
  | 6 => some (mkS (bitsOf c 8 7 * 64 + bitsOf c 12 9 * 4) r2 2 2)
  | 7 => some (mkS (bitsOf c 9 7 * 64 + bitsOf c 12 10 * 8) r2 2 3)
  | _ => none

/-- The 32-bit instruction a compressed one stands for; none where it is illegal in RV64IMAC. -/
def expandC (c : Nat) : Option Nat :=
  match c % 4 with
  | 0 => expandC0 c
  | 1 => expandC1 c
  | 2 => expandC2 c
  | _ => none

end Sys2Proof.Machine
end

