-- ==== Sys2Proof/Machine/Flags.lean ====
section
/-!
DEFINITION. Results and conditions a Holtarun thread computes: the integer and multiply operations, branch conditions and
atomic operations of RV64IMA (PRESUMED, log entry 30). The block's own status flags are register fields, which the operations
that set them write.
-/
namespace Sys2Proof.Machine

/-- 64-bit value as a signed number. -/
def s64 (v : Nat) : Int := sgn 64 v

/-- Quotient and remainder of `w`-bit signed division: by zero all ones and the dividend; overflow wraps. -/
def divS (w a b : Nat) : Nat := if b % 2 ^ w = 0 then 2 ^ w - 1 else unsgn w ((sgn w a).tdiv (sgn w b))
def remS (w a b : Nat) : Nat := if b % 2 ^ w = 0 then a % 2 ^ w else unsgn w ((sgn w a).tmod (sgn w b))
def divU (w a b : Nat) : Nat := if b % 2 ^ w = 0 then 2 ^ w - 1 else a % 2 ^ w / (b % 2 ^ w)
def remU (w a b : Nat) : Nat := if b % 2 ^ w = 0 then a % 2 ^ w else a % 2 ^ w % (b % 2 ^ w)

/-- Upper half of a 128-bit product. -/
def mulHi (a b : Int) : Nat := unsgn 128 (a * b) / 2 ^ 64

/-- OP: register-register operations on 64 bits. -/
def aluOp (f7 f3 a b : Nat) : Option Nat :=
  match f7, f3 with
  | 0, 0 => some ((a + b) % 2 ^ 64)
  | 0, 1 => some (a * 2 ^ (b % 64) % 2 ^ 64)
  | 0, 2 => some (b2n (decide (s64 a < s64 b)))
  | 0, 3 => some (b2n (decide (a < b)))
  | 0, 4 => some (Nat.xor a b)
  | 0, 5 => some (a / 2 ^ (b % 64))
  | 0, 6 => some (Nat.lor a b)
  | 0, 7 => some (Nat.land a b)
  | 32, 0 => some ((a + 2 ^ 64 - b % 2 ^ 64) % 2 ^ 64)
  | 32, 5 => some (unsgn 64 (s64 a / 2 ^ (b % 64)))
  | 1, 0 => some (a * b % 2 ^ 64)
  | 1, 1 => some (mulHi (s64 a) (s64 b))
  | 1, 2 => some (mulHi (s64 a) b)
  | 1, 3 => some (a * b / 2 ^ 64)
  | 1, 4 => some (divS 64 a b)
  | 1, 5 => some (divU 64 a b)
  | 1, 6 => some (remS 64 a b)
  | 1, 7 => some (remU 64 a b)
  | _, _ => none

/-- OP-32: operations on the low words, sign-extended. -/
def aluOpW (f7 f3 a b : Nat) : Option Nat :=
  (match f7, f3 with
    | 0, 0 => some (a + b)
    | 0, 1 => some (a * 2 ^ (b % 32))
    | 0, 5 => some (a % 2 ^ 32 / 2 ^ (b % 32))
    | 32, 0 => some (a + 2 ^ 64 - b % 2 ^ 64)
    | 32, 5 => some (unsgn 32 (sgn 32 a / 2 ^ (b % 32)))
    | 1, 0 => some (a * b)
    | 1, 4 => some (divS 32 a b)
    | 1, 5 => some (divU 32 a b)
    | 1, 6 => some (remS 32 a b)
    | 1, 7 => some (remU 32 a b)
    | _, _ => none).map (sx 32)

/-- OP-IMM: immediate operations; a shift's upper immediate bits must fit its encoding. -/
def aluImm (w a : Nat) : Option Nat :=
  match iF3 w with
  | 1 => if bitsOf w 31 26 = 0 then aluOp 0 1 a (bitsOf w 25 20) else none
  | 5 => if bitsOf w 31 26 = 0 then aluOp 0 5 a (bitsOf w 25 20)
    else if bitsOf w 31 26 = 16 then aluOp 32 5 a (bitsOf w 25 20) else none
  | f => aluOp 0 f a (immI w)

/-- OP-IMM-32. -/
def aluImmW (w a : Nat) : Option Nat :=
  match iF3 w with
  | 0 => aluOpW 0 0 a (immI w)
  | 1 => if iF7 w = 0 then aluOpW 0 1 a (iRs2 w) else none
  | 5 => if iF7 w = 0 ∨ iF7 w = 32 then aluOpW (iF7 w) 5 a (iRs2 w) else none
  | _ => none

/-- Branch condition; none for a reserved one. -/
def branchOn (f3 a b : Nat) : Option Bool :=
  match f3 with
  | 0 => some (a == b)
  | 1 => some (a != b)
  | 4 => some (decide (s64 a < s64 b))
  | 5 => some (decide (s64 b ≤ s64 a))
  | 6 => some (decide (a < b))
  | 7 => some (decide (b ≤ a))
  | _ => none

/-- Result an AMO stores, on `w` bits: the memory value and the register value. -/
def amoOp (f5 w m r : Nat) : Option Nat :=
  let lt := decide (sgn w m < sgn w r)
  let ltu := decide (m % 2 ^ w < r % 2 ^ w)
  match f5 with
  | 0 => some ((m + r) % 2 ^ w)
  | 1 => some (r % 2 ^ w)
  | 4 => some (Nat.xor (m % 2 ^ w) (r % 2 ^ w))
  | 8 => some (Nat.lor (m % 2 ^ w) (r % 2 ^ w))
  | 12 => some (Nat.land (m % 2 ^ w) (r % 2 ^ w))
  | 16 => some (if lt then m % 2 ^ w else r % 2 ^ w)
  | 20 => some (if lt then r % 2 ^ w else m % 2 ^ w)
  | 24 => some (if ltu then m % 2 ^ w else r % 2 ^ w)
  | 28 => some (if ltu then r % 2 ^ w else m % 2 ^ w)
  | _ => none

end Sys2Proof.Machine
end

