-- ==== Sys2Proof/Machine/Rv64.lean ====
section
/-!
DEFINITION. How a Holtarun thread executes (R393, R405-R408): its memory map, the window cache, physical memory protection,
CSRs (Table 13-4), traps, and the instructions of RV64IMAC with Zicsr. What R393 takes from the RISC-V specifications is
PRESUMED (log entry 30).
-/
namespace Sys2Proof.Machine

/-! ### The map (Table 13-5) -/

/-- Where a range of addresses lies for a core: boot ROM, TCM or shared memory (by its global address), register window, Burlap
window, mirror-ring and counter-spill regions (by Burlap address). -/
inductive Region | rom (o : Nat) | mem (a : Nat) | regs (o : Nat) | win (o : Nat) | mir (b : Nat)
  deriving DecidableEq, Repr

/-- The region that holds all of [a, a + n). -/
def regionOf (s : State) (core a n : Nat) : Option Region :=
  let inside := fun lo hi => decide (lo ≤ a) && decide (a + n ≤ hi)
  if inside 0 0x10000 then some (.rom a)
  else if inside 0x100000 0x140000 then some (.mem (0x1000000 + core * 0x40000 + (a - 0x100000)))
  else if inside 0x1000000 0x1400000 || inShm a n then some (.mem a)
  else if inside 0x8000000 0x10000000 then some (.regs (a - 0x8000000))
  else if inWin a n then some (.win (a - winBase))
  else if inside 0x200000000 0x240000000 then some (.mir (mirrorBase s + (a - 0x200000000)))
  else none

/-! ### The window cache (R407) -/

/-- Cause of an access fault that a failing Burlap read of a window access raises (R407). -/
def loadFault : Nat := 5

/-- A line is written back when it is dirty; Burlap refuses it while its channel is contained. -/
def writeBackLine (s : State) (l : Line) : State :=
  if l.dirty then (burlapWrite s 4 (holBase s + 64 * l.line) l.data).2 else s

/-- Replace the cache. -/
def withCache (s : State) (c : List Line) : State := { s with hol := { s.hol with cache := c } }

/-- A line comes into the cache: a hit, or a fill that may evict a line of its set (which one is the device's choice). Answers
whether it is there, and the events. -/
def bringLine (s : State) (l : Nat) : Bool × State × List Nat :=
  match s.hol.cache.find? fun e => e.line == l with
  | some _ =>
    let inj := takeInj s (pageOf .holx 16 0) 2
    if inj.1 then (false, fire (bump inj.2 .holx 16 0 8 4 0) (pageOf .holx 16 0) 2, []) else (true, s, [14])
  | none =>
    let b := holBase s + 64 * l
    match burlapRead s 4 b 64 with
    | (none, t) => (false, t, [15])
    | (some d, t) =>
      let set := s.hol.cache.filter fun e => e.line % 2048 == l % 2048
      if set.length < 16 then (true, withCache t (⟨l, d, false⟩ :: s.hol.cache), [15])
      else
        let r := choose t 16
        match set[r.1]? with
        | none => (true, withCache r.2 (⟨l, d, false⟩ :: s.hol.cache), [15])
        | some e => (true, withCache (writeBackLine r.2 e) (⟨l, d, false⟩ :: s.hol.cache.filter (· != e)),
            if e.dirty then [15, 16] else [15])

/-- Every line of [o, o + n) comes into the cache. -/
def bringLines (s : State) (o n : Nat) : Bool × State × List Nat :=
  (List.range ((o + n - 1) / 64 + 1 - o / 64)).foldl (fun a k =>
    if a.1 then
      let r := bringLine a.2.1 (o / 64 + k)
      (r.1, r.2.1, a.2.2 ++ r.2.2)
    else a) (true, s, [])

/-- Bytes of a cached line. -/
def lineData (s : State) (l : Nat) : List Byte := (s.hol.cache.find? fun e => e.line == l).elim [] (·.data)

/-- Bytes of the window at offset `o`, all of whose lines are cached. -/
def cacheBytes (s : State) (o n : Nat) : List Byte :=
  slice ((List.range ((o + n - 1) / 64 + 1 - o / 64)).flatMap fun k => lineData s (o / 64 + k)) (o % 64) n

/-- Bytes written to cached lines. -/
def cachePut (s : State) (o : Nat) (bytes : List Byte) : State :=
  withCache (breakResv s (winBase + o) bytes.length) (s.hol.cache.map fun e =>
    if o / 64 ≤ e.line ∧ e.line ≤ (o + bytes.length - 1) / 64 then
      { e with dirty := true, data := (List.range 64).map fun k =>
          let a := 64 * e.line + k
          if o ≤ a ∧ a < o + bytes.length then bytes.getD (a - o) 0 else e.data.getD k 0 }
    else e)

/-- An operation of xhol_cmo on a line (Table 13-4): 1 clean, 2 invalidate, 3 both. -/
def cacheOp (s : State) (line op : Nat) : State :=
  match s.hol.cache.find? fun e => e.line == line with
  | none => s
  | some e =>
    let s1 := if op = 2 then s else writeBackLine s e
    withCache s1 (if op = 1 then s1.hol.cache.map fun x => if x == e then { x with dirty := false } else x
      else s1.hol.cache.filter (· != e))

/-! ### Accesses -/

/-- What an access did: its bytes, or the cause of its fault (none: the ordinary access fault of its kind). -/
structure MemOut where
  s : State
  bytes : Option (List Byte)
  cause : Option Nat
  evs : List Nat

/-- An access fault of the ordinary cause. -/
def noAccess (s : State) : MemOut := ⟨s, none, none, []⟩

/-- A load (or a fetch, which the register window refuses) of `n` bytes by a core. -/
def holLoad (s : State) (core a n : Nat) (fetch : Bool) : MemOut :=
  match regionOf s core a n with
  | none => noAccess s
  | some (.rom o) => ⟨s, some ((List.range n).map fun k => BitVec.ofNat 8 (Config.bootRomByte (o + k))), none, []⟩
  | some (.mem g) =>
    let e := holEcc s g
    if e.1 then noAccess e.2 else ⟨e.2, some (memBytes e.2 g n), none, [if inShm g n then 12 else 11]⟩
  | some (.regs o) =>
    if fetch || n != 4 || o % 4 != 0 then noAccess s
    else
      let r := busRead s .holtarun (o / 4096) (o % 4096) 15
      ⟨r.2, some (toLE 4 r.1), none, [18]⟩
  | some (.win o) =>
    let r := bringLines s o n
    if r.1 then ⟨r.2.1, some (cacheBytes r.2.1 o n), none, r.2.2⟩
    else ⟨r.2.1, none, if fetch then none else some loadFault, r.2.2⟩
  | some (.mir b) =>
    let r := burlapRead s 4 b n
    ⟨r.2, r.1, none, []⟩

/-- A store of bytes by a core. The mirror rings take no stores. -/
def holStore (s : State) (core a : Nat) (bytes : List Byte) : MemOut :=
  let n := bytes.length
  match regionOf s core a n with
  | none => noAccess s
  | some (.rom _) => noAccess s
  | some (.mem g) =>
    let e := holEcc s g
    if e.1 then noAccess e.2 else ⟨memWrite e.2 g bytes, some [], none, [if inShm g n then 12 else 11]⟩
  | some (.regs o) =>
    if n != 4 || o % 4 != 0 then noAccess s
    else ⟨busWrite s .holtarun (o / 4096) (o % 4096) 15 (BitVec.ofNat 32 (ofLE bytes)), some [], none, [19]⟩
  | some (.win o) =>
    let r := bringLines s o n
    if r.1 then ⟨cachePut r.2.1 o bytes, some [], none, r.2.2⟩ else ⟨r.2.1, none, some loadFault, r.2.2⟩
  | some (.mir b) =>
    let w := burlapWrite s 4 b bytes
    if 2 ≤ w.1 then noAccess w.2 else ⟨w.2, some [], none, []⟩

/-! ### Physical memory protection -/

/-- Trailing ones of a pmpaddr. -/
def trailing : Nat → Nat → Nat
  | 0, _ => 0
  | k + 1, v => if v % 2 = 1 then trailing k (v / 2) + 1 else 0

/-- Range of a PMP entry. -/
def pmpRange (t : Hart) (i : Nat) : Option (Nat × Nat) :=
  let e := t.pmp.getD i (0, 0)
  match e.1 / 8 % 4 with
  | 1 => some ((if i = 0 then 0 else (t.pmp.getD (i - 1) (0, 0)).2 * 4), e.2 * 4)
  | 2 => some (e.2 * 4, e.2 * 4 + 4)
  | 3 =>
    let k := trailing 54 e.2
    some (e.2 / 2 ^ k * 2 ^ k * 4, e.2 / 2 ^ k * 2 ^ k * 4 + 2 ^ (k + 3))
  | _ => none

/-- PMP permits [a, a + n) a kind of access (0 read, 1 write, 2 execute) in a mode: the lowest entry that matches decides. -/
def pmpOk (t : Hart) (user : Bool) (a n kind : Nat) : Bool :=
  let hit := (List.range 16).find? fun i =>
    (pmpRange t i).elim false fun r => decide (r.1 < a + n) && decide (a < r.2)
  match hit with
  | none => !user
  | some i =>
    let c := (t.pmp.getD i (0, 0)).1
    (pmpRange t i).elim false fun r =>
      decide (r.1 ≤ a) && decide (a + n ≤ r.2) && ((!user && !bit c 7) || bit c kind)

/-! ### CSRs -/

/-- Value of a CSR that is stored as written. -/
def csrOf (t : Hart) (a : Nat) : Nat := storeGet (if a = 0x7C8 then 2 ^ 64 - 1 else 0) t.csr a

/-- Set a stored CSR. -/
def csrPut (t : Hart) (a v : Nat) : Hart :=
  { t with csr := storeSet (if a = 0x7C8 then 2 ^ 64 - 1 else 0) a (v % 2 ^ 64) t.csr }

/-- Bits of mstatus. -/
def mieBit : Nat := 3
def mpieBit : Nat := 7
def mprvBit : Nat := 17
def twBit : Nat := 21

/-- Loads and stores take U-mode permissions. -/
def dataUser (t : Hart) : Bool :=
  t.user || (bit (csrOf t 0x300) mprvBit && bitsOf (csrOf t 0x300) 12 11 == 0)

/-- The thread's handle (R399). -/
def handleOf (s : State) (h : Nat) : Nat := (hartOf s h).gen * 256 + h

/-- A line of a 256-bit mask held in four CSRs from `base`. -/
def maskBit (t : Hart) (base line : Nat) : Bool := bit (csrOf t (base + line / 64)) (line % 64)

/-- Pending interrupts (R404): software bit 3, timer bit 7, external bit 11. -/
def mipOf (s : State) (h : Nat) (t : Hart) : Nat :=
  b2n (bit (fget s holcMsipMsip (h / 8) 0) (h % 8)) * 8
    + b2n (decide (csrOf t 0x7C8 ≤ tickNow s)) * 128
    + b2n (s.ev.any fun e => decide (e.2 ≠ 0) && maskBit t 0x7C0 e.1) * 2048

/-- A cycle, time, instret or hpmcounter read in U mode: the first three need their mcounteren bit, a performance counter reads
zero unless USER_READ is 1 (R412). -/
def userCounter (s : State) (h : Nat) (t : Hart) (n : Nat) : Option Nat :=
  let v := match n with
    | 0 => (cycleAt s.clk + csrOf t 0xB00) % 2 ^ 64
    | 1 => tickNow s
    | 2 => csrOf t 0xB02
    | _ => if n < 11 then perfGet s (h / 8) (n - 3) else 0
  if n < 3 then (if t.user && !bit (csrOf t 0x306) n then none else some v)
  else some (if t.user && fget s holcPerfCtlUserRead (h / 8) 0 == 0 then 0 else v)

/-- Configuration bytes of the entries of a pmpcfg register. -/
def pmpCfgOf (t : Hart) (first : Nat) : Nat :=
  (List.range 8).foldl (fun a k => a + (t.pmp.getD (first + k) (0, 0)).1 * 256 ^ k) 0

/-- Value of a CSR for a thread; none where it has none, or may not be read in its mode. -/
def csrRead (s : State) (h : Nat) (t : Hart) (a : Nat) : Option Nat :=
  if t.user && 2 ≤ a / 256 % 4 then none
  else if a = 0x300 then some (csrOf t a + 2 ^ 33)
  else if a = 0x301 then some (2 ^ 63 + 2 ^ 23 + 2 ^ 20 + 2 ^ 12 + 2 ^ 8 + 2 ^ 2 + 1)
  else if a = 0x344 then some (mipOf s h t)
  else if [0x304, 0x305, 0x306, 0x340, 0x341, 0x342, 0x343, 0x7C8, 0xB02].contains a then some (csrOf t a)
  else if 0x7C0 ≤ a ∧ a ≤ 0x7C3 ∨ 0x800 ≤ a ∧ a ≤ 0x803 then some (csrOf t a)
  else if a = 0x3A0 then some (pmpCfgOf t 0)
  else if a = 0x3A2 then some (pmpCfgOf t 8)
  else if 0x3B0 ≤ a ∧ a ≤ 0x3BF then some (t.pmp.getD (a - 0x3B0) (0, 0)).2
  else if a = 0xB00 then some ((cycleAt s.clk + csrOf t a) % 2 ^ 64)
  else if 0xB03 ≤ a ∧ a ≤ 0xB1F then some (if a < 0xB0B then perfGet s (h / 8) (a - 0xB03) else 0)
  else if 0xC00 ≤ a ∧ a ≤ 0xC1F then userCounter s h t (a - 0xC00)
  else if a = 0xCC0 then some (handleOf s h)
  else if a = 0xF14 then some h
  else if [0x30A, 0x320, 0x7C9, 0xF11, 0xF12, 0xF13, 0xF15].contains a ∨ 0x323 ≤ a ∧ a ≤ 0x33F then some 0
  else none

/-- Eight PMP configuration bytes are written: locked entries keep theirs; write permission without read is not taken. -/
def pmpCfgPut (t : Hart) (first v : Nat) : Hart :=
  { t with pmp := (List.range 16).map fun i =>
      let e := t.pmp.getD i (0, 0)
      let c := Nat.land (v / 256 ^ (i - first) % 256) 0x9F
      if i < first ∨ first + 8 ≤ i ∨ bit e.1 7 = true ∨ c % 4 = 2 then e else (c, e.2) }

/-- A PMP address is written, unless its entry, or a locked TOR entry above it, holds it. -/
def pmpAddrPut (t : Hart) (i v : Nat) : Hart :=
  let up := (t.pmp.getD (i + 1) (0, 0)).1
  let e := t.pmp.getD i (0, 0)
  if bit e.1 7 || (bit up 7 && up / 8 % 4 == 1) then t else { t with pmp := t.pmp.set i (e.1, v % 2 ^ 54) }

/-- A CSR takes a value (its legal bits). -/
def csrWrite (s : State) (h : Nat) (t : Hart) (a v : Nat) : State × Hart :=
  if a = 0x300 then
    let old := csrOf t a
    let mpp := if bitsOf v 12 11 = 0 ∨ bitsOf v 12 11 = 3 then bitsOf v 12 11 else bitsOf old 12 11
    (s, csrPut t a (b2n (bit v 3) * 8 + b2n (bit v 7) * 128 + mpp * 2048 + b2n (bit v 17) * 2 ^ 17 + b2n (bit v 21) * 2 ^ 21))
  else if a = 0x304 then (s, csrPut t a (Nat.land v 0x888))
  else if a = 0x305 then (s, csrPut t a (if v % 4 < 2 then v else v / 4 * 4 + csrOf t a % 4))
  else if a = 0x306 then (s, csrPut t a (v % 2 ^ 32))
  else if a = 0x341 then (s, csrPut t a (v / 2 * 2))
  else if [0x340, 0x342, 0x343, 0x7C8, 0xB02].contains a ∨ 0x7C0 ≤ a ∧ a ≤ 0x7C3 ∨ 0x800 ≤ a ∧ a ≤ 0x803 then (s, csrPut t a v)
  else if a = 0x3A0 then (s, pmpCfgPut t 0 v)
  else if a = 0x3A2 then (s, pmpCfgPut t 8 v)
  else if 0x3B0 ≤ a ∧ a ≤ 0x3BF then (s, pmpAddrPut t (a - 0x3B0) v)
  else if a = 0xB00 then (s, csrPut t a ((v + 2 ^ 64 - cycleAt s.clk % 2 ^ 64) % 2 ^ 64))
  else if 0xB03 ≤ a ∧ a < 0xB0B then (perfSet s (h / 8) (a - 0xB03) v, t)
  else if a = 0x7C9 then (cacheOp s (v / 64) (v % 4), t)
  else (s, t)

/-- Events of a CSR write: a cache operation that writes a dirty line back (Table 13-8). -/
def csrEvents (s : State) (a v : Nat) : List Nat :=
  if a = 0x7C9 ∧ v % 2 = 1 ∧ (s.hol.cache.any fun e => e.line == v / 64 && e.dirty) = true then [16] else []

/-! ### Traps -/

/-- The thread enters M mode for a trap: an exception cause, or an interrupt with `intr`. -/
def trapTo (t : Hart) (cause tval : Nat) (intr : Bool) : Hart :=
  let m := csrOf t 0x300
  let m1 := putBits (putBits (putBits m 7 7 (b2n (bit m 3))) 3 3 0) 12 11 (if t.user then 0 else 3)
  let base := csrOf t 0x305
  let t1 := csrPut (csrPut (csrPut (csrPut t 0x300 m1) 0x341 t.pc) 0x342 (cause + b2n intr * 2 ^ 63)) 0x343 tval
  { t1 with
    user := false, st := .ready, waitEnd := none, bulk := false
    pc := (base / 4 * 4 + (if intr ∧ base % 4 = 1 then 4 * cause else 0)) % 2 ^ 64 }

/-- MRET. -/
def trapReturn (t : Hart) : Hart :=
  let m := csrOf t 0x300
  let toUser := bitsOf m 12 11 == 0
  let m1 := putBits (putBits (putBits m 3 3 (b2n (bit m 7))) 7 7 1) 12 11 0
  { csrPut t 0x300 (if toUser then putBits m1 17 17 0 else m1) with user := toUser, pc := csrOf t 0x341 }

/-! ### One instruction -/

/-- What executing an instruction gave: memory and devices, the thread, events, an exception (cause, mtval), and whether it
retired. -/
structure Exe where
  s : State
  t : Hart
  evs : List Nat
  trap : Option (Nat × Nat)
  done : Bool

/-- The instruction retires: the thread goes on at `pc`. -/
def exeDone (s : State) (t : Hart) (pc : Nat) (evs : List Nat) : Exe := ⟨s, { t with pc := pc % 2 ^ 64 }, evs, none, true⟩

/-- The instruction raises an exception. -/
def exeTrap (s : State) (t : Hart) (cause tval : Nat) (evs : List Nat) : Exe := ⟨s, t, evs, some (cause, tval), false⟩

/-- A load with its PMP check. -/
def thrLoad (s : State) (h : Nat) (t : Hart) (a n : Nat) : MemOut :=
  if pmpOk t (dataUser t) a n 0 then holLoad s (h / 8) a n false else noAccess s

/-- A store with its PMP check. -/
def thrStore (s : State) (h : Nat) (t : Hart) (a : Nat) (bytes : List Byte) : MemOut :=
  if pmpOk t (dataUser t) a bytes.length 1 then holStore s (h / 8) a bytes else noAccess s

/-- LOAD: signed for funct3 below 4. -/
def exeLoad (s : State) (h : Nat) (t : Hart) (w raw next : Nat) : Exe :=
  let f := iF3 w
  if f = 7 then exeTrap s t 2 raw []
  else
    let n := 2 ^ (f % 4)
    let a := (t.x.getD (iRs1 w) 0 + immI w) % 2 ^ 64
    let r := thrLoad s h t a n
    match r.bytes with
    | none => exeTrap r.s t (r.cause.getD 5) a r.evs
    | some b => exeDone r.s (setX t (iRd w) (if f < 4 then sx (8 * n) (ofLE b) else ofLE b)) next (7 :: r.evs)

/-- STORE. -/
def exeStore (s : State) (h : Nat) (t : Hart) (w raw next : Nat) : Exe :=
  if 3 < iF3 w then exeTrap s t 2 raw []
  else
    let a := (t.x.getD (iRs1 w) 0 + immS w) % 2 ^ 64
    let r := thrStore s h t a (toLE (2 ^ iF3 w) (t.x.getD (iRs2 w) 0))
    match r.bytes with
    | none => exeTrap r.s t (r.cause.getD 7) a r.evs
    | some _ => exeDone r.s t next (8 :: r.evs)

/-- Address that reservations use for an access, where AMOs and LR/SC work (R407). -/
def amoAddr (s : State) (core a n : Nat) : Option Nat :=
  match regionOf s core a n with
  | some (.mem g) => some g
  | some (.win o) => some (winBase + o)
  | _ => none

/-- AMO, LR and SC. -/
def exeAmo (s : State) (h : Nat) (t : Hart) (w raw next : Nat) : Exe :=
  let n := if iF3 w = 2 then 4 else 8
  let a := t.x.getD (iRs1 w) 0
  let r2 := t.x.getD (iRs2 w) 0
  let f5 := iF7 w / 4
  let isLr := f5 == 2
  if (iF3 w ≠ 2 ∧ iF3 w ≠ 3) ∨ (isLr = true ∧ iRs2 w ≠ 0) ∨ (f5 ≠ 2 ∧ f5 ≠ 3 ∧ amoOp f5 64 0 0 = none) then exeTrap s t 2 raw []
  else if a % n ≠ 0 then exeTrap s t (if isLr then 4 else 6) a []
  else match amoAddr s (h / 8) a n with
    | none => exeTrap s t (if isLr then 5 else 7) a []
    | some g =>
      if isLr then
        let r := thrLoad s h t a n
        match r.bytes with
        | none => exeTrap r.s t (r.cause.getD 5) a r.evs
        | some b => exeDone r.s { setX t (iRd w) (sx (8 * n) (ofLE b)) with resv := some g } next (9 :: r.evs)
      else if f5 = 3 then
        if pmpOk t (dataUser t) a n 1 = false then exeTrap s t 7 a []
        else if t.resv.elim true (fun r => r / 64 != g / 64) then
          exeDone s { setX t (iRd w) 1 with resv := none } next [9, 10]
        else
          let r := thrStore s h t a (toLE n r2)
          match r.bytes with
          | none => exeTrap r.s t (r.cause.getD 7) a r.evs
          | some _ => exeDone r.s { setX t (iRd w) 0 with resv := none } next (9 :: r.evs)
      else if pmpOk t (dataUser t) a n 0 = false ∨ pmpOk t (dataUser t) a n 1 = false then exeTrap s t 7 a []
      else
        let r := thrLoad s h t a n
        match r.bytes with
        | none => exeTrap r.s t (if r.cause = some loadFault then loadFault else 7) a r.evs
        | some b =>
          let q := thrStore r.s h t a (toLE n ((amoOp f5 (8 * n) (ofLE b) r2).getD 0))
          match q.bytes with
          | none => exeTrap q.s t (q.cause.getD 7) a q.evs
          | some _ => exeDone q.s (setX t (iRd w) (sx (8 * n) (ofLE b))) next (9 :: r.evs)

/-- New value of a CSR instruction, none where it writes nothing. -/
def csrNew (t : Hart) (w old : Nat) : Option Nat :=
  let src := if iF3 w < 4 then t.x.getD (iRs1 w) 0 else iRs1 w
  match iF3 w % 4 with
  | 1 => some src
  | 2 => if iRs1 w = 0 then none else some (Nat.lor old src)
  | _ => if iRs1 w = 0 then none else some (Nat.land old (2 ^ 64 - 1 - src))

/-- CSR instructions. -/
def exeCsr (s : State) (h : Nat) (t : Hart) (w raw next : Nat) : Exe :=
  let a := bitsOf w 31 20
  match csrRead s h t a with
  | none => exeTrap s t 2 raw []
  | some old =>
    match csrNew t w old with
    | none => exeDone s (setX t (iRd w) old) next []
    | some v =>
      if a / 1024 = 3 then exeTrap s t 2 raw []
      else
        let r := csrWrite s h t a v
        exeDone r.1 (setX r.2 (iRd w) old) next (csrEvents s a v)

/-- SYSTEM: calls, breakpoints, MRET, WFI (which may end at once) and CSR instructions. -/
def exeSystem (s : State) (h : Nat) (t : Hart) (w raw next : Nat) : Exe :=
  if iF3 w = 0 then
    if w = 0x00000073 then exeTrap s t (if t.user then 8 else 11) 0 []
    else if w = 0x00100073 then exeTrap s t 3 t.pc []
    else if w = 0x30200073 then (if t.user then exeTrap s t 2 raw [] else let u := trapReturn t; exeDone s u u.pc [])
    else if w = 0x10500073 then
      (if t.user && bit (csrOf t 0x300) twBit then exeTrap s t 2 raw [] else exeDone s t next [])
    else exeTrap s t 2 raw []
  else if iF3 w = 4 then exeTrap s t 2 raw []
  else exeCsr s h t w raw next

/-- A standard instruction: `w` its 32 bits (expanded where it was compressed), `raw` as it stands in memory, `len` its
bytes. Custom opcodes that are no Xhol instruction end in an illegal-instruction exception (R396). -/
def exeStd (s : State) (h : Nat) (t : Hart) (w raw len : Nat) : Exe :=
  let next := t.pc + len
  let a := t.x.getD (iRs1 w) 0
  let b := t.x.getD (iRs2 w) 0
  let res := fun (r : Option Nat) =>
    match r with
    | some v => exeDone s (setX t (iRd w) v) next []
    | none => exeTrap s t 2 raw []
  match iOp w with
  | 0x37 => res (some (immU w))
  | 0x17 => res (some (t.pc + immU w))
  | 0x6F => exeDone s (setX t (iRd w) next) (t.pc + immJ w) []
  | 0x67 => if iF3 w = 0 then exeDone s (setX t (iRd w) next) ((a + immI w) % 2 ^ 64 / 2 * 2) [] else exeTrap s t 2 raw []
  | 0x63 => match branchOn (iF3 w) a b with
    | none => exeTrap s t 2 raw []
    | some true => exeDone s t (t.pc + immB w) [32, 33]
    | some false => exeDone s t next [32]
  | 0x03 => exeLoad s h t w raw next
  | 0x23 => exeStore s h t w raw next
  | 0x13 => res (aluImm w a)
  | 0x1B => res (aluImmW w a)
  | 0x33 => res (aluOp (iF7 w) (iF3 w) a b)
  | 0x3B => res (aluOpW (iF7 w) (iF3 w) a b)
  | 0x2F => exeAmo s h t w raw next
  | 0x0F => if iF3 w = 0 then exeDone s t next [] else exeTrap s t 2 raw []
  | 0x73 => exeSystem s h t w raw next
  | _ => exeTrap s t 2 raw []

/-! ### Fetch -/

/-- An instruction as fetched: 32-bit form (0 for an illegal compressed one), raw bits, length. -/
structure Fetched where
  w : Nat
  raw : Nat
  len : Nat
  deriving DecidableEq, Repr

/-- Fetch at the thread's pc, one 16-bit parcel or two: the instruction, or the address that faults. -/
def fetchAt (s : State) (h : Nat) (t : Hart) : (Fetched ⊕ Nat) × State :=
  let parcel := fun (s : State) (a : Nat) =>
    if pmpOk t t.user a 2 2 then holLoad s (h / 8) a 2 true else noAccess s
  let p := parcel s t.pc
  match p.bytes with
  | none => (.inr t.pc, p.s)
  | some lo =>
    if ofLE lo % 4 ≠ 3 then (.inl ⟨(expandC (ofLE lo)).getD 0, ofLE lo, 2⟩, p.s)
    else
      let q := parcel p.s ((t.pc + 2) % 2 ^ 64)
      match q.bytes with
      | none => (.inr ((t.pc + 2) % 2 ^ 64), q.s)
      | some hi => (.inl ⟨ofLE lo + 65536 * ofLE hi, ofLE lo + 65536 * ofLE hi, 4⟩, q.s)

end Sys2Proof.Machine
end

