-- ==== Sys2Proof/Machine/Holtarun.lean ====
section
/-!
DEFINITION. The commands of a Holtarun thread: each executes the instruction at the thread's pc when that is the instruction it
names (log entry 3), one element of a bulk instruction, or ends a wait (R393-R407).
-/
namespace Sys2Proof.Machine

/-- What an instruction is, by the command that executes it. -/
inductive HolOp | std | wfe | evsig | fork | joinW | joinX | tsNs | tsHi | bcopy | bfill | bcrc | clean | inval | flush
  deriving DecidableEq, Repr

/-- The operands of a bulk instruction are allowed (R402). -/
def bulkOk (t : Hart) (w : Nat) : Bool :=
  iRd w != 0 && iRs1 w != 0 && iRs2 w != 0 && iRd w != iRs1 w && iRd w != iRs2 w && iRs1 w != iRs2 w
    && decide (t.x.getD (iRd w) 0 ≤ 2 ^ 32)

/-- An Xhol instruction of Table 13-2; anything else is standard or illegal (R396). -/
def xholOp (t : Hart) (w : Nat) : HolOp :=
  match iF7 w, iF3 w with
  | 0, 0 => .wfe
  | 0, 1 => if iRd w = 0 ∧ iRs2 w = 0 then .evsig else .std
  | 0, 2 => .fork
  | 0, 3 => if iRs2 w = 0 then .joinW else .std
  | 1, 3 => if iRd w = 0 ∧ iRs2 w = 0 then .joinX else .std
  | 0, 4 => if iRs1 w = 0 ∧ iRs2 w = 0 then .tsNs else .std
  | 1, 4 => if iRs1 w = 0 ∧ iRs2 w = 0 then .tsHi else .std
  | 0, 5 => if bulkOk t w then .bcopy else .std
  | 1, 5 => if bulkOk t w then .bfill else .std
  | 2, 5 => if bulkOk t w then .bcrc else .std
  | _, _ => .std

/-- A CSR instruction that writes xhol_cmo: the cache operation it names. -/
def cmoOp (t : Hart) (w : Nat) : HolOp :=
  if t.user || bitsOf w 31 20 != 0x7C9 || iF3 w % 4 == 0 then .std
  else match (csrNew t w 0).map (· % 4) with
    | some 1 => .clean
    | some 2 => .inval
    | some 3 => .flush
    | _ => .std

/-- The command an instruction belongs to. -/
def holOp (t : Hart) (w : Nat) : HolOp :=
  if iOp w = 0x0B then xholOp t w else if iOp w = 0x73 then cmoOp t w else .std

/-- Threads of the core run: the cluster is up and not restarting, the core is not contained (R416, R456). -/
def coreRuns (s : State) (h : Nat) : Bool :=
  s.boot.mgmtUp && s.hol.restartAt == none && !isContained s (.core (h / 8))

/-- An instruction's outcome becomes the thread's. -/
def holEnd (s0 : State) (h raw : Nat) (evs : List Nat) (e : Exe) : State :=
  let t := hartOf s0 h
  match e.trap with
  | some c => account (putHart e.s h (trapTo e.t c.1 c.2 false)) h t.user t.pc raw false (30 :: evs ++ e.evs)
  | none => account (putHart e.s h (if e.done then countRetired e.t else e.t)) h t.user t.pc raw e.done (evs ++ e.evs)

/-! ### Issue (R395) -/

/-- Registers an instruction reads. -/
def regsRead (w : Nat) : List Nat :=
  match iOp w with
  | 0x67 | 0x03 | 0x13 | 0x1B => [iRs1 w]
  | 0x63 | 0x23 | 0x33 | 0x3B | 0x2F => [iRs1 w, iRs2 w]
  | 0x73 => if iF3 w < 4 then [iRs1 w] else []
  | 0x0B => if iF3 w = 5 then [iRd w, iRs1 w, iRs2 w] else [iRs1 w, iRs2 w]
  | _ => []

/-- Registers an instruction writes. -/
def regsWritten (w : Nat) : List Nat :=
  match iOp w with
  | 0x63 | 0x23 | 0x0F => []
  | 0x0B => if iF3 w = 5 then [iRd w, iRs1 w, iRs2 w] else [iRd w]
  | _ => [iRd w]

/-- A load, store, AMO or Xhol instruction. -/
def isMemOp (w : Nat) : Bool := [0x03, 0x23, 0x2F, 0x0B].contains (iOp w)

/-- An instruction issues beside the first of the cycle: the same thread's, independent of it, not both on memory. Independent
means that it neither reads nor writes a register the first writes, and that the first neither was a SYSTEM instruction nor led
elsewhere than to it (log entry 127). -/
def pairs (r : Issue) (h w : Nat) : Bool :=
  r.th == h && r.n == 1 && !r.flow && !(r.mem && isMemOp w)
    && (regsRead w ++ regsWritten w).all fun x => x == 0 || !r.regs.contains x

/-- A thread may issue an instruction in this cycle: beside the first, or as the slot's thread. -/
def mayIssue (s : State) (h w : Nat) : Bool :=
  match issuedNow s (h / 8) with
  | some r => pairs r h w
  | none => slotThread s (h / 8) == some h

/-- The events of an issue: a cycle used, and the slot lent; or a second instruction in the cycle (Table 13-8). -/
def issueEvents (s : State) (h : Nat) : List Nat :=
  if (issuedNow s (h / 8)).isSome then [6] else if h % 8 = cycleAt s.clk % 8 then [3] else [3, 4]

/-- The wheel keeps what issued: the second instruction fills the cycle. -/
def markIssue (s : State) (h w : Nat) (flow : Bool) : State :=
  let n := (issuedNow s (h / 8)).elim 1 (·.n + 1)
  let r : Issue := { cycle := cycleAt s.clk, th := h, n := n, regs := regsWritten w, mem := isMemOp w, flow := flow }
  { s with hol := { s.hol with wheel := storePut (h / 8) r s.hol.wheel } }

/-- An instruction issues with its outcome. -/
def issue (s : State) (h w raw len : Nat) (e : Exe) : State :=
  let flow := e.trap.isSome || !e.done || e.t.pc != (hartOf s h).pc + len || iOp w == 0x73
  holEnd s h raw (issueEvents s h) { e with s := markIssue e.s h w flow }

/-- A READY thread that has the core's slot executes the instruction at its pc, when that is one of the command's. A fetch that
faults belongs to INSTRUCTION_RETIRE. -/
def holRun (h : Nat) (want : HolOp) (s : State) (body : State → Hart → Fetched → Exe) : State :=
  let t := hartOf s h
  if t.st ≠ .ready ∨ coreRuns s h = false then s
  else
    let r := fetchAt s h t
    match r.1 with
    | .inr a => if want = .std ∧ mayIssue s h 0 = true then issue s h 0 0 0 (exeTrap r.2 t 1 a []) else s
    | .inl f => if holOp t f.w = want ∧ mayIssue s h f.w = true then issue s h f.w f.raw f.len (body r.2 t f) else s

/-- INSTRUCTION_RETIRE (R393). -/
def execInstructionRetire (h : Nat) (s : State) : Out :=
  run (h < 128) s (holRun h .std s fun s t f => exeStd s h t f.w f.raw f.len)

/-! ### Window cache operations (R407) -/

/-- CLEAN. -/
def execClean (h : Nat) (s : State) : Out :=
  run (h < 128) s (holRun h .clean s fun s t f => exeStd s h t f.w f.raw f.len)

/-- INVALIDATE. -/
def execInvalidate (h : Nat) (s : State) : Out :=
  run (h < 128) s (holRun h .inval s fun s t f => exeStd s h t f.w f.raw f.len)

/-- CLEAN_AND_INVALIDATE. -/
def execCleanAndInvalidate (h : Nat) (s : State) : Out :=
  run (h < 128) s (holRun h .flush s fun s t f => exeStd s h t f.w f.raw f.len)

/-! ### Events (R397, R398) -/

/-- A WFE argument in any-line mode. -/
def anyLine : Nat := 256

/-- A thread waiting with an argument takes a line. -/
def wantsLine (t : Hart) (arg line : Nat) : Bool := if arg < anyLine then arg == line else maskBit t 0x800 line

/-- The line, and its count, that a WFE argument takes now: the lowest wanted line with a count. -/
def wfeTake (s : State) (t : Hart) (arg : Nat) : Option (Nat × Nat) :=
  s.ev.find? fun e => e.2 != 0 && wantsLine t arg e.1

/-- Result of a WFE that takes a line. -/
def wfeValue (arg line n : Nat) : Nat := if arg < anyLine then n else line * 65536 + n

/-- A line's count is consumed. -/
def consume (s : State) (line : Nat) : State := { s with ev := storeDel line s.ev }

/-- A waiting thread takes the count it waits for, if there is one. -/
def wakeOne (s : State) (h : Nat) : State :=
  let t := hartOf s h
  match wfeTake s t t.waitArg with
  | none => s
  | some e => wakeHart (consume s e.1) h (wfeValue t.waitArg e.1 e.2) []

/-- Threads waiting in WFE, the one that began first before the others, of one cycle the lowest mhartid. -/
def waiters (s : State) : List Nat :=
  let ws := s.hol.harts.filter fun e => e.2.st == .waitEvent && coreRuns s e.1
  let put := fun (l : List (Nat × Hart)) (e : Nat × Hart) =>
    let first := fun (x : Nat × Hart) => decide (x.2.waitAt ≤ e.2.waitAt)
    l.takeWhile first ++ e :: l.dropWhile first
  (ws.foldl put []).map (·.1)

/-- WFE (R397): takes a count, or waits. Threads that wait already are served first. -/
def execWfe (h : Nat) (s : State) : Out :=
  run (h < 128) s <| holRun h .wfe s fun s0 t f =>
    let s := (waiters s0).foldl wakeOne s0
    let r1 := t.x.getD (iRs1 f.w) 0
    let r2 := t.x.getD (iRs2 f.w) 0
    let arg := if bit r1 8 then anyLine else r1 % 256
    match wfeTake s t arg with
    | some e => exeDone (consume s e.1) (setX t (iRd f.w) (wfeValue arg e.1 e.2)) (t.pc + 4) [21]
    | none =>
      ⟨s, { t with
        st := .waitEvent, waitArg := arg, waitAt := cycleAt s.clk, rd := iRd f.w, raw := f.raw
        waitEnd := if r2 = 0 then none else some (cycleAt s.clk + r2) }, [21, 22], none, false⟩

/-- WFE_WAKE (R397): the thread is the first of those that wait on the line it takes. -/
def execWfeWake (h : Nat) (s : State) : Out :=
  run (h < 128) s <|
    let t := hartOf s h
    if t.st ≠ .waitEvent ∨ coreRuns s h = false then s
    else match wfeTake s t t.waitArg with
      | none => s
      | some e =>
        let before := fun (o : Nat × Hart) => o.2.st == .waitEvent && wantsLine o.2 o.2.waitArg e.1
          && (decide (o.2.waitAt < t.waitAt) || (o.2.waitAt == t.waitAt && decide (o.1 < h)))
        if s.hol.harts.any before then s else wakeOne s h

/-- WFE_TIMEOUT (R397, R45): the timeout has passed, its last cycle included, and no event has come. -/
def execWfeTimeout (h : Nat) (s : State) : Out :=
  run (h < 128) s <|
    let t := hartOf s h
    if t.st = .waitEvent ∧ coreRuns s h = true ∧ t.waitEnd.any (· < cycleAt s.clk) = true ∧ wfeTake s t t.waitArg = none
    then wakeHart s h 0 [23] else s

/-- EVSIG (R398). -/
def execEvsig (h : Nat) (s : State) : Out :=
  run (h < 128) s <| holRun h .evsig s fun s t f =>
    let line := t.x.getD (iRs1 f.w) 0 % 256
    exeDone (if 192 ≤ line then pulse s line else bump s .holc (h / 8) 0 2 2 0) t (t.pc + 4) [24]

/-! ### Threads (R399, R400) -/

/-- Contexts in the order FORK looks for one. -/
def forkOrder (h : Nat) : List Nat :=
  let c := h / 8
  (List.range 8).map (8 * c + ·) ++ (List.range 120).map fun k => (8 * (c + 1) + k) % 128

/-- A context FORK may choose. -/
def forkFree (s : State) (user : Bool) (n : Nat) : Bool :=
  (hartOf s n).st == .idle && !isContained s (.core (n / 8))
    && (!user || bit (fget s holxAgentMaskMask 16 (n / 32)) (n % 32))

/-- What FORK does (R399). -/
def forkExe (h : Nat) (s : State) (t : Hart) (f : Fetched) : Exe :=
    match (forkOrder h).find? (forkFree s t.user) with
    | none => exeDone (bump s .holc (h / 8) 0 2 3 0) (setX t (iRd f.w) (2 ^ 64 - 1)) (t.pc + 4) [25, 26]
    | some n =>
      let gen := ((hartOf s n).gen + 1) % 256
      let x := (hartIdle.x.set 10 (t.x.getD (iRs2 f.w) 0)).set 11 (handleOf s h)
      let u := { hartIdle with
        st := .ready, user := t.user, pc := t.x.getD (iRs1 f.w) 0 / 2 * 2, x := x, pmp := t.pmp, gen := gen }
      exeDone (putHart s n u) (setX t (iRd f.w) (gen * 256 + n)) (t.pc + 4) [25]

/-- The FORKs of threads of lower mhartid that issue on this cycle are served first (R399). -/
def forksBefore (s : State) (h : Nat) : State :=
  (List.range h).foldl (fun a k => if s.pending.contains (.fork k) then holRun k .fork a (forkExe k) else a) s

/-- FORK (R399). -/
def execFork (h : Nat) (s : State) : Out :=
  run (h < 128) s <| holRun h .fork s fun s t f => forkExe h (forksBefore s h) t f

/-- JOIN_W (R400): the exit value of an ended context; a handle that names no live generation is gone. A context that has never
ended has an exit value the manual does not give (free value). -/
def execJoinW (h : Nat) (s : State) : Out :=
  run (h < 128) s <| holRun h .joinW s fun s t f =>
    let v := t.x.getD (iRs1 f.w) 0
    let n := v % 256
    let o := hartOf s n
    if 128 ≤ n ∨ v ≠ o.gen * 256 + n ∨ isContained s (.core (n / 8)) = true then
      exeDone s (setX t (iRd f.w) joinGone) (t.pc + 4) []
    else if o.st = .idle then
      match o.exitV with
      | some e => exeDone s (setX t (iRd f.w) e) (t.pc + 4) []
      | none => exeDone { s with free := s.free + 1 } (setX t (iRd f.w) (Config.freeWord s.free)) (t.pc + 4) []
    else
      ⟨s, { t with st := .waitJoin, waitArg := v, waitAt := cycleAt s.clk, rd := iRd f.w, raw := f.raw }, [27], none, false⟩

/-- JOIN_X (R400): the thread ends; those that join it go on. -/
def execJoinX (h : Nat) (s : State) : Out :=
  run (h < 128) s <| holRun h .joinX s fun s t f =>
    let v := t.x.getD (iRs1 f.w) 0 % 2 ^ 63
    let s1 := (s.hol.harts.filter fun e => e.2.st == .waitJoin && e.2.waitArg == handleOf s h).foldl
      (fun a e => wakeHart a e.1 v []) s
    exeDone s1 { t with st := .idle, exitV := some v, resv := none } (t.pc + 4) []

/-! ### Time (R401) -/

/-- TSREAD_NS. -/
def execTsreadNs (h : Nat) (s : State) : Out :=
  run (h < 128) s <| holRun h .tsNs s fun s t f =>
    let ns := nsOf (tbNow s)
    let sec := ns / 1000000000
    exeDone s { setX t (iRd f.w) (sec % 2 ^ 32 * 2 ^ 32 + ns % 1000000000) with tsHi := sec / 2 ^ 32 % 65536 } (t.pc + 4) []

/-- TSREAD_HI. -/
def execTsreadHi (h : Nat) (s : State) : Out :=
  run (h < 128) s <| holRun h .tsHi s fun s t f => exeDone s (setX t (iRd f.w) t.tsHi) (t.pc + 4) []

/-! ### Bulk instructions (R402) -/

/-- Bytes of the element at an address that runs to the next 64-byte boundary, of `left` bytes. -/
def element (a left : Nat) : Nat := min left (64 - a % 64)

/-- An element would touch the register window. -/
def inRegs (a n : Nat) : Bool := decide (a < 0x10000000) && decide (0x8000000 < a + n)

/-- An element of `n` bytes is done: the registers advance; the instruction retires when nothing is left. -/
def bulkStep (s : State) (t : Hart) (w n : Nat) (evs : List Nat) : Exe :=
  let left := t.x.getD (iRd w) 0 - n
  let u := { setX t (iRd w) left with bulk := left != 0 }
  if left = 0 then exeDone s u (t.pc + 4) (28 :: evs) else ⟨s, u, 28 :: evs, none, false⟩

/-- Nothing to do: the instruction completes at once. -/
def bulkNone (s : State) (t : Hart) : Exe := exeDone s { t with bulk := false } (t.pc + 4) []

/-- An element's load, refused in the register window. -/
def bulkLoad (s : State) (h : Nat) (t : Hart) (a n : Nat) : MemOut := if inRegs a n then noAccess s else thrLoad s h t a n

/-- An element's store, refused in the register window. -/
def bulkStore (s : State) (h : Nat) (t : Hart) (a : Nat) (b : List Byte) : MemOut :=
  if inRegs a b.length then noAccess s else thrStore s h t a b

/-- BCOPY: one element, read entirely before it is written. -/
def execBcopy (h : Nat) (s : State) : Out :=
  run (h < 128) s <| holRun h .bcopy s fun s t f =>
    let left := t.x.getD (iRd f.w) 0
    let dst := t.x.getD (iRs1 f.w) 0
    let src := t.x.getD (iRs2 f.w) 0
    let n := element dst left
    if left = 0 then bulkNone s t
    else
      let r := bulkLoad s h t src n
      match r.bytes with
      | none => exeTrap r.s t (r.cause.getD 5) src r.evs
      | some b =>
        let q := bulkStore r.s h t dst b
        match q.bytes with
        | none => exeTrap q.s t (q.cause.getD 7) dst (r.evs ++ q.evs)
        | some _ => bulkStep q.s (setX (setX t (iRs1 f.w) (dst + n)) (iRs2 f.w) (src + n)) f.w n (r.evs ++ q.evs)

/-- BFILL: one element; byte a mod 8 of the pattern goes to address a. -/
def execBfill (h : Nat) (s : State) : Out :=
  run (h < 128) s <| holRun h .bfill s fun s t f =>
    let left := t.x.getD (iRd f.w) 0
    let dst := t.x.getD (iRs1 f.w) 0
    let pat := toLE 8 (t.x.getD (iRs2 f.w) 0)
    let n := element dst left
    if left = 0 then bulkNone s t
    else
      let q := bulkStore s h t dst ((List.range n).map fun k => pat.getD ((dst + k) % 8) 0)
      match q.bytes with
      | none => exeTrap q.s t (q.cause.getD 7) dst q.evs
      | some _ => bulkStep q.s (setX t (iRs1 f.w) (dst + n)) f.w n q.evs

/-- BCRC: one element of the read address updates the state in rs2[31:0]. -/
def execBcrc (h : Nat) (s : State) : Out :=
  run (h < 128) s <| holRun h .bcrc s fun s t f =>
    let left := t.x.getD (iRd f.w) 0
    let src := t.x.getD (iRs1 f.w) 0
    let n := element src left
    if left = 0 then bulkNone s t
    else
      let r := bulkLoad s h t src n
      match r.bytes with
      | none => exeTrap r.s t (r.cause.getD 5) src r.evs
      | some b =>
        bulkStep r.s (setX (setX t (iRs1 f.w) (src + n)) (iRs2 f.w) (crcRun (t.x.getD (iRs2 f.w) 0 % 2 ^ 32) b)) f.w n r.evs

/-! ### Interrupts and debug (R394, R404) -/

/-- HART_INTERRUPT (R404): external before software before timer; a wait ends without consuming, mepc at its instruction. -/
def execHartInterrupt (h : Nat) (s : State) : Out :=
  run (h < 128) s <|
    let t := hartOf s h
    let pend := Nat.land (mipOf s h t) (csrOf t 0x304)
    if coreRuns s h = false ∨ (t.st ≠ .ready ∧ t.st ≠ .waitEvent ∧ t.st ≠ .waitJoin) ∨ pend = 0
        ∨ (t.user = false ∧ bit (csrOf t 0x300) mieBit = false) then s
    else
      let cause := if bit pend 11 then 11 else if bit pend 3 then 3 else 7
      account (putHart s h (trapTo t cause 0 true)) h t.user t.pc 0 false (if t.bulk then [29, 31] else [31])

/-- DEBUG_HALT (R394): the debug module halts a thread, or resumes it; a wait that was halted is executed again. -/
def execDebugHalt (h : Nat) (resume : Bool) (s : State) : Out :=
  run (h < 128) s <|
    let t := hartOf s h
    if s.boot.mgmtUp = false ∨ t.st = .idle then s
    else if resume then
      (if t.st = .halted then
        putHart s h { t with st := if t.was = .waitEvent ∨ t.was = .waitJoin then .ready else t.was, waitEnd := none }
      else s)
    else if t.st = .halted then s else putHart s h { t with st := .halted, was := t.st }

end Sys2Proof.Machine
end

