-- ==== Sys2Proof/Machine/Pages.lean ====
section
/-!
DEFINITION. The commands that are a write or a read of a register by a requester. Every write is `busWrite` at the register
the command names (`writeOf`); a command that names a bit (a GO, an enable) writes its value with that bit set (log entry 22).
-/
namespace Sys2Proof.Machine

/-- REGISTER_WRITE (R52-R54, R62). -/
def execRegisterWrite (req : Requester) (page off be : Nat) (v : Word) (s : State) : Out :=
  run (page < 32768 && off < 4096 && off % 4 == 0 && be < 16) s (commandWrite s (.registerWrite req page off be v))

/-- UNLOCK (R61). -/
def execUnlock (req : Requester) (page : Nat) (v : Word) (s : State) : Out :=
  run (page < 32768) s (commandWrite s (.unlock req page v))

/-- UPD_GROUP_WRITE (R59). -/
def execUpdGroupWrite (req : Requester) (page : Nat) (v : Word) (s : State) : Out :=
  run (page < 32768) s (commandWrite s (.updGroupWrite req page v))

/-- INJECT_WRITE (R58, R463, R464). -/
def execInjectWrite (req : Requester) (page : Nat) (v : Word) (s : State) : Out :=
  run (page < 32768) s (commandWrite s (.injectWrite req page v))

/-- MAILBOX_READ (R74): MBX_CTRL with GO = 1 and DIR = 0. -/
def execMailboxRead (req : Requester) (page : Nat) (v : Word) (s : State) : Out :=
  run (page < 32768) s (commandWrite s (.mailboxRead req page v))

/-- MAILBOX_WRITE (R74): MBX_CTRL with GO = 1 and DIR = 1. -/
def execMailboxWrite (req : Requester) (page : Nat) (v : Word) (s : State) : Out :=
  run (page < 32768) s (commandWrite s (.mailboxWrite req page v))

/-- STROBE_REQUEST (R67). -/
def execStrobeRequest (req : Requester) (v : Word) (s : State) : Out :=
  run true s (commandWrite s (.strobeRequest req v))

/-- PCS_LAYOUT_WRITE (R85, R86). -/
def execPcsLayoutWrite (req : Requester) (g : Nat) (v : Word) (s : State) : Out :=
  run (g < 48) s (commandWrite s (.pcsLayoutWrite req g v))

/-- TBL_CFG_WRITE (R144, R154). -/
def execTblCfgWrite (req : Requester) (sl : Nat) (t : Nat) (v : Word) (s : State) : Out :=
  run (sl < 8 && t < 16) s (commandWrite s (.tblCfgWrite req sl t v))

/-- CHK_CTL_GO (R270): CHK_CTL with GO = 1. -/
def execChkCtlGo (req : Requester) (sl : Nat) (v : Word) (s : State) : Out :=
  run (sl < 8) s (commandWrite s (.chkCtlGo req sl v))

/-- CONTAIN (R337): CH_CTL with CONTAIN = 1. -/
def execContain (req : Requester) (i : Nat) (v : Word) (s : State) : Out :=
  run (i < 192) s (commandWrite s (.contain req i v))

/-- TRAINING_RUN (R339): TRN_CTL with GO = 1. -/
def execTrainingRun (req : Requester) (i : Nat) (v : Word) (s : State) : Out :=
  run (i < 192) s (commandWrite s (.trainingRun req i v))

/-- IN_SERVICE (R336): CH_CTL with IN_SERVICE = 1. -/
def execInService (req : Requester) (i : Nat) (v : Word) (s : State) : Out :=
  run (i < 192) s (commandWrite s (.inService req i v))

/-- BURLAP_ENABLE (R336): BRL.CTL with EN = 1. -/
def execBurlapEnable (req : Requester) (v : Word) (s : State) : Out :=
  run true s (commandWrite s (.burlapEnable req v))

/-- LOG_CLR (R330): LOG_CLR with CLEAR = 1. -/
def execLogClr (req : Requester) (i : Nat) (v : Word) (s : State) : Out :=
  run (i < 192) s (commandWrite s (.logClr req i v))

/-- LOAD (R370): LOAD_CTL with GO = 1 and CANCEL = 0. -/
def execLoad (req : Requester) (v : Word) (s : State) : Out :=
  run true s (commandWrite s (.load req v))

/-- LOAD_CANCEL (R370): LOAD_CTL with GO = 1 and CANCEL = 1. -/
def execLoadCancel (req : Requester) (v : Word) (s : State) : Out :=
  run true s (commandWrite s (.loadCancel req v))

/-- EV_SIG (R403). -/
def execEvSig (req : Requester) (v : Word) (s : State) : Out :=
  run true s (commandWrite s (.evSig req v))

/-- CONTROL_PLANE_RESTART (R416): CL_CTL with RESTART = 1. -/
def execControlPlaneRestart (req : Requester) (v : Word) (s : State) : Out :=
  run true s (commandWrite s (.controlPlaneRestart req v))

/-- DMA_GO (R423): CH_CTL with GO = 1. -/
def execDmaGo (req : Requester) (c : Nat) (v : Word) (s : State) : Out :=
  run (c < 32) s (commandWrite s (.dmaGo req c v))

/-- DMA_STOP (R431): CH_CTL with STOP = 1. -/
def execDmaStop (req : Requester) (c : Nat) (v : Word) (s : State) : Out :=
  run (c < 32) s (commandWrite s (.dmaStop req c v))

/-- CH_TMO_WRITE (R429). -/
def execChTmoWrite (req : Requester) (c : Nat) (v : Word) (s : State) : Out :=
  run (c < 32) s (commandWrite s (.chTmoWrite req c v))

/-- HOST_BUNDLE_GO (R469): HOST_CTL with GO = 1. -/
def execHostBundleGo (req : Requester) (v : Word) (s : State) : Out :=
  run true s (commandWrite s (.hostBundleGo req v))

/-- MBX_CTRL_READ (R74): a read that returns VALID clears it; one with a byte enable clear returns zero (R52). -/
def execMbxCtrlRead (req : Requester) (r : PageRead) (s : State) : Out :=
  run (r.page < 32768 && r.be < 16) s (busRead s req r.page 0x34 r.be).2

/-- TIMESTAMP_FIFO_POP (R375): a mailbox read of TIM OBJ 0x03. -/
def execTimestampFifoPop (req : Requester) (v : Word) (s : State) : Out :=
  run true s (commandWrite s (.timestampFifoPop req v))

/-- PPS_CAPTURE_READ (R378): a mailbox read of TIM OBJ 0x02. -/
def execPpsCaptureRead (req : Requester) (v : Word) (s : State) : Out :=
  run true s (commandWrite s (.ppsCaptureRead req v))

/-- RECORD_SUBMIT (R390): a mailbox write of TEL page 1 OBJ 0x01 INDEX 1. -/
def execRecordSubmit (req : Requester) (sl : Nat) (v : Word) (s : State) : Out :=
  run (sl < 8) s (commandWrite s (.recordSubmit req sl v))

/-- LEARNING_MESSAGE_INJECT (R411): a mailbox write of cluster OBJ 0x05. -/
def execLearningMessageInject (req : Requester) (v : Word) (s : State) : Out :=
  run true s (commandWrite s (.learningMessageInject req v))

/-- TAP_STEP (R340): a mailbox write of the keyed HCH page 2 OBJ 0x16. -/
def execTapStep (req : Requester) (i : Nat) (v : Word) (s : State) : Out :=
  run (i < 192) s (commandWrite s (.tapStep req i v))

/-- A read of a counter that is spilled to a contained channel: no response comes (R337). -/
def counterLost (s : State) (page : Nat) (op : MbxOp) : Bool :=
  !op.write && (objAt page op.obj).any fun o => o.kind == .cnt && (List.range o.words).any fun w =>
    let h := Config.counterHome (objKey page op.obj op.idx w)
    h != 0 && (chansOf s (spillBase s + (h - 1)) 8).any fun i => chanState s i == 5 || chanState s i == 6

/-- The response of a page's mailbox operation can come now: before or at 100 µs, for an operation that waits once its target takes
it, and not for a counter that is lost. -/
def mbxMayEnd (s : State) (page : Nat) (op : MbxOp) : Bool :=
  decide (nowU s ≤ op.start * 16 + 100000 * 25) && !(op.todo && objWaits s page op.obj) && !counterLost s page op

/-- MAILBOX_COMPLETE (R76): the operation ends with VALID; one that waited for its target takes effect now. After 100 µs the
timeout has won. -/
def execMailboxComplete (page : Nat) (s : State) : Out :=
  run (page < 32768) s <|
    match storeFind s.pg.mbx page with
    | none => s
    | some op => if mbxMayEnd s page op then (let r := mbxTake s page op; mbxEnd r.2 page r.1 false) else s

/-- MAILBOX_TIMEOUT (R76): after 100 µs; a response that waits on this clock wins (R45). -/
def execMailboxTimeout (page : Nat) (s : State) : Out :=
  run (page < 32768) s <|
    match storeFind s.pg.mbx page with
    | none => s
    | some op =>
      if passedNs s op.start 100000 && !(mbxMayEnd s page op && s.pending.contains (.mailboxComplete page))
      then mbxEnd s page op true else s

/-- WARM_RESET (R479): WARM_N, or a keyed write of RESET_CTL with WARM = 1. -/
def execWarmReset (req : Requester) (pin : Bool) (v : Word) (s : State) : Out :=
  run true s (if pin then warmStart s else commandWrite s (.warmReset req false v))

end Sys2Proof.Machine
end

