-- ==== Sys2Proof/Machine/Dispatch.lean ====
section
/-!
DEFINITION. What each command does: one arm per command, each a direct call of its meaning.
-/
namespace Sys2Proof.Machine

/-- The effect of a command on everything but the queue. -/
def exec (i : Instr) (s : State) : Host.Outcome State Fault Refusal :=
  match i with
  | .registerWrite req page off be v => Sys2Proof.Machine.execRegisterWrite req page off be v s
  | .unlock req page v => Sys2Proof.Machine.execUnlock req page v s
  | .updGroupWrite req page v => Sys2Proof.Machine.execUpdGroupWrite req page v s
  | .injectWrite req page v => Sys2Proof.Machine.execInjectWrite req page v s
  | .mailboxRead req page v => Sys2Proof.Machine.execMailboxRead req page v s
  | .mailboxWrite req page v => Sys2Proof.Machine.execMailboxWrite req page v s
  | .mailboxComplete page => Sys2Proof.Machine.execMailboxComplete page s
  | .mailboxTimeout page => Sys2Proof.Machine.execMailboxTimeout page s
  | .mbxCtrlRead req r => Sys2Proof.Machine.execMbxCtrlRead req r s
  | .strobeRequest req v => Sys2Proof.Machine.execStrobeRequest req v s
  | .flip n => Sys2Proof.Machine.execFlip n s
  | .timedStrobeFire n => Sys2Proof.Machine.execTimedStrobeFire n s
  | .cfgCrcSweep => Sys2Proof.Machine.execCfgCrcSweep s
  | .pcsLayoutWrite req g v => Sys2Proof.Machine.execPcsLayoutWrite req g v s
  | .frameReceive p sub bytes => Sys2Proof.Machine.execFrameReceive p sub bytes s
  | .frameTail p bytes fcsOk => Sys2Proof.Machine.execFrameTail p bytes fcsOk s
  | .pauseFrame p quanta => Sys2Proof.Machine.execPauseFrame p quanta s
  | .pfcFrame p en quanta => Sys2Proof.Machine.execPfcFrame p en quanta s
  | .pauseExpiry p cls => Sys2Proof.Machine.execPauseExpiry p cls s
  | .pauseRepeat p => Sys2Proof.Machine.execPauseRepeat p s
  | .lpiEntry p => Sys2Proof.Machine.execLpiEntry p s
  | .lpiWake p => Sys2Proof.Machine.execLpiWake p s
  | .parkWindowEnd p => Sys2Proof.Machine.execParkWindowEnd p s
  | .parkReq p ver seq => Sys2Proof.Machine.execParkReq p ver seq s
  | .parkAck p ver seq => Sys2Proof.Machine.execParkAck p ver seq s
  | .parkNak p ver seq => Sys2Proof.Machine.execParkNak p ver seq s
  | .parkReady p ver seq => Sys2Proof.Machine.execParkReady p ver seq s
  | .wakeReq p ver seq => Sys2Proof.Machine.execWakeReq p ver seq s
  | .wakeReady p ver seq => Sys2Proof.Machine.execWakeReady p ver seq s
  | .parkDrainDone p => Sys2Proof.Machine.execParkDrainDone p s
  | .receiverRealigned p => Sys2Proof.Machine.execReceiverRealigned p s
  | .wakeCondition p => Sys2Proof.Machine.execWakeCondition p s
  | .wakeLanesLocked p => Sys2Proof.Machine.execWakeLanesLocked p s
  | .wakeTimeout p => Sys2Proof.Machine.execWakeTimeout p s
  | .wakeRetest p => Sys2Proof.Machine.execWakeRetest p s
  | .parkRto p => Sys2Proof.Machine.execParkRto p s
  | .linkLoss p => Sys2Proof.Machine.execLinkLoss p s
  | .linkUp p => Sys2Proof.Machine.execLinkUp p s
  | .codewordDecode p syms ok => Sys2Proof.Machine.execCodewordDecode p syms ok s
  | .fecWindowEnd p => Sys2Proof.Machine.execFecWindowEnd p s
  | .retrainStart p => Sys2Proof.Machine.execRetrainStart p s
  | .trainingAttemptEnd lane locked eye taps => Sys2Proof.Machine.execTrainingAttemptEnd lane locked eye taps s
  | .holdingBufferExit sl => Sys2Proof.Machine.execHoldingBufferExit sl s
  | .parseStep id => Sys2Proof.Machine.execParseStep id s
  | .parseEnd id => Sys2Proof.Machine.execParseEnd id s
  | .graphSweep => Sys2Proof.Machine.execGraphSweep s
  | .classify id => Sys2Proof.Machine.execClassify id s
  | .reloadAttempt page slot ok => Sys2Proof.Machine.execReloadAttempt page slot ok s
  | .radishScrub page entry differs => Sys2Proof.Machine.execRadishScrub page entry differs s
  | .bankSync page => Sys2Proof.Machine.execBankSync page s
  | .bankSyncEnd page => Sys2Proof.Machine.execBankSyncEnd page s
  | .oldReadersClear k => Sys2Proof.Machine.execOldReadersClear k s
  | .tblCfgWrite req sl t v => Sys2Proof.Machine.execTblCfgWrite req sl t v s
  | .forwardingLookup id => Sys2Proof.Machine.execForwardingLookup id s
  | .add chard => Sys2Proof.Machine.execAdd chard s
  | .delete chard => Sys2Proof.Machine.execDelete chard s
  | .clearTenant chard => Sys2Proof.Machine.execClearTenant chard s
  | .flushLearned => Sys2Proof.Machine.execFlushLearned s
  | .leekSync => Sys2Proof.Machine.execLeekSync s
  | .leekSyncEnd => Sys2Proof.Machine.execLeekSyncEnd s
  | .deferredApply => Sys2Proof.Machine.execDeferredApply s
  | .learn target => Sys2Proof.Machine.execLearn target s
  | .refresh target => Sys2Proof.Machine.execRefresh target s
  | .age target => Sys2Proof.Machine.execAge target s
  | .withdraw target => Sys2Proof.Machine.execWithdraw target s
  | .agingSweep k => Sys2Proof.Machine.execAgingSweep k s
  | .learnFilterExpiry k => Sys2Proof.Machine.execLearnFilterExpiry k s
  | .nhpHalfCopy k => Sys2Proof.Machine.execNhpHalfCopy k s
  | .portDownSet p => Sys2Proof.Machine.execPortDownSet p s
  | .portDownClear p => Sys2Proof.Machine.execPortDownClear p s
  | .resteer sl => Sys2Proof.Machine.execResteer sl s
  | .resteerJoin sl => Sys2Proof.Machine.execResteerJoin sl s
  | .police id => Sys2Proof.Machine.execPolice id s
  | .admissionVerdict id => Sys2Proof.Machine.execAdmissionVerdict id s
  | .keeperSweep sl => Sys2Proof.Machine.execKeeperSweep sl s
  | .carryEnd p cls => Sys2Proof.Machine.execCarryEnd p cls s
  | .chkCtlGo req sl v => Sys2Proof.Machine.execChkCtlGo req sl v s
  | .conservationCheck sl => Sys2Proof.Machine.execConservationCheck sl s
  | .stageATransfer sl => Sys2Proof.Machine.execStageATransfer sl s
  | .stageBTransfer lane => Sys2Proof.Machine.execStageBTransfer lane s
  | .imbalanceWindow sl => Sys2Proof.Machine.execImbalanceWindow sl s
  | .replicationPass id es => Sys2Proof.Machine.execReplicationPass id es s
  | .residueReexamine es => Sys2Proof.Machine.execResidueReexamine es s
  | .multicastResidueExpired it => Sys2Proof.Machine.execMulticastResidueExpired it s
  | .stagingFlush p cls => Sys2Proof.Machine.execStagingFlush p cls s
  | .spillWriteResponse id parity => Sys2Proof.Machine.execSpillWriteResponse id parity s
  | .prefetchReadIssue es => Sys2Proof.Machine.execPrefetchReadIssue es s
  | .prefetchReturn id back => Sys2Proof.Machine.execPrefetchReturn id back s
  | .externalReadTimeout it => Sys2Proof.Machine.execExternalReadTimeout it s
  | .mirrorRecordWrite => Sys2Proof.Machine.execMirrorRecordWrite s
  | .burlapRequest who addr len data => Sys2Proof.Machine.execBurlapRequest who addr len data s
  | .burlapCommandIssue ix pc => Sys2Proof.Machine.execBurlapCommandIssue ix pc s
  | .burlapResponse id back => Sys2Proof.Machine.execBurlapResponse id back s
  | .readRetry id errs => Sys2Proof.Machine.execReadRetry id errs s
  | .refpb ix pc bank all => Sys2Proof.Machine.execRefpb ix pc bank all s
  | .scrubRead ix atom => Sys2Proof.Machine.execScrubRead ix atom s
  | .contain req ix v => Sys2Proof.Machine.execContain req ix v s
  | .temperatureReport stack temp => Sys2Proof.Machine.execTemperatureReport stack temp s
  | .trainingRun req ix v => Sys2Proof.Machine.execTrainingRun req ix v s
  | .trainingRunDone ix errs => Sys2Proof.Machine.execTrainingRunDone ix errs s
  | .trainingTimeout ix => Sys2Proof.Machine.execTrainingTimeout ix s
  | .inService req ix v => Sys2Proof.Machine.execInService req ix v s
  | .burlapEnable req v => Sys2Proof.Machine.execBurlapEnable req v s
  | .logClr req ix v => Sys2Proof.Machine.execLogClr req ix v s
  | .tapStep req ix v => Sys2Proof.Machine.execTapStep req ix v s
  | .schedulerDecision p => Sys2Proof.Machine.execSchedulerDecision p s
  | .edtHalfCopy sl => Sys2Proof.Machine.execEdtHalfCopy sl s
  | .edtCopyEnd sl => Sys2Proof.Machine.execEdtCopyEnd sl s
  | .transmitEnd p => Sys2Proof.Machine.execTransmitEnd p s
  | .shaperRefill p q => Sys2Proof.Machine.execShaperRefill p q s
  | .hierarchicalExit p => Sys2Proof.Machine.execHierarchicalExit p s
  | .gateChange p => Sys2Proof.Machine.execGateChange p s
  | .queueFlushStep p q => Sys2Proof.Machine.execQueueFlushStep p q s
  | .queueSample g => Sys2Proof.Machine.execQueueSample g s
  | .load req v => Sys2Proof.Machine.execLoad req v s
  | .loadCancel req v => Sys2Proof.Machine.execLoadCancel req v s
  | .loadApply => Sys2Proof.Machine.execLoadApply s
  | .timestampFifoPop req v => Sys2Proof.Machine.execTimestampFifoPop req v s
  | .ppsOutEdge => Sys2Proof.Machine.execPpsOutEdge s
  | .ppsInEdge sub => Sys2Proof.Machine.execPpsInEdge sub s
  | .ppsInLost => Sys2Proof.Machine.execPpsInLost s
  | .ppsCaptureRead req v => Sys2Proof.Machine.execPpsCaptureRead req v s
  | .todSend => Sys2Proof.Machine.execTodSend s
  | .todReceive bytes => Sys2Proof.Machine.execTodReceive bytes s
  | .histogramWindowEnd sl => Sys2Proof.Machine.execHistogramWindowEnd sl s
  | .muslinRecordWrite => Sys2Proof.Machine.execMuslinRecordWrite s
  | .ledgerSnapshot sl => Sys2Proof.Machine.execLedgerSnapshot sl s
  | .recordSubmit req sl v => Sys2Proof.Machine.execRecordSubmit req sl v s
  | .wfe h => Sys2Proof.Machine.execWfe h s
  | .wfeWake h => Sys2Proof.Machine.execWfeWake h s
  | .wfeTimeout h => Sys2Proof.Machine.execWfeTimeout h s
  | .evsig h => Sys2Proof.Machine.execEvsig h s
  | .fork h => Sys2Proof.Machine.execFork h s
  | .joinW h => Sys2Proof.Machine.execJoinW h s
  | .joinX h => Sys2Proof.Machine.execJoinX h s
  | .tsreadNs h => Sys2Proof.Machine.execTsreadNs h s
  | .tsreadHi h => Sys2Proof.Machine.execTsreadHi h s
  | .bcopy h => Sys2Proof.Machine.execBcopy h s
  | .bfill h => Sys2Proof.Machine.execBfill h s
  | .bcrc h => Sys2Proof.Machine.execBcrc h s
  | .instructionRetire h => Sys2Proof.Machine.execInstructionRetire h s
  | .hartInterrupt h => Sys2Proof.Machine.execHartInterrupt h s
  | .evSig req v => Sys2Proof.Machine.execEvSig req v s
  | .clean h => Sys2Proof.Machine.execClean h s
  | .invalidate h => Sys2Proof.Machine.execInvalidate h s
  | .cleanAndInvalidate h => Sys2Proof.Machine.execCleanAndInvalidate h s
  | .clusterTimerExpiry ix => Sys2Proof.Machine.execClusterTimerExpiry ix s
  | .puntRecordWrite q => Sys2Proof.Machine.execPuntRecordWrite q s
  | .injectDescriptor q => Sys2Proof.Machine.execInjectDescriptor q s
  | .learningMessageInject req v => Sys2Proof.Machine.execLearningMessageInject req v s
  | .controlPlaneRestart req v => Sys2Proof.Machine.execControlPlaneRestart req v s
  | .clusterRestartDone => Sys2Proof.Machine.execClusterRestartDone s
  | .dmaGo req c v => Sys2Proof.Machine.execDmaGo req c v s
  | .dmaStop req c v => Sys2Proof.Machine.execDmaStop req c v s
  | .descriptorFetch c bytes late => Sys2Proof.Machine.execDescriptorFetch c bytes late s
  | .dmaBurst c => Sys2Proof.Machine.execDmaBurst c s
  | .dmaReadCompletion c bytes late => Sys2Proof.Machine.execDmaReadCompletion c bytes late s
  | .dmaCompletionTimeout c => Sys2Proof.Machine.execDmaCompletionTimeout c s
  | .tableRecordWrite c => Sys2Proof.Machine.execTableRecordWrite c s
  | .chainEnd c => Sys2Proof.Machine.execChainEnd c s
  | .chTmoWrite req c v => Sys2Proof.Machine.execChTmoWrite req c v s
  | .transmitDescriptor pr => Sys2Proof.Machine.execTransmitDescriptor pr s
  | .perrunAck p bytes => Sys2Proof.Machine.execPerrunAck p bytes s
  | .perrunHello p bytes => Sys2Proof.Machine.execPerrunHello p bytes s
  | .perrunLearn p bytes => Sys2Proof.Machine.execPerrunLearn p bytes s
  | .perrunAge p bytes => Sys2Proof.Machine.execPerrunAge p bytes s
  | .perrunWithdraw p bytes => Sys2Proof.Machine.execPerrunWithdraw p bytes s
  | .perrunProt p bytes => Sys2Proof.Machine.execPerrunProt p bytes s
  | .perrunTelem p bytes => Sys2Proof.Machine.execPerrunTelem p bytes s
  | .perrunEpoch p bytes => Sys2Proof.Machine.execPerrunEpoch p bytes s
  | .retransmit id => Sys2Proof.Machine.execRetransmit id s
  | .messageDeadline id => Sys2Proof.Machine.execMessageDeadline id s
  | .helloSend => Sys2Proof.Machine.execHelloSend s
  | .routeDown peer rt => Sys2Proof.Machine.execRouteDown peer rt s
  | .ackOnly peer pr => Sys2Proof.Machine.execAckOnly peer pr s
  | .containmentComplete n => Sys2Proof.Machine.execContainmentComplete n s
  | .autoWarm => Sys2Proof.Machine.execAutoWarm s
  | .warmReset req pin v => Sys2Proof.Machine.execWarmReset req pin v s
  | .warmResetComplete => Sys2Proof.Machine.execWarmResetComplete s
  | .porNAssert => Sys2Proof.Machine.execPorNAssert s
  | .porNRelease => Sys2Proof.Machine.execPorNRelease s
  | .fuseSense ok code mv0 mv1 => Sys2Proof.Machine.execFuseSense ok code mv0 mv1 s
  | .rootPllLock => Sys2Proof.Machine.execRootPllLock s
  | .pllLockTimeout => Sys2Proof.Machine.execPllLockTimeout s
  | .pllLossOfLock which => Sys2Proof.Machine.execPllLossOfLock which s
  | .dieLinkReplay => Sys2Proof.Machine.execDieLinkReplay s
  | .dieLinkFailure => Sys2Proof.Machine.execDieLinkFailure s
  | .thermalSensorPass tj => Sys2Proof.Machine.execThermalSensorPass tj s
  | .coreRailFault => Sys2Proof.Machine.execCoreRailFault s
  | .flashDirectoryRead bytes => Sys2Proof.Machine.execFlashDirectoryRead bytes s
  | .containerCheck src bytes keyOk sigOk tagOk => Sys2Proof.Machine.execContainerCheck src bytes keyOk sigOk tagOk s
  | .hostBundleGo req v => Sys2Proof.Machine.execHostBundleGo req v s
  | .dataPlaneRelease => Sys2Proof.Machine.execDataPlaneRelease s
  | .limitedModeEntry => Sys2Proof.Machine.execLimitedModeEntry s
  | .graveLatchClear => Sys2Proof.Machine.execGraveLatchClear s
  | .perstN => Sys2Proof.Machine.execPerstN s
  | .smbusBlockRead code => Sys2Proof.Machine.execSmbusBlockRead code s
  | .smbusWrite bytes => Sys2Proof.Machine.execSmbusWrite bytes s
  | .smbusTimeout => Sys2Proof.Machine.execSmbusTimeout s
  | .lossOfBlockLock p lane cdr => Sys2Proof.Machine.execLossOfBlockLock p lane cdr s
  | .blockLockAcquired p => Sys2Proof.Machine.execBlockLockAcquired p s
  | .remoteFaultReceived p on => Sys2Proof.Machine.execRemoteFaultReceived p on s
  | .dieLinkReplayEnd => Sys2Proof.Machine.execDieLinkReplayEnd s
  | .pcieLinkDown => Sys2Proof.Machine.execPcieLinkDown s
  | .pcieLinkUp gen width replay => Sys2Proof.Machine.execPcieLinkUp gen width replay s
  | .d3hotEntry => Sys2Proof.Machine.execD3hotEntry s
  | .debugHalt h resume => Sys2Proof.Machine.execDebugHalt h resume s

end Sys2Proof.Machine
end

