-- ==== Sys2Proof/Machine/Step.lean ====
section
/-!
DEFINITION. A step of the block: the command at the front of the queue, or with an empty queue one core clock (log entry 2).
-/
namespace Sys2Proof.Machine

/-- The waiting commands replaced. -/
def State.withPending (s : State) (q : List Instr) : State := { s with pending := q }

/-- What ends with a core clock: timed strobes whose flip waits (R72), the mirror record the writer takes (R309), the room the lanes
announce (R279), the occupancies of stage A (R285), histogram windows (R382), entries that find the timestamp FIFO full (R375). -/
def clockEnds (s : State) : State := fifoTick (windowTick (occTick (roomTick (mirrorTick (lateTick s)))))

/-- What begins with a core clock: containments act (R456), flowlet buckets move (R285), Burlap accepts requests (R322), cells leave
the edit (R296), holds end (R353), MEM_LOST results wait no longer (R187), DMA starts and stops (R423, R431), counters of CLK_CTL
cycles (R412), and what the block remembers of one clock alone. -/
def clockStarts (s : State) : State :=
  clockBegins (perfTick (dmaTick (lostTick (holdTick (sendTick (burlapTick (flowTick (containTick s))))))))

/-- One core clock, whatever is commanded: slice event 0 (R414) and what ends and begins with it. -/
def tick (s : State) : State :=
  let t := { clockEnds s with clk := s.clk + 1 }
  let e := if t.boot.mgmtUp then (List.range 8).foldl (fun a sl => sliceEvt a sl 0) t else t
  { clockStarts e with pending := s.pending, clk := s.clk + 1 }

/-- One step. -/
def step (s : State) : Host.Outcome State Fault Refusal :=
  match s.pending with
  | [] => .next (tick s)
  | c :: rest => exec c (s.withPending rest)

/-- A command the word spells, put at the front of the queue. -/
def State.withFetchWord (s : State) (nbits w : Nat) : State :=
  match decodeTableWord nbits w with
  | some c => s.withPending (c :: s.pending)
  | none => s

end Sys2Proof.Machine
end

