-- ==== Sys2Proof/Safety.lean ====
section
/-!
DEFINITION. What counts as a safe run: no step stops. A step stops only at a command whose operands name what the device does
not have, so a state is safe when every waiting command is well formed; and the memories keep their canonical form.
-/
namespace Sys2Proof.Machine

/-- Every waiting command is well formed. -/
def State.queueWf (s : State) : Prop := ∀ c ∈ s.pending, c.wf = true

/-- A step answers a next state. -/
def goesOn (s : State) : Prop := ∃ t, step s = .next t

/-- The memories are in canonical form: Holtarun's bytes and Burlap's words. -/
def State.memWf (s : State) : Prop := Memory.wf s.hol.mem = true ∧ Memory.wf s.hbm.mem = true

end Sys2Proof.Machine
end

