-- ==== Sys2Proof/Certificates/Slice0/Obligations.lean ====
section
/-!
DEFINITION. The statements for the provers. Each names what it states; `t` (or `v`) is the next state a command answers. Where an
effect is given by one of the model's named operations, the clause says so, and other statements say what that operation does.
-/
open Sys2Proof Sys2Proof.Machine

/-- R24 and the block's form: a step with a command at the front of the queue is that command's effect on the state with the queue's rest
(log entry 1). -/
def Obligations.StepTakesFront : Prop :=  ∀ (s : State) (c : Instr) (rest : List Instr), step (s.withPending (c :: rest)) = exec c (s.withPending rest)

/-- An empty queue: one core clock passes and the queue stays empty (the model's choice, log entry 2). The block never stops: from every
state whose waiting commands are well formed, as many steps as commands wait (or more) run to a next state, after which no command
waits, and every step beyond them is one core clock (log entries 1 and 2). -/
def Obligations.QueueRunsEmpty : Prop :=
  (∀ s : State, s.pending = [] → ∃ t, step s = .next t ∧ t.clk = s.clk + 1 ∧ t.pending = [])
  ∧ (∀ (n : Nat) (s : State), s.queueWf →
       ∃ t, Sys2Proof.core.run (s.pending.length + n) s = .next t ∧ t.pending = [] ∧ t.clk = s.clk + n)

/-- Every well-formed command answers a next state that leaves the queue and the core clock as they were; every other command stops with
`noSuchInstance` (the model's form, log entries 1 and 3). -/
def Obligations.WellFormedCompletes : Prop :=  ∀ (c : Instr) (s : State),
    (c.wf = true → ∃ t, exec c s = .next t ∧ t.pending = s.pending ∧ t.clk = s.clk)
    ∧ (c.wf = false → exec c s = .fault .noSuchInstance)

/-- An invariant of every step: a state whose waiting commands are well formed answers a next state, and its waiting commands are well
formed again (log entry 1). -/
def Obligations.StepKeepsQueueWf : Prop :=  ∀ s : State, s.queueWf → ∃ t, step s = .next t ∧ t.queueWf

/-- An invariant of every step: both memories keep their canonical form, so that equal memories are equal data (log entry 6). -/
def Obligations.StepKeepsMemories : Prop :=  ∀ s t : State, s.memWf → step s = .next t → t.memWf

/-- The invariants hold at reset: no command waits, and both memories are in canonical form. What reset leaves by Tables 2-3 to 2-23 and
R466: every page locked, no mailbox in use, no flip waiting, FAULT_N released, the planes not running; `SEV_MAP0` and `UPD_GROUP` of
some pages as Tables 16-2 and 2-1 give them; every queue idle. -/
def Obligations.ResetLeaves : Prop :=
  (State.reset.queueWf ∧ State.reset.memWf)
  ∧ ((∀ req page, isUnlocked State.reset req page = false) ∧ (∀ page, storeFind State.reset.pg.mbx page = none)
     ∧ (∀ g, groupPending State.reset g = false) ∧ State.reset.flt.faultN = false ∧ State.reset.boot.mgmtUp = false
     ∧ State.reset.boot.dpUp = false ∧ (∀ page, page < 32768 → pageReady State.reset page = false)
     ∧ groupOf State.reset (pageOf .adm 3 2) = 9 ∧ groupOf State.reset (pageOf .pcs 47 0) = 1
     ∧ (∀ port c, (queue State.reset port c).idle = true) ∧ (∀ b i pn obj idx c, count State.reset b i pn obj idx c = 0))

/-- R60, R61: a write to UNLOCK unlocks the page for its requester when it carries the key, else locks it; no other lock and nothing else
changes. R54: where a host write of a register waits on the clock of a Holtarun write of it, the host's is done first and is not done
again at its own turn. R52: REGISTER_WRITE completes without effect where R52 gives it none: a write to a page that is not READY, or by
the host while its link is down, is ignored: nothing changes. One with a byte enable clear to a page that is READY is the requester's
next write, so it re-arms its lock (R61), and nothing else changes. Concludes that exec answers a next state for: .registerWrite,
.unlock. -/
def Obligations.UnlockAndIgnoredWrites : Prop :=
  (∀ (req : Requester) (page : Nat) (v : Word) (s : State),
       page < 32768 → reqHere s req = true → pageReady s page = true → busFree s req page 0x28 = true →
       ∃ t, exec (.unlock req page v) s = .next t ∧ t = { s with pg := { s.pg with unlocked := t.pg.unlocked } }
         ∧ isUnlocked t req page = (v.toNat % 65536 == 0x6B7A)
         ∧ ∀ q p, (q, p) ≠ (req, page) → isUnlocked t q p = isUnlocked s q p)
  ∧ (∀ (page off : Nat) (v w : Word) (s t : State), page < 32768 → off < 4096 → off % 4 = 0 → s.pg.early = 0 →
       hostAhead page off s.pending = [.registerWrite .host page off 15 w] →
       exec (.registerWrite .host page off 15 w) s = .next t →
       exec (.registerWrite .holtarun page off 15 v) s
           = exec (.registerWrite .holtarun page off 15 v) { t with pg := { t.pg with early := 1 } }
       ∧ ∀ u : State, 0 < u.pg.early →
           exec (.registerWrite .host page off 15 w) u = .next { u with pg := { u.pg with early := u.pg.early - 1 } })
  ∧ (∀ (req : Requester) (page off be : Nat) (v : Word) (s : State),
       page < 32768 → off < 4096 → off % 4 = 0 → be < 16 → busFree s req page off = true →
       (pageReady s page = false ∨ reqHere s req = false → exec (.registerWrite req page off be v) s = .next s)
       ∧ (pageReady s page = true → reqHere s req = true → be ≠ 15 →
           ∃ t, exec (.registerWrite req page off be v) s = .next t ∧ t = { s with pg := { s.pg with unlocked := t.pg.unlocked } }
             ∧ isUnlocked t req page = false ∧ ∀ q p, (q, p) ≠ (req, page) → isUnlocked t q p = isUnlocked s q p))

/-- R61, R62, R53: REGISTER_WRITE completes. For a register of a block whose registers do nothing beside holding their fields (PRS, RDH,
EDT, ADM, GZE, BPM, TEL, TWL): the write re-arms the requester's lock and no other; a reserved encoding in a field leaves every field;
otherwise the active word takes the RW, W1C and (on an unlocked page) KY fields, the shadow word the SH fields, and every other word of
both copies and every other part of the state stays. Concludes that exec answers a next state for: .registerWrite. -/
def Obligations.RegisterTakesFields : Prop :=  ∀ (req : Requester) (page off : Nat) (v : Word) (s : State) (r : DirRow) (g : Reg × Nat),
    page < 32768 → off < 4096 → off % 4 = 0 → 0x100 ≤ off → reqHere s req = true → pageReady s page = true →
    busFree s req page off = true →
    pageRow page = some r → r.blk ∈ [Blk.prs, .rdh, .edt, .adm, .gze, .bpm, .tel, .twl] →
    regThere page off = true → regAt page off = some g →
    ∃ t, exec (.registerWrite req page off 15 v) s = .next t
      ∧ t = { s with cfg := { s.cfg with act := t.cfg.act, shd := t.cfg.shd }, pg := { s.pg with unlocked := t.pg.unlocked } }
      ∧ isUnlocked t req page = false
      ∧ (∀ q p, (q, p) ≠ (req, page) → isUnlocked t q p = isUnlocked s q p)
      ∧ (reservedIn g.1.flds v.toNat = true → t.cfg = s.cfg)
      ∧ (reservedIn g.1.flds v.toNat = false →
          actW t (regKey page off)
            = BitVec.ofNat 32 (writeWord g.1.flds (isUnlocked s req page) (actW s (regKey page off)).toNat v.toNat)
          ∧ (∀ k, k ≠ regKey page off → actW t k = actW s k)
          ∧ (∀ k, k ≠ regKey page off → storeFind t.cfg.shd k = storeFind s.cfg.shd k)
          ∧ (g.1.flds.any (fun f => f.acc == .sh) = true → groupPending s (groupOf s page) = false →
              storeFind t.cfg.shd (regKey page off)
                = some (BitVec.ofNat 32 (shadowWord g.1.flds
                    (shdW s (regKey page off)).toNat v.toNat)))
          ∧ (groupPending s (groupOf s page) = true → t.cfg.shd = s.cfg.shd))

/-- R59: while no flip of its group waits, its shadow holds nothing and (on a data-plane page) its group's earlier epoch is not referenced,
UPD_GROUP_WRITE completes and the page is in the group written; else the write leaves the page's group. It changes that register, the
lock and, where the page moves, the words kept for the earlier epoch, and nothing else. R58, R61: on an unlocked page, INJECT_WRITE
that names a source that takes injections, with a MODE that is not reserved, completes with the injection armed: SRC, MODE and COUNT
hold what was written, the page is locked again and nothing else changes. On a locked page it changes nothing but the lock state (R52).
Concludes that exec answers a next state for: .updGroupWrite, .injectWrite. -/
def Obligations.HeaderRegisters : Prop :=
  (∀ (req : Requester) (page : Nat) (v : Word) (s : State),
       page < 32768 → reqHere s req = true → pageReady s page = true → busFree s req page 0x24 = true →
       ∃ t, exec (.updGroupWrite req page v) s = .next t
         ∧ t = { s with cfg := { s.cfg with act := t.cfg.act, old := t.cfg.old }, pg := { s.pg with unlocked := t.pg.unlocked }
                        tbl := { s.tbl with leekO := t.tbl.leekO } }
         ∧ (∀ k, k ≠ regKey page 0x24 → actW t k = actW s k)
         ∧ (groupPending s (groupOf s page) = false ∧ pageDirty s page = false
               ∧ (isDP page = true → epochRefs s (groupOf s page) = 0) →
             groupOf t page = v.toNat % 16)
         ∧ (groupPending s (groupOf s page) = true ∨ pageDirty s page = true
               ∨ (isDP page = true ∧ 0 < epochRefs s (groupOf s page)) →
             groupOf t page = groupOf s page))
  ∧ (∀ (req : Requester) (page : Nat) (v : Word) (s : State),
       page < 32768 → reqHere s req = true → pageReady s page = true → busFree s req page 0x20 = true →
       (∃ x, (pageSrcs page)[v.toNat % 16]? = some x ∧ x.inj = true) →
       (v.toNat / 16 % 4 ≠ 3) → (v.toNat / 16 % 4 = 2 → v.toNat / 256 % 65536 ≠ 0) →
       ∃ t, exec (.injectWrite req page v) s = .next t
         ∧ t = { s with cfg := { s.cfg with act := t.cfg.act }, pg := { s.pg with unlocked := t.pg.unlocked } }
         ∧ isUnlocked t req page = false ∧ (∀ k, k ≠ regKey page 0x20 → actW t k = actW s k)
         ∧ (isUnlocked s req page = true →
             (actW t (regKey page 0x20)).toNat % 16 = v.toNat % 16
             ∧ (actW t (regKey page 0x20)).toNat / 16 % 4 = v.toNat / 16 % 4
             ∧ (actW t (regKey page 0x20)).toNat / 256 % 65536 = v.toNat / 256 % 65536)
         ∧ (isUnlocked s req page = false → actW t (regKey page 0x20) = actW s (regKey page 0x20)))

/-- R74, R75, R63: MAILBOX_READ and MAILBOX_WRITE with a GO that is not reserved complete with the operation begun: the mailbox is in use
by the requester from this clock, reading or writing as the command says, with the words LEN names, on the object MBX_ADDR names; it
waits only while its target accepts none. A write of a keyed object needs the unlocked page. R75: a GO that names no operation, and one
written while BUSY, starts nothing: the mailboxes in use are as before. Concludes that exec answers a next state for: .mailboxRead,
.mailboxWrite. -/
def Obligations.MailboxStarts : Prop :=
  (∀ (req : Requester) (page : Nat) (v : Word) (s : State),
       page < 32768 → reqHere s req = true → pageReady s page = true → busFree s req page 0x34 = true →
       storeFind s.pg.mbx page = none →
       (goBad s page (withBits v 1 0 1).toNat = false →
         ∃ t op, exec (.mailboxRead req page v) s = .next t ∧ storeFind t.pg.mbx page = some op
           ∧ op.owner = req ∧ op.write = false ∧ op.words = v.toNat / 16 % 16 + 1 ∧ op.start = s.clk
           ∧ op.obj = (actW s (regKey page 0x30)).toNat / 2 ^ 24 ∧ op.idx = (actW s (regKey page 0x30)).toNat % 2 ^ 24
           ∧ op.todo = objWaits s page op.obj)
       ∧ (goBad s page (withBits v 1 0 3).toNat = false →
         (objKeyed page ((actW s (regKey page 0x30)).toNat / 2 ^ 24) = true → isUnlocked s req page = true) →
         ∃ t op, exec (.mailboxWrite req page v) s = .next t ∧ storeFind t.pg.mbx page = some op
           ∧ op.owner = req ∧ op.write = true ∧ op.words = v.toNat / 16 % 16 + 1 ∧ op.start = s.clk
           ∧ op.obj = (actW s (regKey page 0x30)).toNat / 2 ^ 24 ∧ op.idx = (actW s (regKey page 0x30)).toNat % 2 ^ 24
           ∧ op.todo = objWaits s page op.obj
           ∧ op.data = (List.range (v.toNat / 16 % 16 + 1)).map fun k => actW s (regKey page (0x40 + 4 * k))))
  ∧ (∀ (req : Requester) (page : Nat) (v : Word) (s : State), page < 32768 → busFree s req page 0x34 = true →
       (goBad s page (withBits v 1 0 1).toNat = true ∨ (storeFind s.pg.mbx page).isSome = true) →
       ∃ t, exec (.mailboxRead req page v) s = .next t
         ∧ t = { s with cfg := { s.cfg with act := t.cfg.act }, pg := { s.pg with unlocked := t.pg.unlocked } })

/-- R76: MAILBOX_COMPLETE within 100 µs of the operation's start ends it: the mailbox is free, VALID is set, BUSY and TIMEOUT are clear.
Where the operation had met its target already, a read's words are in the data registers and nothing else changes. R76, R45:
MAILBOX_TIMEOUT completes: an operation not complete after 100 µs ends with VALID and TIMEOUT, and the data words are zero; a response
that can come and waits on that clock wins. Table 2-15: MBX_CTRL_READ completes: a read of MBX_CTRL that returns VALID clears it, and
changes nothing else; one with a byte enable clear changes nothing (R52). Concludes that exec answers a next state for:
.mailboxComplete, .mailboxTimeout, .mbxCtrlRead. -/
def Obligations.MailboxEnds : Prop :=
  (∀ (page : Nat) (s : State) (op : MbxOp), page < 32768 → storeFind s.pg.mbx page = some op →
       nowU s ≤ op.start * 16 + 2500000 → (op.todo = true → objWaits s page op.obj = false) → counterLost s page op = false →
       ∃ t, exec (.mailboxComplete page) s = .next t
         ∧ storeFind t.pg.mbx page = none ∧ (actW t (regKey page 0x34)).toNat / 256 % 8 = 1
         ∧ (op.todo = false →
             t = { s with cfg := { s.cfg with act := t.cfg.act }, pg := { s.pg with mbx := t.pg.mbx } }
             ∧ (∀ p, p ≠ page → storeFind t.pg.mbx p = storeFind s.pg.mbx p)
             ∧ (op.write = false → op.words ≤ 16 → ∀ n, n < op.words → actW t (regKey page (0x40 + 4 * n)) = op.data.getD n 0)))
  ∧ (∀ (page : Nat) (s : State) (op : MbxOp), page < 32768 → storeFind s.pg.mbx page = some op →
       op.start * 16 + 2500000 ≤ nowU s →
       (mbxMayEnd s page op = false ∨ Instr.mailboxComplete page ∉ s.pending →
         ∃ t, exec (.mailboxTimeout page) s = .next t
           ∧ t = { s with cfg := { s.cfg with act := t.cfg.act }, pg := { s.pg with mbx := t.pg.mbx } }
           ∧ storeFind t.pg.mbx page = none ∧ (actW t (regKey page 0x34)).toNat / 256 % 8 = 5
           ∧ ∀ n, n < 16 → actW t (regKey page (0x40 + 4 * n)) = 0)
       ∧ (mbxMayEnd s page op = true → Instr.mailboxComplete page ∈ s.pending → exec (.mailboxTimeout page) s = .next s))
  ∧ (∀ (req : Requester) (page be : Nat) (s : State), page < 32768 → be < 16 → reqHere s req = true → pageReady s page = true →
       ∃ t, exec (.mbxCtrlRead req ⟨page, be⟩) s = .next t ∧ t = { s with cfg := { s.cfg with act := t.cfg.act } }
         ∧ (∀ k, k ≠ regKey page 0x34 → actW t k = actW s k)
         ∧ (be = 15 → (actW t (regKey page 0x34)).toNat / 256 % 2 = 0)
         ∧ (be ≠ 15 → t = s)
         ∧ (actW t (regKey page 0x34)).toNat / 512 = (actW s (regKey page 0x34)).toNat / 512
         ∧ (actW t (regKey page 0x34)).toNat % 256 = (actW s (regKey page 0x34)).toNat % 256)

/-- R66, R67: STROBE_REQUEST completes: every group it names, and every group that waited before, has a flip pending from its clock on, and
no other. (Every waiting flip names the groups of the requests it came from: the premise.) R66, R69: requests for one set of groups on
one clock are one; other flips a request meets merge into one: after it, at most one waiting flip names any of its groups, provided no
two did before, and that flip names all of them. Concludes that exec answers a next state for: .strobeRequest. -/
def Obligations.StrobesPend : Prop :=
  (∀ (req : Requester) (v : Word) (s : State), reqHere s req = true → pageReady s 0 = true → busFree s req 0 0x110 = true →
       (∀ f ∈ s.pg.flips, ∀ r ∈ f.reqs, Nat.land f.groups r.1 = r.1) →
       ∃ t, exec (.strobeRequest req v) s = .next t ∧ t = { s with cfg := t.cfg, pg := t.pg }
         ∧ ∀ g, g < 16 → groupPending t g = (groupPending s g || bit v.toNat g))
  ∧ (∀ (mask ready : Nat) (timed : Option Nat) (s : State), mask % 65536 ≠ 0 →
       (∀ f ∈ s.pg.flips, ∀ r ∈ f.reqs, Nat.land f.groups r.1 = r.1) →
       (s.pg.flips.Pairwise fun a b => Nat.land a.groups b.groups = 0) →
       ((strobe s mask ready timed).pg.flips.Pairwise fun a b => Nat.land a.groups b.groups = 0)
       ∧ ∃ f ∈ (strobe s mask ready timed).pg.flips,
           Nat.land f.groups (mask % 65536) = mask % 65536 ∧ ready ≤ f.ready ∧ (mask % 65536, s.clk) ∈ f.reqs)

/-- R64, R65: after the copy of a flip of the groups of a mask, every word of a page in those groups is what its shadow held (a register's
SH fields; an object's whole word), every other word is as before, no page of the groups has a shadow left, and a data-plane page keeps
each replaced word for the heads of the previous epoch. R70, R42: what a flip does to the groups it names beside the copy: CUR advances
by 1 modulo 256, the group's line is pulsed once and the clock is kept; every other group stays. Of the packets only the epochs change. -/
def Obligations.FlipCopies : Prop :=
  (∀ (s : State) (mask : Nat), storeSorted s.cfg.shd = true →
       (∀ k, inMask s mask (keyPage k) = true →
         (∀ w, storeFind s.cfg.shd k = some w → actW (after s mask) k = flipWord s k w)
         ∧ (storeFind s.cfg.shd k = none → actW (after s mask) k = actW s k)
         ∧ storeFind (after s mask).cfg.shd k = none
         ∧ (isDP (keyPage k) = true → oldW (after s mask) k = actW s k))
       ∧ ∀ k, inMask s mask (keyPage k) = false →
         actW (after s mask) k = actW s k ∧ storeFind (after s mask).cfg.shd k = storeFind s.cfg.shd k)
  ∧ (∀ (s : State) (mask g : Nat), g < 16 →
       let t := (List.range 16).foldl (groupFlip mask) s
       (bit mask g = true → fget t glbEpochStatCur 0 g = (fget s glbEpochStatCur 0 g + 1) % 256
         ∧ storeGet 0 t.ev g = min 65535 (storeGet 0 s.ev g + 1) ∧ storeFind t.pg.flipAt g = some s.clk)
       ∧ (bit mask g = false → fget t glbEpochStatCur 0 g = fget s glbEpochStatCur 0 g ∧ storeGet 0 t.ev g = storeGet 0 s.ev g)
       ∧ t.net = { s.net with pkts := t.net.pkts } ∧ t.net.pkts.map (·.id) = s.net.pkts.map (·.id)
       ∧ t.tbl = s.tbl ∧ t.pg.flips = s.pg.flips)

/-- R68, R43: FLIP completes. A waiting flip whose groups hold no referenced old epoch, and held none as the clock began, and whose delay
has passed, is taken at once for all its groups; until then it changes nothing. R72, R78: TIMED_STROBE_FIRE completes: an armed timed
strobe whose time has come clears ARM, sets FIRED and asks for the flip of its mask. CFG_CRC_SWEEP completes: a sweep of the
configuration CRC ends a millisecond after it began and the next begins. Concludes that exec answers a next state for: .flip,
.timedStrobeFire, .cfgCrcSweep. -/
def Obligations.FlipsAreTaken : Prop :=
  (∀ (n : Nat) (f : FlipReq) (s : State), n < 16 → s.boot.mgmtUp = true → s.pg.flips[n]? = some f →
       ((f.ready ≤ s.clk ∧ ∀ g, g < 16 → bit f.groups g = true → g ∉ s.pg.held ∧ epochRefs s g = 0) →
         ∃ t, exec (.flip n) s = .next t
           ∧ t = { flipAll f.groups { s with pg := { s.pg with flips := s.pg.flips.eraseIdx n } } with
                   pending := s.pending, clk := s.clk })
       ∧ ((s.clk < f.ready ∨ ∃ g, g < 16 ∧ bit f.groups g = true ∧ (g ∈ s.pg.held ∨ 0 < epochRefs s g)) →
         exec (.flip n) s = .next s))
  ∧ (∀ (s : State),
       (∀ n, n < 4 → s.boot.mgmtUp = true → fget s glbTstrobeCtlArm 0 n = 1 → tstrobeNs s n * 10 ≤ tbNow s →
           (∀ f ∈ s.pg.flips, ∀ r ∈ f.reqs, Nat.land f.groups r.1 = r.1) →
         ∃ t, exec (.timedStrobeFire n) s = .next t ∧ t = { s with cfg := t.cfg, pg := { s.pg with flips := t.pg.flips } }
           ∧ fget t glbTstrobeCtlArm 0 n = 0 ∧ fget t glbTstrobeCtlFired 0 n = 1
           ∧ ∀ g, g < 16 → bit (fget s glbTstrobeCtlMask 0 n) g = true → groupPending t g = true)
       ∧ (passedNs s s.pg.sweepAt 1000000 = true → ∃ t, exec .cfgCrcSweep s = .next t ∧ t.pg.sweepAt = s.clk))

/-- R403: EV_SIG completes: the write pulses the line it names when that is a software line (192-255), and does nothing for another. R270:
CHK_CTL_GO completes with a conservation check of the slice asked for at this clock. R330: LOG_CLR completes with the error log of the
channel and its LOST count empty. Concludes that exec answers a next state for: .chkCtlGo, .logClr, .evSig. -/
def Obligations.RegisterCommands : Prop :=
  (∀ (req : Requester) (v : Word) (s : State), reqHere s req = true → pageReady s (pageOf .holx 16 0) = true →
       busFree s req (pageOf .holx 16 0) 0x108 = true →
       ∃ t, exec (.evSig req v) s = .next t ∧ t = { s with cfg := t.cfg, pg := t.pg, ev := t.ev }
         ∧ (∀ k, actW t k = actW s k)
         ∧ (192 ≤ v.toNat % 256 → storeGet 0 t.ev (v.toNat % 256) = min 65535 (storeGet 0 s.ev (v.toNat % 256) + 1)
             ∧ ∀ l, l ≠ v.toNat % 256 → storeGet 0 t.ev l = storeGet 0 s.ev l)
         ∧ (v.toNat % 256 < 192 → t.ev = s.ev))
  ∧ (∀ (req : Requester) (sl : Nat) (v : Word) (s : State), sl < 8 → reqHere s req = true →
       pageReady s (pageOf .lgr sl 0) = true → busFree s req (pageOf .lgr sl 0) 0x100 = true →
       ∃ t c, exec (.chkCtlGo req sl v) s = .next t
         ∧ t = { s with cfg := t.cfg, pg := t.pg, net := { s.net with checks := s.net.checks ++ [c] } } ∧ c.slice = sl ∧ c.trig = 3)
  ∧ (∀ (req : Requester) (i : Nat) (v : Word) (s : State), i < 192 → reqHere s req = true →
       pageReady s (pageOf .hch i 0) = true → busFree s req (pageOf .hch i 0) 0x10C = true →
       ∃ t, exec (.logClr req i v) s = .next t ∧ t = { s with cfg := t.cfg, pg := t.pg }
         ∧ fget t hchLogStatCount i 0 = 0 ∧ fget t hchLogStatLost i 0 = 0
         ∧ ∀ k w, k < 16 → w < 4 → oget t .hch i 1 1 k w = 0)

/-- R370: LOAD completes: without AT_PPS a load is due at the next tick, with it LOAD_WAIT shows that it waits for the next PPS_IN edge.
LOAD_CANCEL completes: no load waits for an edge any longer. R369, R370: LOAD_APPLY completes: a load that is due, with no descriptor
held and no MAC enabled, sets the time base to the programmed time at its tick; while a packet is held it is refused, LOAD_REFUSED sets
and the time base goes on. Concludes that exec answers a next state for: .load, .loadCancel, .loadApply. -/
def Obligations.TimeLoads : Prop :=
  (∀ (req : Requester) (v : Word) (s : State), reqHere s req = true → pageReady s (pageOf .tim 0 0) = true →
       busFree s req (pageOf .tim 0 0) 0x110 = true →
       (∃ t, exec (.load req v) s = .next t ∧ t = { s with cfg := t.cfg, pg := t.pg, tim := t.tim }
         ∧ (v.toNat / 2 % 2 = 0 → t.tim = { s.tim with loadDue := some (tickNow s + 1) })
         ∧ (v.toNat / 2 % 2 = 1 → t.tim = s.tim ∧ fget t timStatLoadWait 0 0 = 1))
       ∧ ∃ t, exec (.loadCancel req v) s = .next t ∧ t = { s with cfg := t.cfg, pg := t.pg }
         ∧ fget t timStatLoadWait 0 0 = 0)
  ∧ (∀ (at_ : Nat) (s : State), s.tim.loadDue = some at_ → at_ ≤ tickNow s →
       (loadMay s = true →
         ∃ t, exec .loadApply s = .next t ∧ t.tim.loadDue = none
           ∧ t.tim.base = ((fget s timLoadSecLoSec 0 0 + fget s timLoadSecHiSec 0 0 * 2 ^ 32) * 1000000000
               + fget s timLoadNsNs 0 0) * 10
           ∧ t.tim.baseTick = at_ ∧ t.net.items = s.net.items)
       ∧ (loadMay s = false →
         ∃ t, exec .loadApply s = .next t ∧ t = { s with cfg := t.cfg, tim := { s.tim with loadDue := none } }
           ∧ fget t timStatLoadRefused 0 0 = 1))

/-- R336, R337: IN_SERVICE completes: a channel in TRAINING is ACTIVE. CONTAIN on the unlocked page completes: the containment of a
populated channel that is not contained has begun at this clock. R336: BURLAP_ENABLE, with every populated channel ACTIVE or CONTAINED,
completes: Burlap is enabled and the overflow buckets are full. Concludes that exec answers a next state for: .contain, .inService,
.burlapEnable. -/
def Obligations.ChannelsInService : Prop :=
  (∀ (req : Requester) (i : Nat) (v : Word) (s : State), i < 192 → reqHere s req = true →
       pageReady s (pageOf .hch i 0) = true → busFree s req (pageOf .hch i 0) 0x100 = true →
       (v.toNat % 2 = 0 → chanState s i = 2 →
         ∃ t, exec (.inService req i v) s = .next t ∧ chanState t i = 3 ∧ t.hbm = s.hbm)
       ∧ (v.toNat / 2 % 2 = 0 → isUnlocked s req (pageOf .hch i 0) = true → isContained s (.chan i) = false →
         ∃ t, exec (.contain req i v) s = .next t ∧ isContained t (.chan i) = true
           ∧ t = { s with cfg := t.cfg, pg := t.pg
                          flt := { s.flt with containing := s.flt.containing ++ [(.chan i, s.clk)] } }))
  ∧ (∀ (req : Requester) (v : Word) (s : State), reqHere s req = true → pageReady s (pageOf .brl 0 0) = true →
       busFree s req (pageOf .brl 0 0) 0x100 = true → allInService s = true → v.toNat / 4 % 8 ≤ 5 → fget s brlCtlEn 0 0 = 0 →
       ∃ t, exec (.burlapEnable req v) s = .next t ∧ fget t brlCtlEn 0 0 = 1
         ∧ t.hbm = s.hbm ∧ ∀ es c, c < 4 → ovfTokens t es c = fget s brlTokDepthTok 0 0 * 65536)

/-- R339: TRAINING_RUN with legal fields completes: an idle channel that is in RESET or TRAINING, or in service with PERIODIC set, has a
run begun at this clock; the first one in RESET enters TRAINING. R339, R45: TRAINING_RUN_DONE completes: the errors are added to the
run's counters, DONE sets and BUSY clears. TRAINING_TIMEOUT completes TRN_TMO_US after the start, unless the result comes on its clock:
the run is over with TIMEOUT. R340: TAP_STEP completes: a tap step on an unlocked page of a channel in service moves the tap it names
by its signed step of at most two, within 0 to 511, and moves no other. Concludes that exec answers a next state for: .trainingRun,
.trainingRunDone, .trainingTimeout, .tapStep. -/
def Obligations.ChannelTraining : Prop :=
  (∀ (req : Requester) (i : Nat) (v : Word) (s : State), i < 192 →
       reqHere s req = true → pageReady s (pageOf .hch i 2) = true → busFree s req (pageOf .hch i 2) 0x100 = true →
       1 ≤ v.toNat / 2 ^ 16 % 2 ^ 8 → v.toNat / 4 % 4 ≤ 2 → v.toNat % 4 ≤ 2 → fget s hchTrnStatBusy i 0 = 0 →
       (chanState s i = 1 ∨ chanState s i = 2 ∨ ((chanState s i = 3 ∨ chanState s i = 4) ∧ v.toNat / 2 ^ 30 % 2 = 1)) →
       ∃ t, exec (.trainingRun req i v) s = .next t ∧ t = { s with cfg := t.cfg, pg := t.pg, hbm := t.hbm }
         ∧ fget t hchTrnStatBusy i 0 = 1 ∧ storeFind t.hbm.train i = some s.clk
         ∧ (chanState s i = 1 → chanState t i = 2))
  ∧ (∀ (i : Nat) (s : State), i < 192 →
       (∀ errs : List Nat, fget s hchTrnStatBusy i 0 = 1 →
         ∃ t, exec (.trainingRunDone i errs) s = .next t ∧ t = { s with cfg := t.cfg, hbm := t.hbm }
           ∧ fget t hchTrnStatBusy i 0 = 0 ∧ fget t hchTrnStatDone i 0 = 1 ∧ storeFind t.hbm.train i = none
           ∧ ∀ k, k < 36 → k < errs.length →
               count t .hch i 2 0x13 (36 * fget s hchTrnCtlPc i 0 + k) 0
                 = min cntMax (count s .hch i 2 0x13 (36 * fget s hchTrnCtlPc i 0 + k) 0 + errs.getD k 0))
       ∧ (∀ since, storeFind s.hbm.train i = some since → passedNs s since (fget s hchTrnTmoUsUs i 0 * 1000) = true →
         (∀ errs, Instr.trainingRunDone i errs ∉ s.pending) →
         ∃ t, exec (.trainingTimeout i) s = .next t ∧ storeFind t.hbm.train i = none ∧ fget t hchTrnStatBusy i 0 = 0
           ∧ fget t hchTrnStatTimeout i 0 = 1))
  ∧ (∀ (req : Requester) (i : Nat) (v : Word) (s : State), i < 192 → reqHere s req = true →
       pageReady s (pageOf .hch i 2) = true → isUnlocked s req (pageOf .hch i 2) = true →
       busFree s req (pageOf .hch i 2) 0x34 = true →
       storeFind s.pg.mbx (pageOf .hch i 2) = none → mbxNames s (pageOf .hch i 2) 0x16 none = true →
       goBad s (pageOf .hch i 2) (withBits v 1 0 3).toNat = false → (chanState s i = 3 ∨ chanState s i = 4) →
       let w := (actW s (regKey (pageOf .hch i 2) 0x40)).toNat
       let idx := (actW s (regKey (pageOf .hch i 2) 0x30)).toNat % 2 ^ 24
       let obj := if bit w 3 then 0x11 else 0x10
       w < 16 → -2 ≤ sgn 3 w → sgn 3 w ≤ 2 →
       ∃ t, exec (.tapStep req i v) s = .next t ∧ t = { s with cfg := t.cfg, pg := t.pg }
         ∧ oget t .hch i 2 obj idx 0 = (max 0 (min 511 ((oget s .hch i 2 obj idx 0 : Int) + sgn 3 w))).toNat
         ∧ (∀ k, k ≠ objKey (pageOf .hch i 2) obj idx 0 → k ≠ regKey (pageOf .hch i 2) 0x34 → actW t k = actW s k))

/-- R85, R86: PCS_LAYOUT_WRITE that names a legal layout completes: the shadow of LAYOUT holds it and the shadow of FEC_MODE follows it;
the active layout stays until a flip. While the group's flip waits neither shadow takes it (R67). R144, R154: TBL_CFG_WRITE that leaves
a legal classifier configuration completes: the shadow of the table holds it, and the active configuration stays. Concludes that exec
answers a next state for: .pcsLayoutWrite, .tblCfgWrite. -/
def Obligations.ShadowedConfigurations : Prop :=
  (∀ (req : Requester) (g : Nat) (v : Word) (s : State), g < 48 → reqHere s req = true →
       pageReady s (pageOf .pcs g 0) = true → busFree s req (pageOf .pcs g 0) 0x100 = true → layoutBad v.toNat = false →
       ∃ t, exec (.pcsLayoutWrite req g v) s = .next t ∧ t = { s with cfg := t.cfg, pg := t.pg }
         ∧ actW t (layoutKey g) = actW s (layoutKey g)
         ∧ (groupPending s (groupOf s (pageOf .pcs g 0)) = false →
             (∀ n, n < 8 → widthCode (shdW t (layoutKey g)).toNat n = widthCode v.toNat n
               ∧ rateCode (shdW t (layoutKey g)).toNat n = rateCode v.toNat n)
             ∧ shdW t (fecKey g)
               = BitVec.ofNat 32 (fecFollow (shdW s (layoutKey g)).toNat v.toNat (shdW s (fecKey g)).toNat))
         ∧ (groupPending s (groupOf s (pageOf .pcs g 0)) = true → t.cfg.shd = s.cfg.shd))
  ∧ (∀ (req : Requester) (sl n : Nat) (v : Word) (s : State) (g : Reg × Nat), sl < 8 → n < 16 → reqHere s req = true →
       pageReady s (pageOf .cls sl 0) = true → busFree s req (pageOf .cls sl 0) (0x100 + 0x10 * n) = true → groupPending s (groupOf s (pageOf .cls sl 0)) = false →
       regAt (pageOf .cls sl 0) (0x100 + 0x10 * n) = some g → reservedIn g.1.flds v.toNat = false →
       clsBad (plainWrite s (pageOf .cls sl 0) (0x100 + 0x10 * n) false v.toNat) sl = false →
       ∃ t, exec (.tblCfgWrite req sl n v) s = .next t ∧ t = { s with cfg := t.cfg, pg := t.pg }
         ∧ (∀ k, actW t k = actW s k)
         ∧ shdW t (regKey (pageOf .cls sl 0) (0x100 + 0x10 * n))
             = BitVec.ofNat 32 (shadowWord g.1.flds (shdW s (regKey (pageOf .cls sl 0) (0x100 + 0x10 * n))).toNat v.toNat))

/-- R429: CH_TMO_WRITE of a value above the replay budget completes on an idle channel: TMO_US holds it. A value at or below the budget is
refused: the register stays and CFG_REFUSED sets. R423, R431: DMA_GO completes: GO on a free channel starts the chain at CH_DESC under
GEN, and is ignored on a working one. DMA_STOP completes: STOP asks a working channel to stop and does nothing to a free one or one
whose chain has ended; a channel that stops is HALTED with HALT 8. Concludes that exec answers a next state for: .dmaGo, .dmaStop,
.chTmoWrite. -/
def Obligations.DmaStartsAndStops : Prop :=
  (∀ (req : Requester) (c : Nat) (v : Word) (s : State), c < 32 → reqHere s req = true →
       pageReady s (pageOf .dmac c 0) = true → busFree s req (pageOf .dmac c 0) 0x104 = true → dmaFree s c = true →
       reservedIn [dmacChTmoTmoUs] v.toNat = false →
       ∃ t, exec (.chTmoWrite req c v) s = .next t ∧ t.hbm = s.hbm ∧ t.dma = s.dma
         ∧ (v.toNat % 65536 * 1000 ≤ fget s dmaxReplayNsNs 32 0 →
             fget t dmacChTmoTmoUs c 0 = fget s dmacChTmoTmoUs c 0 ∧ fget t dmaxCmnStatCfgRefused 32 0 = 1)
         ∧ (fget s dmaxReplayNsNs 32 0 < v.toNat % 65536 * 1000 → fget t dmacChTmoTmoUs c 0 = v.toNat % 65536
             ∧ t = { s with cfg := t.cfg, pg := t.pg }))
  ∧ (∀ (req : Requester) (c : Nat) (v : Word) (s : State), c < 32 → reqHere s req = true → pageReady s (pageOf .dmac c 0) = true →
       busFree s req (pageOf .dmac c 0) 0x110 = true →
       (v.toNat / 2 % 2 = 0 → dmaFree s c = true → isContained s (.dma c) = false →
         ∃ t, exec (.dmaGo req c v) s = .next t ∧ t = { s with cfg := t.cfg, pg := t.pg, dma := t.dma, out := t.out }
           ∧ dmaState t c = 1 ∧ fget t dmacChStatHalt c 0 = 0 ∧ fget t dmacCurIndexN c 0 = 0 ∧ fget t dmacBadCountN c 0 = 0
           ∧ (dmaCh t c).phase = 1 ∧ (dmaCh t c).gen = v.toNat / 256 % 256
           ∧ (dmaCh t c).loc = fget s dmacChDescHiAddr c 0 * 2 ^ 32 + fget s dmacChDescLoAddr c 0 * 32
           ∧ t.out = s.out ++ (if fget s dmacChCfgDescSpace c 0 = 0 ∧ hostThere s = true
               then [Emit.hostRead c (dmaCh t c).loc 32] else []))
       ∧ (v.toNat / 2 % 2 = 0 → dmaFree s c = false →
         ∃ t, exec (.dmaGo req c v) s = .next t ∧ t = { s with cfg := t.cfg, pg := t.pg } ∧ dmaState t c = dmaState s c)
       ∧ (dmaFree s c = false → dmaState (stopNow s c) c = 4 ∧ fget (stopNow s c) dmacChStatHalt c 0 = 8
           ∧ (dmaCh (stopNow s c) c).phase = 0 ∧ (stopNow s c).net = s.net ∧ (stopNow s c).hbm = s.hbm)
       ∧ (v.toNat % 2 = 0 → dmaFree s c = false → (dmaCh s c).phase ≠ 5 →
         ∃ t, exec (.dmaStop req c v) s = .next t ∧ t = { s with cfg := t.cfg, pg := t.pg, dma := t.dma }
           ∧ dmaCh t c = { dmaCh s c with stop := true } ∧ dmaState t c = dmaState s c)
       ∧ (v.toNat % 2 = 0 → (dmaFree s c = true ∨ (dmaCh s c).phase = 5) →
         ∃ t, exec (.dmaStop req c v) s = .next t ∧ t = { s with cfg := t.cfg, pg := t.pg }))

/-- R96, R97: PAUSE_FRAME completes: it is counted and, with RX_PAUSE, every class is stopped until its time. PFC_FRAME completes: it is
counted and stops the classes it and RX_PFC name, and leaves the others. Other ports stay. R97: PAUSE_EXPIRY of a stop that has run out
completes: the stop of that class has ended, and only it. R99: PAUSE_REPEAT completes while the holding buffer holds its sender
stopped: PAUSE with all ones goes out again 32,768 quanta after the last. Concludes that exec answers a next state for: .pauseFrame,
.pfcFrame, .pauseExpiry, .pauseRepeat. -/
def Obligations.PausesHold : Prop :=
  (∀ (p : Nat) (s : State), p < 384 → macRuns s p = true →
       (∀ quanta, quanta < 65536 →
         ∃ t, exec (.pauseFrame p quanta) s = .next t ∧ t = { s with cfg := t.cfg, net := { s.net with ports := t.net.ports } }
           ∧ count t .mac p 0 1 5 0 = min cntMax (count s .mac p 0 1 5 0 + 1)
           ∧ (∀ q, q ≠ p → portSt t q = portSt s q)
           ∧ (fget s macPauseCtlRxPause p 0 = 1 → (portSt t p).pauseEnd = List.replicate 8 (pauseUntil s p quanta))
           ∧ (fget s macPauseCtlRxPause p 0 = 0 → portSt t p = portSt s p))
       ∧ (∀ en quanta, en < 256 → quanta.length = 8 → (quanta.all (· < 65536)) = true →
         ∃ t, exec (.pfcFrame p en quanta) s = .next t ∧ t = { s with cfg := t.cfg, net := { s.net with ports := t.net.ports } }
           ∧ count t .mac p 0 1 6 0 = min cntMax (count s .mac p 0 1 6 0 + 1)
           ∧ (∀ q, q ≠ p → portSt t q = portSt s q)
           ∧ ∀ c, c < 8 → (portSt t p).pauseEnd.getD c 0
               = if bit en c && bit (fget s macPauseCtlRxPfc p 0) c then pauseUntil s p (quanta.getD c 0)
                 else (portSt s p).pauseEnd.getD c 0))
  ∧ (∀ (p cls : Nat) (s : State), p < 384 → cls < 8 → (portSt s p).pauseEnd.getD cls 0 ≠ 0 →
       (portSt s p).pauseEnd.getD cls 0 ≤ nowU s →
       ∃ t, exec (.pauseExpiry p cls) s = .next t ∧ t = { s with cfg := t.cfg, net := { s.net with ports := t.net.ports } }
         ∧ (portSt t p).pauseEnd.getD cls 0 = 0
         ∧ (∀ c, c ≠ cls → (portSt t p).pauseEnd.getD c 0 = (portSt s p).pauseEnd.getD c 0)
         ∧ ∀ q, q ≠ p → portSt t q = portSt s q)
  ∧ (∀ (p : Nat) (s : State), p < 384 → macRuns s p = true → fget s macPortStatTxXoff p 0 = 1 →
       fget s macPauseCtlXoffKib p 0 / 2 * 1024 < holdOcc s p →
       (portSt s p).xoffAt * 16 + cdiv (32768 * 512 * 25) (curGbps s p) ≤ nowU s →
       ∃ t, exec (.pauseRepeat p) s = .next t
         ∧ t = { s with cfg := t.cfg, out := s.out ++ [Emit.pause p 0xFFFF], net := { s.net with ports := t.net.ports } }
         ∧ portSt t p = { portSt s p with xoffAt := s.clk }
         ∧ fget t macPortStatTxXoff p 0 = 1 ∧ count t .mac p 0 1 11 0 = min cntMax (count s .mac p 0 1 11 0 + 1))

/-- R100: LPI_ENTRY completes on a port with low-power idle in force, nothing queued or in transmission and IDLE_US of silence: the
transmitter is in it. LPI_WAKE completes when a frame waits: it is awake, and the frame starts TW_TX_NS later. Concludes that exec
answers a next state for: .lpiEntry, .lpiWake. -/
def Obligations.LowPowerIdle : Prop :=  ∀ (p : Nat) (s : State), p < 384 →
    (macRuns s p = true → eeeOn s p = true → (portSt s p).lpiTx = false → (portSt s p).wakeAt = none → portBusy s p = false →
      passedNs s (portSt s p).idleAt (fget s macEeeCtlIdleUs p 0 * 1000) = true →
      ∃ t, exec (.lpiEntry p) s = .next t ∧ t = { s with cfg := t.cfg, net := { s.net with ports := t.net.ports } }
        ∧ portSt t p = { portSt s p with lpiTx := true } ∧ fget t macPortStatLpiTx p 0 = 1)
    ∧ ((portSt s p).lpiTx = true → portBusy s p = true →
      ∃ t, exec (.lpiWake p) s = .next t ∧ t = { s with cfg := t.cfg, net := { s.net with ports := t.net.ports } }
        ∧ (portSt t p).lpiTx = false ∧ (portSt t p).wakeAt = some (s.clk + clksOfNs (fget s macEeeCtlTwTxNs p 0))
        ∧ fget t macPortStatLpiTx p 0 = 0)

/-- R104, R105: each park frame completes. In another version it is counted as such and does nothing else. In version 1 PARK_REQ is
answered by the frame of Table 3-9 (agreed and entered, or refused), PARK_ACK and PARK_NAK of the port's own SEQ agree to or end its
park, PARK_READY and WAKE_READY are noted, and WAKE_REQ starts the wake under its SEQ. Concludes that exec answers a next state for:
.parkReq, .parkAck, .parkNak, .parkReady, .wakeReq, .wakeReady. -/
def Obligations.ParkFrames : Prop :=  ∀ (p ver seq : Nat) (s : State), p < 384 → ver < 256 → seq < 256 → macRuns s p = true →
    (ver ≠ 1 → ∀ c ∈ [Instr.parkReq p ver seq, .parkAck p ver seq, .parkNak p ver seq, .parkReady p ver seq,
        .wakeReq p ver seq, .wakeReady p ver seq],
      ∃ t, exec c s = .next t ∧ t = { s with cfg := t.cfg } ∧ count t .mac p 0 1 19 0 = min cntMax (count s .mac p 0 1 19 0 + 1))
    ∧ (∃ t, exec (.parkReq p 1 seq) s = .next t
        ∧ ((portSt s p).park = .full → parkReady s p = true →
            t.out = s.out ++ [Emit.parkFrame p (parkBytes s p 2 seq)] ∧ (portSt t p).park = .parking ∧ (portSt t p).agreed = true)
        ∧ ((portSt s p).park = .full → parkReady s p = false →
            t.out = s.out ++ [Emit.parkFrame p (parkBytes s p 3 seq)] ∧ portSt t p = portSt s p)
        ∧ ((portSt s p).park = .parking → t.out = s.out ∧ (portSt t p).agreed = true))
    ∧ (∃ t, exec (.parkAck p 1 seq) s = .next t ∧ t.out = s.out
        ∧ ((portSt s p).park = .parking → (portSt s p).agreed = false → (portSt s p).parkSeq = seq →
            portSt t p = { portSt s p with agreed := true, parkAt := s.clk }))
    ∧ (∃ t, exec (.parkNak p 1 seq) s = .next t
        ∧ ((portSt s p).park = .parking → (portSt s p).agreed = false → (portSt s p).parkSeq = seq →
            (portSt t p).park = .full ∧ (portSt t p).parkHeld = none))
    ∧ (∃ t, exec (.parkReady p 1 seq) s = .next t ∧ t.out = s.out
        ∧ ((portSt s p).park = .parking → portSt t p = { portSt s p with readyRcvd := true }))
    ∧ (∃ t, exec (.wakeReq p 1 seq) s = .next t
        ∧ ((portSt s p).park = .parked → (portSt t p).park = .waking ∧ (portSt t p).readySent = false
            ∧ (portSt t p).parkAns = seq))
    ∧ ∃ t, exec (.wakeReady p 1 seq) s = .next t ∧ t.out = s.out
        ∧ ((portSt s p).park = .waking → portSt t p = { portSt s p with readyRcvd := true })

/-- R105: the parking machine's events complete: PARK_WINDOW_END (a utilisation window), PARK_DRAIN_DONE (the drain after agreement),
RECEIVER_REALIGNED (the width switch), WAKE_CONDITION, WAKE_LANES_LOCKED, WAKE_RETEST (after a failed wake). R105, R45: WAKE_TIMEOUT
completes when the wake's time has run out and nothing that comes on its clock ends the wake: the port is parked again and its retest
is timed. PARK_RTO completes when RTO_US has run out and no answer comes on its clock: the request goes out again, or a third
unanswered one, or an agreement without PARK_READY, ends the park. Concludes that exec answers a next state for: .parkWindowEnd,
.parkDrainDone, .receiverRealigned, .wakeCondition, .wakeLanesLocked, .wakeTimeout, .wakeRetest, .parkRto. -/
def Obligations.ParkingMachine : Prop :=
  (∀ (p : Nat) (s : State), p < 384 →
       (macRuns s p = true → passedNs s (portSt s p).winAt 10000 = true →
         ∃ t, exec (.parkWindowEnd p) s = .next t ∧ (portSt t p).winBytes = 0 ∧ (portSt t p).winAt = s.clk)
       ∧ ((portSt s p).park = .parking → (portSt s p).agreed = true → (portSt s p).readySent = false →
           later (portSt s p).recorded (admNow s) = false →
         ∃ t, exec (.parkDrainDone p) s = .next t ∧ t.out = s.out ++ [Emit.parkFrame p (parkBytes s p 4 (portSt s p).parkAns)]
           ∧ portSt t p = { portSt s p with readySent := true })
       ∧ ((portSt s p).readySent = true → (portSt s p).readyRcvd = true →
         ∃ t, exec (.receiverRealigned p) s = .next t ∧ t.out = s.out
           ∧ ((portSt s p).park = .parking → (portSt t p).park = .parked)
           ∧ ((portSt s p).park = .waking → (portSt t p).park = .full ∧ (portSt t p).parkHeld = none))
       ∧ (wakeCond s p = true →
         ∃ t, exec (.wakeCondition p) s = .next t
           ∧ ((portSt s p).park = .parking → (portSt t p).park = .full)
           ∧ ((portSt s p).park = .parked → (portSt s p).failAt = none → (portSt t p).park = .waking
               ∧ ∃ l, t.out = s.out ++ Emit.parkFrame p (parkBytes s p 5 (((portSt s p).parkSeq + 1) % 256)) :: l))
       ∧ ((portSt s p).park = .waking → (portSt s p).readySent = false → upperLocked s p = true →
         ∃ t, exec (.wakeLanesLocked p) s = .next t
           ∧ t.out = s.out ++ [Emit.parkFrame p (parkBytes s p 6 (portSt s p).parkAns)]
           ∧ portSt t p = { portSt s p with readySent := true })
       ∧ (∀ since, (portSt s p).park = .parked → (portSt s p).failAt = some since → passedNs s since 1000000 = true →
         ∃ t, exec (.wakeRetest p) s = .next t ∧ (portSt t p).failAt = none
           ∧ (wakeCond s p = true → (portSt t p).park = .waking) ∧ (wakeCond s p = false → (portSt t p).park = .parked)))
  ∧ (∀ (p : Nat) (s : State), p < 384 →
       ((portSt s p).park = .waking → passedNs s (portSt s p).parkAt (bitsOf (parkTmr s p) 31 16 * 1000) = true →
           ((portSt (heard s) p).readySent && (portSt (heard s) p).readyRcvd) = false →
         ∃ t, exec (.wakeTimeout p) s = .next t ∧ (portSt t p).park = .parked ∧ (portSt t p).failAt = some s.clk)
       ∧ ((portSt s p).park = .parking → passedNs s (portSt s p).parkAt (bitsOf (parkTmr s p) 15 0 * 1000) = true →
           (portSt (heard s) p).park = .parking → (portSt (heard s) p).agreed = (portSt s p).agreed →
           (portSt (heard s) p).readyRcvd = false →
         ∃ t, exec (.parkRto p) s = .next t
           ∧ ((portSt s p).agreed = false → (portSt s p).reqs < 3 →
               t.out = s.out ++ [Emit.parkFrame p (parkBytes s p 1 (portSt s p).parkSeq)]
               ∧ portSt t p = { portSt s p with reqs := (portSt s p).reqs + 1, parkAt := s.clk })
           ∧ ((portSt s p).agreed = true ∨ 3 ≤ (portSt s p).reqs → (portSt t p).park = .full)))

/-- R108, R109: LINK_LOSS of a port whose loss condition has held DOWN_HOLD completes: the port is in link loss and its LINK bit is 0.
LINK_UP of a port whose hold has run completes: its LINK bit is 1. REMOTE_FAULT_RECEIVED completes: RF shows it, and the condition of
R108 begins or ends. R376, R108, R109, R114: LOSS_OF_BLOCK_LOCK of a lane completes: its port is out of alignment, with a local fault,
remote fault transmitted and its two loss conditions begun. BLOCK_LOCK_ACQUIRED of lanes none of which is in loopback completes: the
port is aligned and both conditions have ended. (The premises set aside a port whose link loss comes in the same clock; LinkState says
what that is.) Concludes that exec answers a next state for: .linkLoss, .linkUp, .lossOfBlockLock, .blockLockAcquired,
.remoteFaultReceived. -/
def Obligations.PortLinks : Prop :=
  (∀ (p : Nat) (s : State), p < 384 → running s = true →
       (lossDue s p = true →
         ∃ t, exec (.linkLoss p) s = .next t ∧ t = { linkLoss s p with pending := s.pending, clk := s.clk }
           ∧ (s.net.items = [] → s.prn.msgs = [] → (portSt t p).loss = true ∧ linkUp t p = false))
       ∧ (∀ since, (portSt s p).upSince = some since → portThere s p = true → linkUp s p = false →
           fget s pcsLinkCtlUpHoldMs (p / 8) 0 * 390625 ≤ (s.clk - since) * 64 →
         ∃ t, exec (.linkUp p) s = .next t ∧ linkUp t p = true ∧ (portSt t p).loss = false ∧ (portSt t p).upSince = none)
       ∧ (∀ on, portThere s p = true → (portSt s p).conds.length = 5 →
           fget s pcsLinkCtlRfAsDown (p / 8) 0 = 0 → lossDue s p = false →
         ∃ t, exec (.remoteFaultReceived p on) s = .next t ∧ fget t pcsPortStatRf (p / 8) (p % 8) = b2n on
           ∧ (portSt t p).conds.getD 2 none = if on then some (((portSt s p).conds.getD 2 none).getD s.clk) else none))
  ∧ (∀ (p : Nat) (s : State), p < 384 → running s = true → (portSt s p).conds.length = 5 →
       ((portSt s p).loss = true
         ∨ (fget s pcsLinkCtlDownHold (p / 8) 0 ≠ 0 ∧ ∀ n, (portSt s p).conds.getD n none = none)) →
       (∀ lane, lane < 8 → (activeLanes s p).contains lane = true → fget s pcsPortStatAligned (p / 8) (p % 8) = 1 →
         ∃ t, exec (.lossOfBlockLock p lane false) s = .next t
           ∧ fget t pcsPortStatAligned (p / 8) (p % 8) = 0 ∧ fget t pcsPortStatLf (p / 8) (p % 8) = 1
           ∧ t.out = s.out ++ [Emit.remoteFault p]
           ∧ (portSt t p).conds.getD 0 none = some (((portSt s p).conds.getD 0 none).getD s.clk)
           ∧ (portSt t p).conds.getD 1 none = some (((portSt s p).conds.getD 1 none).getD s.clk))
       ∧ (portThere s p = true → fget s pcsPortStatAligned (p / 8) (p % 8) = 0 →
           (∀ l ∈ activeLanes s p, fget s sdsLaneCfgLoopback (laneInst p l) 0 = 0) →
         ∃ t, exec (.blockLockAcquired p) s = .next t
           ∧ fget t pcsPortStatAligned (p / 8) (p % 8) = 1 ∧ fget t pcsPortStatLf (p / 8) (p % 8) = 0
           ∧ (portSt t p).conds.getD 0 none = none ∧ (portSt t p).conds.getD 1 none = none))

/-- R89-R91: CODEWORD_DECODE completes: a codeword within its code's power is counted, with its corrected symbols; a codeword beyond it is
counted as uncorrectable and in the port's error window (thresholds off). Nothing but counters and the port's record changes. R110,
R114, R517: FEC_WINDOW_END of a port without signal degrade completes with an empty window. RETRAIN_START of a due retrain completes:
RETRAIN shows it (no Perrun message waits, and no link loss comes in the same clock). TRAINING_ATTEMPT_END completes: a locked attempt
leaves the lane adapted and locked, one that is not leaves its reading and no LT_DONE. Concludes that exec answers a next state for:
.codewordDecode, .fecWindowEnd, .retrainStart, .trainingAttemptEnd. -/
def Obligations.LanesAndCodewords : Prop :=
  (∀ (p : Nat) (syms : List Nat) (s : State) (rate lanes fec : Nat), p < 384 → syms.length = 8 → (syms.all (· < 16)) = true →
       running s = true → portMode s p = some (rate, lanes, fec) → 2 ≤ fec →
       ((activeLanes s p).foldl (fun a l => a + syms.getD l 0) 0 ≤ fecPower fec →
         ∃ t, exec (.codewordDecode p syms true) s = .next t ∧ t = { s with cfg := { s.cfg with cnt := t.cfg.cnt } }
           ∧ count t .pcs (p / 8) 0 1 (p % 8) 0 = min cntMax (count s .pcs (p / 8) 0 1 (p % 8) 0 + 1)
           ∧ count t .pcs (p / 8) 0 1 (p % 8) 2 = count s .pcs (p / 8) 0 1 (p % 8) 2
           ∧ count t .pcs (p / 8) 0 1 (p % 8) 3
               = min cntMax (count s .pcs (p / 8) 0 1 (p % 8) 3 + (activeLanes s p).foldl (fun a l => a + syms.getD l 0) 0))
       ∧ (fget s pcsErrCtlSdThresh (p / 8) 0 = 0 → fget s pcsErrCtlRetrainThresh (p / 8) 0 = 0 →
         ∃ t, exec (.codewordDecode p syms false) s = .next t
           ∧ t = { s with cfg := { s.cfg with cnt := t.cfg.cnt }, net := { s.net with ports := t.net.ports } }
           ∧ count t .pcs (p / 8) 0 1 (p % 8) 2 = min cntMax (count s .pcs (p / 8) 0 1 (p % 8) 2 + 1)
           ∧ portSt t p = { portSt s p with winErr := (portSt s p).winErr + 1 }))
  ∧ (∀ (s : State), running s = true →
       (∀ p, p < 384 → portThere s p = true → (portSt s p).winMs ≠ msNow s → fget s pcsPortStatSd (p / 8) (p % 8) = 0 →
         ∃ t, exec (.fecWindowEnd p) s = .next t
           ∧ t = { s with net := { s.net with ports := t.net.ports } }
           ∧ portSt t p = { portSt s p with winErr := 0, winWhole := true, winMs := msNow s })
       ∧ (∀ p since, p < 384 → portThere s p = true → (portSt s p).retrainDue = some since → prnOn s = false →
         ∃ t, exec (.retrainStart p) s = .next t ∧ t = { retrain s p with pending := s.pending, clk := s.clk }
           ∧ ((portSt s p).loss = true → fget t pcsPortStatRetrain (p / 8) (p % 8) = 1 ∧ (portSt t p).retrainDue = none))
       ∧ (∀ lane locked eye taps, lane < 384 → eye < 256 → fget s sdsLaneStatPowered lane 0 = 1 →
           fget s sdsLaneStatAdaptDone lane 0 = 0 → (∀ sp, sp < 8 → fget s pcsPortStatRetrain (lane / 8) sp = 0) →
         ∃ t, exec (.trainingAttemptEnd lane locked eye taps) s = .next t
           ∧ t = { s with cfg := t.cfg, net := { s.net with taps := t.net.taps } }
           ∧ fget t sdsLaneStatEyeMv lane 0 = eye
           ∧ fget t sdsLaneStatAdaptDone lane 0 = b2n locked
           ∧ (locked = true → fget t sdsLaneStatCdrLock lane 0 = 1)
           ∧ (locked = false → fget t sdsLaneStatLtDone lane 0 = 0)))

/-- R35, R40: FRAME_RECEIVE completes: the first bytes of a frame of a running MAC, no control frame and no longer than MAX_FRAME, are in
the holding buffer of the slice under a new number, with the arrival time; other packets stay. R38, R39, R295: FRAME_TAIL of a frame
still in the holding buffer completes: the frame has all its bytes and the verdict of its FCS. `u` is the state once what is released
on the clock has been released. R35, R42, R70: HOLDING_BUFFER_EXIT completes when a context is free: the oldest frame of the slice that
is whole or has 260 bytes is in the parser, with the data-plane epoch of every group latched, at its source's node. Concludes that exec
answers a next state for: .frameReceive, .frameTail, .holdingBufferExit. -/
def Obligations.FramesEnter : Prop :=
  (∀ (p sub : Nat) (bytes : List Byte) (s : State), p < 384 → sub < 7 → macRuns s p = true → (portSt s p).rx = none →
       (portSt s p).rxCtl = [] → 64 ≤ bytes.length → bytes.length ≤ fget s macCfgMaxFrame p 0 → macTakes s p bytes = false →
       heldBytes s (sliceOf p) + bytes.length ≤ holdSize →
       ∃ t, exec (.frameReceive p sub bytes) s = .next t ∧ (portSt t p).rx = some s.net.nextId
         ∧ t.net.nextId = s.net.nextId + 1
         ∧ ∃ k, t.net.pkts = s.net.pkts ++ [k] ∧ k.id = s.net.nextId ∧ k.data = bytes ∧ k.src = .port p
             ∧ k.slice = sliceOf p ∧ k.stage = .holding ∧ k.tail = false ∧ k.arr = tbPort s sub)
  ∧ (∀ (p id : Nat) (bytes : List Byte) (fcsOk : Bool) (k : Pkt) (s u : State), p < 384 → running s = true →
       (portSt s p).rx = some id → (pktOf s id).isSome = true →
       u = releases (modPort s p fun y => { y with rx := none, rxCtl := [], rxDrop := false }) → pktOf u id = some k →
       k.stage = .holding → k.data.length + bytes.length ≤ fget u macCfgMaxFrame p 0 →
       heldBytes u k.slice + bytes.length ≤ holdSize →
       ∃ t, exec (.frameTail p bytes fcsOk) s = .next t ∧ (portSt t p).rx = (portSt u p).rx
         ∧ ∃ k', pktOf t id = some k' ∧ k'.data = k.data ++ bytes ∧ k'.tail = true ∧ k'.fcsBad = !fcsOk ∧ k'.stage = .holding)
  ∧ (∀ (sl : Nat) (k : Pkt) (s : State), sl < 8 → running s = true → contexts s sl < 4096 →
       (s.net.pkts.find? fun p => p.slice == sl && p.stage == .holding && (p.tail || decide (260 ≤ p.data.length))) = some k →
       pktOf s k.id = some k →
       ∃ t, exec (.holdingBufferExit sl) s = .next t ∧ ∃ k', pktOf t k.id = some k' ∧ k'.stage = .parsing
         ∧ k'.ep = (List.range 16).map (dpEpoch s) ∧ k'.node = startNode s sl k.src ∧ k'.since = s.clk ∧ k'.data = k.data)

/-- R117, R119, R131-R133, R137: PARSE_STEP of a head in the parser completes: it has taken the step of its node, which beyond 24 steps
fails with reason 2. PARSE_END of a head whose parse ended well completes 96 clocks after it entered: it leaves with its key vector.
GRAPH_SWEEP completes every millisecond: the next sweep has begun. R141, R172, R183: CLASSIFY completes 64 clocks after the head was
parsed: it is classified. FORWARDING_LOOKUP completes 64 clocks after that: the head takes what its lookup finds, or is dropped for a
lookup memory error; one whose table pair is contained is refused with reason 10, a short one already known bad is dropped (R38).
Concludes that exec answers a next state for: .parseStep, .parseEnd, .graphSweep, .classify, .forwardingLookup. -/
def Obligations.HeadsAdvance : Prop :=
  (∀ (id : Nat) (k : Pkt) (s : State), running s = true →
       (pktOf s id = some k → k.stage = .parsing → k.endOk = false → k.mal = 0 → k.since < s.clk →
           k.since + 4 * k.steps ≤ s.clk →
         ∃ t, exec (.parseStep id) s = .next t ∧ t = { parseStep s k with pending := s.pending, clk := s.clk }
           ∧ ∃ k', pktOf t id = some k' ∧ k'.steps = k.steps + 1 ∧ (24 ≤ k.steps → k'.mal = 2))
       ∧ (pktOf s id = some k → k.stage = .parsing → k.endOk = true → k.mal = 0 → k.since + 96 ≤ s.clk →
         ∃ t, exec (.parseEnd id) s = .next t
           ∧ pktOf t id = some { k with kv := keyVector k k.kv, stage := .parsed, since := s.clk })
       ∧ (passedNs s s.tbl.graphAt 1000000 = true → ∃ t, exec .graphSweep s = .next t ∧ t.tbl.graphAt = s.clk))
  ∧ (∀ (id : Nat) (k : Pkt) (s : State), running s = true → pktOf s id = some k → k.since + 64 ≤ s.clk →
       (k.stage = .parsed →
         ∃ t, exec (.classify id) s = .next t ∧ t = { classified s k with pending := s.pending, clk := s.clk })
       ∧ (k.stage = .classified → isShut s (.pair (k.slice / 2)) = true →
           (k.tail && k.fcsBad && decide (k.data.length ≤ 256)) = false →
         ∃ t, exec (.forwardingLookup id) s = .next t ∧ t = { refuse s k 10 none with pending := s.pending, clk := s.clk })
       ∧ (k.stage = .classified → isShut s (.pair (k.slice / 2)) = true →
           (k.tail && k.fcsBad && decide (k.data.length ≤ 256)) = true →
         ∃ t, exec (.forwardingLookup id) s = .next t ∧ pktOf t id = none)
       ∧ (k.stage = .classified → isShut s (.pair (k.slice / 2)) = false → (lookup s k).1 = .memErr →
         ∃ t, exec (.forwardingLookup id) s = .next t
           ∧ t = { dropHead (lookup s k).2 k 6 with pending := s.pending, clk := s.clk })
       ∧ (k.stage = .classified → isShut s (.pair (k.slice / 2)) = false → (lookup s k).1 ≠ .memErr →
         ∃ t, exec (.forwardingLookup id) s = .next t
           ∧ t = { forwarded (lookup s k).2 k (lookup s k).1 with pending := s.pending, clk := s.clk }))

/-- R155, R157, R158, R160, R168: these commands of the classifier complete: RELOAD_ATTEMPT that reads back as written gives the slot free
or ends the exclusion; RADISH_SCRUB that finds a difference, with no reload waiting in the pair, is counted and fires; BANK_SYNC begins
the copy and BANK_SYNC_END, 256 clocks later, ends it with SYNC clear; OLD_READERS_CLEAR clears OLD_READERS once no older head is left.
Concludes that exec answers a next state for: .reloadAttempt, .radishScrub, .bankSync, .bankSyncEnd, .oldReadersClear. -/
def Obligations.ClassifierUpkeep : Prop :=  ∀ (page : Nat) (s : State), 320 ≤ page → page < 448 → running s = true →
    (∀ slot r, slot < 4 → (s.tbl.repairs.find? fun r => r.page == page && r.slot == slot) = some r →
        (okraFetch s (bankSlice page / 2)).1 = true →
      ∃ t, exec (.reloadAttempt page slot true) s = .next t ∧ t.tbl.repairs = s.tbl.repairs.erase r
        ∧ quarW t page slot = 0)
    ∧ (∀ r, (s.tbl.repairs.find? fun r => r.page == page && r.slot == 4) = some r →
        (okraFetch s (bankSlice page / 2)) = (true, s) →
      ∃ t, exec (.reloadAttempt page 4 true) s = .next t
        ∧ t = { s with tbl := { s.tbl with repairs := s.tbl.repairs.erase r
                                           excluded := s.tbl.excluded.erase (page, r.half, r.entry) } })
    ∧ (∀ entry, entry < 2048 → (∀ r ∈ s.tbl.repairs, bankSlice r.page / 2 ≠ bankSlice page / 2) → bankSyncing s page = false → setAside s page (activeHalf s page) entry = false →
        (okraFetch s (bankSlice page / 2)) = (true, s) → (actW s (regKey page 0x20)).toNat / 16 % 4 = 0 →
      ∃ t, exec (.radishScrub page entry true) s = .next t
        ∧ t = { fire (rdhCount s page 6) page 4 with pending := s.pending, clk := s.clk })
    ∧ ((storeFind s.tbl.syncs page).isSome = true → storeFind s.tbl.syncs (page + 4096) = none →
        oldHeadsDone s page [bankSlice page] [.parsing, .parsed] = true →
      ∃ t, exec (.bankSync page) s = .next t ∧ storeFind t.tbl.syncs (page + 4096) = some s.clk)
    ∧ (∀ since, storeFind s.tbl.syncs (page + 4096) = some since → since + 256 ≤ s.clk →
      ∃ t, exec (.bankSyncEnd page) s = .next t ∧ bankSyncing t page = false ∧ storeFind t.tbl.syncs page = none)
    ∧ (∀ k, k < 4 → fget s treStatOldReaders k 0 = 1 →
        oldHeadsDone s (pageOf .tre k 0) [2 * k, 2 * k + 1] [.parsing, .parsed] = true →
      ∃ t, exec (.oldReadersClear k) s = .next t ∧ t = { s with cfg := t.cfg } ∧ fget t treStatOldReaders k 0 = 0)

/-- R188, R190: ADD, DELETE, CLEAR_TENANT and FLUSH_LEARNED complete when the command is at the front of its port and its routine can be
fetched: it has left the port. On Leek an ADD of a new prefix with room has added it, a DELETE removed it, CLEAR_TENANT removed the
tenant's; on Chard a DELETE, CLEAR_TENANT or FLUSH_LEARNED that is not deferred has removed what it names. Only the shadow routes
change before a flip (R179). Concludes that exec answers a next state for: .add, .delete, .clearTenant, .flushLearned. -/
def Obligations.TableCommands : Prop :=  ∀ (chard : Bool) (c : TblCmd) (s : State),
    (s.tbl.cmds.find? fun x => x.chard == chard) = some c → okraFetch s 0 = (true, s) → cmdBad chard (cmdOf c.record) = false →
    ((cmdOf c.record).op = 1 →
      ∃ t, exec (.add chard) s = .next t ∧ t.tbl.cmds = s.tbl.cmds.erase c ∧ t.tbl.leekA = s.tbl.leekA
        ∧ (chard = false → s.tbl.leekS.any (samePrefix (cmdRoute (cmdOf c.record))) = false →
            leekCount s.tbl.leekS (cmdRoute (cmdOf c.record)).fam < leekLimit (cmdRoute (cmdOf c.record)).fam →
            leekTight s (cmdRoute (cmdOf c.record)).fam = false →
            t.tbl.leekS = s.tbl.leekS ++ [cmdRoute (cmdOf c.record)]))
    ∧ ((cmdOf c.record).op = 2 →
      ∃ t, exec (.delete chard) s = .next t ∧ t.tbl.cmds = s.tbl.cmds.erase c ∧ t.tbl.leekA = s.tbl.leekA
        ∧ (chard = false → t.tbl.leekS = s.tbl.leekS.filter fun x => !samePrefix (cmdRoute (cmdOf c.record)) x)
        ∧ (chard = true → bit (cmdOf c.record).flags 0 = false →
            t.tbl.chd = s.tbl.chd.filter fun e => !chdNamed (cmdOf c.record) e))
    ∧ ((cmdOf c.record).op = 3 →
      ∃ t, exec (.clearTenant chard) s = .next t ∧ t.tbl.cmds = s.tbl.cmds.erase c ∧ t.tbl.leekA = s.tbl.leekA
        ∧ (chard = false → ∀ r ∈ t.tbl.leekS, ¬ (r.fam = (cmdOf c.record).fmt ∧ r.tenant = (cmdOf c.record).tenant))
        ∧ (chard = true → bit (cmdOf c.record).flags 0 = false →
            t.tbl.chd = s.tbl.chd.filter fun e => !chdNamed (cmdOf c.record) e))
    ∧ ((cmdOf c.record).op = 4 → chard = true → bit (cmdOf c.record).flags 0 = false →
      ∃ t, exec .flushLearned s = .next t ∧ t.tbl.cmds = s.tbl.cmds.erase c
        ∧ t.tbl.chd = s.tbl.chd.filter fun e => !chdNamed (cmdOf c.record) e)

/-- R179, R186: LEEK_SYNC completes: the replay of a pair's flip has begun once no older head can search. LEEK_SYNC_END completes one clock
per entry later: SYNC is clear and the old version gone. DEFERRED_APPLY completes: deferred changes have taken hold on every copy once
no older head can search. R192, R196, R204: AGING_SWEEP completes and is dated. LEARN_FILTER_EXPIRY completes: the filter has forgotten
the keys held for HOLD_US and no others. NHP_HALF_COPY completes once no head holds the old half: the halves of the next-hop page agree
again. R206, R208: PORT_DOWN_SET after the report of a port's link loss completes: its PORT_DOWN bit is 1. PORT_DOWN_CLEAR at the end
of its revert completes, unless its slice or scheduler is contained: the bit is 0. R213: EDT_HALF_COPY completes: once no head holds
the old half of an EDT page, its copy begins. EDT_COPY_END completes: the copy is over, and where no head holds the earlier epoch the
page's halves agree and it is no longer held. Concludes that exec answers a next state for: .leekSync, .leekSyncEnd, .deferredApply,
.agingSweep, .learnFilterExpiry, .nhpHalfCopy, .portDownSet, .portDownClear, .edtHalfCopy, .edtCopyEnd. -/
def Obligations.TableUpkeep : Prop :=
  (∀ (s : State),
       (∀ k, k < 4 → fget s lekStatSync k 0 = 1 → storeFind s.tbl.leekSync k = none →
           oldHeadsDone s (pageOf .lek k 0) [2 * k, 2 * k + 1] searching = true →
         ∃ t, exec .leekSync s = .next t ∧ t = { s with tbl := { s.tbl with leekSync := t.tbl.leekSync } }
           ∧ storeFind t.tbl.leekSync k = some (s.clk, storeGet 0 s.tbl.leekWrites k))
       ∧ (∀ k b n, k < 4 → storeFind s.tbl.leekSync k = some (b, n) → b + n ≤ s.clk →
         ∃ t, exec .leekSyncEnd s = .next t
           ∧ t = { s with cfg := t.cfg, tbl := { s.tbl with leekSync := t.tbl.leekSync, leekWrites := t.tbl.leekWrites, leekO := t.tbl.leekO } }
           ∧ fget t lekStatSync k 0 = 0 ∧ storeFind t.tbl.leekSync k = none ∧ storeFind t.tbl.leekO k = none)
       ∧ (s.tbl.deferAt ≠ none →
           (∀ k, k < 4 → oldHeadsDone s (pageOf .chd k 0) [2 * k, 2 * k + 1] searching = true) →
           (∀ k, k < 4 → (actW s (regKey (pageOf .okr k 0) 0x20)).toNat / 16 % 4 = 0) →
         ∃ t, exec .deferredApply s = .next t ∧ t.tbl.deferAt = none
           ∧ ∀ e ∈ t.tbl.chd, e.pair < 4 → e.state = 1 ∨ e.state = 2 → e.ebit ≠ curOf s (groupOf s (pageOf .chd e.pair 0)) % 2))
  ∧ (∀ (k : Nat) (s : State), k < 4 →
       (fget s chdAgeCfgAgeSec k 0 ≠ 0 → running s = true →
           passedNs s (storeGet 0 s.tbl.ageAt k) (fget s chdAgeCfgAgeSec k 0 * 1000000000) = true →
         ∃ t, exec (.agingSweep k) s = .next t ∧ storeFind t.tbl.ageAt k = some s.clk)
       ∧ (∃ t, exec (.learnFilterExpiry k) s = .next t ∧ t = { s with tbl := { s.tbl with filter := t.tbl.filter } }
           ∧ ∀ f, f ∈ t.tbl.filter ↔ f ∈ s.tbl.filter
               ∧ ¬ (f.1 = k ∧ passedNs s f.2.2 (fget s chdLearnCfgHoldUs k 0 * 1000) = true))
       ∧ (fget s nhpStatHeld k 0 = 1 → epochRefs s (groupOf s (pageOf .nhp k 0)) = 0 →
         ∃ t, exec (.nhpHalfCopy k) s = .next t ∧ t = { s with cfg := t.cfg } ∧ fget t nhpStatHeld k 0 = 0
           ∧ ∀ key, keyPage key = pageOf .nhp k 0 → oldW t key = actW t key))
  ∧ (∀ (p : Nat) (s : State), p < 384 →
       (∀ since, (portSt s p).downAt = some since →
         ∃ t, exec (.portDownSet p) s = .next t ∧ portDown t p = true ∧ (portSt t p).downAt = none)
       ∧ (∀ at_, (portSt s p).clearAt = some at_ → at_ ≤ s.clk → isContained s (.slice (sliceOf p)) = false →
           isContained s (.sched (p / 8)) = false →
         ∃ t, exec (.portDownClear p) s = .next t ∧ portDown t p = false ∧ (portSt t p).clearAt = none))
  ∧ (∀ (sl : Nat) (s : State), sl < 8 → running s = true →
       (fget s edtStatHeld sl 0 = 1 → fget s edtStatCopy sl 0 = 0 → epochRefs s (groupOf s (pageOf .edt sl 0)) = 0 →
         ∃ t, exec (.edtHalfCopy sl) s = .next t ∧ fget t edtStatCopy sl 0 = 1
           ∧ t = { s with cfg := t.cfg, net := { s.net with xferAt := t.net.xferAt } }
           ∧ storeGet 0 t.net.xferAt (48 + sl) = s.clk + (batchOf s (pageOf .edt sl 0)).length)
       ∧ (fget s edtStatCopy sl 0 = 1 → storeGet 0 s.net.xferAt (48 + sl) ≤ s.clk →
         ∃ t, exec (.edtCopyEnd sl) s = .next t ∧ t = { s with cfg := t.cfg } ∧ fget t edtStatCopy sl 0 = 0
           ∧ (epochRefs s (groupOf s (pageOf .edt sl 0)) = 0 → fget t edtStatHeld sl 0 = 0
             ∧ ∀ key, keyPage key = pageOf .edt sl 0 → oldW t key = actW t key)))

/-- R195, R411: LEARN, REFRESH, AGE and WITHDRAW complete: the message that reaches its target is off the ring. A LEARN or REFRESH that is
newer than the pair's learned entry replaces its next hop, origin and time; an AGE of the entry's own origin that is not older removes
it; a WITHDRAW removes the learned entries of its scope and no others; Holtarun (target 4) is given the message. R194, R411:
LEARNING_MESSAGE_INJECT completes: a learning message that firmware injects enters the ring for every pair but its origin, unless its
TYPE or a reserved bit makes it a reserved encoding (log entry 31). Concludes that exec answers a next state for: .learn, .refresh,
.age, .withdraw, .learningMessageInject. -/
def Obligations.RingMessages : Prop :=
  (∀ (k : Nat) (m : RingMsg) (s : State), k < 4 →
       (∀ e, chdEntry s k (macKey m.tenant m.mac) = some e → e.learned = true → e.stat = false →
           (later32 m.ltime e.ltime || (m.ltime == e.ltime && decide (m.origin < e.origin))) = true →
         ((ringTake s k 1).1 = some m →
           ∃ t, exec (.learn k) s = .next t ∧ t.tbl.ring = s.tbl.ring.erase m
             ∧ { e with nh := m.nh, origin := m.origin, ltime := m.ltime, misses := 0 } ∈ t.tbl.chd)
         ∧ ((ringTake s k 2).1 = some m →
           ∃ t, exec (.refresh k) s = .next t ∧ t.tbl.ring = s.tbl.ring.erase m
             ∧ { e with nh := m.nh, origin := m.origin, ltime := m.ltime, misses := 0 } ∈ t.tbl.chd))
       ∧ (∀ e, chdEntry s k (macKey m.tenant m.mac) = some e → e.learned = true → e.stat = false → e.origin = m.origin →
           later32 e.ltime m.ltime = false → (ringTake s k 3).1 = some m →
         ∃ t, exec (.age k) s = .next t ∧ t.tbl.ring = s.tbl.ring.erase m
           ∧ t.tbl.chd = s.tbl.chd.filter fun x => !chdSame x e)
       ∧ ((ringTake s k 4).1 = some m →
         ∃ t, exec (.withdraw k) s = .next t ∧ t.tbl.ring = s.tbl.ring.erase m
           ∧ t.tbl.chd = s.tbl.chd.filter fun e => !(e.pair == k && e.learned && !e.stat && m.scope != 0
               && (!bit m.scope 0 || keyTenant e.key == m.tenant) && (!bit m.scope 1 || e.nh == m.nh)))
       ∧ (∀ ty ∈ [1, 2, 3, 4], (ringTake s 4 ty).1 = some m →
         ∀ c ∈ [(1, Instr.learn 4), (2, .refresh 4), (3, .age 4), (4, .withdraw 4)], c.1 = ty →
         ∃ t, exec c.2 s = .next t ∧ t = { learnToHol (ringTake s 4 ty).2 m with pending := s.pending, clk := s.clk }
           ∧ t.tbl.ring = s.tbl.ring.erase m))
  ∧ (∀ (req : Requester) (v : Word) (s : State), reqHere s req = true → pageReady s (pageOf .holx 16 0) = true →
       busFree s req (pageOf .holx 16 0) 0x34 = true →
       storeFind s.pg.mbx (pageOf .holx 16 0) = none → mbxNames s (pageOf .holx 16 0) 5 none = true →
       goBad s (pageOf .holx 16 0) (withBits v 1 0 3).toNat = false →
       let l := (List.range 8).map fun k => (actW s (regKey (pageOf .holx 16 0) (0x40 + 4 * k))).toNat
       ∃ t, exec (.learningMessageInject req v) s = .next t
         ∧ t = { s with cfg := { s.cfg with act := t.cfg.act }, pg := t.pg, tbl := { s.tbl with ring := t.tbl.ring } }
         ∧ (storeFind t.pg.mbx (pageOf .holx 16 0)).isSome = true
         ∧ t.tbl.ring = (ringInject s l).tbl.ring
         ∧ (1 ≤ wd l 0 % 16 → wd l 0 % 16 ≤ 4 → bit (wd l 0) 7 = false → bitsOf (wd l 0) 31 18 = 0 → bitsOf (wd l 1) 31 14 = 0 →
             bitsOf (wd l 3) 31 16 = 0 → bitsOf (wd l 4) 31 20 = 0 → wd l 6 = 0 →
             ∃ new, t.tbl.ring = s.tbl.ring ++ new
               ∧ new.map (·.target) = (List.range 4).filter (· != bitsOf (wd l 0) 6 4)
               ∧ ∀ m ∈ new, m.typ = wd l 0 % 16 ∧ m.origin = bitsOf (wd l 0) 6 4 ∧ m.ltime = wd l 5))

/-- R233, R240: POLICE completes: a forwarded head without a policer passes to the gate; one with a policer is metered by it. R243, R255,
R257, R38: ADMISSION_VERDICT of a metered head completes. `u` is the state once the releases, the re-steers and the earlier heads of
the clock have had their turn: in it the head takes the verdict of the gate, or, short and with a bad FCS, is dropped and leaves.
Concludes that exec answers a next state for: .police, .admissionVerdict. -/
def Obligations.HeadsMeterAndGate : Prop :=
  (∀ (id : Nat) (k : Pkt) (s : State), running s = true → pktOf s id = some k → k.stage = .forwarded →
       (k.res.policer = none →
         ∃ t, exec (.police id) s = .next t ∧ t = { s with net := { s.net with pkts := t.net.pkts } }
           ∧ pktOf t id = some { k with stage := .metered, since := s.clk })
       ∧ (∀ i, k.res.policer = some i →
         ∃ t, exec (.police id) s = .next t ∧ t = { meter s k i with pending := s.pending, clk := s.clk }))
  ∧ (∀ (id : Nat) (k k' : Pkt) (s u : State), running s = true → pktOf s id = some k → gateReady k = true →
       u = (headsBefore s k).foldl verdictOn ((resteersDue s).foldl resteerSlice (releases s)) →
       pktOf u id = some k' → gateReady k' = true →
       ((k'.tail && k'.fcsBad && decide (k'.data.length ≤ 256)) = true →
         ∃ t, exec (.admissionVerdict id) s = .next t ∧ pktOf t id = none
           ∧ t = { dropGone u { k' with staged := false } with pending := s.pending, clk := s.clk })
       ∧ ((k'.tail && k'.fcsBad && decide (k'.data.length ≤ 256)) = false →
         ∃ t, exec (.admissionVerdict id) s = .next t ∧ t = { atGate u k' with pending := s.pending, clk := s.clk }))

/-- Table 7-6 (R236, R238): a frame is green only when the buckets of its mode hold its length, and then they are debited by it; it is
yellow only when the second bucket holds it; a red frame debits nothing. No refill exceeds the bucket's depth. -/
def Obligations.MeterNeverOverdraws : Prop :=  ∀ (mode pc c p len cir pir cbs pbs n : Nat), mode < 3 →
    (mode ≠ 0 → polColour mode pc c p len = 0 → pc = 0 ∧ len ≤ c ∧ (polDebit mode 0 c p len).1 + len = c
      ∧ (mode = 1 → len ≤ p ∧ (polDebit mode 0 c p len).2 + len = p) ∧ (mode = 2 → (polDebit mode 0 c p len).2 = p))
    ∧ (polColour mode pc c p len = 1 → len ≤ p ∧ polDebit mode 1 c p len = (c, p - len))
    ∧ (polColour mode pc c p len = 2 → polDebit mode 2 c p len = (c, p))
    ∧ (polRefill mode cir pir cbs pbs n c p).1 ≤ cbs ∧ (polRefill mode cir pir cbs pbs n c p).2 ≤ pbs

/-- R257: the keeper accepts a head only for an enabled queue that was not lost and has a rate, and only when the virtual finish time it
computes is not later than the deadline; on chip only when the owner's cells and a descriptor are free and the queue has not spilled;
through Burlap only when the queue may spill and at least 4 µs remain. R250, R264, R270: KEEPER_SWEEP completes: no class queue of its
slice whose V has passed is left busy. CARRY_END completes when the admission time has reached the carry: it has ended.
CONSERVATION_CHECK completes: the oldest check of the slice is reported, with an imbalance when the difference is not zero. Concludes
that exec answers a next state for: .keeperSweep, .carryEnd, .conservationCheck. -/
def Obligations.AdmissionMeetsDeadlines : Prop :=
  (∀ (s : State) (p : Pkt) (port cls len g d dl sf v : Nat),
       (decideUni s p port cls len g d dl sf = .on v →
         d ≠ 0 ∧ queueOn s port cls = true ∧ (queue s port cls).lost = false ∧ (queue s port cls).rate ≠ 0
         ∧ (queue s port cls).spill = false ∧ ownerFits s (sliceOf port) (8 * (port % 48) + cls) (cellsOf len) = true
         ∧ descOn s (sliceOf port) < 131072 ∧ later v dl = false
         ∧ v = vftOf s port cls (tbOn s p.ep port cls sf) (admBits len g (admQ s p.ep port cls 1 % 256)))
       ∧ (decideUni s p port cls len g d dl sf = .brl v →
         d ≠ 0 ∧ queueOn s port cls = true ∧ (queue s port cls).lost = false ∧ (queue s port cls).rate ≠ 0
         ∧ bit (admQ s p.ep port cls 1) 8 = true ∧ 4000 ≤ d ∧ later v dl = false
         ∧ descBrl s (sliceOf port) < fgetP s p.ep admDescBrlLimitLimit (sliceOf port) 0))
  ∧ (∀ (s : State),
       (∀ sl, sl < 8 → running s = true → passedNs s (storeGet 0 s.net.keptAt sl) 1000000 = true →
           storeSorted s.net.queues = true →
         ∃ t, exec (.keeperSweep sl) s = .next t ∧ storeFind t.net.keptAt sl = some s.clk
           ∧ t = { s with net := { s.net with keptAt := t.net.keptAt, queues := t.net.queues } }
           ∧ ∀ port c, sliceOf port = sl → c < 8 →
               queue t port c = { queue s port c with
                 idle := (queue s port c).idle || later (admNow s) (queue s port c).v })
       ∧ (∀ p cls v r, p < 384 → cls < 8 → (queue s p cls).carry = some (v, r) → later v (admNow s) = false →
         ∃ t, exec (.carryEnd p cls) s = .next t ∧ t = { s with net := { s.net with queues := t.net.queues } }
           ∧ queue t p cls = { queue s p cls with carry := none })
       ∧ (∀ sl c, sl < 8 → (s.net.checks.find? fun x => x.slice == sl) = some c →
         ∃ t, exec (.conservationCheck sl) s = .next t ∧ t.net.checks = s.net.checks.erase c
           ∧ fget t lgrChkStatTrigger sl 0 = c.trig % 4
           ∧ fget t lgrChkStatSkipped sl 0 = b2n c.skip
           ∧ (c.skip = false → c.diff ≠ 0 → fget t lgrChkStatImbalance sl 0 = 1)))

/-- R276-R279: STAGE_A_TRANSFER and STAGE_B_TRANSFER complete. Each end of Twill moves its cells once in a core clock: a transfer marks the
clock, and a second one in the same clock moves nothing. The unicast cell at the front, if it is there and its lane has shown room, is
in the lane's queue afterwards, there one clock later, or seven from the other die; an end with nothing queued moves nothing. R285:
IMBALANCE_WINDOW completes: a window that has run is closed: HOT names the lanes whose average was more than IMB_THRESH above the mean,
the sums start from zero at this clock, and no bucket has moved yet. Concludes that exec answers a next state for: .stageATransfer,
.stageBTransfer, .imbalanceWindow. -/
def Obligations.TwillMovesOncePerClock : Prop :=
  (∀ (n : Nat) (s : State), n < 8 → running s = true →
       (storeFind s.net.xferAt n ≠ some s.clk →
         (∃ t, exec (.stageATransfer n) s = .next t ∧ storeFind t.net.xferAt n = some s.clk)
         ∧ ((∀ q ∈ s.net.stageA, q.slice = n → q.cells = []) →
           ∃ t, exec (.stageATransfer n) s = .next t ∧ t = { (oncePerClk s n).2 with pending := s.pending, clk := s.clk })
         ∧ ∀ q c rest, (s.net.stageA.find? fun q => q.slice == n && q.lane == (n + slotNow s) % 8 && q.kind == 1) = some q →
             q.cells = c :: rest → c.ready ≤ s.clk → laneRoom s n ((n + slotNow s) % 8) c.es = true →
           ∃ t, exec (.stageATransfer n) s = .next t
             ∧ { c with ready := s.clk + 1 + (if dieOf n = dieOf ((n + slotNow s) % 8) then 0 else 6) }
                 ∈ storeGet [] t.net.laneQ ((n + slotNow s) % 8 * 8 + c.es))
       ∧ (storeFind s.net.xferAt n = some s.clk → exec (.stageATransfer n) s = .next s)
       ∧ (storeFind (arrivals s).net.xferAt (8 + n) = some (arrivals s).clk →
         ∃ t, exec (.stageBTransfer n) s = .next t ∧ t = { arrivals s with pending := s.pending, clk := s.clk })
       ∧ (storeFind (arrivals s).net.xferAt (8 + n) ≠ some (arrivals s).clk → stalled s n ((n + slotNow s) % 8) = false →
         ∃ t, exec (.stageBTransfer n) s = .next t
           ∧ t = { sendB 4 (oncePerClk (arrivals s) (8 + n)).2 n ((n + slotNow s) % 8) with pending := s.pending, clk := s.clk }))
  ∧ (∀ (sl : Nat) (s : State), sl < 8 → running s = true →
       passedNs s (storeGet 0 s.net.occAt sl) (fget s gzeImbCfgImbWinNs sl 0) = true →
       ∃ t, exec (.imbalanceWindow sl) s = .next t ∧ storeGet 0 t.net.occAt sl = s.clk
         ∧ (∀ j, j < 8 → storeGet 0 t.net.occSum (8 * sl + j) = 0)
         ∧ (∀ j, j < 8 → bit (fget t gzeStatHot sl 0) j =
             decide ((List.range 8).foldl (fun a j => a + storeGet 0 s.net.occSum (8 * sl + j)) 0
               + 8 * fget s gzeImbCfgImbThresh sl 0 * (s.clk - storeGet 0 s.net.occAt sl) < 8 * storeGet 0 s.net.occSum (8 * sl + j)))
         ∧ t.net.flowlet = s.net.flowlet)

/-- R298-R301, R305: REPLICATION_PASS completes: a replicated packet whose last pass holds only the engine's reference gives its cells up.
RESIDUE_REEXAMINE completes: every copy in the residue of a slice is examined. MULTICAST_RESIDUE_EXPIRED completes: a copy still in the
residue at its deadline is gone from it. STAGING_FLUSH completes: a staging block that has waited FLUSH_NS is written.
EXTERNAL_READ_TIMEOUT completes: a packet whose read has not come by its deadline, and does not come on this clock, is gone. R303-R305,
R327, R328: SPILL_WRITE_RESPONSE completes: an issued spill write ends with the code of its column command, and after a good one is no
longer outstanding; with a parity error reported the command is issued again. PREFETCH_RETURN completes: an issued prefetch that comes
back is judged by its words. PREFETCH_READ_ISSUE completes: the next written block of a queue that wants cells is read, one read for
each piece of it. Concludes that exec answers a next state for: .replicationPass, .residueReexamine, .multicastResidueExpired,
.stagingFlush, .spillWriteResponse, .prefetchReadIssue, .prefetchReturn, .externalReadTimeout. -/
def Obligations.CopiesAndSpill : Prop :=
  (∀ (s : State), running s = true →
       (∀ id es c, es < 8 → chainOf s id es 0 = some c → c.engine = true → (∀ x ∈ c.cells, x.ref = 1) → c.later = [] →
         ∃ t, exec (.replicationPass id es) s = .next t
           ∧ t = { dropRefs s id es 0 0 c.cells.length with pending := s.pending, clk := s.clk })
       ∧ (∀ es, es < 8 → ∃ t, exec (.residueReexamine es) s = .next t
           ∧ t = { residueAgain s es with pending := s.pending, clk := s.clk })
       ∧ (∀ it x, itemOf s it = some x → x.place = .residue → later x.dl (admOf (tbNow s)) = false →
         ∃ t, exec (.multicastResidueExpired it) s = .next t ∧ ∀ y, itemOf t it = some y → y.place ≠ .residue)
       ∧ (∀ p cls b, p < 384 → cls < 8 →
           ((queue s p cls).staging.find? fun b => passedNs s b.2 (fget s bpmSpillCfgFlushNs (sliceOf p) 0)) = some b →
         ∃ t, exec (.stagingFlush p cls) s = .next t
           ∧ t = { writeBlock s p cls b.1 ((queue s p cls).stream.filter fun c => c.pos / 8 == b.1 && c.st == .staged) with
                   pending := s.pending, clk := s.clk })
       ∧ (∀ it x, itemOf s it = some x → ((queue s x.port x.cls).stream.any fun c => c.item == it && c.st == .reading) = true →
           later x.dl (admOf (tbNow s)) = false → (s.pending.any (endsNow s x)) = false →
         ∃ t, exec (.externalReadTimeout it) s = .next t ∧ itemOf t it = none))
  ∧ (∀ (s : State), running s = true →
       (∀ id r, (s.hbm.reqs.find? fun r => r.id == id && inner r && r.who == 0) = some r →
           r.late = false → r.held = false → r.issued = true → r.write = true →
         (∃ t, exec (.spillWriteResponse id false) s = .next t
           ∧ t = { finish s r r.code [] with pending := s.pending, clk := s.clk }
           ∧ (r.code < 2 → t = { s with hbm := { s.hbm with reqs := s.hbm.reqs.filter fun x => x.id != id }
                                        out := s.out ++ [Emit.hbm r.chan (8 + r.code) (id * 16)] }))
         ∧ (r.code < 4 → ∃ t, exec (.spillWriteResponse id true) s = .next t
           ∧ t = { parityError s r with pending := s.pending, clk := s.clk }))
       ∧ (∀ id errs r, (s.hbm.reqs.find? fun r => r.id == id && inner r && r.who == 1) = some r →
           r.late = false → r.held = false → r.issued = true → r.write = false → r.code < 4 →
         (∃ t, exec (.prefetchReturn id ⟨errs, false⟩) s = .next t
           ∧ t = { readBack s r errs false with pending := s.pending, clk := s.clk })
         ∧ (∃ t, exec (.prefetchReturn id ⟨errs, true⟩) s = .next t
           ∧ t = { parityError s r with pending := s.pending, clk := s.clk }))
       ∧ (∀ es e, es < 8 → storeFind s.net.xferAt (16 + es) ≠ some s.clk →
           poolUsed s es + 8 ≤ fget s bpmPfPoolCells es 0 →
           (s.net.queues.find? fun e => e.1 / 432 == es && e.1 % 9 != 8 && wantsBlock s es e.2 && (nextBlock e.2).isSome) = some e →
         ∃ t, exec (.prefetchReadIssue es) s = .next t
           ∧ ∃ l, t.hbm.reqs = s.hbm.reqs ++ l ∧ l.length = 8 / (pieceLen s / 256)
             ∧ ∀ r ∈ l, r.who = 1 ∧ r.len = pieceLen s ∧ r.write = false ∧ inner r = true))

/-- R207, R306: RESTEER completes: on the state that the releases of the clock leave, the oldest packet queued for a port in link loss
fails if it has no backup, moves to its backup once its cells are in, and else waits. RESTEER_JOIN completes: a re-steered packet whose
cells are in joins its new queue. R309, R310, R317: MIRROR_RECORD_WRITE completes: the mirror writer takes the oldest record off its
queue; an enabled ring with room and bandwidth, in its region and on channels in service, gains it at its head; a disabled ring counts
it and changes nothing else. Concludes that exec answers a next state for: .resteer, .resteerJoin, .mirrorRecordWrite. -/
def Obligations.ResteersAndMirrors : Prop :=
  (∀ (sl : Nat) (it : Item) (s : State), sl < 8 →
       (running (releases s) = true → storeFind (releases s).net.xferAt (24 + sl) ≠ some (releases s).clk →
         ((releases s).net.items.find? fun it => it.es == sl && it.place == .queued && (portSt (releases s) it.port).loss) = some it →
         (resteerTo (oncePerClk (releases s) (24 + sl)).2 it = none →
           ∃ t, exec (.resteer sl) s = .next t
             ∧ t = { fail (oncePerClk (releases s) (24 + sl)).2 it 1 with pending := s.pending, clk := s.clk })
         ∧ (∀ b port v g tmpl, resteerTo (oncePerClk (releases s) (24 + sl)).2 it = some (b, port, v, g, tmpl) →
           (cellsIn (releases s) it = true → ∃ t, exec (.resteer sl) s = .next t
             ∧ t = { moveItem (oncePerClk (releases s) (24 + sl)).2 it b port v g tmpl with pending := s.pending, clk := s.clk })
           ∧ (cellsIn (releases s) it = false → ∃ t, exec (.resteer sl) s = .next t
             ∧ t = { releases s with pending := s.pending, clk := s.clk })))
       ∧ (∀ t0, s.net.resteerSent = [t0] → itemOf s t0.pkt = some it → it.place = .resteer → t0.es = sl → cellsIn s it = true →
         ∃ t, exec (.resteerJoin sl) s = .next t
           ∧ t = { joinQueue { s with net := { s.net with resteerSent := [] } } it with pending := s.pending, clk := s.clk }))
  ∧ (∀ (m : MirRec) (rest : List MirRec) (s : State), s.net.mirq = m :: rest →
       ∃ t, exec .mirrorRecordWrite s = .next t ∧ t.net.mirq = rest
         ∧ (fget s gzeMirCtlEn 0 m.ring = 0 → t.hbm = s.hbm ∧ t.net = { s.net with mirq := rest }
             ∧ count t .gze 0 1 1 4 0 = min cntMax (count s .gze 0 1 1 4 0 + 1))
         ∧ (m.ring < 16 → fget s gzeMirCtlEn 0 m.ring = 1 → fget s gzeMirCtlSizeLog2 0 m.ring ≤ 24 →
             ringFull (fget s gzeMirHeadHead 0 m.ring) (fget s gzeMirTailTail 0 m.ring) (2 ^ fget s gzeMirCtlSizeLog2 0 m.ring) = false →
             fget s brlEffMirrorGbs 0 0 ≠ 0 →
             mayReach s 3 (addr36 s (fget s gzeMirBaseHiAddr 0 m.ring * 2 ^ 32 + fget s gzeMirBaseLoAddr 0 m.ring * 256
               + 160 * fget s gzeMirHeadHead 0 m.ring)) m.bytes.length true = true →
             spanShut s 3 (addr36 s (fget s gzeMirBaseHiAddr 0 m.ring * 2 ^ 32 + fget s gzeMirBaseLoAddr 0 m.ring * 256
               + 160 * fget s gzeMirHeadHead 0 m.ring)) m.bytes.length = false →
             fget t gzeMirHeadHead 0 m.ring
               = (fget s gzeMirHeadHead 0 m.ring + 1) % 2 ^ fget s gzeMirCtlSizeLog2 0 m.ring))

/-- R317, R322, R337: BURLAP_REQUEST completes. A request outside its requester's regions is answered with the region error, one to a
channel that takes none with the contained error (a descriptor read goes on as R321 says); any other is outstanding under a new number,
and at the bound of 64 it waits. R323, R327, R328: BURLAP_COMMAND_ISSUE completes: the one request that waits in a pseudo-channel is
issued, and a read takes the words as they are then. BURLAP_RESPONSE completes: an issued write is answered with the code of its column
command and is no longer outstanding; a read is judged by its words; a command/address parity error issues the command again.
READ_RETRY completes RETRY_NS after the last read. Concludes that exec answers a next state for: .burlapRequest, .burlapCommandIssue,
.burlapResponse, .readRetry. -/
def Obligations.BurlapServesRequests : Prop :=
  (∀ (who addr len : Nat) (data : List Byte) (s : State), who < 9 → running s = true →
       let n := if data.isEmpty then len else data.length
       let i := chanInst s (burlapAt s addr).1
       let r := newReq s who addr n (!data.isEmpty) data []
       0 < n → (∀ x ∈ s.hbm.reqs, x.id ≠ s.net.nextId) →
       (mayReach s who addr n (!data.isEmpty) = false →
         ∃ t, exec (.burlapRequest who addr len data) s = .next t
           ∧ t = { finish (enqueue s r) r 5 [] with pending := s.pending, clk := s.clk }
           ∧ (who ≠ 2 ∨ data ≠ [] → t.hbm = s.hbm ∧ ∃ l, t.out = s.out ++ l ++ [Emit.hbm i 13 (s.net.nextId * 16 + who)]))
       ∧ (mayReach s who addr n (!data.isEmpty) = true → spanShut s who addr n = true →
         ∃ t, exec (.burlapRequest who addr len data) s = .next t
           ∧ t = { finish (enqueue s r) r 4 [] with pending := s.pending, clk := s.clk }
           ∧ (who ≠ 2 ∨ data ≠ [] → t.hbm = s.hbm ∧ t.out = s.out ++ [Emit.hbm i 12 (s.net.nextId * 16 + who)]))
       ∧ (mayReach s who addr n (!data.isEmpty) = true → spanShut s who addr n = false →
         ∃ t, exec (.burlapRequest who addr len data) s = .next t ∧ t.out = s.out ∧ t.hbm.mem = s.hbm.mem
           ∧ t.net.nextId = s.net.nextId + 1
           ∧ ∃ r, t.hbm.reqs = s.hbm.reqs ++ [r] ∧ r.id = s.net.nextId ∧ r.who = who ∧ r.addr = addr ∧ r.data = data
             ∧ r.write = !data.isEmpty ∧ r.issued = false
             ∧ (r.held = true ↔ 64 ≤ (outstanding s i (pcOf (burlapAt s addr).2)).length)))
  ∧ (∀ (r : BReq) (s : State), running s = true →
       (∀ i pc, i < 192 → pc < 2 → chanThere s i = true → chanTakes s r.who i = true → waiting s i pc = [r] →
         ∃ t, exec (.burlapCommandIssue i pc) s = .next t ∧ ∃ r' ∈ t.hbm.reqs, r'.id = r.id ∧ r'.issued = true
           ∧ r'.who = r.who ∧ r'.addr = r.addr ∧ (r.write = false → r'.got = storedWords s r.addr r.len))
       ∧ ((s.hbm.reqs.find? fun x => x.id == r.id && !inner x) = some r → r.late = false → r.held = false → r.issued = true →
         (r.write = true → ∀ errs, ∃ t, exec (.burlapResponse r.id ⟨errs, false⟩) s = .next t
           ∧ t = { s with hbm := { s.hbm with reqs := s.hbm.reqs.filter fun x => x.id != r.id }
                          out := s.out ++ [Emit.hbm r.chan (8 + r.code) (r.id * 16 + r.who)] })
         ∧ (r.write = false → r.code < 4 → ∀ errs, ∃ t, exec (.burlapResponse r.id ⟨errs, false⟩) s = .next t
           ∧ t = { readBack s r errs false with pending := s.pending, clk := s.clk })
         ∧ (r.code < 4 → ∀ errs, ∃ t, exec (.burlapResponse r.id ⟨errs, true⟩) s = .next t
           ∧ t = { parityError s r with pending := s.pending, clk := s.clk }))
       ∧ (∀ errs, (s.hbm.reqs.find? fun x => x.id == r.id && x.late) = some r →
           passedNs s r.since (fget s brlRetryRetryNs 0 0) = true →
         let s1 := (atomsOf s r.addr r.len).foldl (fun a e => column a false e) (hchCount s r.chan 4)
         let r1 := { r with tries := r.tries + 1, late := false, got := storedWords s r.addr r.len }
         ∃ t, exec (.readRetry r.id errs) s = .next t
           ∧ t = { readBack (putReq s1 r1) r1 errs true with pending := s.pending, clk := s.clk }))

/-- R324, R325, R338: REFPB completes: a per-bank refresh closes its bank and no other; an all-bank one, only where per-bank refresh has
missed its interval, closes every bank of its pseudo-channel. SCRUB_READ completes: its second part writes back each word that needed
correction. TEMPERATURE_REPORT completes: it reaches every channel of its stack. R331, R333: the effective shares never exceed what was
configured, and when the deliverable bandwidth covers the need nothing is cut. Concludes that exec answers a next state for: .refpb,
.scrubRead, .temperatureReport. -/
def Obligations.BurlapUpkeep : Prop :=
  (∀ (s : State),
       (∀ i pc bank all, i < 192 → pc < 2 → bank < 48 → chanThere s i = true → running s = true →
         let missed := passedNs s (storeGet 0 s.hbm.refAt (i * 2 + pc)) (Config.refInterval (fget s hchChStatTemp i 0) + 1)
         (all = false ∨ missed = true →
           ∃ t, exec (.refpb i pc bank all) s = .next t
             ∧ t.out = s.out ++ [Emit.hbm i (if all then 3 else 2) (bank + 48 * pc)] ∧ t.hbm.mem = s.hbm.mem ∧ t.hbm.reqs = s.hbm.reqs
             ∧ storeGet 0 t.hbm.refAt (i * 2 + pc) = s.clk
             ∧ storeFind t.hbm.rows (bankKey i pc bank) = none
             ∧ (∀ k, k / 48 ≠ i * 2 + pc → storeFind t.hbm.rows k = storeFind s.hbm.rows k)
             ∧ (all = true → ∀ k, k / 48 = i * 2 + pc → storeFind t.hbm.rows k = none)
             ∧ (all = false → ∀ k, k ≠ bankKey i pc bank → storeFind t.hbm.rows k = storeFind s.hbm.rows k))
         ∧ (all = true → missed = false → exec (.refpb i pc bank all) s = .next s))
       ∧ (∀ i atom w d, i < 192 → atom < 12582912 → w < 8 → running s = true → chanThere s i = true → chanState s i ≠ 5 →
           chanState s i ≠ 6 → okraFetch s (4 + i / 32) = (true, s) →
           (s.hbm.scrub.find? fun e => e.1 == i * 2 ^ 24 + atom) = some (i * 2 ^ 24 + atom, false) →
           decodeWord (storeGet 0 s.hbm.mem (wordKey (chanIdx s i) (64 * atom + 8 * w))) = .fixed d →
         ∃ t, exec (.scrubRead i atom) s = .next t
           ∧ storeGet 0 t.hbm.mem (wordKey (chanIdx s i) (64 * atom + 8 * w)) = fresh d
           ∧ (t.hbm.scrub.find? fun e => e.1 == i * 2 ^ 24 + atom) = none)
       ∧ (∀ stack temp, stack < 6 → temp < 256 → stackOff s stack = false →
         ∃ t, exec (.temperatureReport stack temp) s = .next t ∧ ∀ n, n < 32 → fget t hchChStatTemp (32 * stack + n) 0 = temp))
  ∧ (∀ (d mir : Nat) (ovf : List Nat) (hol cnt : Nat),
       (shares d mir ovf hol cnt).1 ≤ mir ∧ (shares d mir ovf hol cnt).2.2.1 ≤ hol ∧ (shares d mir ovf hol cnt).2.2.2 ≤ cnt
       ∧ (shares d mir ovf hol cnt).2.1.length = ovf.length
       ∧ (∀ c, (shares d mir ovf hol cnt).2.1.getD c 0 ≤ ovf.getD c 0)
       ∧ (hol + cnt + mir + 2 * ovf.foldl (· + ·) 0 ≤ d → shares d mir ovf hol cnt = (mir, ovf, hol, cnt)))

/-- R349: the queue that the due rule names is a class queue whose head may be served and which is due; when it names none, there is no
such queue. R343-R349: SCHEDULER_DECISION completes: at a port that may start a frame (its late heads discarded), within 8 decisions of
its slice and 2 of its own on this clock, the due queue's head is started, and with no queue due, the head that deficit round robin
chooses; one decision more than the clock allows starts nothing. R345: a queue that deficit round robin serves is one whose head may be
served within its shapers, and its deficit is debited by the line bytes of its head. Concludes that exec answers a next state for:
.schedulerDecision. -/
def Obligations.SchedulerChooses : Prop :=
  (∀ (s : State) (p : Nat),
       (∀ c, dueQueue s p = some c → c < 8 ∧ servable s p c = true ∧ isDue s p c = true)
       ∧ (dueQueue s p = none → ∀ c, c < 8 → servable s p c = false ∨ isDue s p c = false))
  ∧ (∀ (p c : Nat) (it : Item) (s : State), p < 384 → running s = true →
       (decisions s (sliceOf p) < 8 → decisions s (8 + p) < 2 →
         let b := decides (decides (arrivals s) (sliceOf p)) (8 + p)
         let a := (List.range 8).foldl (fun a c => dropLate (queue a p c).fifo.length a p c) b
         portFree a p = true →
         (dueQueue (countWaits a p) p = some c → headOf (countWaits a p) p c = some it →
           ∃ t, exec (.schedulerDecision p) s = .next t
             ∧ t = { startFrame (countWaits a p) p c it true with pending := s.pending, clk := s.clk })
         ∧ (dueQueue (countWaits a p) p = none → (drr 9 (countWaits a p) p).1 = some c →
             headOf (drr 9 (countWaits a p) p).2 p c = some it →
           ∃ t, exec (.schedulerDecision p) s = .next t
             ∧ t = { startFrame (drr 9 (countWaits a p) p).2 p c it false with pending := s.pending, clk := s.clk }))
       ∧ ((8 ≤ decisions s (sliceOf p) ∨ 2 ≤ decisions s (8 + p)) → exec (.schedulerDecision p) s = .next s))
  ∧ (∀ (n : Nat) (s : State) (p q : Nat), (drr n s p).1 = some q →
       servable (drr n s p).2 p q = true ∧ 0 ≤ (queue (drr n s p).2 p q).deficit)

/-- R41, R230: TRANSMIT_END completes: the oldest frame on a line, when its line time and the transmit latency have passed, is sent if its
tail and its cells are in and it is no longer than the line takes; one too long is cut with an inverted FCS. R353, R357-R359, R364:
SHAPER_REFILL completes: in its slot a shaper gains its rate up to its burst (no memory error), on the edge of a flip by the old words.
HIERARCHICAL_EXIT completes: a MODE 2 port whose holds have passed leaves hierarchical mode. GATE_CHANGE completes: the gate position
follows the time. QUEUE_FLUSH_STEP completes: the oldest packet that may go ends flushed; an empty queue is done. Concludes that exec
answers a next state for: .transmitEnd, .shaperRefill, .hierarchicalExit, .gateChange, .queueFlushStep. -/
def Obligations.EgressUpkeep : Prop :=
  (∀ (p : Nat) (it : Item) (k : Pkt) (s : State), p < 384 → running s = true →
       (portSt s p).tx.head?.bind (itemOf s) = some it → pktOf s it.pkt = some k →
       let end_ := it.txEnd + lineUnits (max 64 (min ((finalBytes k it).length + 4) 16128) + 8) (curGbps s p) + txNs s p * 25
       end_ ≤ nowU s →
       (k.tail = true → (finalBytes k it).length + 4 ≤ 16128 → cellsIn s it = true →
         ∃ t, exec (.transmitEnd p) s = .next t
           ∧ t = { transmitted s it k (finalBytes k it) end_ with pending := s.pending, clk := s.clk })
       ∧ (16128 < (finalBytes k it).length + 4 →
         ∃ t, exec (.transmitEnd p) s = .next t
           ∧ t = { cutFrame s it (finalBytes k it) with pending := s.pending, clk := s.clk }))
  ∧ (∀ (p : Nat) (s : State), p < 384 → running s = true →
       (∀ q, q < 9 → s.clk % 64 = (8 + 9 * (p % 8) + q) % 64 → storeFind s.net.xferAt (4096 + p * 16 + q) ≠ some s.clk →
           (actW s (regKey (pageOf .egs (p / 8) 0) 0x20)).toNat / 16 % 4 = 0 →
         let w := if onFlip s p then shpWords s p q else (qcfg s p q 1, qcfg s p q 2)
         ∃ t, exec (.shaperRefill p q) s = .next t
           ∧ queue t p q = { queue s p q with
               tok := min ((queue s p q).tok + refillUnits (shpRate w)) (shpDepth w)
               shp := if onFlip s p then (queue s p q).shp else none })
       ∧ (s.clk % 64 = p % 8 → storeFind s.net.xferAt (4096 + p * 16 + 9) ≠ some s.clk →
           (actW s (regKey (pageOf .egs (p / 8) 0) 0x20)).toNat / 16 % 4 = 0 →
         let w := if onFlip s p then portShpWords s p else portShpCfg s p
         ∃ t, exec (.shaperRefill p 9) s = .next t
           ∧ portSt t p = { portSt s p with
               tok := min ((portSt s p).tok + refillUnits (shpRate w)) (shpDepth w)
               shp := if onFlip s p then (portSt s p).shp else none })
       ∧ ((portSt s p).hier = true → serviceMode s p = 2 → holdsPast s p = true →
         ∃ t, exec (.hierarchicalExit p) s = .next t ∧ (portSt t p).hier = false)
       ∧ (∃ t, exec (.gateChange p) s = .next t ∧ t = { s with cfg := t.cfg }
           ∧ fget t egsPortStatGateAct (p / 8) (p % 8) = b2n (gateOn s p))
       ∧ (∀ q, q < 9 → bit (qcfg s p q 3) 1 = true → storeFind s.net.xferAt (12288 + p * 16 + q) ≠ some s.clk →
         let o := (oncePerClk s (12288 + p * 16 + q)).2
         (queueItems s p q = [] →
           ∃ t, exec (.queueFlushStep p q) s = .next t ∧ (queue t p q).flushDone = true
             ∧ t = { s with net := { s.net with queues := t.net.queues, xferAt := t.net.xferAt } })
         ∧ (∀ it, ((queueItems o p q).filter fun it => it.place != .sending && it.place != .residue).find?
               (fun it => (it.brl || cellsIn o it) && (pktOf o it.pkt).elim true (·.tail)) = some it →
           ∃ t, exec (.queueFlushStep p q) s = .next t
             ∧ t = { fail (egsCount o p q 3 1) it 5 with pending := s.pending, clk := s.clk })))

/-- R366: QUEUE_SAMPLE completes: a due queue of a sampled group gives one QUEUE_SAMPLE record a clock; with 512 waiting, it is counted as
lost. R390: RECORD_SUBMIT completes: a submission of a telemetry record whose TYPE may be submitted joins the records that wait for the
writer of its slice, with the header the device gives it, and frees the half that was held. R386: MUSLIN_RECORD_WRITE completes: the
writer of every slice takes at most one record a clock, its step taken once. Concludes that exec answers a next state for:
.queueSample, .muslinRecordWrite, .recordSubmit. -/
def Obligations.TelemetryRecords : Prop :=
  (∀ (g k : Nat) (s : State), g < 48 → running s = true → fget s egsSampleCtlIntervalUs g 0 ≠ 0 →
       storeFind s.net.xferAt (40 + g / 6) ≠ some s.clk →
       ((List.range 72).find? fun k => bit (qcfg s (8 * g + k / 9) (k % 9) 3) 2
         && passedNs s (storeGet 0 s.tel.sampAt (72 * g + k)) (fget s egsSampleCtlIntervalUs g 0 * 1000)) = some k →
       ∃ t, exec (.queueSample g) s = .next t ∧ storeGet 0 t.tel.sampAt (72 * g + k) = s.clk
         ∧ ((s.tel.pend.filter fun r => r.slice == g / 6 && r.prio == 4).length < 512 →
             ∃ r, t.tel.pend = s.tel.pend ++ [r] ∧ r.slice = g / 6 ∧ r.prio = 4)
         ∧ (512 ≤ (s.tel.pend.filter fun r => r.slice == g / 6 && r.prio == 4).length → t.tel.pend = s.tel.pend
             ∧ count t .egs (6 * (g / 6)) 1 5 1 0 = min cntMax (count s .egs (6 * (g / 6)) 1 5 1 0 + 1)))
  ∧ (∀ (req : Requester) (sl : Nat) (v : Word) (s : State) (h : List Byte), sl < 8 → reqHere s req = true →
       pageReady s (pageOf .tel sl 1) = true → busFree s req (pageOf .tel sl 1) 0x34 = true →
       storeFind s.pg.mbx (pageOf .tel sl 1) = none →
       mbxNames s (pageOf .tel sl 1) 1 (some 1) = true → goBad s (pageOf .tel sl 1) (withBits v 1 0 3).toNat = false →
       storeFind s.tel.half (2 * sl + (if req = .host then 0 else 1)) = some h →
       (byteAt h 0 = 4 ∨ byteAt h 0 = 5 ∨ 128 ≤ byteAt h 0) →
       ∃ t, exec (.recordSubmit req sl v) s = .next t ∧ t = { s with cfg := t.cfg, pg := t.pg, tel := t.tel }
         ∧ (storeFind t.pg.mbx (pageOf .tel sl 1)).isSome = true
         ∧ storeFind t.tel.half (2 * sl + (if req = .host then 0 else 1)) = none
         ∧ count t .tel sl 1 2 4 0 = min cntMax (count s .tel sl 1 2 4 0 + 1)
         ∧ ∃ r, t.tel.pend = s.tel.pend ++ [r] ∧ r.slice = sl ∧ r.prio = 6
             ∧ r.bytes.take 16 = (mkRec s sl (byteAt h 0) (ofLE (slice h 4 4)) []).take 16)
  ∧ (∀ (s : State),
       (∃ t, exec .muslinRecordWrite s = .next t ∧ ∀ sl, sl < 8 → storeFind t.net.xferAt (32 + sl) = some s.clk)
       ∧ ((∀ sl, sl < 8 → storeFind s.net.xferAt (32 + sl) = some s.clk) → exec .muslinRecordWrite s = .next s))

/-- R377, R379: PPS_OUT_EDGE completes: PPS_OUT rises once for each second, with the ToD message of that second due 10 ms later. TOD_SEND
completes: the message leaves when due, in the form of Table 12-1. TOD_RECEIVE completes: a received message is kept only when its
length, preamble and CRC are right. R370, R378: PPS_IN_EDGE completes: an edge of PPS_IN is captured with its time, pulses line 73,
ends a silence and releases a load that waits for it. PPS_IN_LOST completes: a silence of 1.1 s that no edge of this clock ends is
reported once. R375, R378: TIMESTAMP_FIFO_POP and PPS_CAPTURE_READ complete: a mailbox read of the timestamp FIFO returns its oldest
entry and takes it off; a read of the capture returns its time and clears NEW; a read of an empty FIFO returns zeros. Concludes that
exec answers a next state for: .timestampFifoPop, .ppsOutEdge, .ppsInEdge, .ppsInLost, .ppsCaptureRead, .todSend, .todReceive. -/
def Obligations.TimeSignals : Prop :=
  (∀ (s : State),
       (fget s timCtlPpsOutEn 0 0 = 1 → s.tim.ppsOutSec < ppsNext s →
         ∃ t, exec .ppsOutEdge s = .next t ∧ t.out = s.out ++ [Emit.ppsOut] ∧ t.tim.ppsOutSec = ppsNext s
           ∧ t.tim.ppsRise = some s.clk
           ∧ (fget s timCtlTodTxEn 0 0 = 1 → t.tim.todDue = some (s.clk + clksOfNs 10000000, ppsNext s - 1)))
       ∧ (∀ at_ sec, s.tim.todDue = some (at_, sec) → at_ ≤ s.clk → fget s timCtlTodTxEn 0 0 = 1 →
         ∃ t, exec .todSend s = .next t ∧ t.out = s.out ++ [Emit.tod (todMsg s sec)] ∧ t.tim = { s.tim with todDue := none })
       ∧ (∀ bytes, fget s timCtlTodRxEn 0 0 = 1 →
         ∃ t, exec (.todReceive bytes) s = .next t
           ∧ (bytes.length = 16 → ofBE (bytes.take 2) = 0x4B5A → crc8 (slice bytes 2 13) = byteAt bytes 15 →
               t = { s with tim := { s.tim with tod := bytes } })
           ∧ (bytes.length ≠ 16 ∨ ofBE (bytes.take 2) ≠ 0x4B5A ∨ crc8 (slice bytes 2 13) ≠ byteAt bytes 15 → t.tim = s.tim
               ∧ count t .tim 0 0 4 7 0 = min cntMax (count s .tim 0 0 4 7 0 + 1))))
  ∧ (∀ (s : State), fget s timCtlPpsInEn 0 0 = 1 →
       (∀ sub, sub < 7 →
         ∃ t, exec (.ppsInEdge sub) s = .next t ∧ t = { s with cfg := t.cfg, ev := t.ev, tim := t.tim }
           ∧ t.tim.cap = [tbPort s sub, 1] ∧ t.tim.ppsInAt = s.clk ∧ t.tim.ppsLost = false
           ∧ storeGet 0 t.ev 73 = min 65535 (storeGet 0 s.ev 73 + 1)
           ∧ (fget s timStatLoadWait 0 0 = 1 → t.tim.loadDue = some (tickNext s) ∧ fget t timStatLoadWait 0 0 = 0))
       ∧ (s.tim.ppsLost = false → passedNs s s.tim.ppsInAt 1100000000 = true → (∀ sub, Instr.ppsInEdge sub ∉ s.pending) →
         ∃ t, exec .ppsInLost s = .next t ∧ t.tim = { s.tim with ppsLost := true }
           ∧ (pageReady s (pageOf .tim 0 0) = true → bit (actW t (regKey (pageOf .tim 0 0) 0x0C)).toNat 1 = true)))
  ∧ (∀ (req : Requester) (v : Word) (s : State), reqHere s req = true → pageReady s (pageOf .tim 0 0) = true →
       busFree s req (pageOf .tim 0 0) 0x34 = true →
       storeFind s.pg.mbx (pageOf .tim 0 0) = none → goBad s (pageOf .tim 0 0) (withBits v 1 0 1).toNat = false →
       (mbxNames s (pageOf .tim 0 0) 3 none = true →
         ∃ t op, exec (.timestampFifoPop req v) s = .next t ∧ storeFind t.pg.mbx (pageOf .tim 0 0) = some op ∧ op.owner = req
           ∧ t = { s with cfg := t.cfg, pg := t.pg, tim := t.tim, ev := t.ev }
           ∧ (s.tim.fifo.length ≤ 1024 → t = { s with cfg := { s.cfg with act := t.cfg.act }, pg := t.pg, tim := t.tim })
           ∧ (s.tim.fifo = [] → t.tim = s.tim ∧ op.data = [0, 0, 0, 0])
           ∧ ∀ e r, s.tim.fifo = e :: r → t.tim = { s.tim with fifo := r }
             ∧ op.data = ((2 ^ 31 + e.getD 0 0 % 512 * 65536 + e.getD 1 0 % 65536)
                 :: timeWords (e.getD 2 0) (e.getD 3 0)).map (BitVec.ofNat 32))
       ∧ (mbxNames s (pageOf .tim 0 0) 2 none = true → ∀ at_ new, s.tim.cap = [at_, new] →
         ∃ t op, exec (.ppsCaptureRead req v) s = .next t ∧ storeFind t.pg.mbx (pageOf .tim 0 0) = some op ∧ op.owner = req
           ∧ t = { s with cfg := { s.cfg with act := t.cfg.act }, pg := t.pg, tim := { s.tim with cap := [at_, 0] } }
           ∧ op.data = (timeWords (nsOf at_) (fracOf at_) ++ [new]).map (BitVec.ofNat 32)))

/-- R380, R381: a sample raises the count and one bin, of the power of two its delay lies in; the sum saturates at 48 bits and says so.
R382, R383, R388: HISTOGRAM_WINDOW_END completes: the window closes with its core clock. A window that closes leaves every queue of its
slice a fresh histogram (a memory error waits for the next record of its queue), no other slice's changed, and a record for each chosen
queue. LEDGER_SNAPSHOT completes: it is dated and leaves a record for each port and each used source. Concludes that exec answers a
next state for: .histogramWindowEnd, .ledgerSnapshot. -/
def Obligations.HistogramsCount : Prop :=
  (∀ (h : Hist) (d : Nat), h.bins.length = 16 →
       (histAdd h d).bins.length = 16 ∧ (histAdd h d).cnt = min (2 ^ 32 - 1) (h.cnt + 1)
       ∧ histBin d ≤ 15 ∧ (1 ≤ histBin d → 256 * 2 ^ (histBin d - 1) ≤ d) ∧ (histBin d < 15 → d < 256 * 2 ^ histBin d)
       ∧ (histAdd h d).bins.getD (histBin d) 0 = min (2 ^ 32 - 1) (h.bins.getD (histBin d) 0 + 1)
       ∧ (∀ b, b ≠ histBin d → (histAdd h d).bins.getD b 0 = h.bins.getD b 0)
       ∧ (h.sat = false → h.sum + d < 2 ^ 48 → (histAdd h d).sum = h.sum + d ∧ (histAdd h d).sat = false)
       ∧ (2 ^ 48 ≤ h.sum + d → (histAdd h d).sum = 2 ^ 48 - 1 ∧ (histAdd h d).sat = true)
       ∧ (h.sat = true → (histAdd h d).sum = 2 ^ 48 - 1 ∧ (histAdd h d).sat = true))
  ∧ (∀ (sl : Nat) (s : State), sl < 8 →
       (running s = true → fget s telHistCtlWinMs sl 0 ≠ 0 → nsOf (tbNow s) / 1000000 % fget s telHistCtlWinMs sl 0 = 0 →
           storeFind s.tel.winAt sl ≠ some (nsOf (tbNow s) / 1000000) →
         ∃ t, exec (.histogramWindowEnd sl) s = .next t
           ∧ t = { s with tel := { s.tel with closing := s.tel.closing ++ [sl], winAt := t.tel.winAt } }
           ∧ storeFind t.tel.winAt sl = some (nsOf (tbNow s) / 1000000))
       ∧ (∀ k, k < 432 → ∃ e, storeGet histZero (windowClose s sl).tel.hist (432 * sl + k) = { histZero with memErr := e })
       ∧ (∀ k, k < 432 → portBit s sl (k / 9) telHistPortsLoPorts telHistPortsHiPorts = true →
           storeGet histZero (windowClose s sl).tel.hist (432 * sl + k) = histZero)
       ∧ (∀ k, k / 432 ≠ sl → storeGet histZero (windowClose s sl).tel.hist k = storeGet histZero s.tel.hist k)
       ∧ (windowClose s sl).tel.pend.length = s.tel.pend.length + ((List.range 432).filter fun k =>
           portBit s sl (k / 9) telHistPortsLoPorts telHistPortsHiPorts).length
       ∧ (running s = true → fget s telSnapCtlSnapMs sl 0 ≠ 0 →
           passedNs s (storeGet 0 s.tel.snapAt sl) (fget s telSnapCtlSnapMs sl 0 * 1000000) = true →
         ∃ t, exec (.ledgerSnapshot sl) s = .next t ∧ storeFind t.tel.snapAt sl = some s.clk
           ∧ s.tel.pend.length + 48 ≤ t.tel.pend.length ∧ t.net = s.net))

/-- R55, R451: a firing of a source of a ready page sets its INT_STATUS bit, and sends one message on the page's vector exactly when the
bit was 0, is enabled, and the severity is SEV1 or higher; the bits of other sources stay, and nothing but the configuration, the
pages' bookkeeping and the output changes so far. A source of a page that is not ready does not fire (R465). R455, R457-R461: what a
firing of a ready page's source does by its severity: from SEV2 its units take no new work, from SEV3 FAULT_N asserts, at SEV4 the
grave latch sets and the data plane stops; below, none of these. HCH source 6 contains its channel at every severity. -/
def Obligations.FaultsAct : Prop :=
  (∀ (s : State) (page src : Nat), src < 16 →
       (pageReady s page = true →
         fireLow s page src = severe (notify s page src (sevOf s page src)) page src (sevOf s page src))
       ∧ (page ≠ 0 → pageReady s page = false → fireLow s page src = s ∧ fire s page src = s)
       ∧ bit (actW (notify s page src (sevOf s page src)) (regKey page 0x0C)).toNat src = true
       ∧ (∀ n, n < 32 → n ≠ src → bit (actW (notify s page src (sevOf s page src)) (regKey page 0x0C)).toNat n
           = bit (actW s (regKey page 0x0C)).toNat n)
       ∧ (notify s page src (sevOf s page src)).out
           = s.out ++ (if bit (actW s (regKey page 0x0C)).toNat src = false
               ∧ bit (actW s (regKey page 0x10)).toNat src = true ∧ 1 ≤ sevOf s page src
             then [Emit.msix ((actW s (regKey page 0x14)).toNat % 2048)] else [])
       ∧ notify s page src (sevOf s page src) = { s with
           cfg := (notify s page src (sevOf s page src)).cfg, pg := (notify s page src (sevOf s page src)).pg
           out := (notify s page src (sevOf s page src)).out })
  ∧ (∀ (s : State) (page src : Nat), pageReady s page = true →
       (2 ≤ sevOf s page src → ∀ u ∈ unitsOf s page src, isContained (fire s page src) u = true)
       ∧ (∀ r, pageRow page = some r → r.blk = .hch → src = 6 → ∀ u ∈ unitsOf s page src, isContained (fire s page src) u = true)
       ∧ (3 ≤ sevOf s page src → (fire s page src).flt.faultN = true)
       ∧ (4 ≤ sevOf s page src → (fire s page src).flt.grave = true ∧ running (fire s page src) = false)
       ∧ (sevOf s page src < 2 → (∀ r, pageRow page = some r → r.blk ≠ .hch) → (fire s page src).flt = s.flt
           ∧ (fire s page src).net = s.net))

/-- R456-R459, R465, R479: CONTAINMENT_COMPLETE completes: a walk that is over leaves its unit contained. WARM_RESET and AUTO_WARM
complete: a warm reset asked for by the pin, or due after AUTO_DELAY_US, begins (the data plane is down, no page of it is ready); by
the register it begins as the write says. WARM_RESET_COMPLETE completes: it releases FAULT_N. Concludes that exec answers a next state
for: .containmentComplete, .autoWarm, .warmReset, .warmResetComplete. -/
def Obligations.ContainmentAndWarmReset : Prop :=  ∀ (s : State),
    (∀ n e, n < 4096 → s.flt.containing[n]? = some e → s.flt.stopped = false → e.2 < s.clk →
      ∃ t, exec (.containmentComplete n) s = .next t ∧ e.1 ∈ t.flt.contained ∧ isContained t e.1 = true)
    ∧ (∀ req v, s.boot.por = true → s.flt.warmAt = none →
      ∃ t, exec (.warmReset req true v) s = .next t ∧ t.flt.warmAt = some s.clk ∧ t.boot.dpUp = false
        ∧ t.net.pkts = [] ∧ t.net.items = [] ∧ t.tbl.chd = [] ∧ running t = false)
    ∧ (∀ req v, ∃ t, exec (.warmReset req false v) s = .next t
        ∧ t = { commandWrite s (.warmReset req false v) with pending := s.pending, clk := s.clk })
    ∧ (∀ since, s.flt.sev3At = some since → s.boot.por = true → s.flt.warmAt = none → fget s glbFaultCtlAutoWarm 0 0 = 1 →
        passedNs s since (fget s glbFaultCtlAutoDelayUs 0 0 * 1000) = true →
      ∃ t, exec .autoWarm s = .next t ∧ t.flt.warmAt = some s.clk ∧ t.boot.dpUp = false)
    ∧ (∀ since, s.flt.warmAt = some since →
      ∃ t, exec .warmResetComplete s = .next t ∧ t = { s with flt := { s.flt with warmAt := none, faultN := false } })

/-- R23, R32, R455, R486, R507: DIE_LINK_REPLAY and DIE_LINK_REPLAY_END complete: a replayed flit stalls the die link and its end resumes
it. DIE_LINK_FAILURE, CORE_RAIL_FAULT and PLL_LOSS_OF_LOCK complete: errors that last longer than 1 ms, a rail out of its limits and
loss of the root clock fire their GLB sources, at SEV4; the loss of a chiplet's clock unlocks its lanes, of a stack's contains its
channels. THERMAL_SENSOR_PASS completes: the temperature is held, and 120 °C first reached is SEV4. Concludes that exec answers a next
state for: .pllLossOfLock, .dieLinkReplay, .dieLinkFailure, .thermalSensorPass, .coreRailFault, .dieLinkReplayEnd. -/
def Obligations.ClocksRailsAndHeat : Prop :=  ∀ (s : State), s.boot.por = true →
    (s.boot.locked = true → ∃ t, exec .dieLinkReplay s = .next t ∧ t.net.linkStall.isSome = true)
    ∧ (s.net.linkStall.isSome = true →
      ∃ t, exec .dieLinkReplayEnd s = .next t ∧ t = { s with cfg := t.cfg, net := { s.net with linkStall := none } }
        ∧ ∀ j, j < 8 → fget t twlStatReplayStall j 0 = 0)
    ∧ (∀ since, s.net.linkStall = some since → since * 16 + 25000000 < nowU s →
      ∃ t, exec .dieLinkFailure s = .next t ∧ t.flt.grave = true ∧ t.flt.faultN = true)
    ∧ (armed s = true → ∃ t, exec .coreRailFault s = .next t ∧ t.flt.grave = true ∧ t.flt.faultN = true)
    ∧ (armed s = true → ∃ t, exec (.pllLossOfLock 0) s = .next t ∧ t.flt.grave = true)
    ∧ (∀ n, n < 8 → armed s = true → running s = true →
      ∃ t, exec (.pllLossOfLock (n + 1)) s = .next t
        ∧ ∀ k, k < 48 → fget t sdsLaneStatPllLock (48 * n + k) 0 = 0 ∧ fget t sdsLaneStatCdrLock (48 * n + k) 0 = 0)
    ∧ (∀ x, x < 6 → armed s = true → stackOff s x = false →
      ∃ t, exec (.pllLossOfLock (x + 9)) s = .next t
        ∧ ∀ k, k < 32 → pageReady s (pageOf .hch (32 * x + k) 0) = true →
          isContained t (.chan (32 * x + k)) = true)
    ∧ (∀ tj, tj < 256 → armed s = true →
      ∃ t, exec (.thermalSensorPass tj) s = .next t ∧ fget t glbThermTjC 0 0 = tj
        ∧ (fget s glbThermTjC 0 0 < 120 → 120 ≤ tj → t.flt.grave = true))

/-- R466, R485, R492, R494: POR_N_ASSERT, POR_N_RELEASE, FUSE_SENSE, ROOT_PLL_LOCK, PLL_LOCK_TIMEOUT and GRAVE_LATCH_CLEAR complete. POR_N
falling resets everything but the grave latch and its cause; rising, it starts the boot; good fuses make FUSE_SKU valid, bad ones are
SEV4; the root PLL's lock, or 1 ms without it, starts the management plane at the time base's zero, with thread 0 running and the boot
in ROM_INIT; only the removal of the supplies clears the grave latch. Concludes that exec answers a next state for: .porNAssert,
.porNRelease, .fuseSense, .rootPllLock, .pllLockTimeout, .graveLatchClear. -/
def Obligations.PowerOn : Prop :=  ∀ (s : State),
    (∃ t, exec .porNAssert s = .next t ∧ t.boot = State.reset.boot ∧ t.net = State.reset.net ∧ t.flt.grave = s.flt.grave
      ∧ actW t graveKey = actW s graveKey ∧ (∀ k, k ≠ graveKey → actW t k = resetOf k) ∧ t.hol = State.reset.hol)
    ∧ (s.boot.por = false →
      ∃ t, exec .porNRelease s = .next t ∧ t = { s with boot := { s.boot with por := true, porAt := s.clk } })
    ∧ (∀ code mv0 mv1, code < 16 → mv0 < 1024 → mv1 < 1024 → s.boot.por = true → s.boot.fuses = 0 →
      ∃ t, exec (.fuseSense true code mv0 mv1) s = .next t ∧ t.boot = { s.boot with fuses := 1 }
        ∧ fget t glbFuseSkuCode 0 0 = code ∧ fget t glbAvsDie0Mv 0 0 = mv0 ∧ fget t glbAvsDie1Mv 0 0 = mv1)
    ∧ (∀ code mv0 mv1, code < 16 → mv0 < 1024 → mv1 < 1024 → s.boot.por = true → s.boot.fuses = 0 →
      ∃ t, exec (.fuseSense false code mv0 mv1) s = .next t ∧ t.boot = { s.boot with fuses := 2 } ∧ t.flt.grave = true)
    ∧ (s.boot.fuses ≠ 0 → s.boot.mgmtUp = false →
      ∃ t, exec .rootPllLock s = .next t ∧ t.boot.mgmtUp = true ∧ t.boot.locked = true
        ∧ t.tim = { s.tim with lockU := nowU s, base := 0, baseTick := 0 } ∧ fget t bootStatPhase 0 0 = 1)
    ∧ (s.boot.por = true → s.boot.mgmtUp = false → passedNs s s.boot.porAt 1000000 = true →
        Instr.rootPllLock ∉ s.pending →
      ∃ t, exec .pllLockTimeout s = .next t ∧ t.boot.mgmtUp = true ∧ t.boot.locked = false ∧ fget t bootStatPhase 0 0 = 1)
    ∧ (s.boot.por = false →
      ∃ t, exec .graveLatchClear s = .next t ∧ t.flt.grave = false ∧ actW t graveKey = 0
        ∧ ∀ k, k ≠ graveKey → actW t k = actW s k)

/-- R468-R475: FLASH_DIRECTORY_READ, CONTAINER_CHECK, DATA_PLANE_RELEASE and LIMITED_MODE_ENTRY complete. In ROM_INIT a good flash
directory is searched (FLASH) unless the source is the host, a bad one leads to the host when the source allows it; a container's
RESULT is that of the checks of R471; when every required image is applied the data plane is released; a failure leads to limited mode
with its reason. R469: HOST_BUNDLE_GO completes: HOST_CTL.GO in HOST_WAIT or LIMITED with the link up asks the host for the HOST_LEN
bytes at HOST_ADDR and enters HOST_LOAD; in another phase it does nothing. Concludes that exec answers a next state for:
.flashDirectoryRead, .containerCheck, .hostBundleGo, .dataPlaneRelease, .limitedModeEntry. -/
def Obligations.BootProceeds : Prop :=
  (∀ (s : State),
       (∀ bytes, fget s bootStatPhase 0 0 = 1 → s.boot.dirRead = false → s.boot.mgmtUp = true →
         ∃ t, exec (.flashDirectoryRead bytes) s = .next t ∧ t.boot.dirRead = true
           ∧ (fget s bootCtlSrc 0 0 = 1 → fget t bootStatPhase 0 0 = 3)
           ∧ (∀ d, fget s bootCtlSrc 0 0 ≠ 1 → readDir bytes = some d → fget t bootStatPhase 0 0 = 2 ∧ t.boot.dir = d)
           ∧ (fget s bootCtlSrc 0 0 = 0 → readDir bytes = none → fget t bootStatPhase 0 0 = 3))
       ∧ (∀ src bytes e, src < 2 → fget s bootStatPhase 0 0 = 2 → s.boot.hostLeft = 0 → nextEntry s = some e → e.2.1 = src →
           bytes.length = e.2.2.2 → bytes.length = cSize bytes → cType bytes = e.1 →
         ∃ t, exec (.containerCheck src bytes true true true) s = .next t
           ∧ fget t bootImgStatResult 0 (e.1 - 1)
               = containerResult { s with boot := { s.boot with dir := s.boot.dir.erase e } } bytes true true true)
       ∧ (s.boot.mgmtUp = true → s.hol.restartAt = none → s.flt.warmAt = none → fusesFail s = false → s.flt.grave = false →
           (∀ n, n ∈ [1, 2, 3, 4] → typeClosed s n = true ∨ typeDone s n = true) → (∀ n, n ∈ [1, 2, 3, 4] → typeFailed s n = false) →
         ∃ t, exec .dataPlaneRelease s = .next t ∧ t.boot.dpUp = true ∧ fget t bootStatPhase 0 0 = 6)
       ∧ (∀ n, s.boot.mgmtUp = true → s.hol.restartAt = none → s.flt.warmAt = none →
           fget s bootStatPhase 0 0 ≠ 0 → fget s bootStatPhase 0 0 ≠ 3 → fget s bootStatPhase 0 0 < 6 → fusesFail s = false →
           ([1, 2, 3, 4].find? (typeFailed s)) = some n →
         ∃ t, exec .limitedModeEntry s = .next t ∧ fget t bootStatPhase 0 0 = 7 ∧ fget t bootStatLimitReason 0 0 = 1 + n
           ∧ t.boot.dpUp = false))
  ∧ (∀ (req : Requester) (v : Word) (s : State), reqHere s req = true → pageReady s (pageOf .boot 0 0) = true →
       busFree s req (pageOf .boot 0 0) 0x13C = true →
       ((fget s bootStatPhase 0 0 = 3 ∨ fget s bootStatPhase 0 0 = 7) → hostThere s = true →
         ∃ t, exec (.hostBundleGo req v) s = .next t ∧ fget t bootStatPhase 0 0 = 4 ∧ fget t bootHostStatState 0 0 = 1
           ∧ t.boot.hostLeft = fget s bootHostLenLen 0 0 ∧ t.boot.images.length ≤ s.boot.images.length
           ∧ t.out = s.out ++ [Emit.hostRead 31 (fget s bootHostAddrHiAddr 0 0 * 2 ^ 32 + fget s bootHostAddrLoAddr 0 0 * 64)
               (fget s bootHostLenLen 0 0)]
           ∧ t.net = s.net ∧ t.hbm = s.hbm)
       ∧ (fget s bootStatPhase 0 0 ≠ 3 → fget s bootStatPhase 0 0 ≠ 7 →
         ∃ t, exec (.hostBundleGo req v) s = .next t ∧ t = { s with cfg := t.cfg, pg := t.pg } ∧ ∀ k, actW t k = actW s k))

/-- R496, R500, R502, R503: PERST_N, PCIE_LINK_DOWN, PCIE_LINK_UP, D3HOT_ENTRY, SMBUS_BLOCK_READ, SMBUS_WRITE and SMBUS_TIMEOUT complete.
PERST_N and a link that goes down take the link away, training gives it back with its replay budget, D3hot is noted with every DMA
channel stopped; an SMBus block read answers a count of 4 and the register, least significant byte first, or zeros; an SMBus write is
acknowledged and does nothing; a timeout leaves nothing behind. Concludes that exec answers a next state for: .perstN, .smbusBlockRead,
.smbusWrite, .smbusTimeout, .pcieLinkDown, .pcieLinkUp, .d3hotEntry. -/
def Obligations.OutsideWorld : Prop :=  ∀ (s : State),
    (∃ t, exec .perstN s = .next t ∧ t.boot = { s.boot with link := false, d3 := false } ∧ t.net = s.net ∧ t.tbl = s.tbl
      ∧ fget t dmaxReplayNsNs 32 0 = 0 ∧ isUnlocked t .host (pageOf .pcie 0 0) = false)
    ∧ (s.boot.link = true → ∃ t, exec .pcieLinkDown s = .next t ∧ t.boot.link = false ∧ fget t dmaxReplayNsNs 32 0 = 0)
    ∧ (∀ gen width replay, 3 ≤ gen → gen < 7 → width < 9 → replay < 4294967296 →
      ∃ t, exec (.pcieLinkUp gen width replay) s = .next t ∧ t = { s with cfg := t.cfg, boot := { s.boot with link := true } }
        ∧ fget t dmaxReplayNsNs 32 0 = replay)
    ∧ (∃ t, exec .d3hotEntry s = .next t ∧ t.boot.d3 = true ∧ ∀ c, c < 32 → (c ∈ s.dma.chans.map (·.1)) → dmaFree t c = true)
    ∧ (∀ code, code < 256 →
      exec (.smbusBlockRead code) s = .next { s with out := s.out ++ [Emit.smbus (4 :: toLE 4 ((smbusReg code).elim 0
        fun r => (actW s (regKey r.1 r.2)).toNat))] })
    ∧ (∀ bytes, exec (.smbusWrite bytes) s = .next { s with out := s.out ++ [Emit.smbusAck] })
    ∧ exec .smbusTimeout s = .next s

/-- R416: CONTROL_PLANE_RESTART completes: a keyed CL_CTL.RESTART stops the cluster at this clock: RESTARTING sets, the window cache and
the TCMs are empty, shared memory stays, no context waits; a second one while it restarts changes nothing but the lock. Table 13-12,
R409, R410, R416, R436: CLUSTER_TIMER_EXPIRY, PUNT_RECORD_WRITE, INJECT_DESCRIPTOR and CLUSTER_RESTART_DONE complete: a cluster timer
that has run pulses its line, and stops when it is one-shot; the punt that came first on an enabled queue with room is written; the
inject queue whose turn it is enters its frame, or ends its descriptor with the status of its error; the restart ends with context 0.0
alone running at the boot ROM. R27, R410: a frame that is injected enters the slice of its queue as a whole frame with a good FCS,
under a new number, at the time it enters. Concludes that exec answers a next state for: .clusterTimerExpiry, .puntRecordWrite,
.injectDescriptor, .controlPlaneRestart, .clusterRestartDone. -/
def Obligations.ClusterEngines : Prop :=
  (∀ (req : Requester) (v : Word) (s : State), reqHere s req = true → pageReady s (pageOf .holx 16 0) = true →
       busFree s req (pageOf .holx 16 0) 0x100 = true →
       (isUnlocked s req (pageOf .holx 16 0) = true → s.hol.restartAt = none →
         ∃ t, exec (.controlPlaneRestart req v) s = .next t
           ∧ ((∀ l ∈ s.hol.cache, l.dirty = false) → t = { s with cfg := t.cfg, pg := t.pg, hol := t.hol })
           ∧ t.net.items = s.net.items ∧ t.tbl = s.tbl ∧ t.tim = s.tim ∧ t.dma = s.dma ∧ t.prn = s.prn ∧ t.boot = s.boot
           ∧ t.hol.restartAt = some s.clk ∧ fget t holxClStatRestarting 16 0 = 1 ∧ t.hol.cache = []
           ∧ t.hol.mem = s.hol.mem.filter (fun e => decide (shmBase ≤ e.1))
           ∧ (∀ e ∈ t.hol.harts, e.2.st ≠ .waitEvent ∧ e.2.st ≠ .waitJoin ∧ e.2.st ≠ .waitMem)
           ∧ count t .holx 16 0 8 5 0 = min cntMax (count s .holx 16 0 8 5 0 + 1))
       ∧ ((isUnlocked s req (pageOf .holx 16 0) = false ∨ s.hol.restartAt ≠ none) →
         ∃ t, exec (.controlPlaneRestart req v) s = .next t ∧ t = { s with cfg := t.cfg, pg := t.pg } ∧ ∀ k, actW t k = actW s k))
  ∧ (∀ (s : State),
       (∀ i, i < 16 → s.boot.mgmtUp = true → fget s holxTmrEn 16 i = 1 →
           storeGet 0 s.hol.tmrAt i + fget s holxTmrPeriodUs 16 i * 25000 ≤ nowU s →
         ∃ t, exec (.clusterTimerExpiry i) s = .next t ∧ t = { s with cfg := t.cfg, ev := t.ev, hol := { s.hol with tmrAt := t.hol.tmrAt } }
           ∧ t.ev = (pulse s (16 + i)).ev
           ∧ (fget s holxTmrOneshot 16 i = 1 → fget t holxTmrEn 16 i = 0)
           ∧ (fget s holxTmrOneshot 16 i = 0 → storeGet 0 t.hol.tmrAt i
               = storeGet 0 s.hol.tmrAt i + fget s holxTmrPeriodUs 16 i * 25000))
       ∧ (∀ q u, q < 64 → puntNext s q = some u → puntRoom s q = true → feReady s = true →
         ∃ t, exec (.puntRecordWrite q) s = .next t ∧ t = { puntWrite s q u with pending := s.pending, clk := s.clk }
           ∧ t.hol.punts = s.hol.punts.filter (fun x => x.pkt != u.pkt)
           ∧ t.net.pkts = s.net.pkts ∧ t.net.items = s.net.items)
       ∧ (∀ q, q < 64 → feReady s = true → puntWaits s = false → iqPick s = some q →
         (∀ f, prnQueue s q = true → prnFirst s = some f → iqRoom s q f.bytes.length = true →
           ∃ t, exec (.injectDescriptor q) s = .next t
             ∧ t = { iqServed (injectFrame { s with prn := { s.prn with outq := s.prn.outq.erase f } } q f.bytes 0 0 0) q with
                     pending := s.pending, clk := s.clk })
         ∧ (let a := fget s holxIqBaseAddr 16 q * 256 + 32 * fget s holxIqPtrHead 16 q
           prnQueue s q = false →
           (∀ u, engineRead s a 32 = (none, u) →
             ∃ t, exec (.injectDescriptor q) s = .next t ∧ t = { iqBad u q a 3 with pending := s.pending, clk := s.clk })
           ∧ (∀ d u, engineRead s a 32 = (some d, u) → (ofLE (slice d 8 2) < 60 ∨ 16124 < ofLE (slice d 8 2)) →
             ∃ t, exec (.injectDescriptor q) s = .next t ∧ t = { iqBad u q a 2 with pending := s.pending, clk := s.clk })
           ∧ (∀ d u frame v, engineRead s a 32 = (some d, u) → 60 ≤ ofLE (slice d 8 2) → ofLE (slice d 8 2) ≤ 16124 →
               engineRead u (ofLE (slice d 0 8)) (ofLE (slice d 8 2)) = (some frame, v) → iqRoom v q (ofLE (slice d 8 2)) = true →
             ∃ t, exec (.injectDescriptor q) s = .next t
               ∧ t = { iqEnd (injectFrame v q frame (byteAt d 10 % 4) (ofLE (slice d 12 2)) (ofLE (slice d 14 2))) q a 1 with
                       pending := s.pending, clk := s.clk })))
       ∧ (s.hol.restartAt ≠ none →
         ∃ t, exec .clusterRestartDone s = .next t ∧ t.hol.restartAt = none ∧ fget t holxClStatRestarting 16 0 = 0
           ∧ (hartOf t 0).st = .ready ∧ (hartOf t 0).pc = 0 ∧ (hartOf t 0).user = false
           ∧ (∀ h, h ≠ 0 → (hartOf t h).st = .idle)
           ∧ fget t bootStatPhase 0 0 = 1 ∧ t.net = s.net ∧ t.hbm = s.hbm))
  ∧ (∀ (s : State) (q mode off tag : Nat) (frame : List Byte),
       ∃ k, (injectFrame s q frame mode off tag).net.pkts = s.net.pkts ++ [k] ∧ k.id = s.net.nextId ∧ k.src = .inject q
         ∧ k.slice = injSlice s q ∧ k.stage = .holding ∧ k.tail = true ∧ k.fcsBad = false ∧ k.data.take frame.length = frame
         ∧ k.data.length = frame.length + 4 ∧ k.tsMode = mode ∧ k.tsOff = off ∧ k.tsTag = tag
         ∧ (injectFrame s q frame mode off tag).net.nextId = s.net.nextId + 1)

/-- R418, R419, R424: DESCRIPTOR_FETCH completes: a fetched descriptor with the channel's GEN, not yet done and not bad is taken and its
bursts begin; one with another GEN halts the channel with code 3, one already done with code 4; a late completion is dropped and
counted; a fetch that failed follows R424. R420, R426, R430: TABLE_RECORD_WRITE and CHAIN_END complete: a record reaches its table
while its target takes writes, and stalls the channel (STATE 2) while it does not; a chain that has ended makes its channel idle with
HALT 1 and gives its pulse, or with SUPPRESS_BAD and a bad descriptor HALT 2 and no pulse. Concludes that exec answers a next state
for: .descriptorFetch, .dmaReadCompletion, .tableRecordWrite, .chainEnd. -/
def Obligations.DmaChains : Prop :=
  (∀ (c : Nat) (bytes : List Byte) (s : State), c < 32 → s.boot.mgmtUp = true → isContained s (.dma c) = false →
       (hostThere s = true → (dmaCh s c).phase = 1 → fget s dmacChCfgDescSpace c 0 = 0 → bytes.length = 32 →
         (byteAt bytes 29 = (dmaCh s c).gen → byteAt bytes 30 ≠ (dmaCh s c).gen → descBad bytes = false → (dmaCh s c).stop = false →
           ∃ t, exec (.descriptorFetch c bytes false) s = .next t ∧ t = { s with cfg := t.cfg, dma := t.dma }
             ∧ dmaCh t c = { dmaCh s c with tries := 0, desc := bytes, phase := 2, since := s.clk, waited := 0 }
             ∧ dmaState t c = 1)
         ∧ (byteAt bytes 29 ≠ (dmaCh s c).gen →
           ∃ t, exec (.descriptorFetch c bytes false) s = .next t ∧ dmaState t c = 4 ∧ fget t dmacChStatHalt c 0 = 3)
         ∧ (byteAt bytes 29 = (dmaCh s c).gen → byteAt bytes 30 = (dmaCh s c).gen →
           ∃ t, exec (.descriptorFetch c bytes false) s = .next t ∧ dmaState t c = 4 ∧ fget t dmacChStatHalt c 0 = 4))
       ∧ ((dmaCh s c).phase = 1 → fget s dmacChCfgDescSpace c 0 = 0 → bytes.length ≠ 32 →
         ∃ t, exec (.descriptorFetch c bytes false) s = .next t ∧ t = { fetchFailed s c with pending := s.pending, clk := s.clk })
       ∧ ((dmaCh s c).phase = 1 → fget s dmacChCfgDescSpace c 0 = 1 → inShm (dmaCh s c).loc 32 = true → holEcc s (dmaCh s c).loc = (false, s) →
         ∃ t, exec (.descriptorFetch c bytes false) s = .next t
           ∧ t = { descIn s c (memBytes s (dmaCh s c).loc 32) with pending := s.pending, clk := s.clk })
       ∧ ((dmaCh s c).late ≠ 0 → ∀ i ∈ [Instr.descriptorFetch c bytes true, .dmaReadCompletion c bytes true],
         ∃ t, exec i s = .next t ∧ t = { s with cfg := { s.cfg with cnt := t.cfg.cnt }, dma := t.dma }
           ∧ dmaCh t c = { dmaCh s c with late := (dmaCh s c).late - 1 }
           ∧ count t .dmac c 0 1 4 0 = min cntMax (count s .dmac c 0 1 4 0 + 1)))
  ∧ (∀ (c : Nat) (s : State), c < 32 → s.boot.mgmtUp = true →
       (∀ r, tablePort (dPort (dmaCh s c).desc) (dInst (dmaCh s c).desc) = some r → (dmaCh s c).phase = 4 →
           isContained s (.dma c) = false → r.1 ≤ (dmaCh s c).buf.length →
         (recordWaits s (dPort (dmaCh s c).desc) r.2 = false →
           ∃ t, exec (.tableRecordWrite c) s = .next t
             ∧ t = { recordNext (recordTake s c r.1 r.2) c r.1 with pending := s.pending, clk := s.clk })
         ∧ (recordWaits s (dPort (dmaCh s c).desc) r.2 = true → (dmaCh s c).stallAt = none →
           ∃ t, exec (.tableRecordWrite c) s = .next t ∧ t = { s with cfg := t.cfg, dma := t.dma } ∧ dmaState t c = 2
             ∧ dmaCh t c = { dmaCh s c with stallAt := some s.clk }))
       ∧ ((dmaCh s c).phase = 5 → fget s dmacBadCountN c 0 = 0 →
         (fget s dmacChCfgPulse c 0 ≠ 3 →
           ∃ t, exec (.chainEnd c) s = .next t ∧ dmaState t c = 0 ∧ fget t dmacChStatHalt c 0 = 1 ∧ (dmaCh t c).phase = 0
             ∧ t.net = s.net ∧ t.hol = s.hol
             ∧ (fget s dmacChCfgPulse c 0 = 2 → t.ev = (pulse s (144 + c)).ev)
             ∧ (fget s dmacChCfgPulse c 0 = 0 → t = { s with cfg := t.cfg, dma := t.dma })
             ∧ (fget s dmacChCfgPulse c 0 = 1 → (∀ f ∈ s.pg.flips, ∀ r ∈ f.reqs, Nat.land f.groups r.1 = r.1) →
                 ∀ g, g < 16 → bit (fget s dmacChCfgStrobeMask c 0) g = true → groupPending t g = true))
         ∧ (∀ d, fget s dmacChCfgPulse c 0 = 3 → fget s dmacChCfgChainCh c 0 = d → d ≠ c → dmaFree s d = true →
             isContained s (.dma d) = false →
           ∃ t, exec (.chainEnd c) s = .next t ∧ dmaState t c = 0 ∧ dmaState t d = 1 ∧ (dmaCh t d).phase = 1))
       ∧ ((dmaCh s c).phase = 5 → fget s dmacBadCountN c 0 ≠ 0 → fget s dmacChCfgSuppressBad c 0 = 1 →
         ∃ t, exec (.chainEnd c) s = .next t ∧ t = { s with cfg := t.cfg, dma := t.dma } ∧ dmaState t c = 0
           ∧ fget t dmacChStatHalt c 0 = 2))

/-- R421, R422, R427, R428: DMA_BURST, DMA_READ_COMPLETION and DMA_COMPLETION_TIMEOUT complete: the channel the arbitration picks is
granted a burst of at most 512 bytes up to the next 512-byte boundary of its source: from the host, one read request; its data reaches
the destination and the channel goes on; an error or a timeout of it follows R427 and R428. R421: the arbitration picks a channel that
has a burst ready; unless some ready channel has been passed over fifteen times, no ready channel has a smaller PRIO. R428: on the main
path a descriptor that ends with an error is marked, counted in BAD_COUNT, and the chain goes on; in fall-back the channel halts with
code 6. Concludes that exec answers a next state for: .dmaBurst, .dmaReadCompletion, .dmaCompletionTimeout. -/
def Obligations.DmaBursts : Prop :=
  (∀ (c : Nat) (s : State), c < 32 → s.boot.mgmtUp = true →
       (burstPick s = some c → s.dma.lastBurst.elim true (fun t => decide (t + 8 ≤ s.clk)) = true →
         ∃ t, exec (.dmaBurst c) s = .next t
           ∧ t = { tryBurst 17 (modCh (dmaGrant s c) c fun y => { y with len := burstLen (dmaCh s c), waited := 0 }) c with
                   pending := s.pending, clk := s.clk }
           ∧ (dSrcSpace (dmaCh s c).desc = 0 → hostThere s = true →
               t = { s with dma := t.dma, out := t.out } ∧ (dmaCh t c).phase = 3 ∧ t.dma.lastBurst = some s.clk
               ∧ (dmaCh t c).len ≤ 512
               ∧ t.out = s.out ++ [Emit.hostRead c (dSrc (dmaCh s c).desc + (dmaCh s c).moved) (burstLen (dmaCh s c))]))
       ∧ (burstPick s ≠ some c → exec (.dmaBurst c) s = .next s)
       ∧ (∀ bytes, (dmaCh s c).phase = 3 → hostThere s = true → bytes.length = (dmaCh s c).len →
           dDstSpace (dmaCh s c).desc = 2 →
         ∃ t, exec (.dmaReadCompletion c bytes false) s = .next t
           ∧ t = { burstDone (memWrite s ((dDst (dmaCh s c).desc + (dmaCh s c).moved) % 2 ^ 36) bytes) c (dmaCh s c).len with
                   pending := s.pending, clk := s.clk })
       ∧ (∀ bytes, (dmaCh s c).phase = 3 → bytes.length ≠ (dmaCh s c).len →
         ∃ t, exec (.dmaReadCompletion c bytes false) s = .next t
           ∧ t = { readFailed s c 0x81 with pending := s.pending, clk := s.clk })
       ∧ (passedNs s (dmaCh s c).reqAt (fget s dmacChTmoTmoUs c 0 * 1000) = true → s.pending.any (dmaComes c) = false →
         ((dmaCh s c).phase = 3 →
           ∃ t, exec (.dmaCompletionTimeout c) s = .next t
             ∧ t = { readFailed (dmaCommon (modCh s c fun y => { y with late := y.late + 1 }) 1) c 0x83 with
                     pending := s.pending, clk := s.clk })
         ∧ ((dmaCh s c).phase = 1 → fget s dmacChCfgDescSpace c 0 = 0 →
           ∃ t, exec (.dmaCompletionTimeout c) s = .next t
             ∧ t = { fetchFailed (dmaCommon (modCh s c fun y => { y with late := y.late + 1 }) 1) c with
                     pending := s.pending, clk := s.clk })))
  ∧ (∀ (s : State) (c : Nat), burstPick s = some c →
       c < 32 ∧ burstReady s c = true
       ∧ ((∀ d, d < 32 → burstReady s d = true → (dmaCh s d).waited < 15) →
           ∀ d, d < 32 → burstReady s d = true → fget s dmacChCfgPrio c 0 ≤ fget s dmacChCfgPrio d 0)
       ∧ ((∃ d, d < 32 ∧ burstReady s d = true ∧ 15 ≤ (dmaCh s d).waited) → 15 ≤ (dmaCh s c).waited))
  ∧ (∀ (s : State) (c code : Nat), c < 32 →
       (fget s dmacChCfgMode c 0 = 0 →
         fget (descError s c code) dmacBadCountN c 0 = min 65535 (fget s dmacBadCountN c 0 + 1)
         ∧ (dEnd (dmaCh s c).desc = true → (dmaCh (descError s c code) c).phase = 5)
         ∧ (dEnd (dmaCh s c).desc = false → fget s dmacCurIndexN c 0 + 1 < 65536 →
             (dmaCh (descError s c code) c).phase = 1 ∧ (dmaCh (descError s c code) c).loc = dNext (dmaCh s c).desc))
       ∧ (fget s dmacChCfgMode c 0 = 1 →
         fget (descError s c code) dmacBadCountN c 0 = min 65535 (fget s dmacBadCountN c 0 + 1)
         ∧ dmaState (descError s c code) c = 4 ∧ fget (descError s c code) dmacChStatHalt c 0 = 6))

/-- R438, R439: TRANSMIT_DESCRIPTOR completes: the descriptor at HEAD of a transmit ring becomes a message with the next sequence number of
its peer and priority; a bad one ends with status 5; while 64 messages of its peer and priority wait for acknowledgement nothing
happens. R443, R446, R45: RETRANSMIT and MESSAGE_DEADLINE complete, unless the acknowledgement comes on this clock: RTO_US after its
last transmission a message whose deadline has passed ends with status 2, one out of attempts with status 3, any other goes out again;
a message whose deadline passes ends with status 2; a message not due stays. Concludes that exec answers a next state for:
.transmitDescriptor, .retransmit, .messageDeadline. -/
def Obligations.PerrunMessages : Prop :=
  (∀ (pr : Nat) (s : State), pr < 4 → s.boot.mgmtUp = true → prnOn s = true → txqReady s pr = true →
       (txqBad s (memBytes s (txqAt s pr) 32) = false → inWindow s (txqMsg s pr (txqAt s pr)).peer pr < 64 →
         ∃ t, exec (.transmitDescriptor pr) s = .next t
           ∧ t = { msgFirst (txqTake s pr (txqMsg s pr (txqAt s pr))) (txqMsg s pr (txqAt s pr)) with pending := s.pending, clk := s.clk }
           ∧ t.prn.nextMsg = s.prn.nextMsg + 1
           ∧ nextSeq t (txqMsg s pr (txqAt s pr)).peer pr = (nextSeq s (txqMsg s pr (txqAt s pr)).peer pr + 1) % 2 ^ 32)
       ∧ (txqBad s (memBytes s (txqAt s pr) 32) = false → 64 ≤ inWindow s (txqMsg s pr (txqAt s pr)).peer pr →
         exec (.transmitDescriptor pr) s = .next s)
       ∧ (txqBad s (memBytes s (txqAt s pr) 32) = true →
         ∃ t, exec (.transmitDescriptor pr) s = .next t
           ∧ t = { txqFail (prnCount s 11) pr 5 with pending := s.pending, clk := s.clk } ∧ t.prn = s.prn))
  ∧ (∀ (id : Nat) (m : PMsg) (s : State), msgOf s id = some m → acked s id = false →
       (∀ since, m.sentAt = some since → passedNs s since (peerRto s m.peer * 1000) = true →
         (later m.dl (admNow s) = false →
           ∃ t, exec (.retransmit id) s = .next t ∧ t = { msgEnd s m 2 with pending := s.pending, clk := s.clk })
         ∧ (later m.dl (admNow s) = true → peerRetx s m.peer ≤ m.retx →
           ∃ t, exec (.retransmit id) s = .next t ∧ t = { msgEnd s m 3 with pending := s.pending, clk := s.clk })
         ∧ (later m.dl (admNow s) = true → m.retx < peerRetx s m.peer →
           ∃ t, exec (.retransmit id) s = .next t ∧ t = { msgAgain s m with pending := s.pending, clk := s.clk }))
       ∧ (later m.dl (admNow s) = false →
         ∃ t, exec (.messageDeadline id) s = .next t ∧ t = { msgEnd s m 2 with pending := s.pending, clk := s.clk }
           ∧ msgOf t id = none)
       ∧ (later m.dl (admNow s) = true → exec (.messageDeadline id) s = .next s))

/-- R435: PERRUN_ACK, LEARN, AGE, WITHDRAW, PROT, EPOCH, TELEM and HELLO complete: a Perrun frame for the engine, of the type the command
names, is consumed by the engine; a frame of another type, or one the MAC does not give to the engine, leaves everything as it was.
R440, R442: an acknowledgement leaves no message of its peer and priority that it covers unacknowledged; a message whose turn is taken
advances EXP to the next sequence number; a frame whose CRC is wrong changes nothing of the engine (R435). R441, R445: HELLO_SEND,
ROUTE_DOWN and ACK_ONLY complete: every enabled route whose HELLO is due sends one now; ROUTE_STAT of a route shows whether its
conditions hold; an acknowledgement due for ACK_DELAY_NS on a route that is up goes out alone and is due no more. Concludes that exec
answers a next state for: .perrunAck, .perrunHello, .perrunLearn, .perrunAge, .perrunWithdraw, .perrunProt, .perrunTelem, .perrunEpoch,
.helloSend, .routeDown, .ackOnly. -/
def Obligations.PerrunFrames : Prop :=
  (∀ (p ty : Nat) (bytes : List Byte) (s : State) (c : Instr), p < 384 →
       (ty, c) ∈ [(0, Instr.perrunAck p bytes), (1, .perrunLearn p bytes), (2, .perrunAge p bytes), (3, .perrunWithdraw p bytes),
         (4, .perrunProt p bytes), (5, .perrunEpoch p bytes), (6, .perrunTelem p bytes), (7, .perrunHello p bytes)] →
       (macRuns s p = true → 64 ≤ bytes.length → prnMine s p bytes = true → byteAt bytes 16 % 16 = ty →
         ∃ t, exec c s = .next t
           ∧ t = { prnIn (bumpBy (macCount s p 0) .mac p 0 1 1 0 bytes.length) p (bytes.take (bytes.length - 4)) (tbPort s 0) with
                   pending := s.pending, clk := s.clk })
       ∧ ((macRuns s p = false ∨ prnMine s p bytes = false ∨ byteAt bytes 16 % 16 ≠ ty) → exec c s = .next s))
  ∧ (∀ (s : State),
       (∀ peer prio seq sack m, m ∈ (ackIn s peer prio seq sack).prn.msgs → m.peer = peer → m.prio = prio → later32 seq m.seq = false)
       ∧ (∀ h, (takeTurn s h).2 = true → expOf (takeTurn s h).1 h.peer h.prio = (h.seq + 1) % 2 ^ 32)
       ∧ (∀ p fr arr, (takeInj (prnCount s 0) 9 0).1 = false →
           ofBE (slice fr (48 + ofBE (slice fr 22 2)) 4) ≠ crc32c (slice fr 14 (34 + ofBE (slice fr 22 2))) →
           (prnIn s p fr arr).prn = s.prn ∧ (prnIn s p fr arr).hol = s.hol
             ∧ (prnIn s p fr arr).net.items = s.net.items))
  ∧ (∀ (s : State), s.boot.mgmtUp = true →
       (prnOn s = true →
         ∃ t, exec .helloSend s = .next t ∧ t = { s with cfg := { s.cfg with cnt := t.cfg.cnt }, prn := t.prn }
           ∧ ∀ peer r, peer < 64 → r < 2 → routeOn s peer r = true →
               storeGet 0 s.prn.helloAt (2 * peer + r) + helloClks s ≤ s.clk → storeGet 0 t.prn.helloAt (2 * peer + r) = s.clk)
       ∧ (∀ peer r, peer < 64 → r < 2 →
         ∃ t, exec (.routeDown peer r) s = .next t ∧ routeUp t peer r = routeHolds s peer r
           ∧ t.net.items = s.net.items)
       ∧ (∀ peer pr since rt, peer < 64 → pr < 4 → storeFind s.prn.ackDue (4 * peer + pr) = some (since, rt) → prnOn s = true →
           peerOn s peer = true → routeUp s peer (ackRoute s peer rt) = true → passedNs s since (fget s prnAckDelayNsNs 0 0) = true →
         ∃ t, exec (.ackOnly peer pr) s = .next t
           ∧ t = { prnCount (prnFrame s (some pr) 0 peer (ackRoute s peer rt) 0 pr 0 0 0 []) 7 with pending := s.pending, clk := s.clk }
           ∧ storeFind t.prn.ackDue (4 * peer + pr) = none ∧ t.prn.outq.length = s.prn.outq.length + 1))

/-- R393, R395, R396, R407: INSTRUCTION_RETIRE, CLEAN, INVALIDATE and CLEAN_AND_INVALIDATE complete: a READY thread that may issue in this
cycle executes the instruction at its pc by the command that names it. Every command of a thread that does not name it, and of one that
may not issue, changes nothing (log entry 3); a fetch that faults raises cause 1 with the next INSTRUCTION_RETIRE. R393, R395: what an
instruction leaves in its thread: without an exception the registers and the pc it computed; with one, M mode at the handler's address
of mtvec, the pc of the instruction in mepc and the cause in mcause (log entry 30). The issue fills its core's cycle: after a first one
only a second of the same thread may issue, and after two none (log entry 127). R393: register x0 reads zero whatever a standard
instruction writes to it, and no standard instruction changes a register but the one its rd field names (log entry 30). Concludes that
exec answers a next state for: .instructionRetire, .clean, .invalidate, .cleanAndInvalidate. -/
def Obligations.ThreadsExecute : Prop :=
  (∀ (h : Nat) (s u : State) (c : Instr) (op : HolOp), h < 128 → (hartOf s h).st = .ready → coreRuns s h = true →
       (c, op) ∈ [(Instr.instructionRetire h, HolOp.std), (.clean h, .clean), (.invalidate h, .inval),
         (.cleanAndInvalidate h, .flush), (.wfe h, .wfe), (.evsig h, .evsig), (.fork h, .fork), (.joinW h, .joinW), (.joinX h, .joinX),
         (.tsreadNs h, .tsNs), (.tsreadHi h, .tsHi), (.bcopy h, .bcopy), (.bfill h, .bfill), (.bcrc h, .bcrc)] →
       (∀ f, fetchAt s h (hartOf s h) = (.inl f, u) → holOp (hartOf s h) f.w = op → mayIssue s h f.w = true →
           op ∈ [HolOp.std, .clean, .inval, .flush] →
         ∃ t, exec c s = .next t
           ∧ t = { issue s h f.w f.raw f.len (exeStd u h (hartOf s h) f.w f.raw f.len) with pending := s.pending, clk := s.clk })
       ∧ (∀ f, fetchAt s h (hartOf s h) = (.inl f, u) → (holOp (hartOf s h) f.w ≠ op ∨ mayIssue s h f.w = false) →
           exec c s = .next s)
       ∧ (∀ a, fetchAt s h (hartOf s h) = (.inr a, u) → op = .std → mayIssue s h 0 = true →
         ∃ t, exec c s = .next t
           ∧ t = { issue s h 0 0 0 (exeTrap u (hartOf s h) 1 a []) with pending := s.pending, clk := s.clk })
       ∧ (∀ a, fetchAt s h (hartOf s h) = (.inr a, u) → op ≠ .std → exec c s = .next s))
  ∧ (∀ (s : State) (h w raw len : Nat) (e : Exe),
       (e.trap = none → (hartOf (issue s h w raw len e) h).x = e.t.x ∧ (hartOf (issue s h w raw len e) h).pc = e.t.pc
         ∧ (hartOf (issue s h w raw len e) h).st = e.t.st ∧ (hartOf (issue s h w raw len e) h).user = e.t.user)
       ∧ (∀ cause tval, e.trap = some (cause, tval) → cause < 2 ^ 63 →
         (hartOf (issue s h w raw len e) h).x = e.t.x ∧ (hartOf (issue s h w raw len e) h).user = false
         ∧ (hartOf (issue s h w raw len e) h).st = .ready
         ∧ (hartOf (issue s h w raw len e) h).pc = csrOf e.t 0x305 / 4 * 4 % 2 ^ 64
         ∧ csrOf (hartOf (issue s h w raw len e) h) 0x341 = e.t.pc % 2 ^ 64
         ∧ csrOf (hartOf (issue s h w raw len e) h) 0x342 = cause)
       ∧ (∀ g v, g / 8 = h / 8 → mayIssue (issue s h w raw len e) g v = true → g = h ∧ issuedNow e.s (h / 8) = none))
  ∧ (∀ (s : State) (h : Nat) (t : Hart) (w raw len : Nat),
       ((exeStd s h t w raw len).t.x.getD 0 0 = t.x.getD 0 0)
       ∧ (∀ r, r ≠ iRd w → (exeStd s h t w raw len).t.x.getD r 0 = t.x.getD r 0)
       ∧ (exeStd s h t w raw len).t.x.length = t.x.length)

/-- R397: WFE completes: those that wait already are served, then with a count on a line it wants it takes the count and retires; with none
it waits at its pc. WFE_WAKE completes: a wait ends when a line it wants has a count and no earlier waiter wants it. WFE_TIMEOUT
completes: after the timeout's last cycle, without an event, it ends with 0. R394, R404: HART_INTERRUPT and DEBUG_HALT complete: a
pending, enabled interrupt takes a ready or waiting thread to its handler: external before software before timer; the debug module
halts a thread where it stands and resumes it. Concludes that exec answers a next state for: .wfe, .wfeWake, .wfeTimeout,
.hartInterrupt, .debugHalt. -/
def Obligations.WaitsAndInterrupts : Prop :=
  (∀ (h : Nat) (s u : State) (f : Fetched), h < 128 → coreRuns s h = true →
       ((hartOf s h).st = .ready → fetchAt s h (hartOf s h) = (.inl f, u) → holOp (hartOf s h) f.w = .wfe → mayIssue s h f.w = true →
         let a := (waiters u).foldl wakeOne u
         let r1 := (hartOf s h).x.getD (iRs1 f.w) 0
         let r2 := (hartOf s h).x.getD (iRs2 f.w) 0
         let arg := if bit r1 8 then anyLine else r1 % 256
         (∀ e, wfeTake a (hartOf s h) arg = some e →
           ∃ t, exec (.wfe h) s = .next t
             ∧ t = { issue s h f.w f.raw f.len (exeDone (consume a e.1) (setX (hartOf s h) (iRd f.w) (wfeValue arg e.1 e.2))
                       ((hartOf s h).pc + 4) [21]) with pending := s.pending, clk := s.clk }
             ∧ storeFind t.ev e.1 = none)
         ∧ (wfeTake a (hartOf s h) arg = none →
           ∃ t, exec (.wfe h) s = .next t ∧ (hartOf t h).st = .waitEvent ∧ (hartOf t h).waitArg = arg
             ∧ (hartOf t h).pc = (hartOf s h).pc ∧ (hartOf t h).x = (hartOf s h).x
             ∧ (hartOf t h).waitEnd = if r2 = 0 then none else some (cycleAt u.clk + r2)))
       ∧ ((hartOf s h).st = .waitEvent →
         (∀ e, wfeTake s (hartOf s h) (hartOf s h).waitArg = some e →
           (∀ o ∈ s.hol.harts, o.2.st = .waitEvent → wantsLine o.2 o.2.waitArg e.1 = true →
             (hartOf s h).waitAt < o.2.waitAt ∨ ((hartOf s h).waitAt = o.2.waitAt ∧ h ≤ o.1)) →
           ∃ t, exec (.wfeWake h) s = .next t
             ∧ t = { wakeHart (consume s e.1) h (wfeValue (hartOf s h).waitArg e.1 e.2) [] with pending := s.pending, clk := s.clk }
             ∧ (hartOf t h).st = .ready ∧ (hartOf t h).pc = ((hartOf s h).pc + 4) % 2 ^ 64)
         ∧ (∀ end_, (hartOf s h).waitEnd = some end_ → end_ < cycleAt s.clk → wfeTake s (hartOf s h) (hartOf s h).waitArg = none →
           ∃ t, exec (.wfeTimeout h) s = .next t ∧ t = { wakeHart s h 0 [23] with pending := s.pending, clk := s.clk }
             ∧ (hartOf t h).st = .ready ∧ (hartOf t h).pc = ((hartOf s h).pc + 4) % 2 ^ 64)))
  ∧ (∀ (h : Nat) (s : State), h < 128 →
       (let t := hartOf s h
         let pend := Nat.land (mipOf s h t) (csrOf t 0x304)
         coreRuns s h = true → (t.st = .ready ∨ t.st = .waitEvent ∨ t.st = .waitJoin) → pend ≠ 0 →
         (t.user = true ∨ bit (csrOf t 0x300) mieBit = true) →
         ∃ v, exec (.hartInterrupt h) s = .next v ∧ (hartOf v h).st = .ready ∧ (hartOf v h).user = false
           ∧ csrOf (hartOf v h) 0x341 = t.pc % 2 ^ 64
           ∧ csrOf (hartOf v h) 0x342 = 2 ^ 63 + (if bit pend 11 then 11 else if bit pend 3 then 3 else 7)
           ∧ (hartOf v h).x = t.x)
       ∧ (s.boot.mgmtUp = true → (hartOf s h).st ≠ .idle →
         ((hartOf s h).st ≠ .halted →
           ∃ v, exec (.debugHalt h false) s = .next v ∧ v = { s with hol := { s.hol with harts := v.hol.harts } }
             ∧ hartOf v h = { hartOf s h with st := .halted, was := (hartOf s h).st })
         ∧ ((hartOf s h).st = .halted → (hartOf s h).was = .ready →
           ∃ v, exec (.debugHalt h true) s = .next v ∧ v = { s with hol := { s.hol with harts := v.hol.harts } }
             ∧ (hartOf v h).st = .ready ∧ (hartOf v h).pc = (hartOf s h).pc ∧ (hartOf v h).x = (hartOf s h).x)))

/-- R398-R401: EVSIG, FORK, JOIN_W, JOIN_X, TSREAD_NS and TSREAD_HI complete. EVSIG pulses a software line and only counts another; FORK
starts the first free context with its argument and this thread's handle, or answers all ones; JOIN.W answers an ended context's exit
value, a gone generation's code, or waits; JOIN.X ends the thread; TSREAD reads the time. R402: BCOPY, BFILL and BCRC complete: an
element is moved, filled or checked, and the registers advance by the element's bytes; the instruction retires with the last; with
nothing left it retires at once; an access that fails raises the exception of its address. R407: after CLEAN the line named is not
dirty, after INVALIDATE it is not cached, and no other line changes; a line cleaned goes to Burlap unless its channel is contained.
Concludes that exec answers a next state for: .evsig, .fork, .joinW, .joinX, .tsreadNs, .tsreadHi, .bcopy, .bfill, .bcrc. -/
def Obligations.ThreadInstructions : Prop :=
  (∀ (h : Nat) (s u : State) (f : Fetched), h < 128 → (hartOf s h).st = .ready → coreRuns s h = true →
       fetchAt s h (hartOf s h) = (.inl f, u) → mayIssue s h f.w = true →
       let t := hartOf s h
       let r1 := t.x.getD (iRs1 f.w) 0
       (holOp t f.w = .evsig →
         ∃ v, exec (.evsig h) s = .next v
           ∧ v = { issue s h f.w f.raw f.len (exeDone (if 192 ≤ r1 % 256 then pulse u (r1 % 256) else bump u .holc (h / 8) 0 2 2 0)
                     t (t.pc + 4) [24]) with pending := s.pending, clk := s.clk })
       ∧ (holOp t f.w = .fork →
         let b := forksBefore u h
         (∀ n, (forkOrder h).find? (forkFree b t.user) = some n →
           ∃ v, exec (.fork h) s = .next v ∧ (hartOf v n).st = .ready ∧ (hartOf v n).user = t.user
             ∧ (hartOf v n).pc = r1 / 2 * 2 ∧ (hartOf v n).x.getD 10 0 = t.x.getD (iRs2 f.w) 0
             ∧ (hartOf v n).x.getD 11 0 = handleOf b h ∧ (hartOf v n).gen = ((hartOf b n).gen + 1) % 256
             ∧ (iRd f.w ≠ 0 → t.x.length = 32 → (hartOf v h).x.getD (iRd f.w) 0 = ((hartOf b n).gen + 1) % 256 * 256 + n))
         ∧ ((forkOrder h).find? (forkFree b t.user) = none →
           ∃ v, exec (.fork h) s = .next v
             ∧ v = { issue s h f.w f.raw f.len (exeDone (bump b .holc (h / 8) 0 2 3 0) (setX t (iRd f.w) (2 ^ 64 - 1)) (t.pc + 4) [25, 26]) with
                     pending := s.pending, clk := s.clk }))
       ∧ (holOp t f.w = .joinW →
         ((128 ≤ r1 % 256 ∨ r1 ≠ (hartOf u (r1 % 256)).gen * 256 + r1 % 256) →
           ∃ v, exec (.joinW h) s = .next v
             ∧ v = { issue s h f.w f.raw f.len (exeDone u (setX t (iRd f.w) joinGone) (t.pc + 4) []) with pending := s.pending, clk := s.clk })
         ∧ (∀ e, r1 % 256 < 128 → r1 = (hartOf u (r1 % 256)).gen * 256 + r1 % 256 → isContained u (.core (r1 % 256 / 8)) = false →
             (hartOf u (r1 % 256)).st = .idle → (hartOf u (r1 % 256)).exitV = some e →
           ∃ v, exec (.joinW h) s = .next v
             ∧ v = { issue s h f.w f.raw f.len (exeDone u (setX t (iRd f.w) e) (t.pc + 4) []) with pending := s.pending, clk := s.clk })
         ∧ (r1 % 256 < 128 → r1 = (hartOf u (r1 % 256)).gen * 256 + r1 % 256 → isContained u (.core (r1 % 256 / 8)) = false →
             (hartOf u (r1 % 256)).st ≠ .idle →
           ∃ v, exec (.joinW h) s = .next v ∧ (hartOf v h).st = .waitJoin ∧ (hartOf v h).waitArg = r1 ∧ (hartOf v h).pc = t.pc))
       ∧ (holOp t f.w = .joinX →
         ∃ v, exec (.joinX h) s = .next v ∧ (hartOf v h).st = .idle ∧ (hartOf v h).exitV = some (r1 % 2 ^ 63))
       ∧ (holOp t f.w = .tsNs →
         ∃ v, exec (.tsreadNs h) s = .next v
           ∧ v = { issue s h f.w f.raw f.len (exeDone u { setX t (iRd f.w) (nsOf (tbNow u) / 1000000000 % 2 ^ 32 * 2 ^ 32 + nsOf (tbNow u) % 1000000000)
                     with tsHi := nsOf (tbNow u) / 1000000000 / 2 ^ 32 % 65536 } (t.pc + 4) []) with
                   pending := s.pending, clk := s.clk })
       ∧ (holOp t f.w = .tsHi →
         ∃ v, exec (.tsreadHi h) s = .next v
           ∧ v = { issue s h f.w f.raw f.len (exeDone u (setX t (iRd f.w) t.tsHi) (t.pc + 4) []) with pending := s.pending, clk := s.clk }))
  ∧ (∀ (h : Nat) (s u : State) (f : Fetched) (c : Instr) (op : HolOp), h < 128 → (hartOf s h).st = .ready → coreRuns s h = true →
       fetchAt s h (hartOf s h) = (.inl f, u) → holOp (hartOf s h) f.w = op → mayIssue s h f.w = true →
       let t := hartOf s h
       let left := t.x.getD (iRd f.w) 0
       let r1 := t.x.getD (iRs1 f.w) 0
       let r2 := t.x.getD (iRs2 f.w) 0
       let n := element r1 left
       (left = 0 → (c, op) ∈ [(Instr.bcopy h, HolOp.bcopy), (.bfill h, .bfill), (.bcrc h, .bcrc)] →
         ∃ v, exec c s = .next v ∧ v = { issue s h f.w f.raw f.len (bulkNone u t) with pending := s.pending, clk := s.clk })
       ∧ (left ≠ 0 → op = .bcopy → ∀ b, (bulkLoad u h t r2 n).bytes = some b →
         (∀ x, (bulkStore (bulkLoad u h t r2 n).s h t r1 b).bytes = some x →
           ∃ v, exec (.bcopy h) s = .next v
             ∧ v = { issue s h f.w f.raw f.len (bulkStep (bulkStore (bulkLoad u h t r2 n).s h t r1 b).s
                       (setX (setX t (iRs1 f.w) (r1 + n)) (iRs2 f.w) (r2 + n)) f.w n
                       ((bulkLoad u h t r2 n).evs ++ (bulkStore (bulkLoad u h t r2 n).s h t r1 b).evs)) with
                     pending := s.pending, clk := s.clk })
         ∧ ((bulkStore (bulkLoad u h t r2 n).s h t r1 b).bytes = none →
           ∃ v, exec (.bcopy h) s = .next v ∧ (hartOf v h).user = false
             ∧ (hartOf v h).pc = csrOf t 0x305 / 4 * 4 % 2 ^ 64))
       ∧ (left ≠ 0 → op = .bfill → ∀ x,
           (bulkStore u h t r1 ((List.range n).map fun k => (toLE 8 r2).getD ((r1 + k) % 8) 0)).bytes = some x →
         ∃ v, exec (.bfill h) s = .next v
           ∧ v = { issue s h f.w f.raw f.len (bulkStep
                     (bulkStore u h t r1 ((List.range n).map fun k => (toLE 8 r2).getD ((r1 + k) % 8) 0)).s
                     (setX t (iRs1 f.w) (r1 + n)) f.w n
                     (bulkStore u h t r1 ((List.range n).map fun k => (toLE 8 r2).getD ((r1 + k) % 8) 0)).evs) with
                   pending := s.pending, clk := s.clk })
       ∧ (left ≠ 0 → op = .bcrc → ∀ b, (bulkLoad u h t r1 n).bytes = some b →
         ∃ v, exec (.bcrc h) s = .next v
           ∧ v = { issue s h f.w f.raw f.len (bulkStep (bulkLoad u h t r1 n).s
                     (setX (setX t (iRs1 f.w) (r1 + n)) (iRs2 f.w) (crcRun (r2 % 2 ^ 32) b)) f.w n (bulkLoad u h t r1 n).evs) with
                   pending := s.pending, clk := s.clk }))
  ∧ (∀ (s : State) (line : Nat) (e : Line), (s.hol.cache.find? fun x => x.line == line) = some e →
       ((cacheOp s line 1).hbm = (writeBackLine s e).hbm
         ∧ (∀ x ∈ (cacheOp s line 1).hol.cache, x ∈ s.hol.cache ∨ x = { e with dirty := false })
         ∧ (∀ x ∈ s.hol.cache, x ≠ e → x ∈ (cacheOp s line 1).hol.cache)
         ∧ (cacheOp s line 1).hol.cache.length = s.hol.cache.length)
       ∧ ((cacheOp s line 2).hbm = s.hbm ∧ (cacheOp s line 2).hol.cache = s.hol.cache.filter (· != e))
       ∧ ((cacheOp s line 3).hbm = (writeBackLine s e).hbm ∧ (cacheOp s line 3).hol.cache = s.hol.cache.filter (· != e)))

/-- R48: a counter adds what it counts and saturates; no other counter and nothing else changes. R405: bytes written to TCM or shared
memory are what is read there, every byte outside them is as before, and both memories keep their canonical form. R326: a Burlap word
written whole decodes to its data; with one of its 72 bits turned it is corrected to its data; a poisoned word is reported as poisoned.
R247, R195: of two times whose distance is neither 0 nor half the circle exactly one is later; no time is later than itself. -/
def Obligations.StoresCountersAndTimes : Prop :=
  (∀ (s : State) (b : Blk) (i pn obj idx c n : Nat),
       count (bumpBy s b i pn obj idx c n) b i pn obj idx c = min cntMax (count s b i pn obj idx c + n)
       ∧ (∀ k, k ≠ objKey (pageOf b i pn) obj idx (2 * c) →
           storeGet 0 (bumpBy s b i pn obj idx c n).cfg.cnt k = storeGet 0 s.cfg.cnt k)
       ∧ bumpBy s b i pn obj idx c n = { s with cfg := { s.cfg with cnt := (bumpBy s b i pn obj idx c n).cfg.cnt } })
  ∧ (∀ (s : State) (a : Nat) (bytes : List Byte),
       memBytes (memWrite s a bytes) a bytes.length = bytes
       ∧ (∀ b, b < a ∨ a + bytes.length ≤ b → memByte (memWrite s a bytes) b = memByte s b)
       ∧ (s.memWf → (memWrite s a bytes).memWf ∧ ∀ who, (burlapPut s who a bytes).2.memWf))
  ∧ ((∀ d, d < 2 ^ 64 → decodeWord (fresh d) = .good d ∧ ∀ n, n < 72 → decodeWord (Nat.xor (fresh d) (2 ^ n)) = .fixed d)
     ∧ decodeWord poisoned = .poison)
  ∧ (∀ (a b : Nat),
       (a < 2 ^ 48 → b < 2 ^ 48 → a ≠ b → (a + 2 ^ 47) % 2 ^ 48 ≠ b → (later a b = true ↔ later b a = false))
       ∧ later a a = false
       ∧ (a < 2 ^ 32 → b < 2 ^ 32 → a ≠ b → (a + 2 ^ 31) % 2 ^ 32 ≠ b → (later32 a b = true ↔ later32 b a = false))
       ∧ later32 a a = false)
end

