-- ==== Sys2Proof/Laws/State.lean ====
section
/-!
SUPPORT. What each named update of the state leaves alone, one lemma per field and update, so that no proof unfolds a record
update.
-/
namespace Sys2Proof.Machine

@[simp] theorem withCfg_pending (s : State) (c : CfgSt) : (withCfg s c).pending = s.pending := by simp only [withCfg]
@[simp] theorem withCfg_clk (s : State) (c : CfgSt) : (withCfg s c).clk = s.clk := by simp only [withCfg]
@[simp] theorem withCfg_free (s : State) (c : CfgSt) : (withCfg s c).free = s.free := by simp only [withCfg]
@[simp] theorem withCfg_out (s : State) (c : CfgSt) : (withCfg s c).out = s.out := by simp only [withCfg]
@[simp] theorem withCfg_pg (s : State) (c : CfgSt) : (withCfg s c).pg = s.pg := by simp only [withCfg]
@[simp] theorem withCfg_flt (s : State) (c : CfgSt) : (withCfg s c).flt = s.flt := by simp only [withCfg]
@[simp] theorem withCfg_net (s : State) (c : CfgSt) : (withCfg s c).net = s.net := by simp only [withCfg]
@[simp] theorem withCfg_tbl (s : State) (c : CfgSt) : (withCfg s c).tbl = s.tbl := by simp only [withCfg]
@[simp] theorem withCfg_hbm (s : State) (c : CfgSt) : (withCfg s c).hbm = s.hbm := by simp only [withCfg]
@[simp] theorem withCfg_ev (s : State) (c : CfgSt) : (withCfg s c).ev = s.ev := by simp only [withCfg]
@[simp] theorem withCfg_tim (s : State) (c : CfgSt) : (withCfg s c).tim = s.tim := by simp only [withCfg]
@[simp] theorem withCfg_tel (s : State) (c : CfgSt) : (withCfg s c).tel = s.tel := by simp only [withCfg]
@[simp] theorem withCfg_hol (s : State) (c : CfgSt) : (withCfg s c).hol = s.hol := by simp only [withCfg]
@[simp] theorem withCfg_dma (s : State) (c : CfgSt) : (withCfg s c).dma = s.dma := by simp only [withCfg]
@[simp] theorem withCfg_prn (s : State) (c : CfgSt) : (withCfg s c).prn = s.prn := by simp only [withCfg]
@[simp] theorem withCfg_boot (s : State) (c : CfgSt) : (withCfg s c).boot = s.boot := by simp only [withCfg]

@[simp] theorem setAct_pending (s : State) (k : Nat) (w : Word) : (setAct s k w).pending = s.pending := by simp only [setAct]
@[simp] theorem setAct_clk (s : State) (k : Nat) (w : Word) : (setAct s k w).clk = s.clk := by simp only [setAct]
@[simp] theorem setAct_free (s : State) (k : Nat) (w : Word) : (setAct s k w).free = s.free := by simp only [setAct]
@[simp] theorem setAct_out (s : State) (k : Nat) (w : Word) : (setAct s k w).out = s.out := by simp only [setAct]
@[simp] theorem setAct_pg (s : State) (k : Nat) (w : Word) : (setAct s k w).pg = s.pg := by simp only [setAct]
@[simp] theorem setAct_flt (s : State) (k : Nat) (w : Word) : (setAct s k w).flt = s.flt := by simp only [setAct]
@[simp] theorem setAct_net (s : State) (k : Nat) (w : Word) : (setAct s k w).net = s.net := by simp only [setAct]
@[simp] theorem setAct_tbl (s : State) (k : Nat) (w : Word) : (setAct s k w).tbl = s.tbl := by simp only [setAct]
@[simp] theorem setAct_hbm (s : State) (k : Nat) (w : Word) : (setAct s k w).hbm = s.hbm := by simp only [setAct]
@[simp] theorem setAct_ev (s : State) (k : Nat) (w : Word) : (setAct s k w).ev = s.ev := by simp only [setAct]
@[simp] theorem setAct_tim (s : State) (k : Nat) (w : Word) : (setAct s k w).tim = s.tim := by simp only [setAct]
@[simp] theorem setAct_tel (s : State) (k : Nat) (w : Word) : (setAct s k w).tel = s.tel := by simp only [setAct]
@[simp] theorem setAct_hol (s : State) (k : Nat) (w : Word) : (setAct s k w).hol = s.hol := by simp only [setAct]
@[simp] theorem setAct_dma (s : State) (k : Nat) (w : Word) : (setAct s k w).dma = s.dma := by simp only [setAct]
@[simp] theorem setAct_prn (s : State) (k : Nat) (w : Word) : (setAct s k w).prn = s.prn := by simp only [setAct]
@[simp] theorem setAct_boot (s : State) (k : Nat) (w : Word) : (setAct s k w).boot = s.boot := by simp only [setAct]

@[simp] theorem setShd_pending (s : State) (k : Nat) (w : Word) : (setShd s k w).pending = s.pending := by simp only [setShd]
@[simp] theorem setShd_clk (s : State) (k : Nat) (w : Word) : (setShd s k w).clk = s.clk := by simp only [setShd]
@[simp] theorem setShd_free (s : State) (k : Nat) (w : Word) : (setShd s k w).free = s.free := by simp only [setShd]
@[simp] theorem setShd_out (s : State) (k : Nat) (w : Word) : (setShd s k w).out = s.out := by simp only [setShd]
@[simp] theorem setShd_pg (s : State) (k : Nat) (w : Word) : (setShd s k w).pg = s.pg := by simp only [setShd]
@[simp] theorem setShd_flt (s : State) (k : Nat) (w : Word) : (setShd s k w).flt = s.flt := by simp only [setShd]
@[simp] theorem setShd_net (s : State) (k : Nat) (w : Word) : (setShd s k w).net = s.net := by simp only [setShd]
@[simp] theorem setShd_tbl (s : State) (k : Nat) (w : Word) : (setShd s k w).tbl = s.tbl := by simp only [setShd]
@[simp] theorem setShd_hbm (s : State) (k : Nat) (w : Word) : (setShd s k w).hbm = s.hbm := by simp only [setShd]
@[simp] theorem setShd_ev (s : State) (k : Nat) (w : Word) : (setShd s k w).ev = s.ev := by simp only [setShd]
@[simp] theorem setShd_tim (s : State) (k : Nat) (w : Word) : (setShd s k w).tim = s.tim := by simp only [setShd]
@[simp] theorem setShd_tel (s : State) (k : Nat) (w : Word) : (setShd s k w).tel = s.tel := by simp only [setShd]
@[simp] theorem setShd_hol (s : State) (k : Nat) (w : Word) : (setShd s k w).hol = s.hol := by simp only [setShd]
@[simp] theorem setShd_dma (s : State) (k : Nat) (w : Word) : (setShd s k w).dma = s.dma := by simp only [setShd]
@[simp] theorem setShd_prn (s : State) (k : Nat) (w : Word) : (setShd s k w).prn = s.prn := by simp only [setShd]
@[simp] theorem setShd_boot (s : State) (k : Nat) (w : Word) : (setShd s k w).boot = s.boot := by simp only [setShd]

@[simp] theorem fset_pending (s : State) (f : Fld) (i n v : Nat) : (fset s f i n v).pending = s.pending := setAct_pending _ _ _
@[simp] theorem fset_clk (s : State) (f : Fld) (i n v : Nat) : (fset s f i n v).clk = s.clk := setAct_clk _ _ _
@[simp] theorem fset_free (s : State) (f : Fld) (i n v : Nat) : (fset s f i n v).free = s.free := setAct_free _ _ _
@[simp] theorem fset_out (s : State) (f : Fld) (i n v : Nat) : (fset s f i n v).out = s.out := setAct_out _ _ _
@[simp] theorem fset_pg (s : State) (f : Fld) (i n v : Nat) : (fset s f i n v).pg = s.pg := setAct_pg _ _ _
@[simp] theorem fset_flt (s : State) (f : Fld) (i n v : Nat) : (fset s f i n v).flt = s.flt := setAct_flt _ _ _
@[simp] theorem fset_net (s : State) (f : Fld) (i n v : Nat) : (fset s f i n v).net = s.net := setAct_net _ _ _
@[simp] theorem fset_tbl (s : State) (f : Fld) (i n v : Nat) : (fset s f i n v).tbl = s.tbl := setAct_tbl _ _ _
@[simp] theorem fset_hbm (s : State) (f : Fld) (i n v : Nat) : (fset s f i n v).hbm = s.hbm := setAct_hbm _ _ _
@[simp] theorem fset_ev (s : State) (f : Fld) (i n v : Nat) : (fset s f i n v).ev = s.ev := setAct_ev _ _ _
@[simp] theorem fset_tim (s : State) (f : Fld) (i n v : Nat) : (fset s f i n v).tim = s.tim := setAct_tim _ _ _
@[simp] theorem fset_tel (s : State) (f : Fld) (i n v : Nat) : (fset s f i n v).tel = s.tel := setAct_tel _ _ _
@[simp] theorem fset_hol (s : State) (f : Fld) (i n v : Nat) : (fset s f i n v).hol = s.hol := setAct_hol _ _ _
@[simp] theorem fset_dma (s : State) (f : Fld) (i n v : Nat) : (fset s f i n v).dma = s.dma := setAct_dma _ _ _
@[simp] theorem fset_prn (s : State) (f : Fld) (i n v : Nat) : (fset s f i n v).prn = s.prn := setAct_prn _ _ _
@[simp] theorem fset_boot (s : State) (f : Fld) (i n v : Nat) : (fset s f i n v).boot = s.boot := setAct_boot _ _ _

@[simp] theorem fsetB_pending (s : State) (f : Fld) (i n : Nat) (b : Bool) : (fsetB s f i n b).pending = s.pending := fset_pending _ _ _ _ _
@[simp] theorem fsetB_clk (s : State) (f : Fld) (i n : Nat) (b : Bool) : (fsetB s f i n b).clk = s.clk := fset_clk _ _ _ _ _
@[simp] theorem fsetB_free (s : State) (f : Fld) (i n : Nat) (b : Bool) : (fsetB s f i n b).free = s.free := fset_free _ _ _ _ _
@[simp] theorem fsetB_out (s : State) (f : Fld) (i n : Nat) (b : Bool) : (fsetB s f i n b).out = s.out := fset_out _ _ _ _ _
@[simp] theorem fsetB_pg (s : State) (f : Fld) (i n : Nat) (b : Bool) : (fsetB s f i n b).pg = s.pg := fset_pg _ _ _ _ _
@[simp] theorem fsetB_flt (s : State) (f : Fld) (i n : Nat) (b : Bool) : (fsetB s f i n b).flt = s.flt := fset_flt _ _ _ _ _
@[simp] theorem fsetB_net (s : State) (f : Fld) (i n : Nat) (b : Bool) : (fsetB s f i n b).net = s.net := fset_net _ _ _ _ _
@[simp] theorem fsetB_tbl (s : State) (f : Fld) (i n : Nat) (b : Bool) : (fsetB s f i n b).tbl = s.tbl := fset_tbl _ _ _ _ _
@[simp] theorem fsetB_hbm (s : State) (f : Fld) (i n : Nat) (b : Bool) : (fsetB s f i n b).hbm = s.hbm := fset_hbm _ _ _ _ _
@[simp] theorem fsetB_ev (s : State) (f : Fld) (i n : Nat) (b : Bool) : (fsetB s f i n b).ev = s.ev := fset_ev _ _ _ _ _
@[simp] theorem fsetB_tim (s : State) (f : Fld) (i n : Nat) (b : Bool) : (fsetB s f i n b).tim = s.tim := fset_tim _ _ _ _ _
@[simp] theorem fsetB_tel (s : State) (f : Fld) (i n : Nat) (b : Bool) : (fsetB s f i n b).tel = s.tel := fset_tel _ _ _ _ _
@[simp] theorem fsetB_hol (s : State) (f : Fld) (i n : Nat) (b : Bool) : (fsetB s f i n b).hol = s.hol := fset_hol _ _ _ _ _
@[simp] theorem fsetB_dma (s : State) (f : Fld) (i n : Nat) (b : Bool) : (fsetB s f i n b).dma = s.dma := fset_dma _ _ _ _ _
@[simp] theorem fsetB_prn (s : State) (f : Fld) (i n : Nat) (b : Bool) : (fsetB s f i n b).prn = s.prn := fset_prn _ _ _ _ _
@[simp] theorem fsetB_boot (s : State) (f : Fld) (i n : Nat) (b : Bool) : (fsetB s f i n b).boot = s.boot := fset_boot _ _ _ _ _

@[simp] theorem oset_pending (s : State) (b : Blk) (i pn obj idx w v : Nat) : (oset s b i pn obj idx w v).pending = s.pending := setAct_pending _ _ _
@[simp] theorem oset_clk (s : State) (b : Blk) (i pn obj idx w v : Nat) : (oset s b i pn obj idx w v).clk = s.clk := setAct_clk _ _ _
@[simp] theorem oset_free (s : State) (b : Blk) (i pn obj idx w v : Nat) : (oset s b i pn obj idx w v).free = s.free := setAct_free _ _ _
@[simp] theorem oset_out (s : State) (b : Blk) (i pn obj idx w v : Nat) : (oset s b i pn obj idx w v).out = s.out := setAct_out _ _ _
@[simp] theorem oset_pg (s : State) (b : Blk) (i pn obj idx w v : Nat) : (oset s b i pn obj idx w v).pg = s.pg := setAct_pg _ _ _
@[simp] theorem oset_flt (s : State) (b : Blk) (i pn obj idx w v : Nat) : (oset s b i pn obj idx w v).flt = s.flt := setAct_flt _ _ _
@[simp] theorem oset_net (s : State) (b : Blk) (i pn obj idx w v : Nat) : (oset s b i pn obj idx w v).net = s.net := setAct_net _ _ _
@[simp] theorem oset_tbl (s : State) (b : Blk) (i pn obj idx w v : Nat) : (oset s b i pn obj idx w v).tbl = s.tbl := setAct_tbl _ _ _
@[simp] theorem oset_hbm (s : State) (b : Blk) (i pn obj idx w v : Nat) : (oset s b i pn obj idx w v).hbm = s.hbm := setAct_hbm _ _ _
@[simp] theorem oset_ev (s : State) (b : Blk) (i pn obj idx w v : Nat) : (oset s b i pn obj idx w v).ev = s.ev := setAct_ev _ _ _
@[simp] theorem oset_tim (s : State) (b : Blk) (i pn obj idx w v : Nat) : (oset s b i pn obj idx w v).tim = s.tim := setAct_tim _ _ _
@[simp] theorem oset_tel (s : State) (b : Blk) (i pn obj idx w v : Nat) : (oset s b i pn obj idx w v).tel = s.tel := setAct_tel _ _ _
@[simp] theorem oset_hol (s : State) (b : Blk) (i pn obj idx w v : Nat) : (oset s b i pn obj idx w v).hol = s.hol := setAct_hol _ _ _
@[simp] theorem oset_dma (s : State) (b : Blk) (i pn obj idx w v : Nat) : (oset s b i pn obj idx w v).dma = s.dma := setAct_dma _ _ _
@[simp] theorem oset_prn (s : State) (b : Blk) (i pn obj idx w v : Nat) : (oset s b i pn obj idx w v).prn = s.prn := setAct_prn _ _ _
@[simp] theorem oset_boot (s : State) (b : Blk) (i pn obj idx w v : Nat) : (oset s b i pn obj idx w v).boot = s.boot := setAct_boot _ _ _

@[simp] theorem bumpBy_pending (s : State) (b : Blk) (i pn obj idx c n : Nat) : (bumpBy s b i pn obj idx c n).pending = s.pending := by simp only [bumpBy]
@[simp] theorem bumpBy_clk (s : State) (b : Blk) (i pn obj idx c n : Nat) : (bumpBy s b i pn obj idx c n).clk = s.clk := by simp only [bumpBy]
@[simp] theorem bumpBy_free (s : State) (b : Blk) (i pn obj idx c n : Nat) : (bumpBy s b i pn obj idx c n).free = s.free := by simp only [bumpBy]
@[simp] theorem bumpBy_out (s : State) (b : Blk) (i pn obj idx c n : Nat) : (bumpBy s b i pn obj idx c n).out = s.out := by simp only [bumpBy]
@[simp] theorem bumpBy_pg (s : State) (b : Blk) (i pn obj idx c n : Nat) : (bumpBy s b i pn obj idx c n).pg = s.pg := by simp only [bumpBy]
@[simp] theorem bumpBy_flt (s : State) (b : Blk) (i pn obj idx c n : Nat) : (bumpBy s b i pn obj idx c n).flt = s.flt := by simp only [bumpBy]
@[simp] theorem bumpBy_net (s : State) (b : Blk) (i pn obj idx c n : Nat) : (bumpBy s b i pn obj idx c n).net = s.net := by simp only [bumpBy]
@[simp] theorem bumpBy_tbl (s : State) (b : Blk) (i pn obj idx c n : Nat) : (bumpBy s b i pn obj idx c n).tbl = s.tbl := by simp only [bumpBy]
@[simp] theorem bumpBy_hbm (s : State) (b : Blk) (i pn obj idx c n : Nat) : (bumpBy s b i pn obj idx c n).hbm = s.hbm := by simp only [bumpBy]
@[simp] theorem bumpBy_ev (s : State) (b : Blk) (i pn obj idx c n : Nat) : (bumpBy s b i pn obj idx c n).ev = s.ev := by simp only [bumpBy]
@[simp] theorem bumpBy_tim (s : State) (b : Blk) (i pn obj idx c n : Nat) : (bumpBy s b i pn obj idx c n).tim = s.tim := by simp only [bumpBy]
@[simp] theorem bumpBy_tel (s : State) (b : Blk) (i pn obj idx c n : Nat) : (bumpBy s b i pn obj idx c n).tel = s.tel := by simp only [bumpBy]
@[simp] theorem bumpBy_hol (s : State) (b : Blk) (i pn obj idx c n : Nat) : (bumpBy s b i pn obj idx c n).hol = s.hol := by simp only [bumpBy]
@[simp] theorem bumpBy_dma (s : State) (b : Blk) (i pn obj idx c n : Nat) : (bumpBy s b i pn obj idx c n).dma = s.dma := by simp only [bumpBy]
@[simp] theorem bumpBy_prn (s : State) (b : Blk) (i pn obj idx c n : Nat) : (bumpBy s b i pn obj idx c n).prn = s.prn := by simp only [bumpBy]
@[simp] theorem bumpBy_boot (s : State) (b : Blk) (i pn obj idx c n : Nat) : (bumpBy s b i pn obj idx c n).boot = s.boot := by simp only [bumpBy]

@[simp] theorem bump_pending (s : State) (b : Blk) (i pn obj idx c : Nat) : (bump s b i pn obj idx c).pending = s.pending := bumpBy_pending _ _ _ _ _ _ _ _
@[simp] theorem bump_clk (s : State) (b : Blk) (i pn obj idx c : Nat) : (bump s b i pn obj idx c).clk = s.clk := bumpBy_clk _ _ _ _ _ _ _ _
@[simp] theorem bump_free (s : State) (b : Blk) (i pn obj idx c : Nat) : (bump s b i pn obj idx c).free = s.free := bumpBy_free _ _ _ _ _ _ _ _
@[simp] theorem bump_out (s : State) (b : Blk) (i pn obj idx c : Nat) : (bump s b i pn obj idx c).out = s.out := bumpBy_out _ _ _ _ _ _ _ _
@[simp] theorem bump_pg (s : State) (b : Blk) (i pn obj idx c : Nat) : (bump s b i pn obj idx c).pg = s.pg := bumpBy_pg _ _ _ _ _ _ _ _
@[simp] theorem bump_flt (s : State) (b : Blk) (i pn obj idx c : Nat) : (bump s b i pn obj idx c).flt = s.flt := bumpBy_flt _ _ _ _ _ _ _ _
@[simp] theorem bump_net (s : State) (b : Blk) (i pn obj idx c : Nat) : (bump s b i pn obj idx c).net = s.net := bumpBy_net _ _ _ _ _ _ _ _
@[simp] theorem bump_tbl (s : State) (b : Blk) (i pn obj idx c : Nat) : (bump s b i pn obj idx c).tbl = s.tbl := bumpBy_tbl _ _ _ _ _ _ _ _
@[simp] theorem bump_hbm (s : State) (b : Blk) (i pn obj idx c : Nat) : (bump s b i pn obj idx c).hbm = s.hbm := bumpBy_hbm _ _ _ _ _ _ _ _
@[simp] theorem bump_ev (s : State) (b : Blk) (i pn obj idx c : Nat) : (bump s b i pn obj idx c).ev = s.ev := bumpBy_ev _ _ _ _ _ _ _ _
@[simp] theorem bump_tim (s : State) (b : Blk) (i pn obj idx c : Nat) : (bump s b i pn obj idx c).tim = s.tim := bumpBy_tim _ _ _ _ _ _ _ _
@[simp] theorem bump_tel (s : State) (b : Blk) (i pn obj idx c : Nat) : (bump s b i pn obj idx c).tel = s.tel := bumpBy_tel _ _ _ _ _ _ _ _
@[simp] theorem bump_hol (s : State) (b : Blk) (i pn obj idx c : Nat) : (bump s b i pn obj idx c).hol = s.hol := bumpBy_hol _ _ _ _ _ _ _ _
@[simp] theorem bump_dma (s : State) (b : Blk) (i pn obj idx c : Nat) : (bump s b i pn obj idx c).dma = s.dma := bumpBy_dma _ _ _ _ _ _ _ _
@[simp] theorem bump_prn (s : State) (b : Blk) (i pn obj idx c : Nat) : (bump s b i pn obj idx c).prn = s.prn := bumpBy_prn _ _ _ _ _ _ _ _
@[simp] theorem bump_boot (s : State) (b : Blk) (i pn obj idx c : Nat) : (bump s b i pn obj idx c).boot = s.boot := bumpBy_boot _ _ _ _ _ _ _ _

@[simp] theorem fbump_pending (s : State) (f : Fld) (i n : Nat) : (fbump s f i n).pending = s.pending := fset_pending _ _ _ _ _
@[simp] theorem fbump_clk (s : State) (f : Fld) (i n : Nat) : (fbump s f i n).clk = s.clk := fset_clk _ _ _ _ _
@[simp] theorem fbump_free (s : State) (f : Fld) (i n : Nat) : (fbump s f i n).free = s.free := fset_free _ _ _ _ _
@[simp] theorem fbump_out (s : State) (f : Fld) (i n : Nat) : (fbump s f i n).out = s.out := fset_out _ _ _ _ _
@[simp] theorem fbump_pg (s : State) (f : Fld) (i n : Nat) : (fbump s f i n).pg = s.pg := fset_pg _ _ _ _ _
@[simp] theorem fbump_flt (s : State) (f : Fld) (i n : Nat) : (fbump s f i n).flt = s.flt := fset_flt _ _ _ _ _
@[simp] theorem fbump_net (s : State) (f : Fld) (i n : Nat) : (fbump s f i n).net = s.net := fset_net _ _ _ _ _
@[simp] theorem fbump_tbl (s : State) (f : Fld) (i n : Nat) : (fbump s f i n).tbl = s.tbl := fset_tbl _ _ _ _ _
@[simp] theorem fbump_hbm (s : State) (f : Fld) (i n : Nat) : (fbump s f i n).hbm = s.hbm := fset_hbm _ _ _ _ _
@[simp] theorem fbump_ev (s : State) (f : Fld) (i n : Nat) : (fbump s f i n).ev = s.ev := fset_ev _ _ _ _ _
@[simp] theorem fbump_tim (s : State) (f : Fld) (i n : Nat) : (fbump s f i n).tim = s.tim := fset_tim _ _ _ _ _
@[simp] theorem fbump_tel (s : State) (f : Fld) (i n : Nat) : (fbump s f i n).tel = s.tel := fset_tel _ _ _ _ _
@[simp] theorem fbump_hol (s : State) (f : Fld) (i n : Nat) : (fbump s f i n).hol = s.hol := fset_hol _ _ _ _ _
@[simp] theorem fbump_dma (s : State) (f : Fld) (i n : Nat) : (fbump s f i n).dma = s.dma := fset_dma _ _ _ _ _
@[simp] theorem fbump_prn (s : State) (f : Fld) (i n : Nat) : (fbump s f i n).prn = s.prn := fset_prn _ _ _ _ _
@[simp] theorem fbump_boot (s : State) (f : Fld) (i n : Nat) : (fbump s f i n).boot = s.boot := fset_boot _ _ _ _ _

@[simp] theorem emit_pending (s : State) (e : Emit) : (emit s e).pending = s.pending := by simp only [emit]
@[simp] theorem emit_clk (s : State) (e : Emit) : (emit s e).clk = s.clk := by simp only [emit]
@[simp] theorem emit_free (s : State) (e : Emit) : (emit s e).free = s.free := by simp only [emit]
@[simp] theorem emit_cfg (s : State) (e : Emit) : (emit s e).cfg = s.cfg := by simp only [emit]
@[simp] theorem emit_pg (s : State) (e : Emit) : (emit s e).pg = s.pg := by simp only [emit]
@[simp] theorem emit_flt (s : State) (e : Emit) : (emit s e).flt = s.flt := by simp only [emit]
@[simp] theorem emit_net (s : State) (e : Emit) : (emit s e).net = s.net := by simp only [emit]
@[simp] theorem emit_tbl (s : State) (e : Emit) : (emit s e).tbl = s.tbl := by simp only [emit]
@[simp] theorem emit_hbm (s : State) (e : Emit) : (emit s e).hbm = s.hbm := by simp only [emit]
@[simp] theorem emit_ev (s : State) (e : Emit) : (emit s e).ev = s.ev := by simp only [emit]
@[simp] theorem emit_tim (s : State) (e : Emit) : (emit s e).tim = s.tim := by simp only [emit]
@[simp] theorem emit_tel (s : State) (e : Emit) : (emit s e).tel = s.tel := by simp only [emit]
@[simp] theorem emit_hol (s : State) (e : Emit) : (emit s e).hol = s.hol := by simp only [emit]
@[simp] theorem emit_dma (s : State) (e : Emit) : (emit s e).dma = s.dma := by simp only [emit]
@[simp] theorem emit_prn (s : State) (e : Emit) : (emit s e).prn = s.prn := by simp only [emit]
@[simp] theorem emit_boot (s : State) (e : Emit) : (emit s e).boot = s.boot := by simp only [emit]

@[simp] theorem pulse_pending (s : State) (line : Nat) : (pulse s line).pending = s.pending := by simp only [pulse]
@[simp] theorem pulse_clk (s : State) (line : Nat) : (pulse s line).clk = s.clk := by simp only [pulse]
@[simp] theorem pulse_free (s : State) (line : Nat) : (pulse s line).free = s.free := by simp only [pulse]
@[simp] theorem pulse_out (s : State) (line : Nat) : (pulse s line).out = s.out := by simp only [pulse]
@[simp] theorem pulse_cfg (s : State) (line : Nat) : (pulse s line).cfg = s.cfg := by simp only [pulse]
@[simp] theorem pulse_pg (s : State) (line : Nat) : (pulse s line).pg = s.pg := by simp only [pulse]
@[simp] theorem pulse_flt (s : State) (line : Nat) : (pulse s line).flt = s.flt := by simp only [pulse]
@[simp] theorem pulse_net (s : State) (line : Nat) : (pulse s line).net = s.net := by simp only [pulse]
@[simp] theorem pulse_tbl (s : State) (line : Nat) : (pulse s line).tbl = s.tbl := by simp only [pulse]
@[simp] theorem pulse_hbm (s : State) (line : Nat) : (pulse s line).hbm = s.hbm := by simp only [pulse]
@[simp] theorem pulse_tim (s : State) (line : Nat) : (pulse s line).tim = s.tim := by simp only [pulse]
@[simp] theorem pulse_tel (s : State) (line : Nat) : (pulse s line).tel = s.tel := by simp only [pulse]
@[simp] theorem pulse_hol (s : State) (line : Nat) : (pulse s line).hol = s.hol := by simp only [pulse]
@[simp] theorem pulse_dma (s : State) (line : Nat) : (pulse s line).dma = s.dma := by simp only [pulse]
@[simp] theorem pulse_prn (s : State) (line : Nat) : (pulse s line).prn = s.prn := by simp only [pulse]
@[simp] theorem pulse_boot (s : State) (line : Nat) : (pulse s line).boot = s.boot := by simp only [pulse]

@[simp] theorem putPkt_pending (s : State) (p : Pkt) : (putPkt s p).pending = s.pending := by simp only [putPkt]
@[simp] theorem putPkt_clk (s : State) (p : Pkt) : (putPkt s p).clk = s.clk := by simp only [putPkt]
@[simp] theorem putPkt_free (s : State) (p : Pkt) : (putPkt s p).free = s.free := by simp only [putPkt]
@[simp] theorem putPkt_out (s : State) (p : Pkt) : (putPkt s p).out = s.out := by simp only [putPkt]
@[simp] theorem putPkt_cfg (s : State) (p : Pkt) : (putPkt s p).cfg = s.cfg := by simp only [putPkt]
@[simp] theorem putPkt_pg (s : State) (p : Pkt) : (putPkt s p).pg = s.pg := by simp only [putPkt]
@[simp] theorem putPkt_flt (s : State) (p : Pkt) : (putPkt s p).flt = s.flt := by simp only [putPkt]
@[simp] theorem putPkt_tbl (s : State) (p : Pkt) : (putPkt s p).tbl = s.tbl := by simp only [putPkt]
@[simp] theorem putPkt_hbm (s : State) (p : Pkt) : (putPkt s p).hbm = s.hbm := by simp only [putPkt]
@[simp] theorem putPkt_ev (s : State) (p : Pkt) : (putPkt s p).ev = s.ev := by simp only [putPkt]
@[simp] theorem putPkt_tim (s : State) (p : Pkt) : (putPkt s p).tim = s.tim := by simp only [putPkt]
@[simp] theorem putPkt_tel (s : State) (p : Pkt) : (putPkt s p).tel = s.tel := by simp only [putPkt]
@[simp] theorem putPkt_hol (s : State) (p : Pkt) : (putPkt s p).hol = s.hol := by simp only [putPkt]
@[simp] theorem putPkt_dma (s : State) (p : Pkt) : (putPkt s p).dma = s.dma := by simp only [putPkt]
@[simp] theorem putPkt_prn (s : State) (p : Pkt) : (putPkt s p).prn = s.prn := by simp only [putPkt]
@[simp] theorem putPkt_boot (s : State) (p : Pkt) : (putPkt s p).boot = s.boot := by simp only [putPkt]

@[simp] theorem delPkt_pending (s : State) (id : Nat) : (delPkt s id).pending = s.pending := by simp only [delPkt]
@[simp] theorem delPkt_clk (s : State) (id : Nat) : (delPkt s id).clk = s.clk := by simp only [delPkt]
@[simp] theorem delPkt_free (s : State) (id : Nat) : (delPkt s id).free = s.free := by simp only [delPkt]
@[simp] theorem delPkt_out (s : State) (id : Nat) : (delPkt s id).out = s.out := by simp only [delPkt]
@[simp] theorem delPkt_cfg (s : State) (id : Nat) : (delPkt s id).cfg = s.cfg := by simp only [delPkt]
@[simp] theorem delPkt_pg (s : State) (id : Nat) : (delPkt s id).pg = s.pg := by simp only [delPkt]
@[simp] theorem delPkt_flt (s : State) (id : Nat) : (delPkt s id).flt = s.flt := by simp only [delPkt]
@[simp] theorem delPkt_tbl (s : State) (id : Nat) : (delPkt s id).tbl = s.tbl := by simp only [delPkt]
@[simp] theorem delPkt_hbm (s : State) (id : Nat) : (delPkt s id).hbm = s.hbm := by simp only [delPkt]
@[simp] theorem delPkt_ev (s : State) (id : Nat) : (delPkt s id).ev = s.ev := by simp only [delPkt]
@[simp] theorem delPkt_tim (s : State) (id : Nat) : (delPkt s id).tim = s.tim := by simp only [delPkt]
@[simp] theorem delPkt_tel (s : State) (id : Nat) : (delPkt s id).tel = s.tel := by simp only [delPkt]
@[simp] theorem delPkt_hol (s : State) (id : Nat) : (delPkt s id).hol = s.hol := by simp only [delPkt]
@[simp] theorem delPkt_dma (s : State) (id : Nat) : (delPkt s id).dma = s.dma := by simp only [delPkt]
@[simp] theorem delPkt_prn (s : State) (id : Nat) : (delPkt s id).prn = s.prn := by simp only [delPkt]
@[simp] theorem delPkt_boot (s : State) (id : Nat) : (delPkt s id).boot = s.boot := by simp only [delPkt]

@[simp] theorem putItem_pending (s : State) (it : Item) : (putItem s it).pending = s.pending := by simp only [putItem]
@[simp] theorem putItem_clk (s : State) (it : Item) : (putItem s it).clk = s.clk := by simp only [putItem]
@[simp] theorem putItem_free (s : State) (it : Item) : (putItem s it).free = s.free := by simp only [putItem]
@[simp] theorem putItem_out (s : State) (it : Item) : (putItem s it).out = s.out := by simp only [putItem]
@[simp] theorem putItem_cfg (s : State) (it : Item) : (putItem s it).cfg = s.cfg := by simp only [putItem]
@[simp] theorem putItem_pg (s : State) (it : Item) : (putItem s it).pg = s.pg := by simp only [putItem]
@[simp] theorem putItem_flt (s : State) (it : Item) : (putItem s it).flt = s.flt := by simp only [putItem]
@[simp] theorem putItem_tbl (s : State) (it : Item) : (putItem s it).tbl = s.tbl := by simp only [putItem]
@[simp] theorem putItem_hbm (s : State) (it : Item) : (putItem s it).hbm = s.hbm := by simp only [putItem]
@[simp] theorem putItem_ev (s : State) (it : Item) : (putItem s it).ev = s.ev := by simp only [putItem]
@[simp] theorem putItem_tim (s : State) (it : Item) : (putItem s it).tim = s.tim := by simp only [putItem]
@[simp] theorem putItem_tel (s : State) (it : Item) : (putItem s it).tel = s.tel := by simp only [putItem]
@[simp] theorem putItem_hol (s : State) (it : Item) : (putItem s it).hol = s.hol := by simp only [putItem]
@[simp] theorem putItem_dma (s : State) (it : Item) : (putItem s it).dma = s.dma := by simp only [putItem]
@[simp] theorem putItem_prn (s : State) (it : Item) : (putItem s it).prn = s.prn := by simp only [putItem]
@[simp] theorem putItem_boot (s : State) (it : Item) : (putItem s it).boot = s.boot := by simp only [putItem]

@[simp] theorem putQueue_pending (s : State) (port c : Nat) (q : QueueSt) : (putQueue s port c q).pending = s.pending := by simp only [putQueue]
@[simp] theorem putQueue_clk (s : State) (port c : Nat) (q : QueueSt) : (putQueue s port c q).clk = s.clk := by simp only [putQueue]
@[simp] theorem putQueue_free (s : State) (port c : Nat) (q : QueueSt) : (putQueue s port c q).free = s.free := by simp only [putQueue]
@[simp] theorem putQueue_out (s : State) (port c : Nat) (q : QueueSt) : (putQueue s port c q).out = s.out := by simp only [putQueue]
@[simp] theorem putQueue_cfg (s : State) (port c : Nat) (q : QueueSt) : (putQueue s port c q).cfg = s.cfg := by simp only [putQueue]
@[simp] theorem putQueue_pg (s : State) (port c : Nat) (q : QueueSt) : (putQueue s port c q).pg = s.pg := by simp only [putQueue]
@[simp] theorem putQueue_flt (s : State) (port c : Nat) (q : QueueSt) : (putQueue s port c q).flt = s.flt := by simp only [putQueue]
@[simp] theorem putQueue_tbl (s : State) (port c : Nat) (q : QueueSt) : (putQueue s port c q).tbl = s.tbl := by simp only [putQueue]
@[simp] theorem putQueue_hbm (s : State) (port c : Nat) (q : QueueSt) : (putQueue s port c q).hbm = s.hbm := by simp only [putQueue]
@[simp] theorem putQueue_ev (s : State) (port c : Nat) (q : QueueSt) : (putQueue s port c q).ev = s.ev := by simp only [putQueue]
@[simp] theorem putQueue_tim (s : State) (port c : Nat) (q : QueueSt) : (putQueue s port c q).tim = s.tim := by simp only [putQueue]
@[simp] theorem putQueue_tel (s : State) (port c : Nat) (q : QueueSt) : (putQueue s port c q).tel = s.tel := by simp only [putQueue]
@[simp] theorem putQueue_hol (s : State) (port c : Nat) (q : QueueSt) : (putQueue s port c q).hol = s.hol := by simp only [putQueue]
@[simp] theorem putQueue_dma (s : State) (port c : Nat) (q : QueueSt) : (putQueue s port c q).dma = s.dma := by simp only [putQueue]
@[simp] theorem putQueue_prn (s : State) (port c : Nat) (q : QueueSt) : (putQueue s port c q).prn = s.prn := by simp only [putQueue]
@[simp] theorem putQueue_boot (s : State) (port c : Nat) (q : QueueSt) : (putQueue s port c q).boot = s.boot := by simp only [putQueue]

@[simp] theorem putPort_pending (s : State) (p : Nat) (x : PortSt) : (putPort s p x).pending = s.pending := by simp only [putPort]
@[simp] theorem putPort_clk (s : State) (p : Nat) (x : PortSt) : (putPort s p x).clk = s.clk := by simp only [putPort]
@[simp] theorem putPort_free (s : State) (p : Nat) (x : PortSt) : (putPort s p x).free = s.free := by simp only [putPort]
@[simp] theorem putPort_out (s : State) (p : Nat) (x : PortSt) : (putPort s p x).out = s.out := by simp only [putPort]
@[simp] theorem putPort_cfg (s : State) (p : Nat) (x : PortSt) : (putPort s p x).cfg = s.cfg := by simp only [putPort]
@[simp] theorem putPort_pg (s : State) (p : Nat) (x : PortSt) : (putPort s p x).pg = s.pg := by simp only [putPort]
@[simp] theorem putPort_flt (s : State) (p : Nat) (x : PortSt) : (putPort s p x).flt = s.flt := by simp only [putPort]
@[simp] theorem putPort_tbl (s : State) (p : Nat) (x : PortSt) : (putPort s p x).tbl = s.tbl := by simp only [putPort]
@[simp] theorem putPort_hbm (s : State) (p : Nat) (x : PortSt) : (putPort s p x).hbm = s.hbm := by simp only [putPort]
@[simp] theorem putPort_ev (s : State) (p : Nat) (x : PortSt) : (putPort s p x).ev = s.ev := by simp only [putPort]
@[simp] theorem putPort_tim (s : State) (p : Nat) (x : PortSt) : (putPort s p x).tim = s.tim := by simp only [putPort]
@[simp] theorem putPort_tel (s : State) (p : Nat) (x : PortSt) : (putPort s p x).tel = s.tel := by simp only [putPort]
@[simp] theorem putPort_hol (s : State) (p : Nat) (x : PortSt) : (putPort s p x).hol = s.hol := by simp only [putPort]
@[simp] theorem putPort_dma (s : State) (p : Nat) (x : PortSt) : (putPort s p x).dma = s.dma := by simp only [putPort]
@[simp] theorem putPort_prn (s : State) (p : Nat) (x : PortSt) : (putPort s p x).prn = s.prn := by simp only [putPort]
@[simp] theorem putPort_boot (s : State) (p : Nat) (x : PortSt) : (putPort s p x).boot = s.boot := by simp only [putPort]

@[simp] theorem setLock_pending (s : State) (req : Requester) (page : Nat) (b : Bool) : (setLock s req page b).pending = s.pending := by simp only [setLock]
@[simp] theorem setLock_clk (s : State) (req : Requester) (page : Nat) (b : Bool) : (setLock s req page b).clk = s.clk := by simp only [setLock]
@[simp] theorem setLock_free (s : State) (req : Requester) (page : Nat) (b : Bool) : (setLock s req page b).free = s.free := by simp only [setLock]
@[simp] theorem setLock_out (s : State) (req : Requester) (page : Nat) (b : Bool) : (setLock s req page b).out = s.out := by simp only [setLock]
@[simp] theorem setLock_cfg (s : State) (req : Requester) (page : Nat) (b : Bool) : (setLock s req page b).cfg = s.cfg := by simp only [setLock]
@[simp] theorem setLock_flt (s : State) (req : Requester) (page : Nat) (b : Bool) : (setLock s req page b).flt = s.flt := by simp only [setLock]
@[simp] theorem setLock_net (s : State) (req : Requester) (page : Nat) (b : Bool) : (setLock s req page b).net = s.net := by simp only [setLock]
@[simp] theorem setLock_tbl (s : State) (req : Requester) (page : Nat) (b : Bool) : (setLock s req page b).tbl = s.tbl := by simp only [setLock]
@[simp] theorem setLock_hbm (s : State) (req : Requester) (page : Nat) (b : Bool) : (setLock s req page b).hbm = s.hbm := by simp only [setLock]
@[simp] theorem setLock_ev (s : State) (req : Requester) (page : Nat) (b : Bool) : (setLock s req page b).ev = s.ev := by simp only [setLock]
@[simp] theorem setLock_tim (s : State) (req : Requester) (page : Nat) (b : Bool) : (setLock s req page b).tim = s.tim := by simp only [setLock]
@[simp] theorem setLock_tel (s : State) (req : Requester) (page : Nat) (b : Bool) : (setLock s req page b).tel = s.tel := by simp only [setLock]
@[simp] theorem setLock_hol (s : State) (req : Requester) (page : Nat) (b : Bool) : (setLock s req page b).hol = s.hol := by simp only [setLock]
@[simp] theorem setLock_dma (s : State) (req : Requester) (page : Nat) (b : Bool) : (setLock s req page b).dma = s.dma := by simp only [setLock]
@[simp] theorem setLock_prn (s : State) (req : Requester) (page : Nat) (b : Bool) : (setLock s req page b).prn = s.prn := by simp only [setLock]
@[simp] theorem setLock_boot (s : State) (req : Requester) (page : Nat) (b : Bool) : (setLock s req page b).boot = s.boot := by simp only [setLock]

@[simp] theorem withTim_pending (s : State) (t : TimeSt) : (withTim s t).pending = s.pending := by simp only [withTim]
@[simp] theorem withTim_clk (s : State) (t : TimeSt) : (withTim s t).clk = s.clk := by simp only [withTim]
@[simp] theorem withTim_free (s : State) (t : TimeSt) : (withTim s t).free = s.free := by simp only [withTim]
@[simp] theorem withTim_out (s : State) (t : TimeSt) : (withTim s t).out = s.out := by simp only [withTim]
@[simp] theorem withTim_cfg (s : State) (t : TimeSt) : (withTim s t).cfg = s.cfg := by simp only [withTim]
@[simp] theorem withTim_pg (s : State) (t : TimeSt) : (withTim s t).pg = s.pg := by simp only [withTim]
@[simp] theorem withTim_flt (s : State) (t : TimeSt) : (withTim s t).flt = s.flt := by simp only [withTim]
@[simp] theorem withTim_net (s : State) (t : TimeSt) : (withTim s t).net = s.net := by simp only [withTim]
@[simp] theorem withTim_tbl (s : State) (t : TimeSt) : (withTim s t).tbl = s.tbl := by simp only [withTim]
@[simp] theorem withTim_hbm (s : State) (t : TimeSt) : (withTim s t).hbm = s.hbm := by simp only [withTim]
@[simp] theorem withTim_ev (s : State) (t : TimeSt) : (withTim s t).ev = s.ev := by simp only [withTim]
@[simp] theorem withTim_tel (s : State) (t : TimeSt) : (withTim s t).tel = s.tel := by simp only [withTim]
@[simp] theorem withTim_hol (s : State) (t : TimeSt) : (withTim s t).hol = s.hol := by simp only [withTim]
@[simp] theorem withTim_dma (s : State) (t : TimeSt) : (withTim s t).dma = s.dma := by simp only [withTim]
@[simp] theorem withTim_prn (s : State) (t : TimeSt) : (withTim s t).prn = s.prn := by simp only [withTim]
@[simp] theorem withTim_boot (s : State) (t : TimeSt) : (withTim s t).boot = s.boot := by simp only [withTim]

@[simp] theorem withTel_pending (s : State) (t : TelSt) : (withTel s t).pending = s.pending := by simp only [withTel]
@[simp] theorem withTel_clk (s : State) (t : TelSt) : (withTel s t).clk = s.clk := by simp only [withTel]
@[simp] theorem withTel_free (s : State) (t : TelSt) : (withTel s t).free = s.free := by simp only [withTel]
@[simp] theorem withTel_out (s : State) (t : TelSt) : (withTel s t).out = s.out := by simp only [withTel]
@[simp] theorem withTel_cfg (s : State) (t : TelSt) : (withTel s t).cfg = s.cfg := by simp only [withTel]
@[simp] theorem withTel_pg (s : State) (t : TelSt) : (withTel s t).pg = s.pg := by simp only [withTel]
@[simp] theorem withTel_flt (s : State) (t : TelSt) : (withTel s t).flt = s.flt := by simp only [withTel]
@[simp] theorem withTel_net (s : State) (t : TelSt) : (withTel s t).net = s.net := by simp only [withTel]
@[simp] theorem withTel_tbl (s : State) (t : TelSt) : (withTel s t).tbl = s.tbl := by simp only [withTel]
@[simp] theorem withTel_hbm (s : State) (t : TelSt) : (withTel s t).hbm = s.hbm := by simp only [withTel]
@[simp] theorem withTel_ev (s : State) (t : TelSt) : (withTel s t).ev = s.ev := by simp only [withTel]
@[simp] theorem withTel_tim (s : State) (t : TelSt) : (withTel s t).tim = s.tim := by simp only [withTel]
@[simp] theorem withTel_hol (s : State) (t : TelSt) : (withTel s t).hol = s.hol := by simp only [withTel]
@[simp] theorem withTel_dma (s : State) (t : TelSt) : (withTel s t).dma = s.dma := by simp only [withTel]
@[simp] theorem withTel_prn (s : State) (t : TelSt) : (withTel s t).prn = s.prn := by simp only [withTel]
@[simp] theorem withTel_boot (s : State) (t : TelSt) : (withTel s t).boot = s.boot := by simp only [withTel]

@[simp] theorem putHart_pending (s : State) (h : Nat) (t : Hart) : (putHart s h t).pending = s.pending := by simp only [putHart]
@[simp] theorem putHart_clk (s : State) (h : Nat) (t : Hart) : (putHart s h t).clk = s.clk := by simp only [putHart]
@[simp] theorem putHart_free (s : State) (h : Nat) (t : Hart) : (putHart s h t).free = s.free := by simp only [putHart]
@[simp] theorem putHart_out (s : State) (h : Nat) (t : Hart) : (putHart s h t).out = s.out := by simp only [putHart]
@[simp] theorem putHart_cfg (s : State) (h : Nat) (t : Hart) : (putHart s h t).cfg = s.cfg := by simp only [putHart]
@[simp] theorem putHart_pg (s : State) (h : Nat) (t : Hart) : (putHart s h t).pg = s.pg := by simp only [putHart]
@[simp] theorem putHart_flt (s : State) (h : Nat) (t : Hart) : (putHart s h t).flt = s.flt := by simp only [putHart]
@[simp] theorem putHart_net (s : State) (h : Nat) (t : Hart) : (putHart s h t).net = s.net := by simp only [putHart]
@[simp] theorem putHart_tbl (s : State) (h : Nat) (t : Hart) : (putHart s h t).tbl = s.tbl := by simp only [putHart]
@[simp] theorem putHart_hbm (s : State) (h : Nat) (t : Hart) : (putHart s h t).hbm = s.hbm := by simp only [putHart]
@[simp] theorem putHart_ev (s : State) (h : Nat) (t : Hart) : (putHart s h t).ev = s.ev := by simp only [putHart]
@[simp] theorem putHart_tim (s : State) (h : Nat) (t : Hart) : (putHart s h t).tim = s.tim := by simp only [putHart]
@[simp] theorem putHart_tel (s : State) (h : Nat) (t : Hart) : (putHart s h t).tel = s.tel := by simp only [putHart]
@[simp] theorem putHart_dma (s : State) (h : Nat) (t : Hart) : (putHart s h t).dma = s.dma := by simp only [putHart]
@[simp] theorem putHart_prn (s : State) (h : Nat) (t : Hart) : (putHart s h t).prn = s.prn := by simp only [putHart]
@[simp] theorem putHart_boot (s : State) (h : Nat) (t : Hart) : (putHart s h t).boot = s.boot := by simp only [putHart]

@[simp] theorem putCh_pending (s : State) (c : Nat) (x : Chan) : (putCh s c x).pending = s.pending := by simp only [putCh]
@[simp] theorem putCh_clk (s : State) (c : Nat) (x : Chan) : (putCh s c x).clk = s.clk := by simp only [putCh]
@[simp] theorem putCh_free (s : State) (c : Nat) (x : Chan) : (putCh s c x).free = s.free := by simp only [putCh]
@[simp] theorem putCh_out (s : State) (c : Nat) (x : Chan) : (putCh s c x).out = s.out := by simp only [putCh]
@[simp] theorem putCh_cfg (s : State) (c : Nat) (x : Chan) : (putCh s c x).cfg = s.cfg := by simp only [putCh]
@[simp] theorem putCh_pg (s : State) (c : Nat) (x : Chan) : (putCh s c x).pg = s.pg := by simp only [putCh]
@[simp] theorem putCh_flt (s : State) (c : Nat) (x : Chan) : (putCh s c x).flt = s.flt := by simp only [putCh]
@[simp] theorem putCh_net (s : State) (c : Nat) (x : Chan) : (putCh s c x).net = s.net := by simp only [putCh]
@[simp] theorem putCh_tbl (s : State) (c : Nat) (x : Chan) : (putCh s c x).tbl = s.tbl := by simp only [putCh]
@[simp] theorem putCh_hbm (s : State) (c : Nat) (x : Chan) : (putCh s c x).hbm = s.hbm := by simp only [putCh]
@[simp] theorem putCh_ev (s : State) (c : Nat) (x : Chan) : (putCh s c x).ev = s.ev := by simp only [putCh]
@[simp] theorem putCh_tim (s : State) (c : Nat) (x : Chan) : (putCh s c x).tim = s.tim := by simp only [putCh]
@[simp] theorem putCh_tel (s : State) (c : Nat) (x : Chan) : (putCh s c x).tel = s.tel := by simp only [putCh]
@[simp] theorem putCh_hol (s : State) (c : Nat) (x : Chan) : (putCh s c x).hol = s.hol := by simp only [putCh]
@[simp] theorem putCh_prn (s : State) (c : Nat) (x : Chan) : (putCh s c x).prn = s.prn := by simp only [putCh]
@[simp] theorem putCh_boot (s : State) (c : Nat) (x : Chan) : (putCh s c x).boot = s.boot := by simp only [putCh]

@[simp] theorem withCache_pending (s : State) (c : List Line) : (withCache s c).pending = s.pending := by simp only [withCache]
@[simp] theorem withCache_clk (s : State) (c : List Line) : (withCache s c).clk = s.clk := by simp only [withCache]
@[simp] theorem withCache_free (s : State) (c : List Line) : (withCache s c).free = s.free := by simp only [withCache]
@[simp] theorem withCache_out (s : State) (c : List Line) : (withCache s c).out = s.out := by simp only [withCache]
@[simp] theorem withCache_cfg (s : State) (c : List Line) : (withCache s c).cfg = s.cfg := by simp only [withCache]
@[simp] theorem withCache_pg (s : State) (c : List Line) : (withCache s c).pg = s.pg := by simp only [withCache]
@[simp] theorem withCache_flt (s : State) (c : List Line) : (withCache s c).flt = s.flt := by simp only [withCache]
@[simp] theorem withCache_net (s : State) (c : List Line) : (withCache s c).net = s.net := by simp only [withCache]
@[simp] theorem withCache_tbl (s : State) (c : List Line) : (withCache s c).tbl = s.tbl := by simp only [withCache]
@[simp] theorem withCache_hbm (s : State) (c : List Line) : (withCache s c).hbm = s.hbm := by simp only [withCache]
@[simp] theorem withCache_ev (s : State) (c : List Line) : (withCache s c).ev = s.ev := by simp only [withCache]
@[simp] theorem withCache_tim (s : State) (c : List Line) : (withCache s c).tim = s.tim := by simp only [withCache]
@[simp] theorem withCache_tel (s : State) (c : List Line) : (withCache s c).tel = s.tel := by simp only [withCache]
@[simp] theorem withCache_dma (s : State) (c : List Line) : (withCache s c).dma = s.dma := by simp only [withCache]
@[simp] theorem withCache_prn (s : State) (c : List Line) : (withCache s c).prn = s.prn := by simp only [withCache]
@[simp] theorem withCache_boot (s : State) (c : List Line) : (withCache s c).boot = s.boot := by simp only [withCache]

@[simp] theorem State.withPending_clk (s : State) (q : List Instr) : (s.withPending q).clk = s.clk := by simp only [State.withPending]
@[simp] theorem State.withPending_free (s : State) (q : List Instr) : (s.withPending q).free = s.free := by simp only [State.withPending]
@[simp] theorem State.withPending_out (s : State) (q : List Instr) : (s.withPending q).out = s.out := by simp only [State.withPending]
@[simp] theorem State.withPending_cfg (s : State) (q : List Instr) : (s.withPending q).cfg = s.cfg := by simp only [State.withPending]
@[simp] theorem State.withPending_pg (s : State) (q : List Instr) : (s.withPending q).pg = s.pg := by simp only [State.withPending]
@[simp] theorem State.withPending_flt (s : State) (q : List Instr) : (s.withPending q).flt = s.flt := by simp only [State.withPending]
@[simp] theorem State.withPending_net (s : State) (q : List Instr) : (s.withPending q).net = s.net := by simp only [State.withPending]
@[simp] theorem State.withPending_tbl (s : State) (q : List Instr) : (s.withPending q).tbl = s.tbl := by simp only [State.withPending]
@[simp] theorem State.withPending_hbm (s : State) (q : List Instr) : (s.withPending q).hbm = s.hbm := by simp only [State.withPending]
@[simp] theorem State.withPending_ev (s : State) (q : List Instr) : (s.withPending q).ev = s.ev := by simp only [State.withPending]
@[simp] theorem State.withPending_tim (s : State) (q : List Instr) : (s.withPending q).tim = s.tim := by simp only [State.withPending]
@[simp] theorem State.withPending_tel (s : State) (q : List Instr) : (s.withPending q).tel = s.tel := by simp only [State.withPending]
@[simp] theorem State.withPending_hol (s : State) (q : List Instr) : (s.withPending q).hol = s.hol := by simp only [State.withPending]
@[simp] theorem State.withPending_dma (s : State) (q : List Instr) : (s.withPending q).dma = s.dma := by simp only [State.withPending]
@[simp] theorem State.withPending_prn (s : State) (q : List Instr) : (s.withPending q).prn = s.prn := by simp only [State.withPending]
@[simp] theorem State.withPending_boot (s : State) (q : List Instr) : (s.withPending q).boot = s.boot := by simp only [State.withPending]

@[simp] theorem State.withPending_queue (s : State) (q : List Instr) : (s.withPending q).pending = q := rfl

end Sys2Proof.Machine
end

