-- ==== Sys2Proof/Laws/Firing.lean ====
section
/-!
SUPPORT. What a firing of a fault source, an injection and a check can do: registers, the pages' bookkeeping, the faults, the
network part and the output change, and nothing else.
-/
namespace Sys2Proof.Machine

/-- Of a state, only the registers, the pages' bookkeeping, the faults, the network part and the output have changed. -/
def FaultOnly (s t : State) : Prop := t = { s with cfg := t.cfg, pg := t.pg, flt := t.flt, net := t.net, out := t.out }

theorem FaultOnly.refl (s : State) : FaultOnly s s := rfl

theorem FaultOnly.trans {s t u : State} (h : FaultOnly s t) (k : FaultOnly t u) : FaultOnly s u := by
  unfold FaultOnly at *
  rw [k, h]

theorem FaultOnly.hbm {s t : State} (h : FaultOnly s t) : t.hbm = s.hbm := by rw [h]

theorem FaultOnly.hol {s t : State} (h : FaultOnly s t) : t.hol = s.hol := by rw [h]

theorem FaultOnly.foldl {α : Type} (f : State → α → State) (hf : ∀ s a, FaultOnly s (f s a)) (l : List α) (s : State) :
    FaultOnly s (l.foldl f s) := by
  induction l generalizing s with
  | nil => exact .refl s
  | cons a r ih => exact (hf s a).trans (ih _)

theorem setAct_faultOnly (s : State) (k : Nat) (w : Word) : FaultOnly s (setAct s k w) := rfl

theorem fset_faultOnly (s : State) (f : Fld) (i n v : Nat) : FaultOnly s (fset s f i n v) := rfl

theorem oset_faultOnly (s : State) (b : Blk) (i pn obj idx w v : Nat) : FaultOnly s (oset s b i pn obj idx w v) :=
  setAct_faultOnly s _ _

/-- An object entry of four words and a field of its page. -/
theorem entry_faultOnly (s : State) (b : Blk) (i p o n w0 w1 w2 w3 v : Nat) (f : Fld) :
    FaultOnly s (fset (oset (oset (oset (oset s b i p o n 0 w0) b i p o n 1 w1) b i p o n 2 w2) b i p o n 3 w3) f i 0 v) :=
  ((((oset_faultOnly _ _ _ _ _ _ _ _).trans (oset_faultOnly _ _ _ _ _ _ _ _)).trans (oset_faultOnly _ _ _ _ _ _ _ _)).trans
      (oset_faultOnly _ _ _ _ _ _ _ _)).trans (fset_faultOnly _ _ _ _ _)

theorem bump_faultOnly (s : State) (b : Blk) (i pn obj idx c : Nat) : FaultOnly s (bump s b i pn obj idx c) := rfl

theorem notify_faultOnly (s : State) (page src sev : Nat) : FaultOnly s (notify s page src sev) := by
  unfold notify intSend
  dsimp only
  split
  · rfl
  · split <;> rfl

/-- The record of a first cause: three fields set while its VALID bit is 0. -/
theorem cause_faultOnly (s : State) (f g h : Fld) (page src : Nat) :
    FaultOnly s (if fget s f 0 0 = 0 then fset (fset (fset s f 0 0 1) g 0 0 page) h 0 0 src else s) := by
  split
  · exact ((fset_faultOnly s _ _ _ _).trans (fset_faultOnly _ _ _ _ _)).trans (fset_faultOnly _ _ _ _ _)
  · exact .refl s

theorem resetClass_faultOnly (s : State) (page src : Nat) : FaultOnly s (resetClass s page src) :=
  (cause_faultOnly s _ _ _ page src).trans rfl

theorem graveStop_faultOnly (s : State) (page src : Nat) : FaultOnly s (graveStop s page src) :=
  (cause_faultOnly s _ _ _ page src).trans rfl

theorem severe_faultOnly (s : State) (page src sev : Nat) : FaultOnly s (severe s page src sev) := by
  unfold severe
  dsimp only
  have h : FaultOnly s (if 3 ≤ sev then resetClass s page src else s) := by
    split
    · exact resetClass_faultOnly s page src
    · exact .refl s
  split
  · exact h.trans (graveStop_faultOnly _ _ _)
  · exact h

theorem fireLow_faultOnly (s : State) (page src : Nat) : FaultOnly s (fireLow s page src) := by
  unfold fireLow
  split
  · exact (notify_faultOnly _ _ _ _).trans (severe_faultOnly _ _ _ _)
  · exact .refl s

theorem beginContain_faultOnly (s : State) (u : Cunit) : FaultOnly s (beginContain s u) := by
  unfold beginContain
  dsimp only
  split
  · exact .refl s
  · cases u with
    | lane j =>
      refine FaultOnly.trans (t := { s with flt := { s.flt with containing := s.flt.containing ++ [(.lane j, s.clk)] } }) rfl ?_
      refine FaultOnly.foldl _ (fun a sl => ?_) _ _
      split
      · exact .refl a
      · rfl
    | _ => rfl

/-- What a firing can do (R451-R460). -/
theorem fire_faultOnly (s : State) (page src : Nat) : FaultOnly s (fire s page src) := by
  unfold fire
  dsimp only
  split
  · refine FaultOnly.trans (notify_faultOnly s page src (sevOf s page src)) ?_
    refine FaultOnly.trans ?_ (severe_faultOnly _ _ _ _)
    split
    · exact FaultOnly.foldl _ beginContain_faultOnly _ _
    · exact .refl _
  · exact .refl s

/-- An injection that reaches its checker changes its own word only (R58, R463). -/
theorem takeInj_cfg (s : State) (page src : Nat) : (takeInj s page src).2 = { s with cfg := (takeInj s page src).2.cfg } := by
  unfold takeInj
  dsimp only
  split
  · rfl
  · split <;> rfl

theorem takeInj_faultOnly (s : State) (page src : Nat) : FaultOnly s (takeInj s page src).2 := by
  unfold FaultOnly
  rw [takeInj_cfg]

/-- What a check of a corrected and an uncorrectable source can do, whatever it counts. -/
theorem eccCheck_faultOnly (s : State) (page c u : Nat) (cntC cntU : State → State) (hc : ∀ a, FaultOnly a (cntC a))
    (hu : ∀ a, FaultOnly a (cntU a)) : FaultOnly s (eccCheck s page c u cntC cntU).2 := by
  have key : ∀ a : State, FaultOnly s a → FaultOnly s (if (takeInj a page u).1 then fire (cntU (takeInj a page u).2) page u
      else (takeInj a page u).2) := by
    intro a ha
    have hi := ha.trans (takeInj_faultOnly a page u)
    split
    · exact hi.trans ((hu _).trans (fire_faultOnly _ _ _))
    · exact hi
  refine key _ ?_
  split
  · exact (takeInj_faultOnly s page c).trans ((hc _).trans (fire_faultOnly _ _ _))
  · exact takeInj_faultOnly s page c

end Sys2Proof.Machine
end

