-- ==== Sys2Proof/Laws/Stores.lean ====
section
/-!
SUPPORT. The laws of stores: reading after setting, and that every store operation keeps the canonical form.
-/
namespace Sys2Proof.Machine

variable {α : Type}

/-! ### Reading after setting -/

@[simp] theorem storeFind_nil (k : Nat) : storeFind ([] : Store α) k = none := rfl

theorem storeFind_put_same (k : Nat) (v : α) (st : Store α) : storeFind (storePut k v st) k = some v := by
  induction st with
  | nil => simp [storePut, storeFind]
  | cons e r ih =>
    obtain ⟨k', v'⟩ := e
    simp only [storePut]
    split
    · simp [storeFind]
    · split
      · simp [storeFind]
      · have : k' ≠ k := by omega
        simp [storeFind, this, ih]

theorem storeFind_put_other {k k' : Nat} (h : k' ≠ k) (v : α) (st : Store α) :
    storeFind (storePut k v st) k' = storeFind st k' := by
  induction st with
  | nil => simp [storePut, storeFind, Ne.symm h]
  | cons e r ih =>
    obtain ⟨j, w⟩ := e
    simp only [storePut]
    split
    · simp [storeFind, Ne.symm h]
    · split
      · rename_i hj
        subst hj
        simp [storeFind, Ne.symm h]
      · simp [storeFind, ih]

theorem storeFind_del_same (k : Nat) (st : Store α) : storeFind (storeDel k st) k = none := by
  induction st with
  | nil => rfl
  | cons e r ih =>
    obtain ⟨j, w⟩ := e
    simp only [storeDel, List.filter] at ih ⊢
    by_cases h : j = k
    · simp [h, ih]
    · rw [show (j != k) = true from bne_iff_ne.2 h]
      simp [storeFind, h, ih]

theorem storeFind_del_other {k k' : Nat} (h : k' ≠ k) (st : Store α) :
    storeFind (storeDel k st) k' = storeFind st k' := by
  induction st with
  | nil => rfl
  | cons e r ih =>
    obtain ⟨j, w⟩ := e
    simp only [storeDel, List.filter] at ih ⊢
    by_cases hj : j = k
    · simp [hj, storeFind, ih, Ne.symm h]
    · rw [show (j != k) = true from bne_iff_ne.2 hj]
      simp [storeFind, ih]

@[simp] theorem storeGet_set_same [DecidableEq α] (d v : α) (k : Nat) (st : Store α) :
    storeGet d (storeSet d k v st) k = v := by
  unfold storeGet storeSet
  split
  · rename_i h; simp [storeFind_del_same, h]
  · simp [storeFind_put_same]

@[simp] theorem storeGet_set_other [DecidableEq α] (d d' v : α) {k k' : Nat} (h : k' ≠ k) (st : Store α) :
    storeGet d' (storeSet d k v st) k' = storeGet d' st k' := by
  unfold storeGet storeSet
  split
  · rw [storeFind_del_other h]
  · rw [storeFind_put_other h]

@[simp] theorem storeGet_put_same (d v : α) (k : Nat) (st : Store α) : storeGet d (storePut k v st) k = v := by
  simp [storeGet, storeFind_put_same]

/-! ### Canonical form -/

/-- Every key of the store is above `k`. -/
def storeAbove (k : Nat) (st : Store α) : Prop := ∀ e ∈ st, k < e.1

theorem storeSorted_cons (e : Nat × α) (st : Store α) :
    storeSorted (e :: st) = true ↔ storeAbove e.1 st ∧ storeSorted st = true := by
  induction st generalizing e with
  | nil => simp [storeSorted, storeAbove]
  | cons a r ih =>
    simp only [storeSorted, Bool.and_eq_true, decide_eq_true_eq, storeAbove, List.mem_cons]
    constructor
    · rintro ⟨h1, h2⟩
      refine ⟨?_, h2⟩
      rintro x (rfl | hx)
      · exact h1
      · exact Nat.lt_trans h1 (((ih a).1 h2).1 x hx)
    · rintro ⟨h1, h2⟩
      exact ⟨h1 a (Or.inl rfl), h2⟩

theorem storePut_mem {k : Nat} {v : α} {st : Store α} {e : Nat × α} (h : e ∈ storePut k v st) :
    e = (k, v) ∨ e ∈ st := by
  induction st with
  | nil => simpa [storePut] using h
  | cons a r ih =>
    obtain ⟨j, w⟩ := a
    simp only [storePut] at h
    split at h
    · exact List.mem_cons.1 h
    · split at h
      · exact (List.mem_cons.1 h).imp id (fun h => List.mem_cons.2 (Or.inr h))
      · simp only [List.mem_cons] at h ⊢
        rcases h with h | h
        · exact Or.inr (Or.inl h)
        · rcases ih h with h | h
          · exact Or.inl h
          · exact Or.inr (Or.inr h)

theorem storeSorted_put (k : Nat) (v : α) (st : Store α) (h : storeSorted st = true) :
    storeSorted (storePut k v st) = true := by
  induction st with
  | nil => rfl
  | cons a r ih =>
    obtain ⟨j, w⟩ := a
    obtain ⟨ha, hr⟩ := (storeSorted_cons _ _).1 h
    simp only [storePut]
    split
    · rename_i hk
      refine (storeSorted_cons _ _).2 ⟨?_, h⟩
      intro e he
      rcases List.mem_cons.1 he with rfl | he
      · exact hk
      · exact Nat.lt_trans hk (ha e he)
    · split
      · rename_i hk
        subst hk
        exact (storeSorted_cons _ _).2 ⟨ha, hr⟩
      · refine (storeSorted_cons _ _).2 ⟨?_, ih hr⟩
        intro e he
        rcases storePut_mem he with rfl | he
        · show j < k
          omega
        · exact ha e he

theorem storeSorted_filter (p : Nat × α → Bool) (st : Store α) (h : storeSorted st = true) :
    storeSorted (st.filter p) = true := by
  induction st with
  | nil => rfl
  | cons a r ih =>
    obtain ⟨ha, hr⟩ := (storeSorted_cons _ _).1 h
    simp only [List.filter]
    split
    · refine (storeSorted_cons _ _).2 ⟨?_, ih hr⟩
      intro e he
      exact ha e (List.mem_filter.1 he).1
    · exact ih hr

theorem storeSorted_set [DecidableEq α] (d : α) (k : Nat) (v : α) (st : Store α) (h : storeSorted st = true) :
    storeSorted (storeSet d k v st) = true := by
  unfold storeSet
  split
  · exact storeSorted_filter _ _ h
  · exact storeSorted_put k v st h

variable [DecidableEq α] [OfNat α 0]

/-- Setting keeps a memory's canonical form. -/
theorem memory_wf_set (k : Nat) (v : α) (st : Store α) (h : Memory.wf st = true) :
    Memory.wf (storeSet 0 k v st) = true := by
  simp only [Memory.wf, Bool.and_eq_true, List.all_eq_true, decide_eq_true_eq] at h ⊢
  refine ⟨storeSorted_set _ _ _ _ h.1, ?_⟩
  intro e he
  unfold storeSet at he
  split at he
  · exact h.2 e (List.mem_filter.1 he).1
  · rename_i hv
    rcases storePut_mem he with rfl | he
    · exact hv
    · exact h.2 e he

theorem memory_wf_filter (p : Nat × α → Bool) (st : Store α) (h : Memory.wf st = true) :
    Memory.wf (st.filter p) = true := by
  simp only [Memory.wf, Bool.and_eq_true, List.all_eq_true, decide_eq_true_eq] at h ⊢
  exact ⟨storeSorted_filter _ _ h.1, fun e he => h.2 e (List.mem_filter.1 he).1⟩

/-! ### The state's memories -/

theorem breakResv_mem (s : State) (a n : Nat) : (breakResv s a n).hol.mem = s.hol.mem := by
  unfold breakResv
  dsimp only
  split <;> rfl

theorem memWrite_wf (s : State) (a : Nat) (bytes : List Byte) (h : Memory.wf s.hol.mem = true) :
    Memory.wf (memWrite s a bytes).hol.mem = true := by
  unfold memWrite
  dsimp only
  rw [breakResv_mem]
  generalize (List.range bytes.length).zip bytes = l
  generalize s.hol.mem = m at h
  induction l generalizing m with
  | nil => exact h
  | cons e r ih => exact ih _ (memory_wf_set _ _ _ h)

/-- A fold of sets keeps a memory's canonical form. -/
theorem memory_wf_sets {β : Type} (key : β → Nat) (v : β → α) (l : List β) (st : Store α) (h : Memory.wf st = true) :
    Memory.wf (l.foldl (fun m b => storeSet 0 (key b) (v b) m) st) = true := by
  induction l generalizing st with
  | nil => exact h
  | cons b r ih => exact ih _ (memory_wf_set _ _ _ h)

/-- Active words read back: the set word, and every other word as before. -/
@[simp] theorem actW_setAct_same (s : State) (k : Nat) (w : Word) : actW (setAct s k w) k = w := by
  simp [actW, setAct]

@[simp] theorem actW_setAct_other (s : State) {k k' : Nat} (h : k' ≠ k) (w : Word) : actW (setAct s k w) k' = actW s k' := by
  exact storeGet_set_other _ _ _ h _

@[simp] theorem actW_setShd (s : State) (k k' : Nat) (w : Word) : actW (setShd s k w) k' = actW s k' := rfl

@[simp] theorem actW_bumpBy (s : State) (b : Blk) (i pn obj idx c n k : Nat) :
    actW (bumpBy s b i pn obj idx c n) k = actW s k := rfl

end Sys2Proof.Machine
end

