-- ==== Sys2Proof/Laws/Burlap.lean ====
section
/-!
SUPPORT. What an access of Burlap does to its memory: a column command leaves it, and a write keeps its canonical form.
-/
namespace Sys2Proof.Machine

theorem activate_mem (s : State) (i pc bank row : Nat) : (activate s i pc bank row).hbm.mem = s.hbm.mem := by
  unfold activate
  dsimp only
  split
  · rfl
  · split <;> split <;> rfl

/-- A column command leaves the stored words (R324). -/
theorem column_mem (s : State) (write : Bool) (e : Nat × Nat) : (column s write e).hbm.mem = s.hbm.mem :=
  activate_mem _ _ _ _ _

theorem hchCount_faultOnly (s : State) (i c : Nat) : FaultOnly s (hchCount s i c) := bump_faultOnly s _ _ _ _ _ _

/-- An entry of the error log changes registers only (R330). -/
theorem logErr_faultOnly (s : State) (i typ who addr syn : Nat) : FaultOnly s (logErr s i typ who addr syn) := by
  unfold logErr
  dsimp only
  refine if h : 16 ≤ fget s hchLogStatCount i 0 then ?_ else ?_
  · rw [if_pos h]
    exact fset_faultOnly _ _ _ _ _
  · rw [if_neg h]
    apply entry_faultOnly

/-- A write of an atom keeps Burlap's memory canonical (R325, R329). -/
theorem writeAtom_wf (s : State) (who : Nat) (e : Nat × Nat) (cover : Nat → Option Byte) (h : Memory.wf s.hbm.mem = true) :
    Memory.wf (writeAtom s who e cover).2.hbm.mem = true := by
  have after : ∀ (a t : State), Memory.wf a.hbm.mem = true → FaultOnly a t → Memory.wf t.hbm.mem = true := by
    intro a t ha ht
    rw [ht.hbm]
    exact ha
  unfold writeAtom
  extract_lets i page key whole rmw find bad fixed merged mem src s1 s2 s3 inj s4
  have h1 : Memory.wf s1.hbm.mem = true := memory_wf_sets _ _ _ _ h
  have h2 : FaultOnly s1 s2 := by
    show FaultOnly s1 (if rmw.isEmpty then s1 else hchCount s1 i 7)
    split
    · exact .refl _
    · exact hchCount_faultOnly _ _ _
  have h3 : FaultOnly s2 s3 := by
    show FaultOnly s2 (if fixed then fire (hchCount (hchCount s2 i 2) i 8) page 0 else s2)
    split
    · exact ((hchCount_faultOnly _ _ _).trans (hchCount_faultOnly _ _ _)).trans (fire_faultOnly _ _ _)
    · exact .refl _
  have h4 : FaultOnly s1 inj.2 := (h2.trans h3).trans (takeInj_faultOnly _ _ _)
  split
  · exact after _ _ h1 h4
  · refine after _ _ h1 ((h4.trans ?_).trans (fire_faultOnly _ _ _))
    refine FaultOnly.foldl _ (fun a w => ?_) _ _
    exact (logErr_faultOnly _ _ _ _ _ _).trans (hchCount_faultOnly _ _ _)

/-- A write of bytes keeps Burlap's memory canonical. -/
theorem burlapPut_wf (s : State) (who a : Nat) (bytes : List Byte) (h : Memory.wf s.hbm.mem = true) :
    Memory.wf (burlapPut s who a bytes).2.hbm.mem = true := by
  unfold burlapPut
  suffices H : ∀ (l : List (Nat × Nat)) (r : Nat × State) (f : Nat × State → Nat × Nat → Nat × State),
      (∀ r e, Memory.wf r.2.hbm.mem = true → Memory.wf (f r e).2.hbm.mem = true) → Memory.wf r.2.hbm.mem = true →
      Memory.wf (l.foldl f r).2.hbm.mem = true by
    refine H _ _ _ (fun r e hr => ?_) h
    exact writeAtom_wf _ _ _ _ (by rw [column_mem]; exact hr)
  intro l
  induction l with
  | nil => exact fun r f _ hr => hr
  | cons e rest ih => exact fun r f hf hr => ih _ f hf (hf r e hr)

end Sys2Proof.Machine
end

