-- ==== Sys2Proof/Tests/Slice0.lean ====
section
/-!
SUPPORT. Tests: every check of well-formedness refuses a command that breaks it; what single commands do on small states, with expected
values taken from the spec; and, for every statement with hypotheses, a witness that meets them together, clause by clause.
-/
namespace Sys2Proof.Tests
open Sys2Proof Sys2Proof.Machine

section
set_option Elab.async false
set_option maxRecDepth 100000

/-! ### Well-formedness -/

/-- Ill-formed commands, one for each check of `Instr.wf`, part 1. -/
def illFormed1 : List Instr :=
  [ .registerWrite .host 32768 0 0 0, .registerWrite .host 0 4096 0 0, .registerWrite .host 0 2 0 0, .registerWrite .host 0 0 16 0,
    .unlock .host 32768 0, .updGroupWrite .host 32768 0, .injectWrite .host 32768 0, .mailboxRead .host 32768 0,
    .mailboxWrite .host 32768 0, .mailboxComplete 32768, .mailboxTimeout 32768, .mbxCtrlRead .host ⟨32768, 0⟩, .mbxCtrlRead .host ⟨0, 16⟩,
    .flip 16, .timedStrobeFire 4, .pcsLayoutWrite .host 48 0, .frameReceive 384 0 [], .frameReceive 0 7 [], .frameTail 384 [] true,
    .pauseFrame 384 0, .pauseFrame 0 65536, .pfcFrame 384 0 [0, 0, 0, 0, 0, 0, 0, 0], .pfcFrame 0 256 [0, 0, 0, 0, 0, 0, 0, 0],
    .pfcFrame 0 0 [0, 0, 0, 0, 0, 0, 0], .pfcFrame 0 0 [0, 0, 0, 0, 0, 0, 0, 65536], .pauseExpiry 384 0, .pauseExpiry 0 8,
    .pauseRepeat 384, .lpiEntry 384, .lpiWake 384, .parkWindowEnd 384, .parkReq 384 0 0, .parkReq 0 256 0, .parkReq 0 0 256,
    .parkAck 384 0 0, .parkAck 0 256 0, .parkAck 0 0 256, .parkNak 384 0 0, .parkNak 0 256 0, .parkNak 0 0 256, .parkReady 384 0 0,
    .parkReady 0 256 0, .parkReady 0 0 256, .wakeReq 384 0 0, .wakeReq 0 256 0, .wakeReq 0 0 256, .wakeReady 384 0 0, .wakeReady 0 256 0,
    .wakeReady 0 0 256, .parkDrainDone 384 ]

/-- Ill-formed commands, one for each check of `Instr.wf`, part 2. -/
def illFormed2 : List Instr :=
  [ .receiverRealigned 384, .wakeCondition 384, .wakeLanesLocked 384, .wakeTimeout 384, .wakeRetest 384, .parkRto 384, .linkLoss 384,
    .linkUp 384, .codewordDecode 384 [0, 0, 0, 0, 0, 0, 0, 0] true, .codewordDecode 0 [0, 0, 0, 0, 0, 0, 0] true,
    .codewordDecode 0 [0, 0, 0, 0, 0, 0, 0, 16] true, .fecWindowEnd 384, .retrainStart 384, .trainingAttemptEnd 384 true 0 0,
    .trainingAttemptEnd 0 true 256 0, .holdingBufferExit 8, .reloadAttempt 319 0 true, .reloadAttempt 448 0 true,
    .reloadAttempt 320 5 true, .radishScrub 319 0 true, .radishScrub 448 0 true, .radishScrub 320 2048 true, .bankSync 319, .bankSync 448,
    .bankSyncEnd 319, .bankSyncEnd 448, .oldReadersClear 4, .tblCfgWrite .host 8 0 0, .tblCfgWrite .host 0 16 0, .learn 5, .refresh 5,
    .age 5, .withdraw 5, .agingSweep 4, .learnFilterExpiry 4, .nhpHalfCopy 4, .portDownSet 384, .portDownClear 384, .resteer 8,
    .resteerJoin 8, .keeperSweep 8, .carryEnd 384 0, .carryEnd 0 8, .chkCtlGo .host 8 0, .conservationCheck 8, .stageATransfer 8,
    .stageBTransfer 8, .imbalanceWindow 8, .replicationPass 0 8, .residueReexamine 8 ]

/-- Ill-formed commands, one for each check of `Instr.wf`, part 3. -/
def illFormed3 : List Instr :=
  [ .stagingFlush 384 0, .stagingFlush 0 8, .prefetchReadIssue 8, .burlapRequest 9 0 0 [], .burlapCommandIssue 192 0,
    .burlapCommandIssue 0 2, .refpb 192 0 0 true, .refpb 0 2 0 true, .refpb 0 0 48 true, .scrubRead 192 0, .scrubRead 0 12582912,
    .contain .host 192 0, .temperatureReport 6 0, .temperatureReport 0 256, .trainingRun .host 192 0, .trainingRunDone 192 [],
    .trainingTimeout 192, .inService .host 192 0, .logClr .host 192 0, .tapStep .host 192 0, .schedulerDecision 384, .edtHalfCopy 8,
    .edtCopyEnd 8, .transmitEnd 384, .shaperRefill 384 0, .shaperRefill 0 10, .hierarchicalExit 384, .gateChange 384,
    .queueFlushStep 384 0, .queueFlushStep 0 9, .queueSample 48, .ppsInEdge 7, .histogramWindowEnd 8, .ledgerSnapshot 8,
    .recordSubmit .host 8 0, .wfe 128, .wfeWake 128, .wfeTimeout 128, .evsig 128, .fork 128, .joinW 128, .joinX 128, .tsreadNs 128,
    .tsreadHi 128, .bcopy 128, .bfill 128, .bcrc 128, .instructionRetire 128, .hartInterrupt 128, .clean 128 ]

/-- Ill-formed commands, one for each check of `Instr.wf`, part 4. -/
def illFormed4 : List Instr :=
  [ .invalidate 128, .cleanAndInvalidate 128, .clusterTimerExpiry 16, .puntRecordWrite 64, .injectDescriptor 64, .dmaGo .host 32 0,
    .dmaStop .host 32 0, .descriptorFetch 32 [] true, .dmaBurst 32, .dmaReadCompletion 32 [] true, .dmaCompletionTimeout 32,
    .tableRecordWrite 32, .chainEnd 32, .chTmoWrite .host 32 0, .transmitDescriptor 4, .perrunAck 384 [], .perrunHello 384 [],
    .perrunLearn 384 [], .perrunAge 384 [], .perrunWithdraw 384 [], .perrunProt 384 [], .perrunTelem 384 [], .perrunEpoch 384 [],
    .routeDown 64 0, .routeDown 0 2, .ackOnly 64 0, .ackOnly 0 4, .containmentComplete 4096, .fuseSense true 16 0 0,
    .fuseSense true 0 1024 0, .fuseSense true 0 0 1024, .pllLossOfLock 15, .thermalSensorPass 256, .containerCheck 3 [] true true true,
    .smbusBlockRead 256, .lossOfBlockLock 384 0 true, .lossOfBlockLock 0 8 true, .blockLockAcquired 384, .remoteFaultReceived 384 true,
    .pcieLinkUp 2 0 0, .pcieLinkUp 7 0 0, .pcieLinkUp 3 9 0, .pcieLinkUp 3 0 4294967296, .debugHalt 128 true ]

/-- Every check of `Instr.wf` refuses a command that breaks it alone. -/
theorem test_wf_refuses : (illFormed1 ++ illFormed2 ++ illFormed3 ++ illFormed4).all (fun c => c.wf == false) = true := by
  decide +kernel

/-! ### States the tests start from -/

/-- The device 6.4 s after power-on with both planes up, the host's link up and phase RUNNING: the state most tests start from. -/
def up : State :=
  let s := State.reset
  let s := { s with clk := 10000000000, boot := { s.boot with mgmtUp := true, dpUp := true, por := true, fuses := 1,
                                                              locked := true, link := true } }
  fset (fset s glbFuseSkuCode 0 0 1) bootStatPhase 0 0 6

/-- A page unlocked for the host. -/
def open_ (s : State) (page : Nat) : State := setLock s .host page true

/-- The register of a page at an offset. -/
def reg (page off : Nat) : Reg × Nat := (regAt page off).getD (⟨0, 0, 0, 0, 0, []⟩, 0)

/-- The host's link is down. -/
def noLink (s : State) : State := { s with boot := { s.boot with link := false } }

/-- Group 9 has flipped once since the heads came in. -/
def flipped (s : State) : State := { s with pg := { s.pg with dpEp := [(9, 1)] } }

/-- A load of the time base is due at tick 5. -/
def loading (s : State) : State := { s with tim := { s.tim with loadDue := some 5 } }

/-- A training run of channel 0 is on. -/
def training (s : State) : State := { fset s hchTrnStatBusy 0 0 1 with hbm := { s.hbm with train := [(0, 5)] } }

/-- A flip of the groups of a mask waits, asked for at clock 0. -/
def waits (s : State) (mask : Nat) : State :=
  { s with pg := { s.pg with flips := [⟨mask, [(mask, 0)], 8, []⟩] } }

/-- Group 9's earlier epoch was referenced as the clock began. -/
def heldPg (s : State) : State := { s with pg := { s.pg with held := [9] } }

/-- The host's write of `hostFirst` waits. -/
def waitsHost (s : State) : State := { s with pending := [.registerWrite .host 484 0x100 15 0x00640065] }

/-- The response of page 3's mailbox waits. -/
def answered (s : State) : State := { s with pending := [.mailboxComplete 3] }

/-- A head in the parser that holds the previous epoch of group 9. -/
def pkt0 : Pkt :=
  { id := 7, slice := 0, src := .port 0, data := List.replicate 300 1, tail := true, rcvd := 300, fcsBad := false, oversize := false, arr := 0,
    stage := .parsing, since := 0, ep := List.replicate 16 0, epLow := 0, known := true, node := 0, ptr := 0, steps := 0, exts := 0,
    extHit := false, kv := [], slots := [], endOk := false, mal := 0, unparsed := false,
    res := { tenant := 0, tc := 0, dlp := none, policer := none, mirror := none, edit := none, redirect := none, counters := [] },
    nh := 0, tmpl := 0, hash := 0, list := none, flooded := false, staged := false, tsMode := 0, tsTag := 0, tsOff := 0,
    gated := false, lane := 0, copies := 0 }

/-- A packet in the device. -/
def withPkt (s : State) (k : Pkt) : State := { s with net := { s.net with pkts := s.net.pkts ++ [k], nextId := 100 } }

/-- The mailbox of a page names an object. -/
def names (s : State) (page obj idx : Nat) : State := setAct s (regKey page 0x30) (BitVec.ofNat 32 (obj * 2 ^ 24 + idx))

/-- The mailbox operation of `busy`. -/
def op4 (write : Bool) (start : Nat) : MbxOp := ⟨.host, 4, 0, write, false, 2, [5, 6], false, start⟩

/-- A mailbox operation in progress. -/
def busy (s : State) (page : Nat) (write : Bool) (start : Nat) : State :=
  { s with pg := { s.pg with mbx := storePut page (op4 write start) s.pg.mbx } }

/-- A read of a next hop. -/
def opN : MbxOp := { op4 false 10000000000 with obj := 1 }

/-- The read of `opN` is in progress. -/
def busyN (s : State) : State := { s with pg := { s.pg with mbx := storePut (pageOf .nhp 0 0) opN s.pg.mbx } }

/-- Port 0 of 1.6 Tb/s on eight lanes, aligned, its link up and its MAC on. -/
def port0 (s : State) : State :=
  let s := setAct (setAct s (layoutKey 0) 0x455) (fecKey 0) 3
  fset (fset (fset s pcsPortStatLink 0 0 1) pcsPortStatAligned 0 0 1) macCfgEnable 0 0 1

/-- A timed strobe whose time has come. -/
def armedStrobe (s : State) (n : Nat) : State := fset (fset s glbTstrobeCtlArm 0 n 1) glbTstrobeCtlMask 0 n 0x200

/-- Channel 0 of Burlap in a state. -/
def chan0 (s : State) (st : Nat) : State := fset s hchChStatState 0 0 st

/-- Every channel of Burlap in service. -/
def allUp (s : State) : State :=
  { s with cfg := { s.cfg with
    act := s.cfg.act ++ (List.range 192).map fun i => (regKey (pageOf .hch i 0) hchChStatState.off, BitVec.ofNat 32 (3 * 2 ^ hchChStatState.lo)) } }

/-- Three channels of Burlap in service. -/
def hbmUp (s : State) : State := [0, 3, 151].foldl (fun a i => fset a hchChStatState i 0 3) s

/-- The refreshes of channel 191 are long overdue. -/
def refLate : State :=
  { hbmUp up with clk := 25 * (Config.refInterval (fget (hbmUp up) hchChStatTemp 191 0) + 1) }

/-- Pseudo-channel 0 of channel 0 was refreshed on this clock. -/
def refNow : State := { hbmUp up with hbm := { (hbmUp up).hbm with refAt := [(0, 10000000000)] } }

/-- A port's record changed. -/
def port (s : State) (p : Nat) (f : PortSt → PortSt) : State := putPort s p (f (portSt s p))

/-- Channel 2 of the DMA engine at work: state, phase. -/
def dma2 (s : State) (st ph : Nat) : State := modCh (fset s dmacChStatState 2 0 st) 2 fun x => { x with phase := ph }

/-- Port 0 of 10 Gb/s on one lane with low-power idle in force. -/
def eee0 (s : State) : State :=
  let s := setAct (setAct (port0 s) (layoutKey 0) 0x101) (fecKey 0) 0
  fset s macEeeCtlEn 0 0 1

/-- The upper lanes of port 0 are locked. -/
def upper0 (s : State) : State := (upperLanes s 0).foldl (fun a l => fset a sdsLaneStatCdrLock (laneInst 0 l) 0 1) s

/-- Port 0 allowed to park. -/
def park0 (s : State) : State :=
  fset (fset (port (port0 s) 0 fun x => { x with lowWins := 100000000 }) macParkCtlEn 0 0 1) macParkPeerPeerKz 0 0 1

/-- An item of packet 7, queued at port 0. -/
def item0 : Item :=
  { id := 9, pkt := 7, islice := 0, src := .port 0, tenant := 0, es := 0, port := 0, cls := 0, desc := 0, mc := false, brl := false,
    cut := true, resteered := false, dl := 0, vft := 0, nh := 0, tmpl := 0, hash := 0, len := 300, growth := 0, cells := 2, pass := 0,
    place := .queued, sent := 0, txEnd := 0, bad := false, out := [], upTo := 0, pad := 0, node := [] }

/-- An item in the device. -/
def withItem (s : State) (it : Item) : State := { s with net := { s.net with items := s.net.items ++ [it], nextId := 100 } }

/-- A frame that is coming in at port 0. -/
def pktIn : Pkt := { pkt0 with stage := .holding, tail := false, rcvd := 70, data := List.replicate 70 2 }

/-- A quarantined row of a bank page waits for its repair. -/
def repairing (s : State) (page slot : Nat) : State := { s with tbl := { s.tbl with repairs := [⟨page, slot, 0, 5, 0⟩] } }

/-- A table command waits. -/
def cmd (s : State) (chard : Bool) (op fmt len flags : Nat) (key : List Byte) : State :=
  { s with tbl := { s.tbl with cmds := [⟨chard, [BitVec.ofNat 8 op, BitVec.ofNat 8 fmt, BitVec.ofNat 8 len, BitVec.ofNat 8 flags, 3, 0, 0, 0]
                                           ++ toLE 4 (if op < 3 then 6 else 0) ++ [1, 0, 0, 0] ++ key ++ List.replicate (48 - key.length) 0⟩] } }

/-- The command that waits in `cmd`. -/
def theCmd (s : State) : TblCmd := s.tbl.cmds.headD ⟨false, []⟩

/-- A learned Chard entry of pair 1. -/
def chd1 : ChdEnt :=
  { pair := 1, typ := 1, key := macKey 3 0x123456, way := 0, slot := 8, nh := 5, hit := false, stat := false, learned := true,
    state := 0, ebit := 0, origin := 2, misses := 0, ltime := 100 }

/-- Leek and Chard with an entry each. -/
def tabled (s : State) : State :=
  { s with tbl := { s.tbl with chd := [chd1, { chd1 with slot := 9, key := macKey 3 0x99, state := 1 }]
                               leekS := [⟨0, 3, 8, 0x0A000000, 1⟩, ⟨0, 4, 8, 0x0A000000, 1⟩] } }

/-- A learning message for a target. -/
def msg (target typ origin ltime : Nat) : RingMsg := ⟨target, typ, origin, 0, 3, 3, 0x123456, 5, ltime, true⟩

/-- The message waits on the ring. -/
def ringed (s : State) (m : RingMsg) : State := { s with tbl := { s.tbl with ring := [m] } }

/-- The table part changed. -/
def tbl (s : State) (f : TblSt → TblSt) : State := { s with tbl := f s.tbl }

/-- The network part changed. -/
def net (s : State) (f : NetSt → NetSt) : State := { s with net := f s.net }

/-- The time of day in admission time, `ns` later. -/
def soon (ns : Nat) : Nat := (admNow up + ns * 65536) % 2 ^ 48

/-- Queue 0 of port 0 enabled, at 1 Tb/s. -/
def queue0 (s : State) : State :=
  let s := oset s .egs 0 0 1 0 3 1
  putQueue s 0 0 { queue s 0 0 with rate := 1000000 }

/-- What the keeper decides for a packet of 300 bytes to queue 0 of port 0, due in `ns`, in `d` ns. -/
def verdict (s : State) (d ns : Nat) : Verdict := decideUni s pkt0 0 0 300 0 d (soon ns) 0

/-- The finish time of a verdict. -/
def vftIn : Verdict → Nat
  | .on v => v
  | .brl v => v
  | .no _ => 0

/-- A queue's record changed. -/
def queueIs (s : State) (p c : Nat) (f : QueueSt → QueueSt) : State := putQueue s p c (f (queue s p c))

/-- A chain of packet 7 in slice 0: its cells in Gauze, each with a reference. -/
def chain0 (engine : Bool) : Chain := ⟨7, 0, 0, 0, [⟨1, 1, true⟩, ⟨2, 1, true⟩], [], engine⟩

/-- A chain in the device. -/
def withChain (s : State) (c : Chain) : State := net s fun n => { n with chains := [c], nextId := 100 }

/-- A Burlap request. -/
def req0 (who : Nat) (write issued : Bool) : BReq :=
  { id := 5, who := who, addr := 0, len := 64, write := write, data := if write then List.replicate 64 7 else [], chan := 0, pc := 0,
    held := false, issued := issued, got := [], code := 0, tries := 0, since := 0, late := false, tag := [] }

/-- The Burlap part changed. -/
def hbm (s : State) (f : HbmSt → HbmSt) : State := { s with hbm := f s.hbm }

/-- Queue 0 of port 0 holds item 9 of packet 7, whole in Gauze. -/
def queued (s : State) : State :=
  queueIs (withChain (withItem (withPkt (queue0 (port0 s)) { pkt0 with stage := .accepted }) item0) (chain0 false)) 0 0 fun q =>
    { q with fifo := [9], idle := false, v := soon 1000 }

/-- As `queued`, with time left to go elsewhere. -/
def queued2 (s : State) : State :=
  queueIs (withChain (withItem (withPkt (queue0 (port0 s)) { pkt0 with stage := .accepted }) { item0 with dl := soon 1000000 }) (chain0 false)) 0 0
    fun q => { q with fifo := [9], idle := false, v := soon 1000 }

/-- As `queued2`, with a cell still on its way. -/
def queued3 (s : State) : State :=
  net (queued2 s) fun n => { n with chains := [⟨7, 0, 0, 0, [⟨1, 1, true⟩, ⟨2, 1, false⟩], [], false⟩] }

/-- A mirror record for ring 15. -/
def mir15 : MirRec := ⟨15, 0, 7, 0, List.replicate 160 1⟩

/-- Queue 0 of port 0 spills through Burlap, which has room. -/
def spilling : State :=
  let s := queueIs (queue0 (port0 up)) 0 0 fun q => { q with spill := true }
  oset (fset (fset (fset s admDescBrlLimitLimit 0 0 5) brlCtlEn 0 0 1) bpmBlkCountCount 0 0 100) .adm 0 2 1 0 1 0x100

/-- Queue 0 of port 0 has a cell in Burlap. -/
def burlaped : State := queueIs up 0 0 fun q => { q with stream := [⟨9, 0, 0, .burlap⟩], blks := [(0, 3)] }

/-- Item 9 on the line of port 0, its frame whole. -/
def onLine : State :=
  port (withItem (withPkt (withChain (port0 up) (chain0 false)) { pkt0 with stage := .accepted }) { item0 with place := .sending, out := List.replicate 296 1, upTo := 296 }) 0
    fun x => { x with tx := [9], txFree := 5 }

/-- As `onLine`, a frame longer than a line takes. -/
def onLineLong : State :=
  port (withItem (withPkt (port0 up) { pkt0 with stage := .accepted, data := List.replicate 16500 1 })
      { item0 with place := .sending, out := List.replicate 296 1, upTo := 296 }) 0 fun x => { x with tx := [9], txFree := 5 }

/-- Slice 0 has made its eight decisions of the clock. -/
def busySched (s : State) : State := (List.range 8).foldl (fun a _ => decides a 0) s

/-- A free clock of the scheduler for queue `q` of port 0 (R357). -/
def atClk (s : State) (c : Nat) : State := { s with clk := 10000000000 + c }

/-- A histogram. -/
def hist0 : Hist := { histZero with bins := List.replicate 16 3, sum := 2 ^ 48 - 300, cnt := 2 ^ 32 - 1 }

/-- A flash directory with one entry: type 1, copy 0, at 4096, 640 bytes. -/
def dir1 : List Byte :=
  let e := toLE 1 1 ++ toLE 1 0 ++ [0, 0] ++ toLE 4 4096 ++ toLE 4 640 ++ [0, 0, 0, 0]
  toLE 4 0x44465A4B ++ toLE 2 1 ++ toLE 2 1 ++ toLE 4 (crc32c e) ++ e

/-- A boot phase. -/
def phase (s : State) (n : Nat) : State := fset s bootStatPhase 0 0 n

/-- POR_N is low. -/
def off : State := State.reset

/-- POR_N is high, the management plane not yet up. -/
def powered : State := { off with clk := 10000000, boot := { off.boot with por := true, porAt := 5 } }

/-- The boot part changed. -/
def boot (s : State) (f : BootSt → BootSt) : State := { s with boot := f s.boot }

/-- The fault part changed. -/
def flt (s : State) (f : FaultSt → FaultSt) : State := { s with flt := f s.flt }

/-- The time part changed. -/
def tim (s : State) (f : TimeSt → TimeSt) : State := { s with tim := f s.tim }

/-- The telemetry part changed. -/
def tel (s : State) (f : TelSt → TelSt) : State := { s with tel := f s.tel }

/-- A descriptor (Table 14-1): source, destination, next, length, flags, spaces, GEN, DONE_GEN. -/
def dsc (src dst next len flags spaces gen done : Nat) : List Byte :=
  toLE 8 src ++ toLE 8 dst ++ toLE 8 next ++ toLE 3 len ++ toLE 1 flags ++ toLE 1 spaces ++ toLE 1 gen ++ toLE 1 done ++ [0]

/-- A DMA channel changed. -/
def chan (s : State) (c : Nat) (f : Chan → Chan) : State := modCh s c f

/-- Channel 2 in a phase, with a descriptor. -/
def dma2d (s : State) (ph : Nat) (d : List Byte) : State :=
  modCh (fset s dmacChStatState 2 0 1) 2 fun x => { x with phase := ph, desc := d, gen := 1, loc := 0x2000000 }

/-- Perrun on, peer 3 with routes 0 and 1 on ports 0 and 1, both up. -/
def peers (s : State) : State :=
  let s := fset (fset s prnCfgEn 0 0 1) prnCfgChipId 0 0 7
  let s := oset (oset (oset s .prn 0 3 1 3 0 0x80000009) .prn 0 3 1 3 1 0x003003E8) .prn 0 3 1 3 2 0x80018000
  fset s prnRouteStatUp 0 0 0xC0

/-- Transmit ring 1 at 0x2001000 holds a descriptor of type `t` to peer 3. -/
def ring1 (s : State) (t : Nat) : State :=
  let s := fset (fset (fset (fset s prnTxqCtlEn 0 1 1) prnTxqCtlSizeLog2 0 1 4) prnTxqBaseAddr 0 1 0x20010) prnTxqPtrTail 0 1 1
  memWrite s 0x2001000 (toLE 8 0x2002000 ++ toLE 2 4 ++ toLE 1 t ++ toLE 1 3 ++ List.replicate 20 0)

/-- The Perrun part changed. -/
def prn (s : State) (f : PrnSt → PrnSt) : State := { s with prn := f s.prn }

/-- A message of peer 3, priority 1. -/
def msg0 (dl retx : Nat) : PMsg :=
  { id := 4, peer := 3, prio := 1, typ := 1, desc := 0x2001000, body := [1, 2, 3], seq := 8, dl := dl, retx := retx, route := 0, sentAt := some 5 }

/-- The Holtarun part changed. -/
def hol (s : State) (f : HolSt → HolSt) : State := { s with hol := f s.hol }

/-- A thread changed. -/
def thread (s : State) (h : Nat) (f : Hart → Hart) : State := putHart s h (f (hartOf s h))

/-- Thread 9 READY in M mode at 0x2000000, where an instruction word stands, with registers set. -/
def xh (w : Nat) (x : List (Nat × Nat)) : State :=
  putHart (memWrite up 0x2000000 (toLE 4 w)) 9
    { hartIdle with st := .ready, pc := 0x2000000, x := x.foldl (fun a e => a.set e.1 e.2) (List.replicate 32 0) }

/-- The word of an Xhol instruction. -/
def xhol (f7 rs2 rs1 f3 rd : Nat) : Nat := f7 * 2 ^ 25 + rs2 * 2 ^ 20 + rs1 * 2 ^ 15 + f3 * 2 ^ 12 + rd * 2 ^ 7 + 0x0B

/-- What thread 9 fetches. -/
def fet (s : State) : Fetched := match (fetchAt s 9 (hartOf s 9)).1 with
  | .inl f => f
  | .inr _ => ⟨0, 0, 0⟩

/-- The state its fetch leaves. -/
def fetU (s : State) : State := (fetchAt s 9 (hartOf s 9)).2

/-- A frame for the Perrun engine, of a type, from peer 3 to this chip, at port 0. -/
def prnBytes (ty : Nat) : List Byte :=
  let h := toBE 1 0x50 ++ toBE 1 1 ++ toBE 1 (ty + 16) ++ toBE 1 0 ++ toBE 2 9 ++ toBE 2 7 ++ toBE 2 0 ++ List.replicate 24 0
  List.replicate 12 0 ++ toBE 2 0x88B5 ++ h ++ toBE 4 (crc32c h) ++ List.replicate 12 0 ++ [1, 2, 3, 4]

/-- Event lines with counts. -/
def evs (s : State) (l : List (Nat × Nat)) : State := { s with ev := l }

/-- A punted frame of queue 63. -/
def punt0 : Punt :=
  { q := 63, slice := 0, pkt := 7, cells := 1, reason := 1, mal := 0, tenant := 5, tc := 1, nh := 3, action := 9, data := List.replicate 64 2,
    src := 0, arr := 100, kv := List.replicate 160 0, tailAt := some 5 }

/-- What the host's write of `waitsHost` leaves. -/
def hostFirst : State := match exec (.registerWrite .host 484 0x100 15 0x00640065) (waitsHost up) with
  | .next t => t
  | _ => up

/-- A host write has been done ahead of its turn. -/
def earlyUp : State := { up with pg := { up.pg with early := 1 } }

/-- The waiting flip of group 9. -/
def flip9 : FlipReq := ⟨0x200, [(0x200, 0)], 8, []⟩

/-- A conservation check that found 2 too few. -/
def check7 : Check := ⟨7, 3, 5, -2, 4, false⟩

/-- A re-steered packet's tag. -/
def tag9 : Tag := ⟨9, 0, 0, 0, 5⟩

/-- The unicast queue of slice 7 to the lane of this slot, with a cell. -/
def stageA7 (s : State) : StageA := { slice := 7, lane := (7 + slotNow s) % 8, kind := 1, cells := [tag9] }

/-- Cells wait in slice 7 for Twill. -/
def stagedA (s : State) : State := net s fun n => { n with stageA := [stageA7 s] }

/-- A late request. -/
def lateReq : BReq := { req0 7 false true with late := true }

/-- What a head finds at the gate: the releases, the re-steers and the earlier heads of the clock have had their turn. -/
def gateOf (s : State) (k : Pkt) : State := (headsBefore s k).foldl verdictOn ((resteersDue s).foldl resteerSlice (releases s))

/-- What a frame's tail finds at port 0. -/
def tailOf (s : State) : State := releases (modPort s 0 fun y => { y with rx := none, rxCtl := [], rxDrop := false })

/-- Head 7 is looked up in Leek, whose check takes an uncorrectable error. -/
def leekBad (s : State) : State :=
  setAct (fset (fset s lekFwdSelW0En 0 0 1) lekFwdSelW1Kind 0 0 1) (regKey (pageOf .lek 0 0) 0x20) 0x11

/-- The packet of `queued` has a backup at port 1, and port 0 is lost. -/
def backed (s : State) : State :=
  let s := oset (oset (oset s .nhp 0 0 1 0 1 0x100001) .nhp 0 0 1 1 0 9) .egs 0 0 1 9 3 1
  let s := putQueue (fset s nhpProtCfgResteerEn 0 0 1) 1 0 { queue s 1 0 with rate := 1000000 }
  port s 0 fun x => { x with loss := true }

/-- The item of `backed`. -/
def itemB : Item := { item0 with dl := soon 1000000 }

/-- Where the item of `backed` goes. -/
def wayB (s : State) : Nat × Nat × Nat × Nat × Nat := (resteerTo s itemB).getD (0, 0, 0, 0, 0)

/-- The state an engine's read leaves. -/
def engU (s : State) (a n : Nat) : State := (engineRead s a n).2

/-- A request of the spill writer or the prefetcher. -/
def inner0 (who : Nat) (write : Bool) : BReq := { req0 who write true with tag := [0, 0, 0] }

/-- No bytes. -/
def none0 : List Byte := []

/-- A saturated histogram. -/
def histSat : Hist := { hist0 with sat := true }

/-- A HELLO frame for the inject engine. -/
def helloFrame : PFrame := ⟨1, List.replicate 60 2⟩

/-- A message not covered by an acknowledgement of 10. -/
def msg12 : PMsg := { msg0 0 0 with seq := 12, id := 5 }

/-- An instruction that ended well. -/
def exeOk : Exe := ⟨up, { hartIdle with st := .ready, pc := 8, x := List.replicate 32 3 }, [], none, true⟩

/-- An instruction that raised an illegal-instruction exception. -/
def exeIll : Exe :=
  ⟨up, { hartIdle with st := .ready, pc := 8, x := List.replicate 32 3, csr := [(0x305, 0x2000101)] }, [], some (2, 5), false⟩

/-! ### States, packets, items and bytes of the witnesses, in the order they are used -/

def st0 : State := waitsHost up
def st1 : State := open_ up 484
def st2 : State := noLink up
def st3 : State := waits up 0x200
def st4 : State := open_ up 604
def st5 : State := open_ up 552
def st6 : State := withPkt (flipped up) pkt0
def st7 : State := names up 3 4 0
def st8 : State := names up 3 3 0
def st9 : State := names (open_ up (pageOf .hch 0 2)) (pageOf .hch 0 2) 0x16 3
def st10 : State := busy (names up 3 4 0) 3 false 10000000000
def st11 : State := busyN up
def st12 : State := busy up 3 true 10000000000
def st13 : State := busy up 3 true 1
def st14 : State := answered (busy up 3 true (10000000000 - 156250))
def st15 : State := setAct up (regKey 3 0x34) 0x1ff
def st16 : State := waits up 0x600
def st17 : State := setShd (setShd (setAct up (regKey 484 0x100) 0x00700070) (regKey 484 0x100) 0x00640064) (regKey 604 0x100) 3
def st18 : State := withPkt (flipped (waits up 0x200)) pkt0
def st19 : State := heldPg (waits up 0x200)
def st20 : State := armedStrobe up 3
def st21 : State := (loading up)
def st22 : State := port0 (loading up)
def st23 : State := chan0 up 2
def st24 : State := chan0 (open_ up 2048) 3
def st25 : State := allUp up
def st26 : State := chan0 up 1
def st27 : State := chan0 up 3
def st28 : State := fset (chan0 up 2) hchTrnStatBusy 0 0 1
def st29 : State := training (chan0 up 2)
def st30 : State := setAct (names (open_ (chan0 up 3) (pageOf .hch 0 2)) (pageOf .hch 0 2) 0x16 3) (regKey (pageOf .hch 0 2) 0x40) 6
def st31 : State := setAct (names (open_ (chan0 up 3) (pageOf .hch 0 2)) (pageOf .hch 0 2) 0x16 71) (regKey (pageOf .hch 0 2) 0x40) 10
def st32 : State := waits up 2
def st33 : State := fset up dmaxReplayNsNs 32 0 600000
def st34 : State := dma2 up 1 2
def st35 : State := dma2 up 2 4
def st36 : State := dma2 up 1 3
def st37 : State := dma2 up 1 5
def st38 : State := port0 up
def st39 : State := fset (port0 up) macPauseCtlRxPause 0 0 1
def st40 : State := fset (port0 up) macPauseCtlRxPfc 0 0 0x81
def st41 : State := port up 383 fun x => { x with pauseEnd := [0, 0, 0, 0, 0, 0, 0, 5] }
def st42 : State := fset (fset (withPkt (port0 up) pktIn) macPortStatTxXoff 0 0 1) macPauseCtlXoffKib 0 0 0
def st43 : State := eee0 up
def st44 : State := withItem (port up 0 fun x => { x with lpiTx := true }) item0
def st45 : State := park0 up
def st46 : State := port (park0 up) 0 fun x => { x with park := .parking, parkSeq := 3 }
def st47 : State := port (park0 up) 0 fun x => { x with park := .parked, readySent := true }
def st48 : State := port (park0 up) 0 fun x => { x with park := .waking }
def st49 : State := port (park0 up) 0 fun x => { x with park := .parking, agreed := true }
def st50 : State := port (park0 up) 0 fun x => { x with park := .parking, readySent := true, readyRcvd := true }
def st51 : State := port (park0 up) 0 fun x => { x with park := .waking, readySent := true, readyRcvd := true }
def st52 : State := port (port0 up) 0 fun x => { x with park := .parking }
def st53 : State := port (port0 up) 0 fun x => { x with park := .parked }
def st54 : State := upper0 <| port (park0 up) 0 fun x => { x with park := .waking }
def st55 : State := port (park0 up) 0 fun x => { x with park := .parked, failAt := some 5 }
def st56 : State := port (port0 up) 0 fun x => { x with park := .parked, failAt := some 5 }
def st57 : State := port (park0 up) 0 fun x => { x with park := .parking, reqs := 2 }
def st58 : State := port (park0 up) 0 fun x => { x with park := .parking, reqs := 3 }
def st59 : State := port (port0 up) 0 fun x => { x with conds := [some 5, none, none, none, none] }
def st60 : State := fset (port (port0 up) 0 fun x => { x with upSince := some 5, loss := true }) pcsPortStatLink 0 0 0
def st61 : State := port (port0 up) 0 fun x => { x with conds := [none, none, some 5, none, none], loss := true }
def st62 : State := port (port0 up) 0 fun x => { x with loss := true }
def st63 : State := fset (port (port0 up) 0 fun x => { x with loss := true }) pcsPortStatAligned 0 0 0
def st64 : State := port (port0 up) 0 fun x => { x with retrainDue := some 5 }
def st65 : State := port (port0 up) 0 fun x => { x with retrainDue := some 5, loss := true }
def st66 : State := fset up sdsLaneStatPowered 383 0 1
def st67 : State := withPkt (port (port0 up) 0 fun x => { x with rx := some 7 }) pktIn
def st68 : State := tailOf (withPkt (port (port0 up) 0 fun x => { x with rx := some 7 }) pktIn)
def pk0 : Pkt := { pkt0 with stage := .holding }
def st69 : State := withPkt (port0 up) { pkt0 with stage := .holding }
def st70 : State := withPkt up pkt0
def pk1 : Pkt := { pkt0 with steps := 24 }
def st71 : State := withPkt up { pkt0 with steps := 24 }
def pk2 : Pkt := { pkt0 with endOk := true }
def st72 : State := withPkt up { pkt0 with endOk := true }
def pk3 : Pkt := { pkt0 with stage := .parsed }
def st73 : State := withPkt up { pkt0 with stage := .parsed }
def pk4 : Pkt := { pkt0 with stage := .classified }
def st74 : State := withPkt {up with flt := {up.flt with contained := [.pair 0]}} { pkt0 with stage := .classified }
def st75 : State := withPkt up { pkt0 with stage := .classified }
def pk5 : Pkt := { pkt0 with stage := .classified, fcsBad := true, data := List.replicate 100 1 }
def st76 : State := withPkt {up with flt := {up.flt with contained := [.pair 0]}} { pkt0 with stage := .classified, fcsBad := true, data := List.replicate 100 1 }
def st77 : State := leekBad (withPkt up { pkt0 with stage := .classified })
def st78 : State := repairing up 447 3
def st79 : State := repairing up 320 4
def st80 : State := tbl up fun t => { t with syncs := [(320, 5)] }
def st81 : State := tbl up fun t => { t with syncs := [(320, 5), (4416, 7)] }
def st82 : State := fset up treStatOldReaders 3 0 1
def st83 : State := cmd (tabled up) false 1 0 8 0 [11]
def st84 : State := cmd (tabled up) true 1 1 0 0 (macKey 3 5)
def st85 : State := cmd (tabled up) false 2 0 8 0 [10]
def st86 : State := cmd (tabled up) true 2 1 0 0 (macKey 3 0x123456)
def st87 : State := cmd (tabled up) false 3 0 0 0 []
def st88 : State := cmd (tabled up) true 3 1 0 0 []
def st89 : State := cmd (tabled up) true 4 1 0 0x20 []
def st90 : State := fset up lekStatSync 0 0 1
def st91 : State := tbl (fset (fset up lekStatSync 0 0 1) lekStatSync 3 0 1) fun t => { t with leekSync := [(3, (5, 7))] }
def st92 : State := tbl (tabled up) fun t => { t with deferAt := some 5 }
def st93 : State := fset up chdAgeCfgAgeSec 3 0 1
def st94 : State := tbl up fun t => { t with filter := [(1, [1], 5), (1, [2], 10000000000), (0, [1], 5)] }
def st95 : State := fset up nhpStatHeld 1 0 1
def st96 : State := port up 383 fun x => { x with downAt := some 5 }
def st97 : State := port up 383 fun x => { x with clearAt := some 5 }
def st98 : State := fset up edtStatHeld 7 0 1
def st99 : State := fset (fset up edtStatHeld 7 0 1) edtStatCopy 7 0 1
def st100 : State := ringed (tabled up) (msg 1 1 3 200)
def st101 : State := ringed (tabled up) (msg 1 2 1 100)
def st102 : State := ringed (tabled up) (msg 1 3 2 100)
def st103 : State := ringed (tabled up) (msg 1 4 2 100)
def st104 : State := ringed (fset up holxLrnCtlEn 16 0 1) (msg 4 1 2 100)
def st105 : State := ringed (tabled up) (msg 4 4 2 100)
def st106 : State := setAct (setAct (names up 32 5 0) (regKey 32 0x40) 0x11) (regKey 32 0x54) 77
def pk6 : Pkt := { pkt0 with stage := .forwarded }
def st107 : State := withPkt up { pkt0 with stage := .forwarded }
def pk7 : Pkt := { pkt0 with stage := .forwarded, res := { pkt0.res with policer := some 3 } }
def st108 : State := withPkt up { pkt0 with stage := .forwarded, res := { pkt0.res with policer := some 3 } }
def pk8 : Pkt := { pkt0 with stage := .metered, fcsBad := true, data := List.replicate 64 1 }
def st109 : State := withPkt up { pkt0 with stage := .metered, fcsBad := true, data := List.replicate 64 1 }
def st110 : State := gateOf (withPkt up { pkt0 with stage := .metered, fcsBad := true, data := List.replicate 64 1 }) ({ pkt0 with stage := .metered, fcsBad := true, data := List.replicate 64 1 })
def pk9 : Pkt := { pkt0 with stage := .metered, data := List.replicate 64 1 }
def st111 : State := withPkt up { pkt0 with stage := .metered, data := List.replicate 64 1 }
def st112 : State := gateOf (withPkt up { pkt0 with stage := .metered, data := List.replicate 64 1 }) ({ pkt0 with stage := .metered, data := List.replicate 64 1 })
def pk10 : Pkt := { pkt0 with stage := .metered, tail := false }
def st113 : State := withPkt up { pkt0 with stage := .metered, tail := false }
def st114 : State := gateOf (withPkt up { pkt0 with stage := .metered, tail := false }) ({ pkt0 with stage := .metered, tail := false })
def st115 : State := queue0 (port0 up)
def st116 : State := queueIs up 0 0 fun q => { q with idle := false, v := 5 }
def st117 : State := queueIs up 383 7 fun q => { q with carry := some (soon 0, 9) }
def st118 : State := net up fun n => { n with checks := [check7] }
def st119 : State := stagedA up
def st120 : State := net up fun n => { n with xferAt := [(7, 10000000000)] }
def st121 : State := net up fun n => { n with xferAt := [(15, 10000000000)] }
def st122 : State := net (fset up gzeImbCfgBalEn 7 0 0) fun n => { n with occSum := [(56, 3)] }
def st123 : State := net up fun n => { n with occSum := [(56, 3)] }
def st124 : State := withChain up (chain0 true)
def st125 : State := withItem up { item0 with place := .residue, mc := true }
def st126 : State := withItem (withPkt up pkt0) { item0 with place := .residue, mc := true }
def im0 : Item := { item0 with place := .residue, mc := true }
def st127 : State := queueIs up 0 0 fun q => { q with staging := [(0, 5)], stream := [⟨9, 0, 0, .staged⟩], blks := [(0, 3)] }
def st128 : State := queueIs (withItem up item0) 0 0 fun q => { q with stream := [⟨9, 0, 0, .reading⟩], blks := [(0, 3)] }
def st129 : State := hbm up fun h => { h with reqs := [inner0 0 true] }
def st130 : State := hbm up fun h => { h with reqs := [inner0 1 false] }
def st131 : State := port (queued up) 0 fun x => { x with loss := true }
def st132 : State := backed (queued2 up)
def st133 : State := backed (queued3 up)
def im1 : Item := { item0 with place := .resteer }
def st134 : State := net (withChain (withItem (withPkt up pkt0) { item0 with place := .resteer }) (chain0 false)) fun n => { n with resteerSent := [tag9] }
def st135 : State := net up fun n => { n with mirq := [mir15] }
def st136 : State := net (fset (fset (fset (fset (hbmUp up) gzeMirCtlEn 0 15 1) gzeMirBaseHiAddr 0 15 0) brlEffMirrorGbs 0 0 5) gzeMirBaseLoAddr 0 15 0x800000 |> fun a => fset a gzeMirCtlSizeLog2 0 15 4) fun n => { n with mirq := [mir15] }
def st137 : State := hbmUp up
def st138 : State := fset (hbmUp up) hchChStatState 0 0 5
def st139 : State := hbm (hbmUp up) fun h => { h with reqs := [req0 7 true false] }
def st140 : State := hbm (hbmUp up) fun h => { h with reqs := [req0 7 false false] }
def st141 : State := hbm (hbmUp up) fun h => { h with reqs := [req0 7 true true] }
def st142 : State := hbm (hbmUp up) fun h => { h with reqs := [req0 7 false true] }
def st143 : State := hbm (hbmUp up) fun h => { h with reqs := [lateReq] }
def st144 : State := hbm (hbmUp up) fun h => { h with rows := [(0, 3), (5, 4), (96, 7)] }
def st145 : State := hbm (hbmUp up) fun h => { h with scrub := [(0, false)], mem := [(wordKey 0 8, Nat.xor (fresh 5) 4)] }
def st146 : State := queueIs (queued up) 0 0 fun q => { q with v := soon 0 }
def st147 : State := queueIs (queued up) 0 0 fun q => { q with v := soon 100000 }
def st148 : State := busySched up
def st149 : State := queueIs (oset (queued up) .egs 0 0 1 0 0 0x05000500) 0 0 fun q => { q with v := soon 100000 }
def im2 : Item := { item0 with place := .sending, out := List.replicate 296 1, upTo := 296 }
def pk11 : Pkt := { pkt0 with stage := .accepted }
def st150 : State := onLine |> fun up => up
def pk12 : Pkt := { pkt0 with stage := .accepted, data := List.replicate 16500 1 }
def st151 : State := onLineLong |> fun up => up
def st152 : State := atClk (queueIs (oset (oset up .egs 0 0 1 0 1 1000) .egs 0 0 1 0 2 5000) 0 0 fun q => { q with tok := 3 }) (64 * 3 + 8)
def st153 : State := atClk up (8 + 9 * 7 + 8)
def st154 : State := atClk (fset (fset up egsPortShpRateRateMbps 0 7 5000) egsPortShpBurstBurst 0 7 9000) 7
def st155 : State := fset (port up 5 fun x => { x with hier := true, recUntil := some 5, upUntil := some 9 }) egsPortCfgMode 0 5 2
def st156 : State := fset (fset (fset (oset (port0 up) .egs 0 1 1 0 1 0x1FF) egsGateCtlEn 0 0 1) egsGateCtlEntries 0 0 1) egsGateCycleCycleNs 0 0 10000
def st157 : State := oset up .egs 0 0 1 8 3 3
def st158 : State := oset (queued up) .egs 0 0 1 0 3 3
def st159 : State := oset (fset up egsSampleCtlIntervalUs 0 0 10) .egs 0 0 1 71 3 5
def st160 : State := tel (oset (fset up egsSampleCtlIntervalUs 47 0 10) .egs 47 0 1 0 3 5) fun t => { t with pend := List.replicate 512 ⟨7, 4, []⟩ }
def st161 : State := setAct (names (tel up fun t => { t with half := [(6, 4 :: List.replicate 63 5)] }) (pageOf .tel 3 1) 1 1) (regKey (pageOf .tel 3 1) 0x40) 4
def by0 : List Byte := [4,5,5,5,5,5,5,5,5,5,5,5,5,5,5,5,5,5,5,5,5,5,5,5,5,5,5,5,5,5,5,5,5,5,5,5,5,5,5,5,5,5,5,5,5,5,5,5,5,5,5,5,5,5,5,5,5,5,5,5,5,5,5,5]
def st162 : State := tel up fun t => { t with pend := [⟨3, 4, List.replicate 128 1⟩, ⟨3, 5, List.replicate 128 2⟩] }
def st163 : State := net up fun n => { n with xferAt := (List.range 8).map fun i => (32 + i, 10000000000) }
def st164 : State := fset (fset up timCtlPpsOutEn 0 0 1) timCtlTodTxEn 0 0 1
def st165 : State := fset (tim up fun t => { t with todDue := some (9, 6) }) timCtlTodTxEn 0 0 1
def st166 : State := fset up timCtlTodRxEn 0 0 1
def st167 : State := fset up timCtlPpsInEn 0 0 1
def st168 : State := fset (fset up timCtlPpsInEn 0 0 1) timStatLoadWait 0 0 1
def st169 : State := tim (names up (pageOf .tim 0 0) 3 0) fun t => { t with fifo := [[511, 65535, 63000000000, 7], [1, 2, 3, 4]] }
def st170 : State := names up (pageOf .tim 0 0) 3 0
def st171 : State := tim (names up (pageOf .tim 0 0) 2 0) fun t => { t with cap := [63000000007, 1] }
def st172 : State := fset (fset (tel up fun t => { t with hist := [(3, hist0), (3024, hist0), (3025, hist0)] }) telHistCtlWinMs 7 0 10) telHistPortsLoPorts 7 0 5
def st173 : State := fset up telSnapCtlSnapMs 7 0 10
def st174 : State := setAct up (regKey 1 0x10) 0xFFFF
def st175 : State := State.reset |> fun reset => reset
def st176 : State := setAct (hbmUp up) (regKey (pageOf .hch 3 0) 0x18) 0x10
def st177 : State := flt up fun f => { f with containing := [(.slice 3, 5)] }
def st178 : State := withItem (withPkt up pkt0) item0
def st179 : State := fset (flt up fun f => { f with sev3At := some 5, faultN := true }) glbFaultCtlAutoWarm 0 0 1
def st180 : State := flt up fun f => { f with warmAt := some 5, faultN := true }
def st181 : State := net up fun n => { n with linkStall := some 5 }
def st182 : State := flt up fun f => { f with grave := true }
def st183 : State := boot powered fun b => { b with fuses := 1 }
def st184 : State := flt off fun f => { f with grave := true }
def st185 : State := phase up 1
def st186 : State := fset (phase up 1) bootCtlSrc 0 0 1
def st187 : State := boot (phase up 2) fun b => { b with dirRead := true, dir := [(1, 0, 4096, 640)] }
def st188 : State := fset (fset (fset (fset (fset (fset (phase up 2) bootImgStatResult 0 0 1) bootImgStatResult 0 2 1) bootImgStatResult 0 3 1) bootImgStatApplied 0 0 1) bootImgStatApplied 0 2 1) bootImgStatApplied 0 3 1
def st189 : State := phase up 2
def st190 : State := fset (fset (phase up 3) bootHostLenLen 0 0 4096) bootHostAddrLoAddr 0 0 7
def st191 : State := fset (fset (phase up 7) bootHostLenLen 0 0 4096) bootHostAddrLoAddr 0 0 7
def st192 : State := phase up 6
def st193 : State := open_ up (pageOf .pcie 0 0)
def st194 : State := hol (open_ (thread (thread up 9 fun t => { t with st := .waitEvent }) 10 fun t => { t with st := .ready }) (pageOf .holx 16 0)) fun h => { h with cache := [⟨5, List.replicate 64 1, true⟩], mem := [(0x1000000, 5), (0x2000000, 6)] }
def st195 : State := hol (open_ up (pageOf .holx 16 0)) fun h => { h with cache := [⟨5, List.replicate 64 1, false⟩] }
def st196 : State := hol (open_ up (pageOf .holx 16 0)) fun h => { h with restartAt := some 5 }
def st197 : State := fset (fset (fset up holxTmrEn 16 15 1) holxTmrPeriodUs 16 15 7) holxTmrOneshot 16 15 1
def st198 : State := fset (fset up holxTmrEn 16 0 1) holxTmrPeriodUs 16 0 7
def st199 : State := hol (fset (fset (fset up holxPqCtlEn 16 63 1) holxPqCtlSizeLog2 16 63 4) holxPqCtlSlotLog2 16 63 11) fun h => { h with punts := [punt0] }
def st200 : State := prn (fset (fset (fset up holxIqCtlEn 16 5 1) prnCfgEn 0 0 1) prnCfgIq 0 0 5) fun p => { p with outq := [⟨2, List.replicate 60 1⟩, helloFrame] }
def st201 : State := fset (fset (fset up holxIqCtlEn 16 5 1) holxIqCtlSizeLog2 16 5 4) holxIqPtrTail 16 5 3
def st202 : State := engU (fset (fset (fset up holxIqCtlEn 16 5 1) holxIqCtlSizeLog2 16 5 4) holxIqPtrTail 16 5 3) 0 32
def st203 : State := fset (fset (fset (fset up holxIqCtlEn 16 5 1) holxIqCtlSizeLog2 16 5 4) holxIqPtrTail 16 5 3) holxIqBaseAddr 16 5 0x20000
def st204 : State := memWrite (fset (fset (fset (fset up holxIqCtlEn 16 5 1) holxIqCtlSizeLog2 16 5 4) holxIqPtrTail 16 5 3) holxIqBaseAddr 16 5 0x20000) 0x2000000 (toLE 8 0x2000100 ++ toLE 2 60 ++ toLE 2 2 ++ toLE 2 44 ++ toLE 2 9)
def st205 : State := hol (thread (phase up 6) 5 fun t => { t with st := .ready }) fun h => { h with restartAt := some 5 }
def st206 : State := dma2d up 1 []
def st207 : State := memWrite (fset (dma2d up 1 []) dmacChCfgDescSpace 2 0 1) 0x2000000 (dsc 0 0x2000000 0 64 1 0x20 1 0)
def st208 : State := chan up 2 fun x => { x with late := 2 }
def st209 : State := chan (dma2d up 4 (dsc 0 0x1000000005 0 32 1 0x30 1 0)) 2 fun x => { x with buf := List.replicate 40 1, desc := dsc 0 (0x08 * 2 ^ 32 + 5) 0 32 1 0x30 1 0 }
def st210 : State := waits (chan (dma2d up 4 []) 2 fun x => { x with buf := List.replicate 40 1, desc := dsc 0 (0x08 * 2 ^ 32 + 5) 0 32 1 0x30 1 0 }) 0xFFFF
def st211 : State := dma2d up 5 (dsc 0 0x2000000 0 64 1 0x20 1 0)
def st212 : State := fset (fset (dma2d up 5 (dsc 0 0x2000000 0 64 1 0x20 1 0)) dmacChCfgPulse 2 0 1) dmacChCfgStrobeMask 2 0 0x8201
def st213 : State := fset (dma2d up 5 (dsc 0 0x2000000 0 64 1 0x20 1 0)) dmacChCfgPulse 2 0 2
def st214 : State := fset (fset (dma2d up 5 (dsc 0 0x2000000 0 64 1 0x20 1 0)) dmacChCfgPulse 2 0 3) dmacChCfgChainCh 2 0 31
def st215 : State := fset (fset (dma2d up 5 (dsc 0 0x2000000 0 64 1 0x20 1 0)) dmacBadCountN 2 0 1) dmacChCfgSuppressBad 2 0 1
def st216 : State := dma2d up 2 (dsc 0x1F0 0x2000000 0 64 1 0x20 1 0)
def st217 : State := chan (dma2d up 3 (dsc 0x200 0x2000000 0 64 1 0x20 1 0)) 2 fun x => { x with len := 64 }
def st218 : State := chan (dma2d up 3 (dsc 0x200 0x2000000 0 128 1 0x20 1 0)) 2 fun x => { x with len := 64 }
def st219 : State := fset (dma2d (modCh up 5 fun x => { x with phase := 2 }) 2 []) dmacChCfgPrio 5 0 3
def st220 : State := dma2d (modCh up 5 fun x => { x with phase := 2, waited := 15 }) 2 []
def st221 : State := fset (dma2d up 3 (dsc 0x200 0x2000000 0 64 1 0x20 1 0)) dmacChCfgMode 2 0 0
def st222 : State := fset (dma2d up 3 (dsc 0x200 0x2000000 0x2000040 64 0 0x20 1 0)) dmacChCfgMode 2 0 0
def st223 : State := fset (dma2d up 3 (dsc 0x200 0x2000000 0 64 1 0x20 1 0)) dmacChCfgMode 2 0 1
def st224 : State := ring1 (peers up) 1
def st225 : State := prn (ring1 (peers up) 1) fun p => { p with msgs := List.replicate 64 (msg0 0 0) }
def st226 : State := ring1 (peers up) 7
def st227 : State := prn (peers up) fun p => { p with msgs := [msg0 0 0] }
def st228 : State := prn (peers up) fun p => { p with msgs := [msg0 (soon 5000) 3] }
def st229 : State := prn (peers up) fun p => { p with msgs := [msg0 (soon 5000) 2] }
def st230 : State := prn (peers up) fun p => { p with msgs := [msg0 (soon 5000) 0] }
def st231 : State := peers (port0 up)
def st232 : State := prn (peers up) fun p => { p with msgs := [msg0 0 0, msg12] }
def st233 : State := peers up
def st234 : State := prn (peers (port0 up)) fun p => { p with hello := [(6, 9999999999)] }
def st235 : State := prn (peers up) fun p => { p with ackDue := [(13, (5, 0))] }
def st236 : State := xh 0x00500093 [(1, 7)]
def st237 : State := fetU (xh 0x00500093 [(1, 7)])
def ft0 : Fetched := fet (xh 0x00500093 [(1, 7)])
def st238 : State := xh 0x7C909073 [(1, 65)]
def st239 : State := fetU (xh 0x7C909073 [(1, 65)])
def ft1 : Fetched := fet (xh 0x7C909073 [(1, 65)])
def st240 : State := xh 0x7C909073 [(1, 66)]
def st241 : State := fetU (xh 0x7C909073 [(1, 66)])
def ft2 : Fetched := fet (xh 0x7C909073 [(1, 66)])
def st242 : State := xh 0x7C909073 [(1, 67)]
def st243 : State := fetU (xh 0x7C909073 [(1, 67)])
def ft3 : Fetched := fet (xh 0x7C909073 [(1, 67)])
def st244 : State := thread (xh 0 []) 9 fun t => { t with pc := 0x50000000 }
def st245 : State := evs (xh (xhol 0 2 1 0 3) [(1, 200)]) [(200, 5)]
def st246 : State := fetU (evs (xh (xhol 0 2 1 0 3) [(1, 200)]) [(200, 5)])
def ft4 : Fetched := fet (evs (xh (xhol 0 2 1 0 3) [(1, 200)]) [(200, 5)])
def st247 : State := xh (xhol 0 2 1 0 3) [(1, 200), (2, 50)]
def st248 : State := fetU (xh (xhol 0 2 1 0 3) [(1, 200), (2, 50)])
def ft5 : Fetched := fet (xh (xhol 0 2 1 0 3) [(1, 200), (2, 50)])
def st249 : State := evs (thread (xh (xhol 0 2 1 0 3) []) 9 fun t => { t with st := .waitEvent, waitArg := 200, waitAt := 5, rd := 3 }) [(200, 5)]
def st250 : State := thread (xh (xhol 0 2 1 0 3) []) 9 fun t => { t with st := .waitEvent, waitArg := 200, waitAt := 5, rd := 3, waitEnd := some 5 }
def st251 : State := fset (thread (xh 0x13 []) 9 fun t => { t with csr := [(0x300, 8), (0x304, 0x888), (0x305, 0x2000100), (0x7C8, 5)] }) holcMsipMsip 1 0 2
def st252 : State := evs (thread (xh 0x13 []) 9 fun t => { t with st := .waitEvent, csr := [(0x300, 8), (0x304, 0x888), (0x305, 0x2000100), (0x7C0, 2), (0x7C8, 5)] }) [(1, 1)]
def st253 : State := xh 0x13 []
def st254 : State := thread (xh 0x13 []) 9 fun t => { t with st := .halted, was := .ready }
def st255 : State := xh (xhol 0 0 1 1 0) [(1, 200)]
def st256 : State := fetU (xh (xhol 0 0 1 1 0) [(1, 200)])
def ft6 : Fetched := fet (xh (xhol 0 0 1 1 0) [(1, 200)])
def st257 : State := xh (xhol 0 2 1 2 3) [(1, 0x2000401), (2, 77)]
def st258 : State := fetU (xh (xhol 0 2 1 2 3) [(1, 0x2000401), (2, 77)])
def ft7 : Fetched := fet (xh (xhol 0 2 1 2 3) [(1, 0x2000401), (2, 77)])
def st259 : State := thread (xh (xhol 0 2 1 2 3) [(1, 0x2000401), (2, 77)]) 9 fun t => { t with user := true, pmp := (0x1F, 0x3FFFFFFFFFFFFF) :: List.replicate 15 (0, 0) }
def st260 : State := fetU (thread (xh (xhol 0 2 1 2 3) [(1, 0x2000401), (2, 77)]) 9 fun t => { t with user := true, pmp := (0x1F, 0x3FFFFFFFFFFFFF) :: List.replicate 15 (0, 0) })
def ft8 : Fetched := fet (thread (xh (xhol 0 2 1 2 3) [(1, 0x2000401), (2, 77)]) 9 fun t => { t with user := true, pmp := (0x1F, 0x3FFFFFFFFFFFFF) :: List.replicate 15 (0, 0) })
def st261 : State := xh (xhol 0 0 1 3 3) [(1, 300)]
def st262 : State := fetU (xh (xhol 0 0 1 3 3) [(1, 300)])
def ft9 : Fetched := fet (xh (xhol 0 0 1 3 3) [(1, 300)])
def st263 : State := thread (xh (xhol 0 0 1 3 3) [(1, 266)]) 10 fun t => { t with gen := 1, exitV := some 99 }
def st264 : State := fetU (thread (xh (xhol 0 0 1 3 3) [(1, 266)]) 10 fun t => { t with gen := 1, exitV := some 99 })
def ft10 : Fetched := fet (thread (xh (xhol 0 0 1 3 3) [(1, 266)]) 10 fun t => { t with gen := 1, exitV := some 99 })
def st265 : State := thread (xh (xhol 0 0 1 3 3) [(1, 266)]) 10 fun t => { t with gen := 1, st := .ready }
def st266 : State := fetU (thread (xh (xhol 0 0 1 3 3) [(1, 266)]) 10 fun t => { t with gen := 1, st := .ready })
def ft11 : Fetched := fet (thread (xh (xhol 0 0 1 3 3) [(1, 266)]) 10 fun t => { t with gen := 1, st := .ready })
def st267 : State := xh (xhol 1 0 1 3 0) [(1, 0x8000000000000005)]
def st268 : State := fetU (xh (xhol 1 0 1 3 0) [(1, 0x8000000000000005)])
def ft12 : Fetched := fet (xh (xhol 1 0 1 3 0) [(1, 0x8000000000000005)])
def st269 : State := xh (xhol 0 0 0 4 3) []
def st270 : State := fetU (xh (xhol 0 0 0 4 3) [])
def ft13 : Fetched := fet (xh (xhol 0 0 0 4 3) [])
def st271 : State := xh (xhol 1 0 0 4 3) []
def st272 : State := fetU (xh (xhol 1 0 0 4 3) [])
def ft14 : Fetched := fet (xh (xhol 1 0 0 4 3) [])
def st273 : State := xh (xhol 0 2 1 5 3) [(1, 0x2000100), (2, 0x2000300)]
def st274 : State := fetU (xh (xhol 0 2 1 5 3) [(1, 0x2000100), (2, 0x2000300)])
def ft15 : Fetched := fet (xh (xhol 0 2 1 5 3) [(1, 0x2000100), (2, 0x2000300)])
def st275 : State := xh (xhol 0 2 1 5 3) [(1, 0x2000130), (2, 0x2000000), (3, 90)]
def st276 : State := fetU (xh (xhol 0 2 1 5 3) [(1, 0x2000130), (2, 0x2000000), (3, 90)])
def ft16 : Fetched := fet (xh (xhol 0 2 1 5 3) [(1, 0x2000130), (2, 0x2000000), (3, 90)])
def st277 : State := xh (xhol 0 2 1 5 3) [(1, 0x50000030), (2, 0x2000000), (3, 90)]
def st278 : State := fetU (xh (xhol 0 2 1 5 3) [(1, 0x50000030), (2, 0x2000000), (3, 90)])
def ft17 : Fetched := fet (xh (xhol 0 2 1 5 3) [(1, 0x50000030), (2, 0x2000000), (3, 90)])
def st279 : State := xh (xhol 1 2 1 5 3) [(1, 0x2000130), (2, 0x0102030405060708), (3, 90)]
def st280 : State := fetU (xh (xhol 1 2 1 5 3) [(1, 0x2000130), (2, 0x0102030405060708), (3, 90)])
def ft18 : Fetched := fet (xh (xhol 1 2 1 5 3) [(1, 0x2000130), (2, 0x0102030405060708), (3, 90)])
def st281 : State := xh (xhol 2 2 1 5 3) [(1, 0x2000000), (2, 0xFFFFFFFF), (3, 8)]
def st282 : State := fetU (xh (xhol 2 2 1 5 3) [(1, 0x2000000), (2, 0xFFFFFFFF), (3, 8)])
def ft19 : Fetched := fet (xh (xhol 2 2 1 5 3) [(1, 0x2000000), (2, 0xFFFFFFFF), (3, 8)])
def st283 : State := hol (hbmUp up) fun h => { h with cache := [⟨5, List.replicate 64 1, true⟩, ⟨6, List.replicate 64 2, true⟩] }
def st284 : State := memWrite up 0x2000000 [1, 2, 3, 4, 5]

/-! ### Tests with values from the spec's worked examples and tables -/

/-- The bytes that left the block last on the SMBus. -/
def smbusOut (o : Host.Outcome State Fault Refusal) : List Byte :=
  match o with
  | .next t => match t.out.getLast? with
    | some (.smbus b) => b
    | _ => []
  | _ => []

/-- What a state says after a command; 99999 after a stop. -/
def after (o : Host.Outcome State Fault Refusal) (f : State → Nat) : Nat :=
  match o with
  | .next t => f t
  | _ => 99999

/-- The packet of `pkt0`'s number after a command. -/
def pktAfter (o : Host.Outcome State Fault Refusal) : Pkt :=
  match o with
  | .next t => (pktOf t 7).getD pkt0
  | _ => pkt0

/-- The frame of "One packet through the graph" from its IPv6 header on, 18 bytes into the frame (spec/04). -/
def srv6 : Pkt :=
  { pkt0 with
    data := List.replicate 18 1 ++ [0x60, 0, 0, 0, 0, 148, 43, 64] ++ List.replicate 32 0xFD ++ List.replicate 152 0
    node := 6, ptr := 18, steps := 2, exts := 2, kv := List.replicate 160 0, slots := List.replicate 8 none }

/-- Node 6 (IPV6) and its transition 43 → 8 of the worked graph (spec/04). -/
def graph6 : State :=
  let w := fun (s : State) (i v : Nat) => oset s .prs 0 0 1 6 i v
  let s := w (w (w (w (w (w up 0 0x8FFC4030) 1 0x0140A011) 3 0x0928F820) 4 0x00241F08) 5 0x00280006) 6 0x00282300
  oset (oset (oset s .prs 0 0 2 17 0 43) .prs 0 0 2 17 1 0xFF) .prs 0 0 2 17 2 8

/-- R119, step 3 of "One packet through the graph": 40 bytes on, node 8, three extractions, slot 1. -/
theorem test_parseStep_ipv6 : let p := pktAfter (exec (.parseStep 7) (withPkt graph6 srv6))
    p.ptr = 58 ∧ p.node = 8 ∧ p.steps = 3 ∧ p.exts = 5 ∧ p.mal = 0 ∧ p.slots.getD 1 none = some 18 ∧ slice p.kv 64 4 = [43, 0x60, 0, 0]
    ∧ slice p.kv 32 2 = [0xFD, 0xFD] := by
  decide +kernel

/-- R121, check of node 6: a payload length one larger than the frame holds is malformed for reason 3. -/
theorem test_parseStep_length : (pktAfter (exec (.parseStep 7) (withPkt graph6 { srv6 with data := srv6.data.set 23 149 }))).mal = 3 := by
  decide +kernel

/-- R60: the key unlocks for its requester only. -/
theorem test_unlock : after (exec (.unlock .host 5 0x6B7A#32) up) (fun t => b2n (isUnlocked t .host 5) + 2 * b2n (isUnlocked t .holtarun 5)) = 1
    ∧ after (exec (.unlock .host 5 0x6B7B#32) (open_ up 5)) (fun t => b2n (isUnlocked t .host 5)) = 0 := by
  decide +kernel

/-- R319, R318: block address 0x00_1234_5800 lies in channel 143 at CA 1,589,248, bank 8, row 16 (spec/10). -/
theorem test_burlapAt : burlapAt up 0x12345800 = (143, 1589248) ∧ bankOf 1589248 = 8 ∧ rowNo 1589248 = 16
    ∧ burlapFrom up 143 1589248 = 0x12345800 := by
  decide +kernel

/-- R320: a descriptor whose copy 0 lies on channel 143 has copy 1 on channel 47 (spec/10). -/
theorem test_descAddr : (burlapAt up (descAddr up 143 0)).1 = 143 ∧ (burlapAt up (descAddr up 143 1)).1 = 47 := by
  decide +kernel

/-- R317, Table 10-1: the Holtarun window begins at 0x20_C000_0000; a mirror ring's 36-bit base reaches the mirror region (log entry 23). -/
theorem test_regions : holBase up = 0x20C0000000 ∧ regionOk up 3 (addr36 up 0x80000000) 160 true = true
    ∧ regionOk up 4 0x2080000000 64 true = false ∧ regionOk up 4 0x2080000000 64 false = true := by
  decide +kernel

/-- R333: with d = 8,957 the mirror share falls to 0 and class 0 to 1,078 (spec/10). -/
theorem test_shares : shares 8957 300 [1300, 1000, 1000, 1000] 600 200 = (0, [1078, 1000, 1000, 1000], 600, 200)
    ∧ shares 9748 300 [1300, 1000, 1000, 1000] 600 200 = (300, [1300, 1000, 1000, 1000], 600, 200) := by
  decide +kernel

/-- R331: with channel 143 lost, d = 9,748 (spec/10). -/
theorem test_deliverable : deliverable (allUp up) = 9800 ∧ deliverable (fset (allUp up) hchChStatState 143 0 5) = 9748 := by
  decide +kernel

/-- R350: BLOCK_NS of a 1.6T port that does not park is 81; of one that may park it follows the halved rate (spec/11). -/
theorem test_blockNs : blockNs (port0 up) 0 = 81 ∧ blockNs (park0 up) 0 = 162 := by
  decide +kernel

/-- Port 0 in normal mode with the quanta of spec/19. -/
def quanta19 : State :=
  (List.range 9).foldl (fun a q => oset (oset a .egs 0 0 1 q 0 (if q = 2 then 0x2000 else 0x400)) .egs 0 0 1 q 3 1)
    (port (port0 up) 0 fun x => { x with hier := false })

/-- R347: quanta of 8,192 and eight times 1,024 give a 1.6T queue 800,000 Mb/s (spec/19). -/
theorem test_rateOf : rateOf quanta19 0 2 = 800000 ∧ rateOf quanta19 0 3 = 100000 := by
  decide +kernel

/-- R256: service times of 12,224 bits at 400,000 Mb/s, of 4,256 bits at 800,000 and of 12,224 at 200,000 (spec/08, spec/19, spec/11). -/
theorem test_svc : svcUnits 12224 400000 = 2002781 ∧ svcUnits 4256 800000 = 348652 ∧ svcUnits 12224 200000 = 4005561
    ∧ svcUnits 2272 400000 = 372245 := by
  decide

/-- R240, R236: policer 311 after 100 core clocks, its colour for 230 bytes and what is left; with P = 40 at the last use, red (spec/07). -/
theorem test_policer :
    let b := polRefill 1 10000000 20000000 (100000 * 65536) (200000 * 65536) 100 (120 * 65536) (4000 * 65536)
    b = (200 * 65536, 4160 * 65536) ∧ polColour 1 0 b.1 b.2 (230 * 65536) = 1
    ∧ polDebit 1 1 b.1 b.2 (230 * 65536) = (200 * 65536, 3930 * 65536)
    ∧ polColour 1 0 (200 * 65536) (200 * 65536) (230 * 65536) = 2 := by
  decide +kernel

/-- R355: a node of 50,000 Mb/s gains 262,144 units, 4 bytes, a core clock (spec/11). -/
theorem test_nodeGain : 50000 * 65536 / 12500 = 262144 ∧ refillUnits 50000 = 64 * 262144 := by
  decide

/-- R380: delays of 622 ns and 1,000,000 ns fall in bins 2 and 12 (spec/19, spec/12). -/
theorem test_histBin : histBin 622 = 2 ∧ histBin 1000000 = 12 ∧ histBin 255 = 0 := by
  decide

/-- R381: the sample that takes SUM past 2^48 - 1 saturates it (spec/12). -/
theorem test_histSat : (histAdd { hist0 with sum := 281474976000000, sat := false } 1000000).sat = true
    ∧ (histAdd { hist0 with sum := 281474975000000, sat := false } 1000000).sat = false := by
  decide +kernel

/-- Table 13-3: WFE a0, a1, a2 is 0x00C5_850B (spec/13). -/
theorem test_xhol_wfe : xhol 0 12 11 0 10 = 0x00C5850B ∧ holOp hartIdle 0x00C5850B = .wfe ∧ iRd 0x00C5850B = 10 ∧ iRs1 0x00C5850B = 11
    ∧ iRs2 0x00C5850B = 12 := by
  decide

/-- R485, R502: SMBus command 0x05 answers GLB.AVS = 0x02E4_02DA for 730 mV and 740 mV (spec/19). -/
theorem test_smbus_avs : smbusOut (exec (.smbusBlockRead 5)
      (match exec (.fuseSense true 0 730 740) powered with | .next t => t | _ => powered)) = [4, 0xDA, 0x02, 0xE4, 0x02] := by
  decide +kernel

/-- R82-R86: LAYOUT 0x0890_0325 gives an 800G port on sub-port 0, 25G ports on 4 and 5 and a 50G port on 6; the layout write sets FEC_MODE
0x0222_0003 (spec/03). -/
theorem test_layout : layoutBad 0x08900325 = false
    ∧ after (exec (.pcsLayoutWrite .host 5 0x08900325#32) up) (fun t => (shdW t (fecKey 5)).toNat) = 0x02220003
    ∧ (modeIn 0x08900325 0x02220003 0).map (fun m => laneGbps m.1 * m.2.1) = some 800
    ∧ (modeIn 0x08900325 0x02220003 4).map (fun m => laneGbps m.1 * m.2.1) = some 25
    ∧ (modeIn 0x08900325 0x02220003 6).map (fun m => laneGbps m.1 * m.2.1) = some 50
    ∧ modeIn 0x08900325 0x02220003 1 = none := by
  decide +kernel

/-- Table 14-5, R418: CH_CTL 0x0000_0701 starts a channel with GEN 7 (spec/14). -/
theorem test_dmaGo : after (exec (.dmaGo .host 5 0x701#32) up) (fun t => (dmaCh t 5).gen) = 7
    ∧ after (exec (.dmaGo .host 5 0x701#32) up) (fun t => dmaState t 5) = 1 := by
  decide +kernel

/-- R199: the slot of hash 0x9C3A_51E7 among 4 is 2 (spec/06). -/
theorem test_ecmpSlot : 0x9C3A51E7 / 65536 * 4 / 65536 = 2 := by
  decide

/-- ADDI x1, x0, 5 (word 0x0050_0093) at 0x200_0000: x1 becomes 5 and the pc moves on by 4 (R393). -/
theorem test_instructionRetire : after (exec (.instructionRetire 9) (xh 0x00500093 [])) (fun t => (hartOf t 9).x.getD 1 0) = 5
    ∧ after (exec (.instructionRetire 9) (xh 0x00500093 [])) (fun t => (hartOf t 9).pc) = 0x2000004 := by
  decide +kernel

/-- An instruction word of zeros is illegal: cause 2, the handler's address from mtvec (R393). -/
theorem test_illegal : let s := thread (xh 0 []) 9 fun t => { t with csr := [(0x305, 0x2000100)] }
    after (exec (.instructionRetire 9) s) (fun t => (hartOf t 9).pc) = 0x2000100
    ∧ after (exec (.instructionRetire 9) s) (fun t => csrOf (hartOf t 9) 0x342) = 2 := by
  decide +kernel

/-- R401: TSREAD.NS gives seconds in the high half and nanoseconds in the low half: 6.4 s after the root PLL locked. -/
theorem test_tsread : after (exec (.tsreadNs 9) (xh (xhol 0 0 0 4 3) [])) (fun t => (hartOf t 9).x.getD 3 0) = 6 * 2 ^ 32 + 400000000 := by
  decide +kernel

/-- CRC-32C and the FCS check value of the ASCII digits 1 to 9 are the standards' (R78, R130). -/
theorem test_crc32c : crc32c [0x31, 0x32, 0x33, 0x34, 0x35, 0x36, 0x37, 0x38, 0x39] = 0xE3069283 := by
  decide +kernel


/-! ### Witnesses of the statements about every command and every state -/

/-- Both memories hold something. -/
def twoMems : State := hbm (memWrite up 0x2000000 [1, 0, 3]) fun h => { h with mem := [(5, fresh 7), (9, fresh 8)] }

/-- A state with both memories in use, canonical, from which a step answers a next state. -/
theorem witness_stepKeepsMemories :
    twoMems.memWf
    ∧ (step (twoMems.withPending [.perstN])
        = .next (match exec .perstN (twoMems.withPending []) with
          | .next t => t
          | _ => up)) := by
  refine ⟨?_, rfl⟩
  unfold State.memWf
  decide +kernel


/-! ### Witnesses -/

/-- The refreshes of `refLate` are overdue. -/
theorem late_is : passedNs refLate (storeGet 0 refLate.hbm.refAt (191 * 2 + 1)) (Config.refInterval (fget refLate hchChStatTemp 191 0) + 1)
    = true := by
  have hs : storeGet 0 refLate.hbm.refAt (191 * 2 + 1) = 0 := by decide +kernel
  have hc : refLate.clk = 25 * (Config.refInterval (fget (hbmUp up) hchChStatTemp 191 0) + 1) := by simp only [refLate]
  have hf : fget refLate hchChStatTemp 191 0 = fget (hbmUp up) hchChStatTemp 191 0 := by simp only [fget, actW, refLate]
  rw [hs, hf, passedNs, nowU, hc]
  exact decide_eq_true (by omega)

/-- A refresh of `refNow` is not overdue. -/
theorem now_is : passedNs refNow (storeGet 0 refNow.hbm.refAt (0 * 2 + 0)) (Config.refInterval (fget refNow hchChStatTemp 0 0) + 1)
    = false := by
  have hs : storeGet 0 refNow.hbm.refAt (0 * 2 + 0) = refNow.clk := by decide +kernel
  rw [hs, passedNs, nowU]
  exact decide_eq_false (by omega)

/-- The host's write of `waitsHost` is answered by `hostFirst`. -/
theorem first_is : exec (Instr.registerWrite Requester.host 484 256 15 6553701#32) st0 = Host.Outcome.next hostFirst := by
  have h : (match exec (Instr.registerWrite Requester.host 484 256 15 6553701#32) st0 with | .next _ => true | _ => false) = true := by
    decide +kernel
  show exec (Instr.registerWrite Requester.host 484 256 15 6553701#32) st0
    = .next (match exec (Instr.registerWrite Requester.host 484 256 15 6553701#32) st0 with | .next t => t | _ => up)
  revert h
  cases exec (Instr.registerWrite Requester.host 484 256 15 6553701#32) st0 <;> simp

/-- Hypotheses of `Obligations.QueueRunsEmpty` that hold together, clause by clause. -/
theorem witness_queueRunsEmpty :
    ((up.pending = [])) ∧
    ((State.queueWf st0)) :=
  ⟨by decide +kernel,
    by unfold State.queueWf; decide +kernel⟩

/-- Hypotheses of `Obligations.WellFormedCompletes` that hold together, clause by clause. -/
theorem witness_wellFormedCompletes :
    ((Instr.wf (Instr.frameReceive 383 6 none0) = true)) ∧
    ((Instr.wf (Instr.frameReceive 384 6 none0) = false)) := by
  refine ⟨?_, ?_⟩ <;> decide +kernel

/-- Hypotheses of `Obligations.StepKeepsQueueWf` that hold together, clause by clause. -/
theorem witness_stepKeepsQueueWf :
    ((State.queueWf st0)) := by unfold State.queueWf; decide +kernel

/-- Hypotheses of `Obligations.UnlockAndIgnoredWrites` that hold together, clause by clause. -/
theorem witness_unlockAndIgnoredWrites :
    ((484 < 32768) ∧ (reqHere up Requester.host = true) ∧ (pageReady up 484 = true) ∧ (busFree up Requester.host 484 40 = true)) ∧
    ((484 < 32768) ∧ (reqHere st1 Requester.host = true) ∧ (pageReady st1 484 = true) ∧ (busFree st1 Requester.host 484 40 = true)) ∧
    ((484 < 32768) ∧ (256 < 4096) ∧ (256 % 4 = 0) ∧ (7 < 16) ∧ (busFree st1 Requester.host 484 256 = true) ∧ (pageReady st1 484 = true) ∧ (reqHere st1
      Requester.host = true) ∧ (7 ≠ 15)) ∧
    ((484 < 32768) ∧ (256 < 4096) ∧ (256 % 4 = 0) ∧ (st0.pg.early = 0) ∧ (hostAhead 484 256 st0.pending = [Instr.registerWrite Requester.host 484 256
      15 6553701#32]) ∧ (exec (Instr.registerWrite Requester.host 484 256 15 6553701#32) st0 = Host.Outcome.next hostFirst)) ∧
    ((484 < 32768) ∧ (256 < 4096) ∧ (256 % 4 = 0) ∧ (st0.pg.early = 0) ∧ (hostAhead 484 256 st0.pending = [Instr.registerWrite Requester.host 484 256
      15 6553701#32]) ∧ (exec (Instr.registerWrite Requester.host 484 256 15 6553701#32) st0 = Host.Outcome.next hostFirst) ∧ (0 < earlyUp.pg.early))
      ∧
    ((484 < 32768) ∧ (256 < 4096) ∧ (256 % 4 = 0) ∧ (15 < 16) ∧ (busFree State.reset Requester.holtarun 484 256 = true) ∧ (pageReady State.reset 484 =
      false ∨ reqHere State.reset Requester.holtarun = false)) ∧
    ((0 < 32768) ∧ (256 < 4096) ∧ (256 % 4 = 0) ∧ (15 < 16) ∧ (busFree st2 Requester.host 0 256 = true) ∧ (pageReady st2 0 = false ∨ reqHere st2
      Requester.host = false)) :=
  ⟨by decide +kernel,
    by decide +kernel,
    by decide +kernel,
    ⟨by decide +kernel, by decide +kernel, by decide +kernel, by decide +kernel, by decide +kernel, first_is⟩,
    ⟨by decide +kernel, by decide +kernel, by decide +kernel, by decide +kernel, by decide +kernel, first_is, by decide +kernel⟩,
    by decide +kernel,
    by decide +kernel⟩

/-- Hypotheses of `Obligations.RegisterTakesFields` that hold together, clause by clause. -/
theorem witness_registerTakesFields :
    ((484 < 32768) ∧ (256 < 4096) ∧ (256 % 4 = 0) ∧ (256 ≤ 256) ∧ (reqHere up Requester.host = true) ∧ (pageReady up 484 = true) ∧ (busFree up
      Requester.host 484 256 = true) ∧ (pageRow 484 = some (rowOf Blk.adm)) ∧ ((rowOf Blk.adm).blk ∈ [Blk.prs, Blk.rdh, Blk.edt, Blk.adm, Blk.gze,
      Blk.bpm, Blk.tel, Blk.twl]) ∧ (regThere 484 256 = true) ∧ (regAt 484 256 = some (reg 484 256)) ∧ (reservedIn (reg 484 256).fst.flds
      (BitVec.toNat 6553700#32) = false) ∧ ((List.any (reg 484 256).fst.flds fun f ↦ f.acc == Acc.sh) = true) ∧ (groupPending up (groupOf up 484) =
      false)) ∧
    ((484 < 32768) ∧ (256 < 4096) ∧ (256 % 4 = 0) ∧ (256 ≤ 256) ∧ (reqHere st3 Requester.host = true) ∧ (pageReady st3 484 = true) ∧ (busFree st3
      Requester.host 484 256 = true) ∧ (pageRow 484 = some (rowOf Blk.adm)) ∧ ((rowOf Blk.adm).blk ∈ [Blk.prs, Blk.rdh, Blk.edt, Blk.adm, Blk.gze,
      Blk.bpm, Blk.tel, Blk.twl]) ∧ (regThere 484 256 = true) ∧ (regAt 484 256 = some (reg 484 256)) ∧ (reservedIn (reg 484 256).fst.flds
      (BitVec.toNat 6553700#32) = false) ∧ (groupPending st3 (groupOf st3 484) = true)) ∧
    ((484 < 32768) ∧ (256 < 4096) ∧ (256 % 4 = 0) ∧ (256 ≤ 256) ∧ (reqHere st1 Requester.host = true) ∧ (pageReady st1 484 = true) ∧ (busFree st1
      Requester.host 484 256 = true) ∧ (pageRow 484 = some (rowOf Blk.adm)) ∧ ((rowOf Blk.adm).blk ∈ [Blk.prs, Blk.rdh, Blk.edt, Blk.adm, Blk.gze,
      Blk.bpm, Blk.tel, Blk.twl]) ∧ (regThere 484 256 = true) ∧ (regAt 484 256 = some (reg 484 256)) ∧ (reservedIn (reg 484 256).fst.flds
      (BitVec.toNat 6553700#32) = false) ∧ ((List.any (reg 484 256).fst.flds fun f ↦ f.acc == Acc.sh) = true) ∧ (groupPending st1 (groupOf st1 484) =
      false)) ∧
    ((484 < 32768) ∧ (256 < 4096) ∧ (256 % 4 = 0) ∧ (256 ≤ 256) ∧ (reqHere up Requester.host = true) ∧ (pageReady up 484 = true) ∧ (busFree up
      Requester.host 484 256 = true) ∧ (pageRow 484 = some (rowOf Blk.adm)) ∧ ((rowOf Blk.adm).blk ∈ [Blk.prs, Blk.rdh, Blk.edt, Blk.adm, Blk.gze,
      Blk.bpm, Blk.tel, Blk.twl]) ∧ (regThere 484 256 = true) ∧ (regAt 484 256 = some (reg 484 256)) ∧ (reservedIn (reg 484 256).fst.flds
      (BitVec.toNat 100#32) = true)) ∧
    ((604 < 32768) ∧ (256 < 4096) ∧ (256 % 4 = 0) ∧ (256 ≤ 256) ∧ (reqHere st4 Requester.host = true) ∧ (pageReady st4 604 = true) ∧ (busFree st4
      Requester.host 604 256 = true) ∧ (pageRow 604 = some (rowOf Blk.twl)) ∧ ((rowOf Blk.twl).blk ∈ [Blk.prs, Blk.rdh, Blk.edt, Blk.adm, Blk.gze,
      Blk.bpm, Blk.tel, Blk.twl]) ∧ (regThere 604 256 = true) ∧ (regAt 604 256 = some (reg 604 256)) ∧ (reservedIn (reg 604 256).fst.flds
      (BitVec.toNat 4294967295#32) = true)) ∧
    ((552 < 32768) ∧ (256 < 4096) ∧ (256 % 4 = 0) ∧ (256 ≤ 256) ∧ (reqHere st5 Requester.host = true) ∧ (pageReady st5 552 = true) ∧ (busFree st5
      Requester.host 552 256 = true) ∧ (pageRow 552 = some (rowOf Blk.tel)) ∧ ((rowOf Blk.tel).blk ∈ [Blk.prs, Blk.rdh, Blk.edt, Blk.adm, Blk.gze,
      Blk.bpm, Blk.tel, Blk.twl]) ∧ (regThere 552 256 = true) ∧ (regAt 552 256 = some (reg 552 256)) ∧ (reservedIn (reg 552 256).fst.flds
      (BitVec.toNat 16#32) = false) ∧ ((List.any (reg 552 256).fst.flds fun f ↦ f.acc == Acc.sh) = true) ∧ (groupPending st5 (groupOf st5 552) =
      false)) := by
  refine ⟨?_, ?_, ?_, ?_, ?_, ?_⟩ <;> decide +kernel

/-- Hypotheses of `Obligations.HeaderRegisters` that hold together, clause by clause. -/
theorem witness_headerRegisters :
    ((484 < 32768) ∧ (reqHere up Requester.host = true) ∧ (pageReady up 484 = true) ∧ (busFree up Requester.host 484 36 = true) ∧ (groupPending up
      (groupOf up 484) = false ∧ pageDirty up 484 = false ∧ (isDP 484 = true → epochRefs up (groupOf up 484) = 0))) ∧
    ((484 < 32768) ∧ (reqHere st3 Requester.host = true) ∧ (pageReady st3 484 = true) ∧ (busFree st3 Requester.host 484 36 = true) ∧ (groupPending st3
      (groupOf st3 484) = true ∨ pageDirty st3 484 = true ∨ isDP 484 = true ∧ 0 < epochRefs st3 (groupOf st3 484))) ∧
    ((484 < 32768) ∧ (reqHere st6 Requester.host = true) ∧ (pageReady st6 484 = true) ∧ (busFree st6 Requester.host 484 36 = true) ∧ (groupPending st6
      (groupOf st6 484) = true ∨ pageDirty st6 484 = true ∨ isDP 484 = true ∧ 0 < epochRefs st6 (groupOf st6 484))) ∧
    ((484 < 32768) ∧ (reqHere up Requester.host = true) ∧ (pageReady up 484 = true) ∧ (busFree up Requester.host 484 32 = true) ∧ (∃ x, (pageSrcs
      484)[BitVec.toNat 16#32 % 16]? = some x ∧ x.inj = true) ∧ (BitVec.toNat 16#32 / 16 % 4 ≠ 3) ∧ (BitVec.toNat 16#32 / 16 % 4 = 2 → BitVec.toNat
      16#32 / 256 % 65536 ≠ 0) ∧ (isUnlocked up Requester.host 484 = false)) ∧
    ((484 < 32768) ∧ (reqHere st1 Requester.host = true) ∧ (pageReady st1 484 = true) ∧ (busFree st1 Requester.host 484 32 = true) ∧ (∃ x, (pageSrcs
      484)[BitVec.toNat 1312#32 % 16]? = some x ∧ x.inj = true) ∧ (BitVec.toNat 1312#32 / 16 % 4 ≠ 3) ∧ (BitVec.toNat 1312#32 / 16 % 4 = 2 →
      BitVec.toNat 1312#32 / 256 % 65536 ≠ 0) ∧ (isUnlocked st1 Requester.host 484 = true)) := by
  refine ⟨?_, ?_, ?_, ?_, ?_⟩ <;> decide +kernel

/-- Hypotheses of `Obligations.MailboxStarts` that hold together, clause by clause. -/
theorem witness_mailboxStarts :
    ((3 < 32768) ∧ (reqHere st7 Requester.host = true) ∧ (pageReady st7 3 = true) ∧ (busFree st7 Requester.host 3 52 = true) ∧ (storeFind st7.pg.mbx 3
      = none) ∧ (goBad st7 3 (BitVec.toNat (withBits (16#32) 1 0 1)) = false)) ∧
    ((3 < 32768) ∧ (reqHere st8 Requester.host = true) ∧ (pageReady st8 3 = true) ∧ (busFree st8 Requester.host 3 52 = true) ∧ (storeFind st8.pg.mbx 3
      = none) ∧ (goBad st8 3 (BitVec.toNat (withBits (48#32) 1 0 1)) = false)) ∧
    ((pageOf Blk.hch 0 2 < 32768) ∧ (reqHere st9 Requester.host = true) ∧ (pageReady st9 (pageOf Blk.hch 0 2) = true) ∧ (busFree st9 Requester.host
      (pageOf Blk.hch 0 2) 52 = true) ∧ (storeFind st9.pg.mbx (pageOf Blk.hch 0 2) = none) ∧ (goBad st9 (pageOf Blk.hch 0 2) (BitVec.toNat (withBits
      (0#32) 1 0 3)) = false) ∧ (objKeyed (pageOf Blk.hch 0 2) (BitVec.toNat (actW st9 (regKey (pageOf Blk.hch 0 2) 48)) / 2 ^ 24) = true → isUnlocked
      st9 Requester.host (pageOf Blk.hch 0 2) = true)) ∧
    ((3 < 32768) ∧ (busFree st8 Requester.host 3 52 = true) ∧ (goBad st8 3 (BitVec.toNat (withBits (16#32) 1 0 1)) = true ∨ Option.isSome (storeFind
      st8.pg.mbx 3) = true)) ∧
    ((3 < 32768) ∧ (busFree st10 Requester.host 3 52 = true) ∧ (goBad st10 3 (BitVec.toNat (withBits (16#32) 1 0 1)) = true ∨ Option.isSome (storeFind
      st10.pg.mbx 3) = true)) := by
  refine ⟨?_, ?_, ?_, ?_, ?_⟩ <;> decide +kernel

/-- Hypotheses of `Obligations.MailboxEnds` that hold together, clause by clause. -/
theorem witness_mailboxEnds :
    ((pageOf Blk.nhp 0 0 < 32768) ∧ (storeFind st11.pg.mbx (pageOf Blk.nhp 0 0) = some opN) ∧ (nowU st11 ≤ opN.start * 16 + 2500000) ∧ (opN.todo =
      true → objWaits st11 (pageOf Blk.nhp 0 0) opN.obj = false) ∧ (counterLost st11 (pageOf Blk.nhp 0 0) opN = false) ∧ (opN.todo = false) ∧
      (opN.write = false) ∧ (opN.words ≤ 16)) ∧
    ((3 < 32768) ∧ (storeFind st12.pg.mbx 3 = some (op4 true 10000000000)) ∧ (nowU st12 ≤ (op4 true 10000000000).start * 16 + 2500000) ∧ ((op4 true
      10000000000).todo = true → objWaits st12 3 (op4 true 10000000000).obj = false) ∧ (counterLost st12 3 (op4 true 10000000000) = false) ∧ ((op4
      true 10000000000).todo = false)) ∧
    ((3 < 32768) ∧ (storeFind st13.pg.mbx 3 = some (op4 true 1)) ∧ ((op4 true 1).start * 16 + 2500000 ≤ nowU st13) ∧ (mbxMayEnd st13 3 (op4 true 1) =
      false ∨ ¬Instr.mailboxComplete 3 ∈ st13.pending)) ∧
    ((3 < 32768) ∧ (storeFind st14.pg.mbx 3 = some (op4 true (10000000000 - 156250))) ∧ ((op4 true (10000000000 - 156250)).start * 16 + 2500000 ≤ nowU
      st14) ∧ (mbxMayEnd st14 3 (op4 true (10000000000 - 156250)) = true) ∧ (Instr.mailboxComplete 3 ∈ st14.pending)) ∧
    ((3 < 32768) ∧ (15 < 16) ∧ (reqHere st15 Requester.host = true) ∧ (pageReady st15 3 = true) ∧ (15 = 15)) ∧
    ((3 < 32768) ∧ (7 < 16) ∧ (reqHere st15 Requester.host = true) ∧ (pageReady st15 3 = true) ∧ (7 ≠ 15)) := by
  refine ⟨?_, ?_, ?_, ?_, ?_, ?_⟩ <;> decide +kernel

/-- Hypotheses of `Obligations.StrobesPend` that hold together, clause by clause. -/
theorem witness_strobesPend :
    ((reqHere st16 Requester.host = true) ∧ (pageReady st16 0 = true) ∧ (busFree st16 Requester.host 0 272 = true) ∧ (∀ (f : FlipReq), f ∈
      st16.pg.flips → ∀ (r : Nat × Nat), r ∈ f.reqs → Nat.land f.groups r.fst = r.fst)) ∧
    ((528 % 65536 ≠ 0) ∧ (∀ (f : FlipReq), f ∈ st16.pg.flips → ∀ (r : Nat × Nat), r ∈ f.reqs → Nat.land f.groups r.fst = r.fst) ∧ (List.Pairwise (fun
      a b ↦ Nat.land a.groups b.groups = 0) st16.pg.flips)) := by
  refine ⟨?_, ?_⟩ <;> decide +kernel

/-- Hypotheses of `Obligations.FlipCopies` that hold together, clause by clause. -/
theorem witness_flipCopies :
    ((storeSorted st17.cfg.shd = true)) ∧
    ((9 < 16) ∧ (bit 512 9 = true)) ∧
    ((8 < 16) ∧ (bit 512 8 = false)) := by
  refine ⟨?_, ?_, ?_⟩ <;> decide +kernel

/-- Hypotheses of `Obligations.FlipsAreTaken` that hold together, clause by clause. -/
theorem witness_flipsAreTaken :
    ((0 < 16) ∧ (st3.boot.mgmtUp = true) ∧ (st3.pg.flips[0]? = some flip9) ∧ (flip9.ready ≤ st3.clk ∧ ∀ (g : Nat), g < 16 → bit flip9.groups g = true
      → ¬g ∈ st3.pg.held ∧ epochRefs st3 g = 0)) ∧
    ((0 < 16) ∧ (st18.boot.mgmtUp = true) ∧ (st18.pg.flips[0]? = some flip9) ∧ (st18.clk < flip9.ready ∨ ∃ g, g < 16 ∧ bit flip9.groups g = true ∧ (g
      ∈ st18.pg.held ∨ 0 < epochRefs st18 g))) ∧
    ((0 < 16) ∧ (st19.boot.mgmtUp = true) ∧ (st19.pg.flips[0]? = some flip9) ∧ (st19.clk < flip9.ready ∨ ∃ g, g < 16 ∧ bit flip9.groups g = true ∧ (g
      ∈ st19.pg.held ∨ 0 < epochRefs st19 g))) ∧
    ((3 < 4) ∧ (st20.boot.mgmtUp = true) ∧ (fget st20 glbTstrobeCtlArm 0 3 = 1) ∧ (tstrobeNs st20 3 * 10 ≤ tbNow st20) ∧ (∀ (f : FlipReq), f ∈
      st20.pg.flips → ∀ (r : Nat × Nat), r ∈ f.reqs → Nat.land f.groups r.fst = r.fst)) ∧
    ((passedNs up up.pg.sweepAt 1000000 = true)) := by
  refine ⟨?_, ?_, ?_, ?_, ?_⟩ <;> decide +kernel

/-- Hypotheses of `Obligations.RegisterCommands` that hold together, clause by clause. -/
theorem witness_registerCommands :
    ((reqHere up Requester.host = true) ∧ (pageReady up (pageOf Blk.holx 16 0) = true) ∧ (busFree up Requester.host (pageOf Blk.holx 16 0) 264 = true)
      ∧ (192 ≤ BitVec.toNat 255#32 % 256)) ∧
    ((reqHere up Requester.host = true) ∧ (pageReady up (pageOf Blk.holx 16 0) = true) ∧ (busFree up Requester.host (pageOf Blk.holx 16 0) 264 = true)
      ∧ (BitVec.toNat 191#32 % 256 < 192)) ∧
    ((7 < 8) ∧ (reqHere up Requester.host = true) ∧ (pageReady up (pageOf Blk.lgr 7 0) = true) ∧ (busFree up Requester.host (pageOf Blk.lgr 7 0) 256 =
      true)) ∧
    ((191 < 192) ∧ (reqHere up Requester.host = true) ∧ (pageReady up (pageOf Blk.hch 191 0) = true) ∧ (busFree up Requester.host (pageOf Blk.hch 191
      0) 268 = true)) := by
  refine ⟨?_, ?_, ?_, ?_⟩ <;> decide +kernel

/-- Hypotheses of `Obligations.TimeLoads` that hold together, clause by clause. -/
theorem witness_timeLoads :
    ((reqHere up Requester.host = true) ∧ (pageReady up (pageOf Blk.tim 0 0) = true) ∧ (busFree up Requester.host (pageOf Blk.tim 0 0) 272 = true) ∧
      (BitVec.toNat 0#32 / 2 % 2 = 0)) ∧
    ((reqHere up Requester.host = true) ∧ (pageReady up (pageOf Blk.tim 0 0) = true) ∧ (busFree up Requester.host (pageOf Blk.tim 0 0) 272 = true) ∧
      (BitVec.toNat 2#32 / 2 % 2 = 1)) ∧
    ((st21.tim.loadDue = some 5) ∧ (5 ≤ tickNow st21) ∧ (loadMay st21 = true)) ∧
    ((st22.tim.loadDue = some 5) ∧ (5 ≤ tickNow st22) ∧ (loadMay st22 = false)) := by
  refine ⟨?_, ?_, ?_, ?_⟩ <;> decide +kernel

/-- Hypotheses of `Obligations.ChannelsInService` that hold together, clause by clause. -/
theorem witness_channelsInService :
    ((0 < 192) ∧ (reqHere st23 Requester.host = true) ∧ (pageReady st23 (pageOf Blk.hch 0 0) = true) ∧ (busFree st23 Requester.host (pageOf Blk.hch 0
      0) 256 = true) ∧ (BitVec.toNat 0#32 % 2 = 0) ∧ (chanState st23 0 = 2)) ∧
    ((0 < 192) ∧ (reqHere st24 Requester.host = true) ∧ (pageReady st24 (pageOf Blk.hch 0 0) = true) ∧ (busFree st24 Requester.host (pageOf Blk.hch 0
      0) 256 = true) ∧ (BitVec.toNat 0#32 / 2 % 2 = 0) ∧ (isUnlocked st24 Requester.host (pageOf Blk.hch 0 0) = true) ∧ (isContained st24 (Cunit.chan
      0) = false)) ∧
    ((reqHere st25 Requester.host = true) ∧ (pageReady st25 (pageOf Blk.brl 0 0) = true) ∧ (busFree st25 Requester.host (pageOf Blk.brl 0 0) 256 =
      true) ∧ (allInService st25 = true) ∧ (BitVec.toNat 0#32 / 4 % 8 ≤ 5) ∧ (fget st25 brlCtlEn 0 0 = 0)) := by
  refine ⟨?_, ?_, ?_⟩ <;> decide +kernel

/-- Hypotheses of `Obligations.ChannelTraining` that hold together, clause by clause. -/
theorem witness_channelTraining :
    ((0 < 192) ∧ (reqHere st26 Requester.host = true) ∧ (pageReady st26 (pageOf Blk.hch 0 2) = true) ∧ (busFree st26 Requester.host (pageOf Blk.hch 0
      2) 256 = true) ∧ (1 ≤ BitVec.toNat 65536#32 / 2 ^ 16 % 2 ^ 8) ∧ (BitVec.toNat 65536#32 / 4 % 4 ≤ 2) ∧ (BitVec.toNat 65536#32 % 4 ≤ 2) ∧ (fget
      st26 hchTrnStatBusy 0 0 = 0) ∧ (chanState st26 0 = 1 ∨ chanState st26 0 = 2 ∨ (chanState st26 0 = 3 ∨ chanState st26 0 = 4) ∧ BitVec.toNat
      65536#32 / 2 ^ 30 % 2 = 1) ∧ (chanState st26 0 = 1)) ∧
    ((0 < 192) ∧ (reqHere st27 Requester.host = true) ∧ (pageReady st27 (pageOf Blk.hch 0 2) = true) ∧ (busFree st27 Requester.host (pageOf Blk.hch 0
      2) 256 = true) ∧ (1 ≤ BitVec.toNat 1090453510#32 / 2 ^ 16 % 2 ^ 8) ∧ (BitVec.toNat 1090453510#32 / 4 % 4 ≤ 2) ∧ (BitVec.toNat 1090453510#32 % 4
      ≤ 2) ∧ (fget st27 hchTrnStatBusy 0 0 = 0) ∧ (chanState st27 0 = 1 ∨ chanState st27 0 = 2 ∨ (chanState st27 0 = 3 ∨ chanState st27 0 = 4) ∧
      BitVec.toNat 1090453510#32 / 2 ^ 30 % 2 = 1)) ∧
    ((0 < 192) ∧ (fget st28 hchTrnStatBusy 0 0 = 1)) ∧
    ((0 < 192) ∧ (storeFind st29.hbm.train 0 = some 5) ∧ (passedNs st29 5 (fget st29 hchTrnTmoUsUs 0 0 * 1000) = true) ∧ (∀ (errs : List Nat),
      ¬Instr.trainingRunDone 0 errs ∈ st29.pending)) ∧
    ((0 < 192) ∧ (reqHere st30 Requester.host = true) ∧ (pageReady st30 (pageOf Blk.hch 0 2) = true) ∧ (isUnlocked st30 Requester.host (pageOf Blk.hch
      0 2) = true) ∧ (busFree st30 Requester.host (pageOf Blk.hch 0 2) 52 = true) ∧ (storeFind st30.pg.mbx (pageOf Blk.hch 0 2) = none) ∧ (mbxNames
      st30 (pageOf Blk.hch 0 2) 22 none = true) ∧ (goBad st30 (pageOf Blk.hch 0 2) (BitVec.toNat (withBits (0#32) 1 0 3)) = false) ∧ (chanState st30 0
      = 3 ∨ chanState st30 0 = 4) ∧ (BitVec.toNat (actW st30 (regKey (pageOf Blk.hch 0 2) 64)) < 16) ∧ (-2 ≤ sgn 3 (BitVec.toNat (actW st30 (regKey
      (pageOf Blk.hch 0 2) 64)))) ∧ (sgn 3 (BitVec.toNat (actW st30 (regKey (pageOf Blk.hch 0 2) 64))) ≤ 2)) ∧
    ((0 < 192) ∧ (reqHere st31 Requester.host = true) ∧ (pageReady st31 (pageOf Blk.hch 0 2) = true) ∧ (isUnlocked st31 Requester.host (pageOf Blk.hch
      0 2) = true) ∧ (busFree st31 Requester.host (pageOf Blk.hch 0 2) 52 = true) ∧ (storeFind st31.pg.mbx (pageOf Blk.hch 0 2) = none) ∧ (mbxNames
      st31 (pageOf Blk.hch 0 2) 22 none = true) ∧ (goBad st31 (pageOf Blk.hch 0 2) (BitVec.toNat (withBits (0#32) 1 0 3)) = false) ∧ (chanState st31 0
      = 3 ∨ chanState st31 0 = 4) ∧ (BitVec.toNat (actW st31 (regKey (pageOf Blk.hch 0 2) 64)) < 16) ∧ (-2 ≤ sgn 3 (BitVec.toNat (actW st31 (regKey
      (pageOf Blk.hch 0 2) 64)))) ∧ (sgn 3 (BitVec.toNat (actW st31 (regKey (pageOf Blk.hch 0 2) 64))) ≤ 2)) :=
  ⟨by decide +kernel,
    by decide +kernel,
    by decide +kernel,
    ⟨by decide +kernel, by decide +kernel, by decide +kernel, (fun _ h => nomatch (h : _ ∈ ([] : List Instr)))⟩,
    by decide +kernel,
    by decide +kernel⟩

/-- Hypotheses of `Obligations.ShadowedConfigurations` that hold together, clause by clause. -/
theorem witness_shadowedConfigurations :
    ((0 < 48) ∧ (reqHere up Requester.host = true) ∧ (pageReady up (pageOf Blk.pcs 0 0) = true) ∧ (busFree up Requester.host (pageOf Blk.pcs 0 0) 256
      = true) ∧ (layoutBad (BitVec.toNat 1109#32) = false) ∧ (groupPending up (groupOf up (pageOf Blk.pcs 0 0)) = false)) ∧
    ((0 < 48) ∧ (reqHere st32 Requester.host = true) ∧ (pageReady st32 (pageOf Blk.pcs 0 0) = true) ∧ (busFree st32 Requester.host (pageOf Blk.pcs 0
      0) 256 = true) ∧ (layoutBad (BitVec.toNat 1109#32) = false) ∧ (groupPending st32 (groupOf st32 (pageOf Blk.pcs 0 0)) = true)) ∧
    ((0 < 8) ∧ (15 < 16) ∧ (reqHere up Requester.host = true) ∧ (pageReady up (pageOf Blk.cls 0 0) = true) ∧ (busFree up Requester.host (pageOf
      Blk.cls 0 0) (256 + 16 * 15) = true) ∧ (groupPending up (groupOf up (pageOf Blk.cls 0 0)) = false) ∧ (regAt (pageOf Blk.cls 0 0) (256 + 16 * 15)
      = some (reg (pageOf Blk.cls 0 0) 496)) ∧ (reservedIn (reg (pageOf Blk.cls 0 0) 496).fst.flds (BitVec.toNat 0#32) = false) ∧ (clsBad (plainWrite
      up (pageOf Blk.cls 0 0) (256 + 16 * 15) false (BitVec.toNat 0#32)) 0 = false)) := by
  refine ⟨?_, ?_, ?_⟩ <;> decide +kernel

/-- Hypotheses of `Obligations.DmaStartsAndStops` that hold together, clause by clause. -/
theorem witness_dmaStartsAndStops :
    ((2 < 32) ∧ (reqHere st33 Requester.host = true) ∧ (pageReady st33 (pageOf Blk.dmac 2 0) = true) ∧ (busFree st33 Requester.host (pageOf Blk.dmac 2
      0) 260 = true) ∧ (dmaFree st33 2 = true) ∧ (reservedIn [dmacChTmoTmoUs] (BitVec.toNat 500#32) = false) ∧ (BitVec.toNat 500#32 % 65536 * 1000 ≤
      fget st33 dmaxReplayNsNs 32 0)) ∧
    ((2 < 32) ∧ (reqHere st33 Requester.host = true) ∧ (pageReady st33 (pageOf Blk.dmac 2 0) = true) ∧ (busFree st33 Requester.host (pageOf Blk.dmac 2
      0) 260 = true) ∧ (dmaFree st33 2 = true) ∧ (reservedIn [dmacChTmoTmoUs] (BitVec.toNat 700#32) = false) ∧ (fget st33 dmaxReplayNsNs 32 0 <
      BitVec.toNat 700#32 % 65536 * 1000)) ∧
    ((31 < 32) ∧ (reqHere up Requester.host = true) ∧ (pageReady up (pageOf Blk.dmac 31 0) = true) ∧ (busFree up Requester.host (pageOf Blk.dmac 31 0)
      272 = true) ∧ (BitVec.toNat 1280#32 / 2 % 2 = 0) ∧ (dmaFree up 31 = true) ∧ (isContained up (Cunit.dma 31) = false)) ∧
    ((2 < 32) ∧ (reqHere st34 Requester.host = true) ∧ (pageReady st34 (pageOf Blk.dmac 2 0) = true) ∧ (busFree st34 Requester.host (pageOf Blk.dmac 2
      0) 272 = true) ∧ (BitVec.toNat 1280#32 / 2 % 2 = 0) ∧ (dmaFree st34 2 = false)) ∧
    ((2 < 32) ∧ (reqHere st34 Requester.host = true) ∧ (pageReady st34 (pageOf Blk.dmac 2 0) = true) ∧ (busFree st34 Requester.host (pageOf Blk.dmac 2
      0) 272 = true) ∧ (dmaFree st34 2 = false)) ∧
    ((2 < 32) ∧ (reqHere st35 Requester.host = true) ∧ (pageReady st35 (pageOf Blk.dmac 2 0) = true) ∧ (busFree st35 Requester.host (pageOf Blk.dmac 2
      0) 272 = true) ∧ (dmaFree st35 2 = false)) ∧
    ((2 < 32) ∧ (reqHere st36 Requester.host = true) ∧ (pageReady st36 (pageOf Blk.dmac 2 0) = true) ∧ (busFree st36 Requester.host (pageOf Blk.dmac 2
      0) 272 = true) ∧ (BitVec.toNat 1280#32 % 2 = 0) ∧ (dmaFree st36 2 = false) ∧ ((dmaCh st36 2).phase ≠ 5)) ∧
    ((2 < 32) ∧ (reqHere st37 Requester.host = true) ∧ (pageReady st37 (pageOf Blk.dmac 2 0) = true) ∧ (busFree st37 Requester.host (pageOf Blk.dmac 2
      0) 272 = true) ∧ (BitVec.toNat 1280#32 % 2 = 0) ∧ (dmaFree st37 2 = true ∨ (dmaCh st37 2).phase = 5)) := by
  refine ⟨?_, ?_, ?_, ?_, ?_, ?_, ?_, ?_⟩ <;> decide +kernel

/-- Hypotheses of `Obligations.PausesHold` that hold together, clause by clause. -/
theorem witness_pausesHold :
    ((0 < 384) ∧ (macRuns st38 0 = true) ∧ (65535 < 65536) ∧ (fget st38 macPauseCtlRxPause 0 0 = 0)) ∧
    ((0 < 384) ∧ (macRuns st39 0 = true) ∧ (65535 < 65536) ∧ (fget st39 macPauseCtlRxPause 0 0 = 1)) ∧
    ((0 < 384) ∧ (macRuns st40 0 = true) ∧ (255 < 256) ∧ (List.length [1, 2, 3, 4, 5, 6, 7, 65535] = 8) ∧ ((List.all [1, 2, 3, 4, 5, 6, 7, 65535] fun
      x ↦ decide (x < 65536)) = true)) ∧
    ((383 < 384) ∧ (7 < 8) ∧ (List.getD (portSt st41 383).pauseEnd 7 0 ≠ 0) ∧ (List.getD (portSt st41 383).pauseEnd 7 0 ≤ nowU st41)) ∧
    ((0 < 384) ∧ (macRuns st42 0 = true) ∧ (fget st42 macPortStatTxXoff 0 0 = 1) ∧ (fget st42 macPauseCtlXoffKib 0 0 / 2 * 1024 < holdOcc st42 0) ∧
      ((portSt st42 0).xoffAt * 16 + cdiv (32768 * 512 * 25) (curGbps st42 0) ≤ nowU st42)) := by
  refine ⟨?_, ?_, ?_, ?_, ?_⟩ <;> decide +kernel

/-- Hypotheses of `Obligations.LowPowerIdle` that hold together, clause by clause. -/
theorem witness_lowPowerIdle :
    ((0 < 384) ∧ (macRuns st43 0 = true) ∧ (eeeOn st43 0 = true) ∧ ((portSt st43 0).lpiTx = false) ∧ ((portSt st43 0).wakeAt = none) ∧ (portBusy st43
      0 = false) ∧ (passedNs st43 (portSt st43 0).idleAt (fget st43 macEeeCtlIdleUs 0 0 * 1000) = true)) ∧
    ((0 < 384) ∧ ((portSt st44 0).lpiTx = true) ∧ (portBusy st44 0 = true)) := by
  refine ⟨?_, ?_⟩ <;> decide +kernel

/-- Hypotheses of `Obligations.ParkFrames` that hold together, clause by clause. -/
theorem witness_parkFrames :
    ((0 < 384) ∧ (2 < 256) ∧ (255 < 256) ∧ (macRuns st38 0 = true) ∧ (2 ≠ 1)) ∧
    ((0 < 384) ∧ (1 < 256) ∧ (255 < 256) ∧ (macRuns st45 0 = true) ∧ ((portSt st45 0).park = Park.full) ∧ (parkReady st45 0 = true)) ∧
    ((0 < 384) ∧ (1 < 256) ∧ (255 < 256) ∧ (macRuns st38 0 = true) ∧ ((portSt st38 0).park = Park.full) ∧ (parkReady st38 0 = false)) ∧
    ((0 < 384) ∧ (1 < 256) ∧ (3 < 256) ∧ (macRuns st46 0 = true) ∧ ((portSt st46 0).park = Park.parking) ∧ ((portSt st46 0).agreed = false) ∧ ((portSt
      st46 0).parkSeq = 3)) ∧
    ((0 < 384) ∧ (1 < 256) ∧ (3 < 256) ∧ (macRuns st47 0 = true) ∧ ((portSt st47 0).park = Park.parked)) ∧
    ((0 < 384) ∧ (1 < 256) ∧ (3 < 256) ∧ (macRuns st48 0 = true) ∧ ((portSt st48 0).park = Park.waking)) := by
  refine ⟨?_, ?_, ?_, ?_, ?_, ?_⟩ <;> decide +kernel

/-- Hypotheses of `Obligations.ParkingMachine` that hold together, clause by clause. -/
theorem witness_parkingMachine :
    ((0 < 384) ∧ (macRuns st45 0 = true) ∧ (passedNs st45 (portSt st45 0).winAt 10000 = true)) ∧
    ((0 < 384) ∧ ((portSt st49 0).park = Park.parking) ∧ ((portSt st49 0).agreed = true) ∧ ((portSt st49 0).readySent = false) ∧ (later (portSt st49
      0).recorded (admNow st49) = false)) ∧
    ((0 < 384) ∧ ((portSt st50 0).readySent = true) ∧ ((portSt st50 0).readyRcvd = true) ∧ ((portSt st50 0).park = Park.parking)) ∧
    ((0 < 384) ∧ ((portSt st51 0).readySent = true) ∧ ((portSt st51 0).readyRcvd = true) ∧ ((portSt st51 0).park = Park.waking)) ∧
    ((0 < 384) ∧ (wakeCond st52 0 = true) ∧ ((portSt st52 0).park = Park.parking)) ∧
    ((0 < 384) ∧ (wakeCond st53 0 = true) ∧ ((portSt st53 0).park = Park.parked) ∧ ((portSt st53 0).failAt = none)) ∧
    ((0 < 384) ∧ ((portSt st54 0).park = Park.waking) ∧ ((portSt st54 0).readySent = false) ∧ (upperLocked st54 0 = true)) ∧
    ((0 < 384) ∧ ((portSt st48 0).park = Park.waking) ∧ (passedNs st48 (portSt st48 0).parkAt (bitsOf (parkTmr st48 0) 31 16 * 1000) = true) ∧
      (((portSt (heard st48) 0).readySent && (portSt (heard st48) 0).readyRcvd) = false)) ∧
    ((0 < 384) ∧ ((portSt st55 0).park = Park.parked) ∧ ((portSt st55 0).failAt = some 5) ∧ (passedNs st55 5 1000000 = true) ∧ (wakeCond st55 0 =
      false)) ∧
    ((0 < 384) ∧ ((portSt st56 0).park = Park.parked) ∧ ((portSt st56 0).failAt = some 5) ∧ (passedNs st56 5 1000000 = true) ∧ (wakeCond st56 0 =
      true)) ∧
    ((0 < 384) ∧ ((portSt st57 0).park = Park.parking) ∧ (passedNs st57 (portSt st57 0).parkAt (bitsOf (parkTmr st57 0) 15 0 * 1000) = true) ∧
      ((portSt (heard st57) 0).park = Park.parking) ∧ ((portSt (heard st57) 0).agreed = (portSt st57 0).agreed) ∧ ((portSt (heard st57) 0).readyRcvd =
      false) ∧ ((portSt st57 0).agreed = false) ∧ ((portSt st57 0).reqs < 3)) ∧
    ((0 < 384) ∧ ((portSt st58 0).park = Park.parking) ∧ (passedNs st58 (portSt st58 0).parkAt (bitsOf (parkTmr st58 0) 15 0 * 1000) = true) ∧
      ((portSt (heard st58) 0).park = Park.parking) ∧ ((portSt (heard st58) 0).agreed = (portSt st58 0).agreed) ∧ ((portSt (heard st58) 0).readyRcvd =
      false) ∧ ((portSt st58 0).agreed = true ∨ 3 ≤ (portSt st58 0).reqs)) := by
  refine ⟨?_, ?_, ?_, ?_, ?_, ?_, ?_, ?_, ?_, ?_, ?_, ?_⟩ <;> decide +kernel

/-- Hypotheses of `Obligations.PortLinks` that hold together, clause by clause. -/
theorem witness_portLinks :
    ((0 < 384) ∧ (running st59 = true) ∧ (lossDue st59 0 = true) ∧ (st59.net.items = []) ∧ (st59.prn.msgs = [])) ∧
    ((0 < 384) ∧ (running st60 = true) ∧ ((portSt st60 0).upSince = some 5) ∧ (portThere st60 0 = true) ∧ (linkUp st60 0 = false) ∧ (fget st60
      pcsLinkCtlUpHoldMs (0 / 8) 0 * 390625 ≤ (st60.clk - 5) * 64)) ∧
    ((0 < 384) ∧ (running st38 = true) ∧ (portThere st38 0 = true) ∧ (List.length (portSt st38 0).conds = 5) ∧ (fget st38 pcsLinkCtlRfAsDown (0 / 8) 0
      = 0) ∧ (lossDue st38 0 = false)) ∧
    ((0 < 384) ∧ (running st61 = true) ∧ (portThere st61 0 = true) ∧ (List.length (portSt st61 0).conds = 5) ∧ (fget st61 pcsLinkCtlRfAsDown (0 / 8) 0
      = 0) ∧ (lossDue st61 0 = false)) ∧
    ((0 < 384) ∧ (running st62 = true) ∧ (List.length (portSt st62 0).conds = 5) ∧ ((portSt st62 0).loss = true ∨ fget st62 pcsLinkCtlDownHold (0 / 8)
      0 ≠ 0 ∧ ∀ (n : Nat), List.getD (portSt st62 0).conds n none = none) ∧ (7 < 8) ∧ (List.contains (activeLanes st62 0) 7 = true) ∧ (fget st62
      pcsPortStatAligned (0 / 8) (0 % 8) = 1)) ∧
    ((0 < 384) ∧ (running st63 = true) ∧ (List.length (portSt st63 0).conds = 5) ∧ ((portSt st63 0).loss = true ∨ fget st63 pcsLinkCtlDownHold (0 / 8)
      0 ≠ 0 ∧ ∀ (n : Nat), List.getD (portSt st63 0).conds n none = none) ∧ (portThere st63 0 = true) ∧ (fget st63 pcsPortStatAligned (0 / 8) (0 % 8)
      = 0) ∧ (∀ (l : Nat), l ∈ activeLanes st63 0 → fget st63 sdsLaneCfgLoopback (laneInst 0 l) 0 = 0)) :=
  ⟨by decide +kernel,
    by decide +kernel,
    by decide +kernel,
    by decide +kernel,
    ⟨by decide +kernel, by decide +kernel, by decide +kernel, Or.inl (by decide +kernel), by decide +kernel, by decide +kernel, by decide +kernel⟩,
    ⟨by decide +kernel, by decide +kernel, by decide +kernel, Or.inl (by decide +kernel), by decide +kernel, by decide +kernel, by decide +kernel⟩⟩

/-- Hypotheses of `Obligations.LanesAndCodewords` that hold together, clause by clause. -/
theorem witness_lanesAndCodewords :
    ((0 < 384) ∧ (List.length [1, 2, 3, 4, 5, 0, 0, 0] = 8) ∧ ((List.all [1, 2, 3, 4, 5, 0, 0, 0] fun x ↦ decide (x < 16)) = true) ∧ (running st38 =
      true) ∧ (portMode st38 0 = some (5, 8, 3)) ∧ (2 ≤ 3) ∧ (List.foldl (fun a l ↦ a + List.getD [1, 2, 3, 4, 5, 0, 0, 0] l 0) 0 (activeLanes st38 0)
      ≤ fecPower 3)) ∧
    ((0 < 384) ∧ (List.length [1, 2, 3, 4, 5, 0, 0, 0] = 8) ∧ ((List.all [1, 2, 3, 4, 5, 0, 0, 0] fun x ↦ decide (x < 16)) = true) ∧ (running st38 =
      true) ∧ (portMode st38 0 = some (5, 8, 3)) ∧ (2 ≤ 3) ∧ (fget st38 pcsErrCtlSdThresh (0 / 8) 0 = 0) ∧ (fget st38 pcsErrCtlRetrainThresh (0 / 8) 0
      = 0)) ∧
    ((running st38 = true) ∧ (0 < 384) ∧ (portThere st38 0 = true) ∧ ((portSt st38 0).winMs ≠ msNow st38) ∧ (fget st38 pcsPortStatSd (0 / 8) (0 % 8) =
      0)) ∧
    ((running st64 = true) ∧ (0 < 384) ∧ (portThere st64 0 = true) ∧ ((portSt st64 0).retrainDue = some 5) ∧ (prnOn st64 = false)) ∧
    ((running st65 = true) ∧ (0 < 384) ∧ (portThere st65 0 = true) ∧ ((portSt st65 0).retrainDue = some 5) ∧ (prnOn st65 = false) ∧ ((portSt st65
      0).loss = true)) ∧
    ((running st66 = true) ∧ (383 < 384) ∧ (255 < 256) ∧ (fget st66 sdsLaneStatPowered 383 0 = 1) ∧ (fget st66 sdsLaneStatAdaptDone 383 0 = 0) ∧ (∀
      (sp : Nat), sp < 8 → fget st66 pcsPortStatRetrain (383 / 8) sp = 0) ∧ (true = true)) ∧
    ((running st66 = true) ∧ (383 < 384) ∧ (255 < 256) ∧ (fget st66 sdsLaneStatPowered 383 0 = 1) ∧ (fget st66 sdsLaneStatAdaptDone 383 0 = 0) ∧ (∀
      (sp : Nat), sp < 8 → fget st66 pcsPortStatRetrain (383 / 8) sp = 0) ∧ (false = false)) := by
  refine ⟨?_, ?_, ?_, ?_, ?_, ?_, ?_⟩ <;> decide +kernel

/-- Hypotheses of `Obligations.FramesEnter` that hold together, clause by clause. -/
theorem witness_framesEnter :
    ((0 < 384) ∧ (6 < 7) ∧ (macRuns st38 0 = true) ∧ ((portSt st38 0).rx = none) ∧ ((portSt st38 0).rxCtl = []) ∧ (64 ≤ List.length (List.replicate 64
      2)) ∧ (List.length (List.replicate 64 2) ≤ fget st38 macCfgMaxFrame 0 0) ∧ (macTakes st38 0 (List.replicate 64 2) = false) ∧ (heldBytes st38
      (sliceOf 0) + List.length (List.replicate 64 2) ≤ holdSize)) ∧
    ((0 < 384) ∧ (running st67 = true) ∧ ((portSt st67 0).rx = some 7) ∧ (Option.isSome (pktOf st67 7) = true) ∧ (st68 = releases (modPort st67 0 fun
      y => { y with rx := none, rxCtl := [], rxDrop := false })) ∧ (pktOf st68 7 = some pktIn) ∧ (pktIn.stage = Stage.holding) ∧ (List.length
      pktIn.data + List.length (List.replicate 64 2) ≤ fget st68 macCfgMaxFrame 0 0) ∧ (heldBytes st68 pktIn.slice + List.length (List.replicate 64 2)
      ≤ holdSize)) ∧
    ((0 < 8) ∧ (running st69 = true) ∧ (contexts st69 0 < 4096) ∧ (List.find? (fun p ↦ p.slice == 0 && p.stage == Stage.holding && (p.tail || decide
      (260 ≤ List.length p.data))) st69.net.pkts = some pk0) ∧ (pktOf st69 pk0.id = some pk0)) := by
  refine ⟨?_, ?_, ?_⟩ <;> decide +kernel

/-- Hypotheses of `Obligations.HeadsAdvance` that hold together, clause by clause. -/
theorem witness_headsAdvance :
    ((running st70 = true) ∧ (pktOf st70 7 = some pkt0) ∧ (pkt0.stage = Stage.parsing) ∧ (pkt0.endOk = false) ∧ (pkt0.mal = 0) ∧ (pkt0.since <
      st70.clk) ∧ (pkt0.since + 4 * pkt0.steps ≤ st70.clk)) ∧
    ((running st71 = true) ∧ (pktOf st71 7 = some pk1) ∧ (pk1.stage = Stage.parsing) ∧ (pk1.endOk = false) ∧ (pk1.mal = 0) ∧ (pk1.since < st71.clk) ∧
      (pk1.since + 4 * pk1.steps ≤ st71.clk) ∧ (24 ≤ pk1.steps)) ∧
    ((running st72 = true) ∧ (pktOf st72 7 = some pk2) ∧ (pk2.stage = Stage.parsing) ∧ (pk2.endOk = true) ∧ (pk2.mal = 0) ∧ (pk2.since + 96 ≤
      st72.clk)) ∧
    ((running st72 = true) ∧ (passedNs st72 st72.tbl.graphAt 1000000 = true)) ∧
    ((running st73 = true) ∧ (pktOf st73 7 = some pk3) ∧ (pk3.since + 64 ≤ st73.clk) ∧ (pk3.stage = Stage.parsed)) ∧
    ((running st74 = true) ∧ (pktOf st74 7 = some pk4) ∧ (pk4.since + 64 ≤ st74.clk) ∧ (pk4.stage = Stage.classified) ∧ (isShut st74 (Cunit.pair
      (pk4.slice / 2)) = true) ∧ ((pk4.tail && pk4.fcsBad && decide (List.length pk4.data ≤ 256)) = false)) ∧
    ((running st75 = true) ∧ (pktOf st75 7 = some pk4) ∧ (pk4.since + 64 ≤ st75.clk) ∧ (pk4.stage = Stage.classified) ∧ (isShut st75 (Cunit.pair
      (pk4.slice / 2)) = false) ∧ ((lookup st75 pk4).fst ≠ Look.memErr)) ∧
    ((running st76 = true) ∧ (pktOf st76 7 = some pk5) ∧ (pk5.since + 64 ≤ st76.clk) ∧ (pk5.stage = Stage.classified) ∧ (isShut st76 (Cunit.pair
      (pk5.slice / 2)) = true) ∧ ((pk5.tail && pk5.fcsBad && decide (List.length pk5.data ≤ 256)) = true)) ∧
    ((running st77 = true) ∧ (pktOf st77 7 = some pk4) ∧ (pk4.since + 64 ≤ st77.clk) ∧ (pk4.stage = Stage.classified) ∧ (isShut st77 (Cunit.pair
      (pk4.slice / 2)) = false) ∧ ((lookup st77 pk4).fst = Look.memErr)) := by
  refine ⟨?_, ?_, ?_, ?_, ?_, ?_, ?_, ?_, ?_⟩ <;> decide +kernel

/-- Hypotheses of `Obligations.ClassifierUpkeep` that hold together, clause by clause. -/
theorem witness_classifierUpkeep :
    ((320 ≤ 447) ∧ (447 < 448) ∧ (running st78 = true) ∧ (3 < 4) ∧ (List.find? (fun r ↦ r.page == 447 && r.slot == 3) st78.tbl.repairs = some
      { page := 447, slot := 3, half := 0, entry := 5, tries := 0 }) ∧ ((okraFetch st78 (bankSlice 447 / 2)).fst = true)) ∧
    ((320 ≤ 320) ∧ (320 < 448) ∧ (running st79 = true) ∧ (List.find? (fun r ↦ r.page == 320 && r.slot == 4) st79.tbl.repairs = some
      { page := 320, slot := 4, half := 0, entry := 5, tries := 0 }) ∧ (okraFetch st79 (bankSlice 320 / 2) = (true, st79))) ∧
    ((320 ≤ 320) ∧ (320 < 448) ∧ (running up = true) ∧ (2047 < 2048) ∧ (∀ (r : Repair), r ∈ up.tbl.repairs → bankSlice r.page / 2 ≠ bankSlice 320 / 2)
      ∧ (bankSyncing up 320 = false) ∧ (setAside up 320 (activeHalf up 320) 2047 = false) ∧ (okraFetch up (bankSlice 320 / 2) = (true, up)) ∧
      (BitVec.toNat (actW up (regKey 320 32)) / 16 % 4 = 0)) ∧
    ((320 ≤ 320) ∧ (320 < 448) ∧ (running st80 = true) ∧ (Option.isSome (storeFind st80.tbl.syncs 320) = true) ∧ (storeFind st80.tbl.syncs (320 +
      4096) = none) ∧ (oldHeadsDone st80 320 [bankSlice 320] [Stage.parsing, Stage.parsed] = true)) ∧
    ((320 ≤ 320) ∧ (320 < 448) ∧ (running st81 = true) ∧ (storeFind st81.tbl.syncs (320 + 4096) = some 7) ∧ (7 + 256 ≤ st81.clk)) ∧
    ((320 ≤ 320) ∧ (320 < 448) ∧ (running st82 = true) ∧ (3 < 4) ∧ (fget st82 treStatOldReaders 3 0 = 1) ∧ (oldHeadsDone st82 (pageOf Blk.tre 3 0) [2
      * 3, 2 * 3 + 1] [Stage.parsing, Stage.parsed] = true)) := by
  refine ⟨?_, ?_, ?_, ?_, ?_, ?_⟩ <;> decide +kernel

/-- Hypotheses of `Obligations.TableCommands` that hold together, clause by clause. -/
theorem witness_tableCommands :
    ((List.find? (fun x ↦ x.chard == false) st83.tbl.cmds = some (theCmd (cmd State.reset false 1 0 8 0 [11]))) ∧ (okraFetch st83 0 = (true, st83)) ∧
      (cmdBad false (cmdOf (theCmd (cmd State.reset false 1 0 8 0 [11])).record) = false) ∧ ((cmdOf (theCmd (cmd State.reset false 1 0 8 0
      [11])).record).op = 1) ∧ (false = false) ∧ (List.any st83.tbl.leekS (samePrefix (cmdRoute (cmdOf (theCmd (cmd State.reset false 1 0 8 0
      [11])).record))) = false) ∧ (leekCount st83.tbl.leekS (cmdRoute (cmdOf (theCmd (cmd State.reset false 1 0 8 0 [11])).record)).fam < leekLimit
      (cmdRoute (cmdOf (theCmd (cmd State.reset false 1 0 8 0 [11])).record)).fam) ∧ (leekTight st83 (cmdRoute (cmdOf (theCmd (cmd State.reset false 1
      0 8 0 [11])).record)).fam = false)) ∧
    ((List.find? (fun x ↦ x.chard == true) st84.tbl.cmds = some (theCmd (cmd State.reset true 1 1 0 0 (macKey 3 5)))) ∧ (okraFetch st84 0 = (true,
      st84)) ∧ (cmdBad true (cmdOf (theCmd (cmd State.reset true 1 1 0 0 (macKey 3 5))).record) = false) ∧ ((cmdOf (theCmd (cmd State.reset true 1 1 0
      0 (macKey 3 5))).record).op = 1)) ∧
    ((List.find? (fun x ↦ x.chard == false) st85.tbl.cmds = some (theCmd (cmd State.reset false 2 0 8 0 [10]))) ∧ (okraFetch st85 0 = (true, st85)) ∧
      (cmdBad false (cmdOf (theCmd (cmd State.reset false 2 0 8 0 [10])).record) = false) ∧ ((cmdOf (theCmd (cmd State.reset false 2 0 8 0
      [10])).record).op = 2) ∧ (false = false)) ∧
    ((List.find? (fun x ↦ x.chard == true) st86.tbl.cmds = some (theCmd (cmd State.reset true 2 1 0 0 (macKey 3 1193046)))) ∧ (okraFetch st86 0 =
      (true, st86)) ∧ (cmdBad true (cmdOf (theCmd (cmd State.reset true 2 1 0 0 (macKey 3 1193046))).record) = false) ∧ ((cmdOf (theCmd (cmd
      State.reset true 2 1 0 0 (macKey 3 1193046))).record).op = 2) ∧ (true = true) ∧ (bit (cmdOf (theCmd (cmd State.reset true 2 1 0 0 (macKey 3
      1193046))).record).flags 0 = false)) ∧
    ((List.find? (fun x ↦ x.chard == false) st87.tbl.cmds = some (theCmd (cmd State.reset false 3 0 0 0 []))) ∧ (okraFetch st87 0 = (true, st87)) ∧
      (cmdBad false (cmdOf (theCmd (cmd State.reset false 3 0 0 0 [])).record) = false) ∧ ((cmdOf (theCmd (cmd State.reset false 3 0 0 0
      [])).record).op = 3) ∧ (false = false)) ∧
    ((List.find? (fun x ↦ x.chard == true) st88.tbl.cmds = some (theCmd (cmd State.reset true 3 1 0 0 []))) ∧ (okraFetch st88 0 = (true, st88)) ∧
      (cmdBad true (cmdOf (theCmd (cmd State.reset true 3 1 0 0 [])).record) = false) ∧ ((cmdOf (theCmd (cmd State.reset true 3 1 0 0 [])).record).op
      = 3) ∧ (true = true) ∧ (bit (cmdOf (theCmd (cmd State.reset true 3 1 0 0 [])).record).flags 0 = false)) ∧
    ((List.find? (fun x ↦ x.chard == true) st89.tbl.cmds = some (theCmd (cmd State.reset true 4 1 0 32 []))) ∧ (okraFetch st89 0 = (true, st89)) ∧
      (cmdBad true (cmdOf (theCmd (cmd State.reset true 4 1 0 32 [])).record) = false) ∧ ((cmdOf (theCmd (cmd State.reset true 4 1 0 32
      [])).record).op = 4) ∧ (true = true) ∧ (bit (cmdOf (theCmd (cmd State.reset true 4 1 0 32 [])).record).flags 0 = false)) := by
  refine ⟨?_, ?_, ?_, ?_, ?_, ?_, ?_⟩ <;> decide +kernel

/-- Hypotheses of `Obligations.TableUpkeep` that hold together, clause by clause. -/
theorem witness_tableUpkeep :
    ((0 < 4) ∧ (fget st90 lekStatSync 0 0 = 1) ∧ (storeFind st90.tbl.leekSync 0 = none) ∧ (oldHeadsDone st90 (pageOf Blk.lek 0 0) [2 * 0, 2 * 0 + 1]
      searching = true)) ∧
    ((3 < 4) ∧ (storeFind st91.tbl.leekSync 3 = some (5, 7)) ∧ (5 + 7 ≤ st91.clk)) ∧
    ((st92.tbl.deferAt ≠ none) ∧ (∀ (k : Nat), k < 4 → oldHeadsDone st92 (pageOf Blk.chd k 0) [2 * k, 2 * k + 1] searching = true) ∧ (∀ (k : Nat), k <
      4 → BitVec.toNat (actW st92 (regKey (pageOf Blk.okr k 0) 32)) / 16 % 4 = 0)) ∧
    ((3 < 4) ∧ (fget st93 chdAgeCfgAgeSec 3 0 ≠ 0) ∧ (running st93 = true) ∧ (passedNs st93 (storeGet 0 st93.tbl.ageAt 3) (fget st93 chdAgeCfgAgeSec 3
      0 * 1000000000) = true)) ∧
    ((1 < 4)) ∧
    ((1 < 4) ∧ (fget st95 nhpStatHeld 1 0 = 1) ∧ (epochRefs st95 (groupOf st95 (pageOf Blk.nhp 1 0)) = 0)) ∧
    ((383 < 384) ∧ ((portSt st96 383).downAt = some 5)) ∧
    ((383 < 384) ∧ ((portSt st97 383).clearAt = some 5) ∧ (5 ≤ st97.clk) ∧ (isContained st97 (Cunit.slice (sliceOf 383)) = false) ∧ (isContained st97
      (Cunit.sched (383 / 8)) = false)) ∧
    ((7 < 8) ∧ (running st98 = true) ∧ (fget st98 edtStatHeld 7 0 = 1) ∧ (fget st98 edtStatCopy 7 0 = 0) ∧ (epochRefs st98 (groupOf st98 (pageOf
      Blk.edt 7 0)) = 0)) ∧
    ((7 < 8) ∧ (running st99 = true) ∧ (fget st99 edtStatCopy 7 0 = 1) ∧ (storeGet 0 st99.net.xferAt (48 + 7) ≤ st99.clk) ∧ (epochRefs st99 (groupOf
      st99 (pageOf Blk.edt 7 0)) = 0)) := by
  refine ⟨?_, ?_, ?_, ?_, ?_, ?_, ?_, ?_, ?_, ?_⟩ <;> decide +kernel

/-- Hypotheses of `Obligations.RingMessages` that hold together, clause by clause. -/
theorem witness_ringMessages :
    ((1 < 4) ∧ (chdEntry st100 1 (macKey (msg 1 1 3 200).tenant (msg 1 1 3 200).mac) = some chd1) ∧ (chd1.learned = true) ∧ (chd1.stat = false) ∧
      ((later32 (msg 1 1 3 200).ltime chd1.ltime || (msg 1 1 3 200).ltime == chd1.ltime && decide ((msg 1 1 3 200).origin < chd1.origin)) = true) ∧
      ((ringTake st100 1 1).fst = some (msg 1 1 3 200))) ∧
    ((1 < 4) ∧ (chdEntry st101 1 (macKey (msg 1 2 1 100).tenant (msg 1 2 1 100).mac) = some chd1) ∧ (chd1.learned = true) ∧ (chd1.stat = false) ∧
      ((later32 (msg 1 2 1 100).ltime chd1.ltime || (msg 1 2 1 100).ltime == chd1.ltime && decide ((msg 1 2 1 100).origin < chd1.origin)) = true) ∧
      ((ringTake st101 1 2).fst = some (msg 1 2 1 100))) ∧
    ((1 < 4) ∧ (chdEntry st102 1 (macKey (msg 1 3 2 100).tenant (msg 1 3 2 100).mac) = some chd1) ∧ (chd1.learned = true) ∧ (chd1.stat = false) ∧
      (chd1.origin = (msg 1 3 2 100).origin) ∧ (later32 chd1.ltime (msg 1 3 2 100).ltime = false) ∧ ((ringTake st102 1 3).fst = some (msg 1 3 2 100)))
      ∧
    ((1 < 4) ∧ ((ringTake st103 1 4).fst = some (msg 1 4 2 100))) ∧
    ((1 < 4) ∧ (1 ∈ [1, 2, 3, 4]) ∧ ((ringTake st104 4 1).fst = some (msg 4 1 2 100))) ∧
    ((1 < 4) ∧ (4 ∈ [1, 2, 3, 4]) ∧ ((ringTake st105 4 4).fst = some (msg 4 4 2 100))) ∧
    ((reqHere st106 Requester.host = true) ∧ (pageReady st106 (pageOf Blk.holx 16 0) = true) ∧ (busFree st106 Requester.host (pageOf Blk.holx 16 0) 52
      = true) ∧ (storeFind st106.pg.mbx (pageOf Blk.holx 16 0) = none) ∧ (mbxNames st106 (pageOf Blk.holx 16 0) 5 none = true) ∧ (goBad st106 (pageOf
      Blk.holx 16 0) (BitVec.toNat (withBits (112#32) 1 0 3)) = false) ∧ (1 ≤ wd (List.map (fun k ↦ BitVec.toNat (actW st106 (regKey (pageOf Blk.holx
      16 0) (64 + 4 * k)))) (List.range 8)) 0 % 16) ∧ (wd (List.map (fun k ↦ BitVec.toNat (actW st106 (regKey (pageOf Blk.holx 16 0) (64 + 4 * k))))
      (List.range 8)) 0 % 16 ≤ 4) ∧ (bit (wd (List.map (fun k ↦ BitVec.toNat (actW st106 (regKey (pageOf Blk.holx 16 0) (64 + 4 * k)))) (List.range
      8)) 0) 7 = false) ∧ (bitsOf (wd (List.map (fun k ↦ BitVec.toNat (actW st106 (regKey (pageOf Blk.holx 16 0) (64 + 4 * k)))) (List.range 8)) 0) 31
      18 = 0) ∧ (bitsOf (wd (List.map (fun k ↦ BitVec.toNat (actW st106 (regKey (pageOf Blk.holx 16 0) (64 + 4 * k)))) (List.range 8)) 1) 31 14 = 0) ∧
      (bitsOf (wd (List.map (fun k ↦ BitVec.toNat (actW st106 (regKey (pageOf Blk.holx 16 0) (64 + 4 * k)))) (List.range 8)) 3) 31 16 = 0) ∧ (bitsOf
      (wd (List.map (fun k ↦ BitVec.toNat (actW st106 (regKey (pageOf Blk.holx 16 0) (64 + 4 * k)))) (List.range 8)) 4) 31 20 = 0) ∧ (wd (List.map
      (fun k ↦ BitVec.toNat (actW st106 (regKey (pageOf Blk.holx 16 0) (64 + 4 * k)))) (List.range 8)) 6 = 0)) := by
  refine ⟨?_, ?_, ?_, ?_, ?_, ?_, ?_⟩ <;> decide +kernel

/-- Hypotheses of `Obligations.HeadsMeterAndGate` that hold together, clause by clause. -/
theorem witness_headsMeterAndGate :
    ((running st107 = true) ∧ (pktOf st107 7 = some pk6) ∧ (pk6.stage = Stage.forwarded) ∧ (pk6.res.policer = none)) ∧
    ((running st108 = true) ∧ (pktOf st108 7 = some pk7) ∧ (pk7.stage = Stage.forwarded) ∧ (pk7.res.policer = some 3)) ∧
    ((running st109 = true) ∧ (pktOf st109 7 = some pk8) ∧ (gateReady pk8 = true) ∧ (st110 = List.foldl verdictOn (List.foldl resteerSlice (releases
      st109) (resteersDue st109)) (headsBefore st109 pk8)) ∧ (pktOf st110 7 = some pk8) ∧ (gateReady pk8 = true) ∧ ((pk8.tail && pk8.fcsBad && decide
      (List.length pk8.data ≤ 256)) = true)) ∧
    ((running st111 = true) ∧ (pktOf st111 7 = some pk9) ∧ (gateReady pk9 = true) ∧ (st112 = List.foldl verdictOn (List.foldl resteerSlice (releases
      st111) (resteersDue st111)) (headsBefore st111 pk9)) ∧ (pktOf st112 7 = some pk9) ∧ (gateReady pk9 = true) ∧ ((pk9.tail && pk9.fcsBad && decide
      (List.length pk9.data ≤ 256)) = false)) ∧
    ((running st113 = true) ∧ (pktOf st113 7 = some pk10) ∧ (gateReady pk10 = true) ∧ (st114 = List.foldl verdictOn (List.foldl resteerSlice (releases
      st113) (resteersDue st113)) (headsBefore st113 pk10)) ∧ (pktOf st114 7 = some pk10) ∧ (gateReady pk10 = true) ∧ ((pk10.tail && pk10.fcsBad &&
      decide (List.length pk10.data ≤ 256)) = false)) := by
  refine ⟨?_, ?_, ?_, ?_, ?_⟩ <;> decide +kernel

/-- Hypotheses of `Obligations.MeterNeverOverdraws` that hold together, clause by clause. -/
theorem witness_meterNeverOverdraws :
    ((2 < 3) ∧ (2 ≠ 0) ∧ (polColour 2 0 1000 2000 500 = 0) ∧ (2 = 2)) ∧
    ((1 < 3) ∧ (1 ≠ 0) ∧ (polColour 1 0 1000 2000 1000 = 0) ∧ (1 = 1)) ∧
    ((2 < 3) ∧ (polColour 2 1 1000 2000 500 = 1)) ∧
    ((1 < 3) ∧ (polColour 1 2 1000 2000 500 = 2)) ∧
    ((1 < 3)) := by
  refine ⟨?_, ?_, ?_, ?_, ?_⟩ <;> decide +kernel

/-- Hypotheses of `Obligations.AdmissionMeetsDeadlines` that hold together, clause by clause. -/
theorem witness_admissionMeetsDeadlines :
    ((decideUni st115 pkt0 0 0 300 0 5000 (soon 100000) 0 = Verdict.on (vftIn (verdict (queue0 (port0 up)) 5000 100000)))) ∧
    ((decideUni spilling pkt0 0 0 300 0 5000 (soon 100000) 0 = Verdict.brl (vftIn (verdict spilling 5000 100000)))) ∧
    ((0 < 8) ∧ (running st116 = true) ∧ (passedNs st116 (storeGet 0 st116.net.keptAt 0) 1000000 = true) ∧ (storeSorted st116.net.queues = true)) ∧
    ((383 < 384) ∧ (7 < 8) ∧ ((queue st117 383 7).carry = some (soon 0, 9)) ∧ (later (soon 0) (admNow st117) = false)) ∧
    ((7 < 8) ∧ (List.find? (fun x ↦ x.slice == 7) st118.net.checks = some check7) ∧ (check7.skip = false) ∧ (check7.diff ≠ 0)) := by
  refine ⟨?_, ?_, ?_, ?_, ?_⟩ <;> decide +kernel

/-- Hypotheses of `Obligations.TwillMovesOncePerClock` that hold together, clause by clause. -/
theorem witness_twillMovesOncePerClock :
    ((7 < 8) ∧ (running up = true) ∧ (storeFind up.net.xferAt 7 ≠ some up.clk)) ∧
    ((7 < 8) ∧ (running up = true) ∧ (storeFind up.net.xferAt 7 ≠ some up.clk) ∧ (∀ (q : StageA), q ∈ up.net.stageA → q.slice = 7 → q.cells = [])) ∧
    ((7 < 8) ∧ (running st119 = true) ∧ (storeFind st119.net.xferAt 7 ≠ some st119.clk) ∧ (List.find? (fun q ↦ q.slice == 7 && q.lane == (7 + slotNow
      st119) % 8 && q.kind == 1) st119.net.stageA = some (stageA7 up)) ∧ ((stageA7 up).cells = [tag9]) ∧ (tag9.ready ≤ st119.clk) ∧ (laneRoom st119 7
      ((7 + slotNow st119) % 8) tag9.es = true)) ∧
    ((7 < 8) ∧ (running st120 = true) ∧ (storeFind st120.net.xferAt 7 = some st120.clk)) ∧
    ((7 < 8) ∧ (running st121 = true) ∧ (storeFind (arrivals st121).net.xferAt (8 + 7) = some (arrivals st121).clk)) ∧
    ((7 < 8) ∧ (running up = true) ∧ (storeFind (arrivals up).net.xferAt (8 + 7) ≠ some (arrivals up).clk) ∧ (stalled up 7 ((7 + slotNow up) % 8) =
      false)) ∧
    ((7 < 8) ∧ (running st122 = true) ∧ (passedNs st122 (storeGet 0 st122.net.occAt 7) (fget st122 gzeImbCfgImbWinNs 7 0) = true)) ∧
    ((7 < 8) ∧ (running st123 = true) ∧ (passedNs st123 (storeGet 0 st123.net.occAt 7) (fget st123 gzeImbCfgImbWinNs 7 0) = true)) := by
  refine ⟨?_, ?_, ?_, ?_, ?_, ?_, ?_, ?_⟩ <;> decide +kernel

/-- Hypotheses of `Obligations.CopiesAndSpill` that hold together, clause by clause. -/
theorem witness_copiesAndSpill :
    ((running st124 = true) ∧ (0 < 8) ∧ (chainOf st124 7 0 0 = some (chain0 true)) ∧ ((chain0 true).engine = true) ∧ (∀ (x : Cell), x ∈ (chain0
      true).cells → x.ref = 1) ∧ ((chain0 true).later = [])) ∧
    ((running st125 = true) ∧ (0 < 8)) ∧
    ((running st126 = true) ∧ (itemOf st126 9 = some im0) ∧ (im0.place = Place.residue) ∧ (later im0.dl (admOf (tbNow st126)) = false)) ∧
    ((running st127 = true) ∧ (0 < 384) ∧ (0 < 8) ∧ (List.find? (fun b ↦ passedNs st127 b.snd (fget st127 bpmSpillCfgFlushNs (sliceOf 0) 0)) (queue
      st127 0 0).staging = some (0, 5))) ∧
    ((running st128 = true) ∧ (itemOf st128 9 = some item0) ∧ ((List.any (queue st128 item0.port item0.cls).stream fun c ↦ c.item == 9 && c.st ==
      SpillPos.reading) = true) ∧ (later item0.dl (admOf (tbNow st128)) = false) ∧ (List.any st128.pending (endsNow st128 item0) = false)) ∧
    ((running st129 = true) ∧ (List.find? (fun r ↦ r.id == 5 && inner r && r.who == 0) st129.hbm.reqs = some (inner0 0 true)) ∧ ((inner0 0 true).late
      = false) ∧ ((inner0 0 true).held = false) ∧ ((inner0 0 true).issued = true) ∧ ((inner0 0 true).write = true) ∧ ((inner0 0 true).code < 2) ∧
      ((inner0 0 true).code < 4)) ∧
    ((running st130 = true) ∧ (List.find? (fun r ↦ r.id == 5 && inner r && r.who == 1) st130.hbm.reqs = some (inner0 1 false)) ∧ ((inner0 1
      false).late = false) ∧ ((inner0 1 false).held = false) ∧ ((inner0 1 false).issued = true) ∧ ((inner0 1 false).write = false) ∧ ((inner0 1
      false).code < 4)) ∧
    ((running (fset (fset burlaped bpmPfPoolCells 0 0 64) bpmSpillCfgPrefetchCells 0 0 8) = true) ∧ (0 < 8) ∧ (storeFind (fset (fset burlaped
      bpmPfPoolCells 0 0 64) bpmSpillCfgPrefetchCells 0 0 8).net.xferAt (16 + 0) ≠ some (fset (fset burlaped bpmPfPoolCells 0 0 64)
      bpmSpillCfgPrefetchCells 0 0 8).clk) ∧ (poolUsed (fset (fset burlaped bpmPfPoolCells 0 0 64) bpmSpillCfgPrefetchCells 0 0 8) 0 + 8 ≤ fget (fset
      (fset burlaped bpmPfPoolCells 0 0 64) bpmSpillCfgPrefetchCells 0 0 8) bpmPfPoolCells 0 0) ∧ (List.find? (fun e ↦ e.fst / 432 == 0 && e.fst % 9
      != 8 && wantsBlock (fset (fset burlaped bpmPfPoolCells 0 0 64) bpmSpillCfgPrefetchCells 0 0 8) 0 e.snd && Option.isSome (nextBlock e.snd)) (fset
      (fset burlaped bpmPfPoolCells 0 0 64) bpmSpillCfgPrefetchCells 0 0 8).net.queues = some (0, queue burlaped 0 0))) := by
  refine ⟨?_, ?_, ?_, ?_, ?_, ?_, ?_, ?_⟩ <;> decide +kernel

/-- Hypotheses of `Obligations.ResteersAndMirrors` that hold together, clause by clause. -/
theorem witness_resteersAndMirrors :
    ((0 < 8) ∧ (running (releases st131) = true) ∧ (storeFind (releases st131).net.xferAt (24 + 0) ≠ some (releases st131).clk) ∧ (List.find? (fun it
      ↦ it.es == 0 && it.place == Place.queued && (portSt (releases st131) it.port).loss) (releases st131).net.items = some item0) ∧ (resteerTo
      (oncePerClk (releases st131) (24 + 0)).snd item0 = none)) ∧
    ((0 < 8) ∧ (running (releases st132) = true) ∧ (storeFind (releases st132).net.xferAt (24 + 0) ≠ some (releases st132).clk) ∧ (List.find? (fun it
      ↦ it.es == 0 && it.place == Place.queued && (portSt (releases st132) it.port).loss) (releases st132).net.items = some itemB) ∧ (resteerTo
      (oncePerClk (releases st132) (24 + 0)).snd itemB = some ((wayB (backed (queued2 up))).fst, (wayB (backed (queued2 up))).snd.fst, (wayB (backed
      (queued2 up))).snd.snd.fst, (wayB (backed (queued2 up))).snd.snd.snd.fst, (wayB (backed (queued2 up))).snd.snd.snd.snd)) ∧ (cellsIn (releases
      st132) itemB = true)) ∧
    ((0 < 8) ∧ (running (releases st133) = true) ∧ (storeFind (releases st133).net.xferAt (24 + 0) ≠ some (releases st133).clk) ∧ (List.find? (fun it
      ↦ it.es == 0 && it.place == Place.queued && (portSt (releases st133) it.port).loss) (releases st133).net.items = some itemB) ∧ (resteerTo
      (oncePerClk (releases st133) (24 + 0)).snd itemB = some ((wayB (backed (queued3 up))).fst, (wayB (backed (queued3 up))).snd.fst, (wayB (backed
      (queued3 up))).snd.snd.fst, (wayB (backed (queued3 up))).snd.snd.snd.fst, (wayB (backed (queued3 up))).snd.snd.snd.snd)) ∧ (cellsIn (releases
      st133) itemB = false)) ∧
    ((0 < 8) ∧ (st134.net.resteerSent = [tag9]) ∧ (itemOf st134 tag9.pkt = some im1) ∧ (im1.place = Place.resteer) ∧ (tag9.es = 0) ∧ (cellsIn st134
      im1 = true)) ∧
    ((st135.net.mirq = [mir15]) ∧ (fget st135 gzeMirCtlEn 0 mir15.ring = 0)) ∧
    ((st136.net.mirq = [mir15]) ∧ (mir15.ring < 16) ∧ (fget st136 gzeMirCtlEn 0 mir15.ring = 1) ∧ (fget st136 gzeMirCtlSizeLog2 0 mir15.ring ≤ 24) ∧
      (ringFull (fget st136 gzeMirHeadHead 0 mir15.ring) (fget st136 gzeMirTailTail 0 mir15.ring) (2 ^ fget st136 gzeMirCtlSizeLog2 0 mir15.ring) =
      false) ∧ (fget st136 brlEffMirrorGbs 0 0 ≠ 0) ∧ (mayReach st136 3 (addr36 st136 (fget st136 gzeMirBaseHiAddr 0 mir15.ring * 2 ^ 32 + fget st136
      gzeMirBaseLoAddr 0 mir15.ring * 256 + 160 * fget st136 gzeMirHeadHead 0 mir15.ring)) (List.length mir15.bytes) true = true) ∧ (spanShut st136 3
      (addr36 st136 (fget st136 gzeMirBaseHiAddr 0 mir15.ring * 2 ^ 32 + fget st136 gzeMirBaseLoAddr 0 mir15.ring * 256 + 160 * fget st136
      gzeMirHeadHead 0 mir15.ring)) (List.length mir15.bytes) = false)) := by
  refine ⟨?_, ?_, ?_, ?_, ?_, ?_⟩ <;> decide +kernel

/-- Hypotheses of `Obligations.BurlapServesRequests` that hold together, clause by clause. -/
theorem witness_burlapServesRequests :
    ((0 < 9) ∧ (running st137 = true) ∧ (0 < if List.isEmpty none0 = true then 64 else List.length none0) ∧ (∀ (x : BReq), x ∈ st137.hbm.reqs → x.id ≠
      st137.net.nextId) ∧ ((mayReach st137 0 139586437120 (if List.isEmpty none0 = true then 64 else List.length none0) !List.isEmpty none0) = false)
      ∧ (0 ≠ 2 ∨ none0 ≠ [])) ∧
    ((7 < 9) ∧ (running st138 = true) ∧ (0 < if List.isEmpty none0 = true then 64 else List.length none0) ∧ (∀ (x : BReq), x ∈ st138.hbm.reqs → x.id ≠
      st138.net.nextId) ∧ ((mayReach st138 7 0 (if List.isEmpty none0 = true then 64 else List.length none0) !List.isEmpty none0) = true) ∧ (spanShut
      st138 7 0 (if List.isEmpty none0 = true then 64 else List.length none0) = true) ∧ (7 ≠ 2 ∨ none0 ≠ [])) ∧
    ((7 < 9) ∧ (running st137 = true) ∧ (0 < if List.isEmpty [1, 2, 3] = true then 64 else List.length [1, 2, 3]) ∧ (∀ (x : BReq), x ∈ st137.hbm.reqs
      → x.id ≠ st137.net.nextId) ∧ ((mayReach st137 7 0 (if List.isEmpty [1, 2, 3] = true then 64 else List.length [1, 2, 3]) !List.isEmpty [1, 2, 3])
      = true) ∧ (spanShut st137 7 0 (if List.isEmpty [1, 2, 3] = true then 64 else List.length [1, 2, 3]) = false)) ∧
    ((running st139 = true) ∧ (0 < 192) ∧ (0 < 2) ∧ (chanThere st139 0 = true) ∧ (chanTakes st139 (req0 7 true false).who 0 = true) ∧ (waiting st139 0
      0 = [req0 7 true false])) ∧
    ((running st140 = true) ∧ (0 < 192) ∧ (0 < 2) ∧ (chanThere st140 0 = true) ∧ (chanTakes st140 (req0 7 false false).who 0 = true) ∧ (waiting st140
      0 0 = [req0 7 false false]) ∧ ((req0 7 false false).write = false)) ∧
    ((running st141 = true) ∧ (List.find? (fun x ↦ x.id == (req0 7 true true).id && !inner x) st141.hbm.reqs = some (req0 7 true true)) ∧ ((req0 7
      true true).late = false) ∧ ((req0 7 true true).held = false) ∧ ((req0 7 true true).issued = true) ∧ ((req0 7 true true).write = true)) ∧
    ((running st142 = true) ∧ (List.find? (fun x ↦ x.id == (req0 7 false true).id && !inner x) st142.hbm.reqs = some (req0 7 false true)) ∧ ((req0 7
      false true).late = false) ∧ ((req0 7 false true).held = false) ∧ ((req0 7 false true).issued = true) ∧ ((req0 7 false true).write = false) ∧
      ((req0 7 false true).code < 4)) ∧
    ((running st142 = true) ∧ (List.find? (fun x ↦ x.id == (req0 7 false true).id && !inner x) st142.hbm.reqs = some (req0 7 false true)) ∧ ((req0 7
      false true).late = false) ∧ ((req0 7 false true).held = false) ∧ ((req0 7 false true).issued = true) ∧ ((req0 7 false true).code < 4)) ∧
    ((running st143 = true) ∧ (List.find? (fun x ↦ x.id == lateReq.id && x.late) st143.hbm.reqs = some lateReq) ∧ (passedNs st143 lateReq.since (fget
      st143 brlRetryRetryNs 0 0) = true)) := by
  refine ⟨?_, ?_, ?_, ?_, ?_, ?_, ?_, ?_, ?_⟩ <;> decide +kernel

/-- Hypotheses of `Obligations.BurlapUpkeep` that hold together, clause by clause. -/
theorem witness_burlapUpkeep :
    ((0 < 192) ∧ (0 < 2) ∧ (5 < 48) ∧ (chanThere st144 0 = true) ∧ (running st144 = true) ∧ (false = false ∨ passedNs st144 (storeGet 0
      st144.hbm.refAt (0 * 2 + 0)) (Config.refInterval (fget st144 hchChStatTemp 0 0) + 1) = true) ∧ (false = false)) ∧
    ((191 < 192) ∧ (1 < 2) ∧ (47 < 48) ∧ (chanThere refLate 191 = true) ∧ (running refLate = true) ∧ (true = false ∨ passedNs refLate (storeGet 0
      refLate.hbm.refAt (191 * 2 + 1)) (Config.refInterval (fget refLate hchChStatTemp 191 0) + 1) = true) ∧ (true = true)) ∧
    ((0 < 192) ∧ (0 < 2) ∧ (5 < 48) ∧ (chanThere refNow 0 = true) ∧ (running refNow = true) ∧ (true = true) ∧ (passedNs refNow (storeGet 0
      refNow.hbm.refAt (0 * 2 + 0)) (Config.refInterval (fget refNow hchChStatTemp 0 0) + 1) = false)) ∧
    ((0 < 192) ∧ (0 < 12582912) ∧ (1 < 8) ∧ (running st145 = true) ∧ (chanThere st145 0 = true) ∧ (chanState st145 0 ≠ 5) ∧ (chanState st145 0 ≠ 6) ∧
      (okraFetch st145 (4 + 0 / 32) = (true, st145)) ∧ (List.find? (fun e ↦ e.fst == 0 * 2 ^ 24 + 0) st145.hbm.scrub = some (0 * 2 ^ 24 + 0, false)) ∧
      (decodeWord (storeGet 0 st145.hbm.mem (wordKey (chanIdx st145 0) (64 * 0 + 8 * 1))) = Decoded.fixed 5)) ∧
    ((5 < 6) ∧ (255 < 256) ∧ (stackOff st137 5 = false)) ∧
    ((10 + 10 + 10 + 2 * List.foldl (fun x1 x2 ↦ x1 + x2) 0 [5, 6, 7, 8] ≤ 100)) :=
  ⟨⟨by decide +kernel, by decide +kernel, by decide +kernel, by decide +kernel, by decide +kernel, Or.inl rfl, by decide +kernel⟩,
    ⟨by decide +kernel, by decide +kernel, by decide +kernel, by decide +kernel, by decide +kernel, Or.inr (late_is), by decide +kernel⟩,
    ⟨by decide +kernel, by decide +kernel, by decide +kernel, by decide +kernel, by decide +kernel, by decide +kernel, now_is⟩,
    by decide +kernel,
    by decide +kernel,
    by decide +kernel⟩

/-- Hypotheses of `Obligations.SchedulerChooses` that hold together, clause by clause. -/
theorem witness_schedulerChooses :
    ((dueQueue st147 0 = none)) ∧
    ((0 < 384) ∧ (running st146 = true) ∧ (decisions st146 (sliceOf 0) < 8) ∧ (decisions st146 (8 + 0) < 2) ∧ (portFree (List.foldl (fun a c ↦
      dropLate (List.length (queue a 0 c).fifo) a 0 c) (decides (decides (arrivals st146) (sliceOf 0)) (8 + 0)) (List.range 8)) 0 = true) ∧ (dueQueue
      (countWaits (List.foldl (fun a c ↦ dropLate (List.length (queue a 0 c).fifo) a 0 c) (decides (decides (arrivals st146) (sliceOf 0)) (8 + 0))
      (List.range 8)) 0) 0 = some 0) ∧ (headOf (countWaits (List.foldl (fun a c ↦ dropLate (List.length (queue a 0 c).fifo) a 0 c) (decides (decides
      (arrivals st146) (sliceOf 0)) (8 + 0)) (List.range 8)) 0) 0 0 = some item0)) ∧
    ((0 < 384) ∧ (running st148 = true) ∧ (8 ≤ decisions st148 (sliceOf 0) ∨ 2 ≤ decisions st148 (8 + 0))) ∧
    ((0 < 384) ∧ (running st149 = true) ∧ (decisions st149 (sliceOf 0) < 8) ∧ (decisions st149 (8 + 0) < 2) ∧ (portFree (List.foldl (fun a c ↦
      dropLate (List.length (queue a 0 c).fifo) a 0 c) (decides (decides (arrivals st149) (sliceOf 0)) (8 + 0)) (List.range 8)) 0 = true) ∧ (dueQueue
      (countWaits (List.foldl (fun a c ↦ dropLate (List.length (queue a 0 c).fifo) a 0 c) (decides (decides (arrivals st149) (sliceOf 0)) (8 + 0))
      (List.range 8)) 0) 0 = none) ∧ ((drr 9 (countWaits (List.foldl (fun a c ↦ dropLate (List.length (queue a 0 c).fifo) a 0 c) (decides (decides
      (arrivals st149) (sliceOf 0)) (8 + 0)) (List.range 8)) 0) 0).fst = some 0) ∧ (headOf (drr 9 (countWaits (List.foldl (fun a c ↦ dropLate
      (List.length (queue a 0 c).fifo) a 0 c) (decides (decides (arrivals st149) (sliceOf 0)) (8 + 0)) (List.range 8)) 0) 0).snd 0 0 = some item0)) ∧
    (((drr 9 st149 0).fst = some 0)) := by
  refine ⟨?_, ?_, ?_, ?_, ?_⟩ <;> decide +kernel

/-- Hypotheses of `Obligations.EgressUpkeep` that hold together, clause by clause. -/
theorem witness_egressUpkeep :
    ((0 < 384) ∧ (running st150 = true) ∧ (Option.bind (List.head? (portSt st150 0).tx) (itemOf st150) = some im2) ∧ (pktOf st150 im2.pkt = some pk11)
      ∧ (im2.txEnd + lineUnits (max 64 (min (List.length (finalBytes pk11 im2) + 4) 16128) + 8) (curGbps st150 0) + txNs st150 0 * 25 ≤ nowU st150) ∧
      (pk11.tail = true) ∧ (List.length (finalBytes pk11 im2) + 4 ≤ 16128) ∧ (cellsIn st150 im2 = true)) ∧
    ((0 < 384) ∧ (running st151 = true) ∧ (Option.bind (List.head? (portSt st151 0).tx) (itemOf st151) = some im2) ∧ (pktOf st151 im2.pkt = some pk12)
      ∧ (im2.txEnd + lineUnits (max 64 (min (List.length (finalBytes pk12 im2) + 4) 16128) + 8) (curGbps st151 0) + txNs st151 0 * 25 ≤ nowU st151) ∧
      (16128 < List.length (finalBytes pk12 im2) + 4)) ∧
    ((0 < 384) ∧ (running st152 = true) ∧ (0 < 9) ∧ (st152.clk % 64 = (8 + 9 * (0 % 8) + 0) % 64) ∧ (storeFind st152.net.xferAt (4096 + 0 * 16 + 0) ≠
      some st152.clk) ∧ (BitVec.toNat (actW st152 (regKey (pageOf Blk.egs (0 / 8) 0) 32)) / 16 % 4 = 0)) ∧
    ((383 < 384) ∧ (running st153 = true) ∧ (8 < 9) ∧ (st153.clk % 64 = (8 + 9 * (383 % 8) + 8) % 64) ∧ (storeFind st153.net.xferAt (4096 + 383 * 16 +
      8) ≠ some st153.clk) ∧ (BitVec.toNat (actW st153 (regKey (pageOf Blk.egs (383 / 8) 0) 32)) / 16 % 4 = 0)) ∧
    ((7 < 384) ∧ (running st154 = true) ∧ (st154.clk % 64 = 7 % 8) ∧ (storeFind st154.net.xferAt (4096 + 7 * 16 + 9) ≠ some st154.clk) ∧ (BitVec.toNat
      (actW st154 (regKey (pageOf Blk.egs (7 / 8) 0) 32)) / 16 % 4 = 0)) ∧
    ((5 < 384) ∧ (running st155 = true) ∧ ((portSt st155 5).hier = true) ∧ (serviceMode st155 5 = 2) ∧ (holdsPast st155 5 = true)) ∧
    ((5 < 384) ∧ (running up = true)) ∧
    ((0 < 384) ∧ (running st156 = true)) ∧
    ((0 < 384) ∧ (running st157 = true) ∧ (8 < 9) ∧ (bit (qcfg st157 0 8 3) 1 = true) ∧ (storeFind st157.net.xferAt (12288 + 0 * 16 + 8) ≠ some
      st157.clk) ∧ (queueItems st157 0 8 = [])) ∧
    ((0 < 384) ∧ (running st158 = true) ∧ (0 < 9) ∧ (bit (qcfg st158 0 0 3) 1 = true) ∧ (storeFind st158.net.xferAt (12288 + 0 * 16 + 0) ≠ some
      st158.clk) ∧ (List.find? (fun it ↦ (it.brl || cellsIn (oncePerClk st158 (12288 + 0 * 16 + 0)).snd it) && Option.elim (pktOf (oncePerClk st158
      (12288 + 0 * 16 + 0)).snd it.pkt) true fun x ↦ x.tail) (List.filter (fun it ↦ it.place != Place.sending && it.place != Place.residue)
      (queueItems (oncePerClk st158 (12288 + 0 * 16 + 0)).snd 0 0)) = some item0)) := by
  refine ⟨?_, ?_, ?_, ?_, ?_, ?_, ?_, ?_, ?_, ?_⟩ <;> decide +kernel

/-- Hypotheses of `Obligations.TelemetryRecords` that hold together, clause by clause. -/
theorem witness_telemetryRecords :
    ((0 < 48) ∧ (running st159 = true) ∧ (fget st159 egsSampleCtlIntervalUs 0 0 ≠ 0) ∧ (storeFind st159.net.xferAt (40 + 0 / 6) ≠ some st159.clk) ∧
      (List.find? (fun k ↦ bit (qcfg st159 (8 * 0 + k / 9) (k % 9) 3) 2 && passedNs st159 (storeGet 0 st159.tel.sampAt (72 * 0 + k)) (fget st159
      egsSampleCtlIntervalUs 0 0 * 1000)) (List.range 72) = some 71) ∧ (List.length (List.filter (fun r ↦ r.slice == 0 / 6 && r.prio == 4)
      st159.tel.pend) < 512)) ∧
    ((47 < 48) ∧ (running st160 = true) ∧ (fget st160 egsSampleCtlIntervalUs 47 0 ≠ 0) ∧ (storeFind st160.net.xferAt (40 + 47 / 6) ≠ some st160.clk) ∧
      (List.find? (fun k ↦ bit (qcfg st160 (8 * 47 + k / 9) (k % 9) 3) 2 && passedNs st160 (storeGet 0 st160.tel.sampAt (72 * 47 + k)) (fget st160
      egsSampleCtlIntervalUs 47 0 * 1000)) (List.range 72) = some 0) ∧ (512 ≤ List.length (List.filter (fun r ↦ r.slice == 47 / 6 && r.prio == 4)
      st160.tel.pend))) ∧
    ((3 < 8) ∧ (reqHere st161 Requester.host = true) ∧ (pageReady st161 (pageOf Blk.tel 3 1) = true) ∧ (busFree st161 Requester.host (pageOf Blk.tel 3
      1) 52 = true) ∧ (storeFind st161.pg.mbx (pageOf Blk.tel 3 1) = none) ∧ (mbxNames st161 (pageOf Blk.tel 3 1) 1 (some 1) = true) ∧ (goBad st161
      (pageOf Blk.tel 3 1) (BitVec.toNat (withBits (240#32) 1 0 3)) = false) ∧ (storeFind st161.tel.half (2 * 3 + if Requester.host = Requester.host
      then 0 else 1) = some by0) ∧ (byteAt by0 0 = 4 ∨ byteAt by0 0 = 5 ∨ 128 ≤ byteAt by0 0)) ∧
    ((∀ (sl : Nat), sl < 8 → storeFind st163.net.xferAt (32 + sl) = some st163.clk)) := by
  refine ⟨?_, ?_, ?_, ?_⟩ <;> decide +kernel

/-- Hypotheses of `Obligations.TimeSignals` that hold together, clause by clause. -/
theorem witness_timeSignals :
    ((fget st164 timCtlPpsOutEn 0 0 = 1) ∧ (st164.tim.ppsOutSec < ppsNext st164) ∧ (fget st164 timCtlTodTxEn 0 0 = 1)) ∧
    ((st165.tim.todDue = some (9, 6)) ∧ (9 ≤ st165.clk) ∧ (fget st165 timCtlTodTxEn 0 0 = 1)) ∧
    ((fget st166 timCtlTodRxEn 0 0 = 1) ∧ (List.length (toBE 2 19290 ++ [1, 2, 3, 4, 5, 6, 7, 8, 9, 1, 2, 3, 4] ++ toLE 1 (crc8 [1, 2, 3, 4, 5, 6, 7,
      8, 9, 1, 2, 3, 4])) = 16) ∧ (ofBE (List.take 2 (toBE 2 19290 ++ [1, 2, 3, 4, 5, 6, 7, 8, 9, 1, 2, 3, 4] ++ toLE 1 (crc8 [1, 2, 3, 4, 5, 6, 7, 8,
      9, 1, 2, 3, 4]))) = 19290) ∧ (crc8 (slice (toBE 2 19290 ++ [1, 2, 3, 4, 5, 6, 7, 8, 9, 1, 2, 3, 4] ++ toLE 1 (crc8 [1, 2, 3, 4, 5, 6, 7, 8, 9,
      1, 2, 3, 4])) 2 13) = byteAt (toBE 2 19290 ++ [1, 2, 3, 4, 5, 6, 7, 8, 9, 1, 2, 3, 4] ++ toLE 1 (crc8 [1, 2, 3, 4, 5, 6, 7, 8, 9, 1, 2, 3, 4]))
      15)) ∧
    ((fget st166 timCtlTodRxEn 0 0 = 1) ∧ (List.length [75, 90, 1, 2, 3, 4, 5, 6, 7, 8, 9, 1, 2, 3, 4, 0] ≠ 16 ∨ ofBE (List.take 2 [75, 90, 1, 2, 3,
      4, 5, 6, 7, 8, 9, 1, 2, 3, 4, 0]) ≠ 19290 ∨ crc8 (slice [75, 90, 1, 2, 3, 4, 5, 6, 7, 8, 9, 1, 2, 3, 4, 0] 2 13) ≠ byteAt [75, 90, 1, 2, 3, 4,
      5, 6, 7, 8, 9, 1, 2, 3, 4, 0] 15)) ∧
    ((fget st167 timCtlPpsInEn 0 0 = 1) ∧ (3 < 7)) ∧
    ((fget st168 timCtlPpsInEn 0 0 = 1) ∧ (6 < 7) ∧ (fget st168 timStatLoadWait 0 0 = 1)) ∧
    ((fget st167 timCtlPpsInEn 0 0 = 1) ∧ (st167.tim.ppsLost = false) ∧ (passedNs st167 st167.tim.ppsInAt 1100000000 = true) ∧ (∀ (sub : Nat),
      ¬Instr.ppsInEdge sub ∈ st167.pending) ∧ (pageReady st167 (pageOf Blk.tim 0 0) = true)) ∧
    ((reqHere st169 Requester.host = true) ∧ (pageReady st169 (pageOf Blk.tim 0 0) = true) ∧ (busFree st169 Requester.host (pageOf Blk.tim 0 0) 52 =
      true) ∧ (storeFind st169.pg.mbx (pageOf Blk.tim 0 0) = none) ∧ (goBad st169 (pageOf Blk.tim 0 0) (BitVec.toNat (withBits (48#32) 1 0 1)) =
      false) ∧ (mbxNames st169 (pageOf Blk.tim 0 0) 3 none = true) ∧ (List.length st169.tim.fifo ≤ 1024)) ∧
    ((reqHere st170 Requester.host = true) ∧ (pageReady st170 (pageOf Blk.tim 0 0) = true) ∧ (busFree st170 Requester.host (pageOf Blk.tim 0 0) 52 =
      true) ∧ (storeFind st170.pg.mbx (pageOf Blk.tim 0 0) = none) ∧ (goBad st170 (pageOf Blk.tim 0 0) (BitVec.toNat (withBits (48#32) 1 0 1)) =
      false) ∧ (mbxNames st170 (pageOf Blk.tim 0 0) 3 none = true) ∧ (List.length st170.tim.fifo ≤ 1024) ∧ (st170.tim.fifo = [])) ∧
    ((reqHere st171 Requester.host = true) ∧ (pageReady st171 (pageOf Blk.tim 0 0) = true) ∧ (busFree st171 Requester.host (pageOf Blk.tim 0 0) 52 =
      true) ∧ (storeFind st171.pg.mbx (pageOf Blk.tim 0 0) = none) ∧ (goBad st171 (pageOf Blk.tim 0 0) (BitVec.toNat (withBits (48#32) 1 0 1)) =
      false) ∧ (mbxNames st171 (pageOf Blk.tim 0 0) 2 none = true) ∧ (st171.tim.cap = [63000000007, 1])) :=
  ⟨by decide +kernel,
    by decide +kernel,
    by decide +kernel,
    by decide +kernel,
    by decide +kernel,
    by decide +kernel,
    ⟨by decide +kernel, by decide +kernel, by decide +kernel, (fun _ h => nomatch (h : _ ∈ ([] : List Instr))), by decide +kernel⟩,
    by decide +kernel,
    by decide +kernel,
    by decide +kernel⟩

/-- Hypotheses of `Obligations.HistogramsCount` that hold together, clause by clause. -/
theorem witness_histogramsCount :
    ((List.length hist0.bins = 16) ∧ (1 ≤ histBin 600) ∧ (histBin 600 < 15) ∧ (2 ^ 48 ≤ hist0.sum + 600)) ∧
    ((List.length hist0.bins = 16) ∧ (histBin 100 < 15) ∧ (hist0.sat = false) ∧ (hist0.sum + 100 < 2 ^ 48)) ∧
    ((List.length histSat.bins = 16) ∧ (1 ≤ histBin 9000000) ∧ (2 ^ 48 ≤ histSat.sum + 9000000) ∧ (histSat.sat = true)) ∧
    ((7 < 8) ∧ (running st172 = true) ∧ (fget st172 telHistCtlWinMs 7 0 ≠ 0) ∧ (nsOf (tbNow st172) / 1000000 % fget st172 telHistCtlWinMs 7 0 = 0) ∧
      (storeFind st172.tel.winAt 7 ≠ some (nsOf (tbNow st172) / 1000000))) ∧
    ((7 < 8) ∧ (running st173 = true) ∧ (fget st173 telSnapCtlSnapMs 7 0 ≠ 0) ∧ (passedNs st173 (storeGet 0 st173.tel.snapAt 7) (fget st173
      telSnapCtlSnapMs 7 0 * 1000000) = true)) := by
  refine ⟨?_, ?_, ?_, ?_, ?_⟩ <;> decide +kernel

/-- Hypotheses of `Obligations.FaultsAct` that hold together, clause by clause. -/
theorem witness_faultsAct :
    ((3 < 16) ∧ (pageReady up 0 = true)) ∧
    ((2 < 16) ∧ (pageReady st174 1 = true)) ∧
    ((2 < 16) ∧ (5 ≠ 0) ∧ (pageReady st175 5 = false)) ∧
    ((pageReady up 0 = true) ∧ (sevOf up 0 6 < 2) ∧ (∀ (r : DirRow), pageRow 0 = some r → r.blk ≠ Blk.hch)) ∧
    ((pageReady up (pageOf Blk.bpm 0 0) = true) ∧ (sevOf up (pageOf Blk.bpm 0 0) 0 < 2) ∧ (∀ (r : DirRow), pageRow (pageOf Blk.bpm 0 0) = some r →
      r.blk ≠ Blk.hch)) ∧
    ((pageReady st137 (pageOf Blk.hch 3 0) = true)) ∧
    ((pageReady up (pageOf Blk.tim 0 0) = true) ∧ (sevOf up (pageOf Blk.tim 0 0) 0 < 2) ∧ (∀ (r : DirRow), pageRow (pageOf Blk.tim 0 0) = some r →
      r.blk ≠ Blk.hch)) ∧
    ((pageReady up 128 = true) ∧ (2 ≤ sevOf up 128 2) ∧ (3 ≤ sevOf up 128 2)) ∧
    ((pageReady st38 0 = true) ∧ (2 ≤ sevOf st38 0 0) ∧ (3 ≤ sevOf st38 0 0) ∧ (4 ≤ sevOf st38 0 0)) ∧
    ((pageReady st176 (pageOf Blk.hch 3 0) = true) ∧ (2 ≤ sevOf st176 (pageOf Blk.hch 3 0) 1)) := by
  refine ⟨?_, ?_, ?_, ?_, ?_, ?_, ?_, ?_, ?_, ?_⟩ <;> decide +kernel

/-- Hypotheses of `Obligations.ContainmentAndWarmReset` that hold together, clause by clause. -/
theorem witness_containmentAndWarmReset :
    ((0 < 4096) ∧ (st177.flt.containing[0]? = some (Cunit.slice 3, 5)) ∧ (st177.flt.stopped = false) ∧ ((Cunit.slice 3, 5).snd < st177.clk)) ∧
    ((st178.boot.por = true) ∧ (st178.flt.warmAt = none)) ∧
    ((st179.flt.sev3At = some 5) ∧ (st179.boot.por = true) ∧ (st179.flt.warmAt = none) ∧ (fget st179 glbFaultCtlAutoWarm 0 0 = 1) ∧ (passedNs st179 5
      (fget st179 glbFaultCtlAutoDelayUs 0 0 * 1000) = true)) ∧
    ((st180.flt.warmAt = some 5)) := by
  refine ⟨?_, ?_, ?_, ?_⟩ <;> decide +kernel

/-- Hypotheses of `Obligations.ClocksRailsAndHeat` that hold together, clause by clause. -/
theorem witness_clocksRailsAndHeat :
    ((up.boot.por = true) ∧ (up.boot.locked = true)) ∧
    ((st181.boot.por = true) ∧ (Option.isSome st181.net.linkStall = true)) ∧
    ((st181.boot.por = true) ∧ (st181.net.linkStall = some 5) ∧ (5 * 16 + 25000000 < nowU st181)) ∧
    ((up.boot.por = true) ∧ (armed up = true)) ∧
    ((st38.boot.por = true) ∧ (0 < 8) ∧ (armed st38 = true) ∧ (running st38 = true)) ∧
    ((st137.boot.por = true) ∧ (5 < 6) ∧ (armed st137 = true) ∧ (stackOff st137 5 = false)) ∧
    ((up.boot.por = true) ∧ (120 < 256) ∧ (armed up = true) ∧ (fget up glbThermTjC 0 0 < 120) ∧ (120 ≤ 120)) ∧
    ((up.boot.por = true) ∧ (110 < 256) ∧ (armed up = true)) := by
  refine ⟨?_, ?_, ?_, ?_, ?_, ?_, ?_, ?_⟩ <;> decide +kernel

/-- Hypotheses of `Obligations.PowerOn` that hold together, clause by clause. -/
theorem witness_powerOn :
    ((off.boot.por = false)) ∧
    ((15 < 16) ∧ (1023 < 1024) ∧ (1023 < 1024) ∧ (powered.boot.por = true) ∧ (powered.boot.fuses = 0)) ∧
    ((st183.boot.fuses ≠ 0) ∧ (st183.boot.mgmtUp = false)) ∧
    ((powered.boot.por = true) ∧ (powered.boot.mgmtUp = false) ∧ (passedNs powered powered.boot.porAt 1000000 = true) ∧ (¬Instr.rootPllLock ∈
      powered.pending)) ∧
    ((st184.boot.por = false)) := by
  refine ⟨?_, ?_, ?_, ?_, ?_⟩ <;> decide +kernel

/-- Hypotheses of `Obligations.BootProceeds` that hold together, clause by clause. -/
theorem witness_bootProceeds :
    ((fget st185 bootStatPhase 0 0 = 1) ∧ (st185.boot.dirRead = false) ∧ (st185.boot.mgmtUp = true)) ∧
    ((fget st185 bootStatPhase 0 0 = 1) ∧ (st185.boot.dirRead = false) ∧ (st185.boot.mgmtUp = true) ∧ (fget st185 bootCtlSrc 0 0 = 0) ∧ (readDir [1,
      2] = none)) ∧
    ((fget st186 bootStatPhase 0 0 = 1) ∧ (st186.boot.dirRead = false) ∧ (st186.boot.mgmtUp = true) ∧ (fget st186 bootCtlSrc 0 0 = 1)) ∧
    ((0 < 2) ∧ (fget st187 bootStatPhase 0 0 = 2) ∧ (st187.boot.hostLeft = 0) ∧ (nextEntry st187 = some (1, 0, 4096, 640)) ∧ ((1, 0, 4096,
      640).snd.fst = 0) ∧ (List.length (toLE 4 1430346315 ++ [1, 0, 0, 0, 1] ++ List.replicate 631 0) = (1, 0, 4096, 640).snd.snd.snd) ∧ (List.length
      (toLE 4 1430346315 ++ [1, 0, 0, 0, 1] ++ List.replicate 631 0) = cSize (toLE 4 1430346315 ++ [1, 0, 0, 0, 1] ++ List.replicate 631 0)) ∧ (cType
      (toLE 4 1430346315 ++ [1, 0, 0, 0, 1] ++ List.replicate 631 0) = (1, 0, 4096, 640).fst)) ∧
    ((st188.boot.mgmtUp = true) ∧ (st188.hol.restartAt = none) ∧ (st188.flt.warmAt = none) ∧ (fusesFail st188 = false) ∧ (st188.flt.grave = false) ∧
      (∀ (n : Nat), n ∈ [1, 2, 3, 4] → typeClosed st188 n = true ∨ typeDone st188 n = true) ∧ (∀ (n : Nat), n ∈ [1, 2, 3, 4] → typeFailed st188 n =
      false)) ∧
    ((st189.boot.mgmtUp = true) ∧ (st189.hol.restartAt = none) ∧ (st189.flt.warmAt = none) ∧ (fget st189 bootStatPhase 0 0 ≠ 0) ∧ (fget st189
      bootStatPhase 0 0 ≠ 3) ∧ (fget st189 bootStatPhase 0 0 < 6) ∧ (fusesFail st189 = false) ∧ (List.find? (typeFailed st189) [1, 2, 3, 4] = some 1))
      ∧
    ((reqHere st190 Requester.host = true) ∧ (pageReady st190 (pageOf Blk.boot 0 0) = true) ∧ (busFree st190 Requester.host (pageOf Blk.boot 0 0) 316
      = true) ∧ (fget st190 bootStatPhase 0 0 = 3 ∨ fget st190 bootStatPhase 0 0 = 7) ∧ (hostThere st190 = true)) ∧
    ((reqHere st191 Requester.host = true) ∧ (pageReady st191 (pageOf Blk.boot 0 0) = true) ∧ (busFree st191 Requester.host (pageOf Blk.boot 0 0) 316
      = true) ∧ (fget st191 bootStatPhase 0 0 = 3 ∨ fget st191 bootStatPhase 0 0 = 7) ∧ (hostThere st191 = true)) ∧
    ((reqHere st192 Requester.host = true) ∧ (pageReady st192 (pageOf Blk.boot 0 0) = true) ∧ (busFree st192 Requester.host (pageOf Blk.boot 0 0) 316
      = true) ∧ (fget st192 bootStatPhase 0 0 ≠ 3) ∧ (fget st192 bootStatPhase 0 0 ≠ 7)) := by
  refine ⟨?_, ?_, ?_, ?_, ?_, ?_, ?_, ?_, ?_⟩ <;> decide +kernel

/-- Hypotheses of `Obligations.OutsideWorld` that hold together, clause by clause. -/
theorem witness_outsideWorld :
    ((up.boot.link = true)) ∧
    ((3 ≤ 6) ∧ (6 < 7) ∧ (8 < 9) ∧ (5000 < 4294967296)) ∧
    ((2 < 256)) := by
  refine ⟨?_, ?_, ?_⟩ <;> decide +kernel

/-- Hypotheses of `Obligations.ClusterEngines` that hold together, clause by clause. -/
theorem witness_clusterEngines :
    ((reqHere st194 Requester.host = true) ∧ (pageReady st194 (pageOf Blk.holx 16 0) = true) ∧ (busFree st194 Requester.host (pageOf Blk.holx 16 0)
      256 = true) ∧ (isUnlocked st194 Requester.host (pageOf Blk.holx 16 0) = true) ∧ (st194.hol.restartAt = none)) ∧
    ((reqHere st195 Requester.host = true) ∧ (pageReady st195 (pageOf Blk.holx 16 0) = true) ∧ (busFree st195 Requester.host (pageOf Blk.holx 16 0)
      256 = true) ∧ (isUnlocked st195 Requester.host (pageOf Blk.holx 16 0) = true) ∧ (st195.hol.restartAt = none) ∧ (∀ (l : Line), l ∈
      st195.hol.cache → l.dirty = false)) ∧
    ((reqHere up Requester.host = true) ∧ (pageReady up (pageOf Blk.holx 16 0) = true) ∧ (busFree up Requester.host (pageOf Blk.holx 16 0) 256 = true)
      ∧ (isUnlocked up Requester.host (pageOf Blk.holx 16 0) = false ∨ up.hol.restartAt ≠ none)) ∧
    ((reqHere st196 Requester.host = true) ∧ (pageReady st196 (pageOf Blk.holx 16 0) = true) ∧ (busFree st196 Requester.host (pageOf Blk.holx 16 0)
      256 = true) ∧ (isUnlocked st196 Requester.host (pageOf Blk.holx 16 0) = false ∨ st196.hol.restartAt ≠ none)) ∧
    ((15 < 16) ∧ (st197.boot.mgmtUp = true) ∧ (fget st197 holxTmrEn 16 15 = 1) ∧ (storeGet 0 st197.hol.tmrAt 15 + fget st197 holxTmrPeriodUs 16 15 *
      25000 ≤ nowU st197) ∧ (fget st197 holxTmrOneshot 16 15 = 1)) ∧
    ((0 < 16) ∧ (st198.boot.mgmtUp = true) ∧ (fget st198 holxTmrEn 16 0 = 1) ∧ (storeGet 0 st198.hol.tmrAt 0 + fget st198 holxTmrPeriodUs 16 0 * 25000
      ≤ nowU st198) ∧ (fget st198 holxTmrOneshot 16 0 = 0)) ∧
    ((63 < 64) ∧ (puntNext st199 63 = some punt0) ∧ (puntRoom st199 63 = true) ∧ (feReady st199 = true)) ∧
    ((5 < 64) ∧ (feReady st200 = true) ∧ (puntWaits st200 = false) ∧ (iqPick st200 = some 5) ∧ (prnQueue st200 5 = true) ∧ (prnFirst st200 = some
      helloFrame) ∧ (iqRoom st200 5 (List.length helloFrame.bytes) = true)) ∧
    ((5 < 64) ∧ (feReady st201 = true) ∧ (puntWaits st201 = false) ∧ (iqPick st201 = some 5) ∧ (prnQueue st201 5 = false) ∧ (engineRead st201 (fget
      st201 holxIqBaseAddr 16 5 * 256 + 32 * fget st201 holxIqPtrHead 16 5) 32 = (none, st202))) ∧
    ((5 < 64) ∧ (feReady st203 = true) ∧ (puntWaits st203 = false) ∧ (iqPick st203 = some 5) ∧ (prnQueue st203 5 = false) ∧ (engineRead st203 (fget
      st203 holxIqBaseAddr 16 5 * 256 + 32 * fget st203 holxIqPtrHead 16 5) 32 = (some (List.replicate 32 0), st203)) ∧ (ofLE (slice (List.replicate
      32 0) 8 2) < 60 ∨ 16124 < ofLE (slice (List.replicate 32 0) 8 2))) ∧
    ((5 < 64) ∧ (feReady st204 = true) ∧ (puntWaits st204 = false) ∧ (iqPick st204 = some 5) ∧ (prnQueue st204 5 = false) ∧ (engineRead st204 (fget
      st204 holxIqBaseAddr 16 5 * 256 + 32 * fget st204 holxIqPtrHead 16 5) 32 = (some (toLE 8 33554688 ++ toLE 2 60 ++ toLE 2 2 ++ toLE 2 44 ++ toLE
      2 9 ++ List.replicate 16 0), st204)) ∧ (60 ≤ ofLE (slice (toLE 8 33554688 ++ toLE 2 60 ++ toLE 2 2 ++ toLE 2 44 ++ toLE 2 9 ++ List.replicate 16
      0) 8 2)) ∧ (ofLE (slice (toLE 8 33554688 ++ toLE 2 60 ++ toLE 2 2 ++ toLE 2 44 ++ toLE 2 9 ++ List.replicate 16 0) 8 2) ≤ 16124) ∧ (engineRead
      st204 (ofLE (slice (toLE 8 33554688 ++ toLE 2 60 ++ toLE 2 2 ++ toLE 2 44 ++ toLE 2 9 ++ List.replicate 16 0) 0 8)) (ofLE (slice (toLE 8
      33554688 ++ toLE 2 60 ++ toLE 2 2 ++ toLE 2 44 ++ toLE 2 9 ++ List.replicate 16 0) 8 2)) = (some (List.replicate 60 0), st204)) ∧ (iqRoom st204
      5 (ofLE (slice (toLE 8 33554688 ++ toLE 2 60 ++ toLE 2 2 ++ toLE 2 44 ++ toLE 2 9 ++ List.replicate 16 0) 8 2)) = true)) ∧
    ((st205.hol.restartAt ≠ none)) := by
  refine ⟨?_, ?_, ?_, ?_, ?_, ?_, ?_, ?_, ?_, ?_, ?_, ?_⟩ <;> decide +kernel

/-- Hypotheses of `Obligations.DmaChains` that hold together, clause by clause. -/
theorem witness_dmaChains :
    ((2 < 32) ∧ (st206.boot.mgmtUp = true) ∧ (isContained st206 (Cunit.dma 2) = false) ∧ (hostThere st206 = true) ∧ ((dmaCh st206 2).phase = 1) ∧
      (fget st206 dmacChCfgDescSpace 2 0 = 0) ∧ (List.length (dsc 0 33554432 0 64 1 32 1 0) = 32) ∧ (byteAt (dsc 0 33554432 0 64 1 32 1 0) 29 = (dmaCh
      st206 2).gen) ∧ (byteAt (dsc 0 33554432 0 64 1 32 1 0) 30 ≠ (dmaCh st206 2).gen) ∧ (descBad (dsc 0 33554432 0 64 1 32 1 0) = false) ∧ ((dmaCh
      st206 2).stop = false)) ∧
    ((2 < 32) ∧ (st206.boot.mgmtUp = true) ∧ (isContained st206 (Cunit.dma 2) = false) ∧ (hostThere st206 = true) ∧ ((dmaCh st206 2).phase = 1) ∧
      (fget st206 dmacChCfgDescSpace 2 0 = 0) ∧ (List.length (dsc 0 33554432 0 64 1 32 2 0) = 32) ∧ (byteAt (dsc 0 33554432 0 64 1 32 2 0) 29 ≠ (dmaCh
      st206 2).gen)) ∧
    ((2 < 32) ∧ (st206.boot.mgmtUp = true) ∧ (isContained st206 (Cunit.dma 2) = false) ∧ (hostThere st206 = true) ∧ ((dmaCh st206 2).phase = 1) ∧
      (fget st206 dmacChCfgDescSpace 2 0 = 0) ∧ (List.length (dsc 0 33554432 0 64 1 32 1 1) = 32) ∧ (byteAt (dsc 0 33554432 0 64 1 32 1 1) 29 = (dmaCh
      st206 2).gen) ∧ (byteAt (dsc 0 33554432 0 64 1 32 1 1) 30 = (dmaCh st206 2).gen)) ∧
    ((2 < 32) ∧ (st206.boot.mgmtUp = true) ∧ (isContained st206 (Cunit.dma 2) = false) ∧ ((dmaCh st206 2).phase = 1) ∧ (fget st206 dmacChCfgDescSpace
      2 0 = 0) ∧ (List.length [1, 2] ≠ 32)) ∧
    ((2 < 32) ∧ (st207.boot.mgmtUp = true) ∧ (isContained st207 (Cunit.dma 2) = false) ∧ ((dmaCh st207 2).phase = 1) ∧ (fget st207 dmacChCfgDescSpace
      2 0 = 1) ∧ (inShm (dmaCh st207 2).loc 32 = true) ∧ (holEcc st207 (dmaCh st207 2).loc = (false, st207))) ∧
    ((2 < 32) ∧ (st208.boot.mgmtUp = true) ∧ (isContained st208 (Cunit.dma 2) = false) ∧ ((dmaCh st208 2).late ≠ 0) ∧ (Instr.descriptorFetch 2 [1]
      true ∈ [Instr.descriptorFetch 2 [1] true, Instr.dmaReadCompletion 2 [1] true])) ∧
    ((2 < 32) ∧ (st208.boot.mgmtUp = true) ∧ (isContained st208 (Cunit.dma 2) = false) ∧ ((dmaCh st208 2).late ≠ 0) ∧ (Instr.dmaReadCompletion 2 [1]
      true ∈ [Instr.descriptorFetch 2 [1] true, Instr.dmaReadCompletion 2 [1] true])) ∧
    ((2 < 32) ∧ (st209.boot.mgmtUp = true) ∧ (tablePort (dPort (dmaCh st209 2).desc) (dInst (dmaCh st209 2).desc) = some (16, List.map (fun i ↦ pageOf
      Blk.nhp i 0) (List.range 4))) ∧ ((dmaCh st209 2).phase = 4) ∧ (isContained st209 (Cunit.dma 2) = false) ∧ ((16, List.map (fun i ↦ pageOf Blk.nhp
      i 0) (List.range 4)).fst ≤ List.length (dmaCh st209 2).buf) ∧ (recordWaits st209 (dPort (dmaCh st209 2).desc) (16, List.map (fun i ↦ pageOf
      Blk.nhp i 0) (List.range 4)).snd = false)) ∧
    ((2 < 32) ∧ (st210.boot.mgmtUp = true) ∧ (tablePort (dPort (dmaCh st210 2).desc) (dInst (dmaCh st210 2).desc) = some (16, List.map (fun i ↦ pageOf
      Blk.nhp i 0) (List.range 4))) ∧ ((dmaCh st210 2).phase = 4) ∧ (isContained st210 (Cunit.dma 2) = false) ∧ ((16, List.map (fun i ↦ pageOf Blk.nhp
      i 0) (List.range 4)).fst ≤ List.length (dmaCh st210 2).buf) ∧ (recordWaits st210 (dPort (dmaCh st210 2).desc) (16, List.map (fun i ↦ pageOf
      Blk.nhp i 0) (List.range 4)).snd = true) ∧ ((dmaCh st210 2).stallAt = none)) ∧
    ((2 < 32) ∧ (st211.boot.mgmtUp = true) ∧ ((dmaCh st211 2).phase = 5) ∧ (fget st211 dmacBadCountN 2 0 = 0) ∧ (fget st211 dmacChCfgPulse 2 0 ≠ 3) ∧
      (fget st211 dmacChCfgPulse 2 0 = 0)) ∧
    ((2 < 32) ∧ (st212.boot.mgmtUp = true) ∧ ((dmaCh st212 2).phase = 5) ∧ (fget st212 dmacBadCountN 2 0 = 0) ∧ (fget st212 dmacChCfgPulse 2 0 ≠ 3) ∧
      (fget st212 dmacChCfgPulse 2 0 = 1) ∧ (∀ (f : FlipReq), f ∈ st212.pg.flips → ∀ (r : Nat × Nat), r ∈ f.reqs → Nat.land f.groups r.fst = r.fst)) ∧
    ((2 < 32) ∧ (st213.boot.mgmtUp = true) ∧ ((dmaCh st213 2).phase = 5) ∧ (fget st213 dmacBadCountN 2 0 = 0) ∧ (fget st213 dmacChCfgPulse 2 0 ≠ 3) ∧
      (fget st213 dmacChCfgPulse 2 0 = 2)) ∧
    ((2 < 32) ∧ (st214.boot.mgmtUp = true) ∧ ((dmaCh st214 2).phase = 5) ∧ (fget st214 dmacBadCountN 2 0 = 0) ∧ (fget st214 dmacChCfgPulse 2 0 = 3) ∧
      (fget st214 dmacChCfgChainCh 2 0 = 31) ∧ (31 ≠ 2) ∧ (dmaFree st214 31 = true) ∧ (isContained st214 (Cunit.dma 31) = false)) ∧
    ((2 < 32) ∧ (st215.boot.mgmtUp = true) ∧ ((dmaCh st215 2).phase = 5) ∧ (fget st215 dmacBadCountN 2 0 ≠ 0) ∧ (fget st215 dmacChCfgSuppressBad 2 0 =
      1)) := by
  refine ⟨?_, ?_, ?_, ?_, ?_, ?_, ?_, ?_, ?_, ?_, ?_, ?_, ?_, ?_⟩ <;> decide +kernel

/-- Hypotheses of `Obligations.DmaBursts` that hold together, clause by clause. -/
theorem witness_dmaBursts :
    ((2 < 32) ∧ (st216.boot.mgmtUp = true) ∧ (burstPick st216 = some 2) ∧ ((Option.elim st216.dma.lastBurst true fun t ↦ decide (t + 8 ≤ st216.clk)) =
      true) ∧ (dSrcSpace (dmaCh st216 2).desc = 0) ∧ (hostThere st216 = true)) ∧
    ((3 < 32) ∧ (st216.boot.mgmtUp = true) ∧ (burstPick st216 ≠ some 3)) ∧
    ((2 < 32) ∧ (st217.boot.mgmtUp = true) ∧ ((dmaCh st217 2).phase = 3) ∧ (hostThere st217 = true) ∧ (List.length (List.replicate 64 3) = (dmaCh
      st217 2).len) ∧ (dDstSpace (dmaCh st217 2).desc = 2)) ∧
    ((2 < 32) ∧ (st218.boot.mgmtUp = true) ∧ ((dmaCh st218 2).phase = 3) ∧ (hostThere st218 = true) ∧ (List.length (List.replicate 64 3) = (dmaCh
      st218 2).len) ∧ (dDstSpace (dmaCh st218 2).desc = 2)) ∧
    ((2 < 32) ∧ (st217.boot.mgmtUp = true) ∧ ((dmaCh st217 2).phase = 3) ∧ (List.length [3] ≠ (dmaCh st217 2).len)) ∧
    ((2 < 32) ∧ (st217.boot.mgmtUp = true) ∧ (passedNs st217 (dmaCh st217 2).reqAt (fget st217 dmacChTmoTmoUs 2 0 * 1000) = true) ∧ (List.any
      st217.pending (dmaComes 2) = false) ∧ ((dmaCh st217 2).phase = 3)) ∧
    ((2 < 32) ∧ (st206.boot.mgmtUp = true) ∧ (passedNs st206 (dmaCh st206 2).reqAt (fget st206 dmacChTmoTmoUs 2 0 * 1000) = true) ∧ (List.any
      st206.pending (dmaComes 2) = false) ∧ ((dmaCh st206 2).phase = 1) ∧ (fget st206 dmacChCfgDescSpace 2 0 = 0)) ∧
    ((burstPick st219 = some 2) ∧ (∀ (d : Nat), d < 32 → burstReady st219 d = true → (dmaCh st219 d).waited < 15)) ∧
    ((burstPick st220 = some 5) ∧ (∃ d, d < 32 ∧ burstReady st220 d = true ∧ 15 ≤ (dmaCh st220 d).waited)) ∧
    ((2 < 32) ∧ (fget st221 dmacChCfgMode 2 0 = 0) ∧ (dEnd (dmaCh st221 2).desc = true)) ∧
    ((2 < 32) ∧ (fget st222 dmacChCfgMode 2 0 = 0) ∧ (dEnd (dmaCh st222 2).desc = false) ∧ (fget st222 dmacCurIndexN 2 0 + 1 < 65536)) ∧
    ((2 < 32) ∧ (fget st223 dmacChCfgMode 2 0 = 1)) := by
  refine ⟨?_, ?_, ?_, ?_, ?_, ?_, ?_, ?_, ?_, ?_, ?_, ?_⟩ <;> decide +kernel

/-- Hypotheses of `Obligations.PerrunMessages` that hold together, clause by clause. -/
theorem witness_perrunMessages :
    ((1 < 4) ∧ (st224.boot.mgmtUp = true) ∧ (prnOn st224 = true) ∧ (txqReady st224 1 = true) ∧ (txqBad st224 (memBytes st224 (txqAt st224 1) 32) =
      false) ∧ (inWindow st224 (txqMsg st224 1 (txqAt st224 1)).peer 1 < 64)) ∧
    ((1 < 4) ∧ (st225.boot.mgmtUp = true) ∧ (prnOn st225 = true) ∧ (txqReady st225 1 = true) ∧ (txqBad st225 (memBytes st225 (txqAt st225 1) 32) =
      false) ∧ (64 ≤ inWindow st225 (txqMsg st225 1 (txqAt st225 1)).peer 1)) ∧
    ((1 < 4) ∧ (st226.boot.mgmtUp = true) ∧ (prnOn st226 = true) ∧ (txqReady st226 1 = true) ∧ (txqBad st226 (memBytes st226 (txqAt st226 1) 32) =
      true)) ∧
    ((msgOf st227 4 = some (msg0 0 0)) ∧ (acked st227 4 = false) ∧ ((msg0 0 0).sentAt = some 5) ∧ (passedNs st227 5 (peerRto st227 (msg0 0 0).peer *
      1000) = true) ∧ (later (msg0 0 0).dl (admNow st227) = false)) ∧
    ((msgOf st228 4 = some (msg0 (soon 5000) 3)) ∧ (acked st228 4 = false) ∧ ((msg0 (soon 5000) 3).sentAt = some 5) ∧ (passedNs st228 5 (peerRto st228
      (msg0 (soon 5000) 3).peer * 1000) = true) ∧ (later (msg0 (soon 5000) 3).dl (admNow st228) = true) ∧ (peerRetx st228 (msg0 (soon 5000) 3).peer ≤
      (msg0 (soon 5000) 3).retx)) ∧
    ((msgOf st229 4 = some (msg0 (soon 5000) 2)) ∧ (acked st229 4 = false) ∧ ((msg0 (soon 5000) 2).sentAt = some 5) ∧ (passedNs st229 5 (peerRto st229
      (msg0 (soon 5000) 2).peer * 1000) = true) ∧ (later (msg0 (soon 5000) 2).dl (admNow st229) = true) ∧ ((msg0 (soon 5000) 2).retx < peerRetx st229
      (msg0 (soon 5000) 2).peer)) ∧
    ((msgOf st227 4 = some (msg0 0 0)) ∧ (acked st227 4 = false) ∧ (later (msg0 0 0).dl (admNow st227) = false)) ∧
    ((msgOf st230 4 = some (msg0 (soon 5000) 0)) ∧ (acked st230 4 = false) ∧ (later (msg0 (soon 5000) 0).dl (admNow st230) = true)) := by
  refine ⟨?_, ?_, ?_, ?_, ?_, ?_, ?_, ?_⟩ <;> decide +kernel

/-- Hypotheses of `Obligations.PerrunFrames` that hold together, clause by clause. -/
theorem witness_perrunFrames :
    ((0 < 384) ∧ ((7, Instr.perrunHello 0 (prnBytes 7)) ∈ [(0, Instr.perrunAck 0 (prnBytes 7)), (1, Instr.perrunLearn 0 (prnBytes 7)), (2,
      Instr.perrunAge 0 (prnBytes 7)), (3, Instr.perrunWithdraw 0 (prnBytes 7)), (4, Instr.perrunProt 0 (prnBytes 7)), (5, Instr.perrunEpoch 0
      (prnBytes 7)), (6, Instr.perrunTelem 0 (prnBytes 7)), (7, Instr.perrunHello 0 (prnBytes 7))]) ∧ (macRuns st231 0 = true) ∧ (64 ≤ List.length
      (prnBytes 7)) ∧ (prnMine st231 0 (prnBytes 7) = true) ∧ (byteAt (prnBytes 7) 16 % 16 = 7)) ∧
    ((0 < 384) ∧ ((0, Instr.perrunAck 0 (prnBytes 7)) ∈ [(0, Instr.perrunAck 0 (prnBytes 7)), (1, Instr.perrunLearn 0 (prnBytes 7)), (2,
      Instr.perrunAge 0 (prnBytes 7)), (3, Instr.perrunWithdraw 0 (prnBytes 7)), (4, Instr.perrunProt 0 (prnBytes 7)), (5, Instr.perrunEpoch 0
      (prnBytes 7)), (6, Instr.perrunTelem 0 (prnBytes 7)), (7, Instr.perrunHello 0 (prnBytes 7))]) ∧ (macRuns st231 0 = false ∨ prnMine st231 0
      (prnBytes 7) = false ∨ byteAt (prnBytes 7) 16 % 16 ≠ 0)) ∧
    ((0 < 384) ∧ ((7, Instr.perrunHello 0 (prnBytes 7)) ∈ [(0, Instr.perrunAck 0 (prnBytes 7)), (1, Instr.perrunLearn 0 (prnBytes 7)), (2,
      Instr.perrunAge 0 (prnBytes 7)), (3, Instr.perrunWithdraw 0 (prnBytes 7)), (4, Instr.perrunProt 0 (prnBytes 7)), (5, Instr.perrunEpoch 0
      (prnBytes 7)), (6, Instr.perrunTelem 0 (prnBytes 7)), (7, Instr.perrunHello 0 (prnBytes 7))]) ∧ (macRuns up 0 = false ∨ prnMine up 0 (prnBytes
      7) = false ∨ byteAt (prnBytes 7) 16 % 16 ≠ 7)) ∧
    ((msg12 ∈ (ackIn st232 3 1 10 0).prn.msgs) ∧ (msg12.peer = 3) ∧ (msg12.prio = 1)) ∧
    (((takeTurn st233 { peer := 3, prio := 1, seq := 8, typ := 1, route := 0, dl := 0, arr := 5, body := [1, 2] }).snd = true)) ∧
    (((takeInj (prnCount st233 0) 9 0).fst = false) ∧ (ofBE (slice (List.replicate 60 1) (48 + ofBE (slice (List.replicate 60 1) 22 2)) 4) ≠ crc32c
      (slice (List.replicate 60 1) 14 (34 + ofBE (slice (List.replicate 60 1) 22 2))))) ∧
    ((st233.boot.mgmtUp = true) ∧ (prnOn st233 = true)) ∧
    ((st234.boot.mgmtUp = true) ∧ (3 < 64) ∧ (0 < 2)) ∧
    ((st235.boot.mgmtUp = true) ∧ (3 < 64) ∧ (1 < 4) ∧ (storeFind st235.prn.ackDue (4 * 3 + 1) = some (5, 0)) ∧ (prnOn st235 = true) ∧ (peerOn st235 3
      = true) ∧ (routeUp st235 3 (ackRoute st235 3 0) = true) ∧ (passedNs st235 5 (fget st235 prnAckDelayNsNs 0 0) = true)) := by
  refine ⟨?_, ?_, ?_, ?_, ?_, ?_, ?_, ?_, ?_⟩ <;> decide +kernel

/-- Hypotheses of `Obligations.ThreadsExecute` that hold together, clause by clause. -/
theorem witness_threadsExecute :
    ((9 < 128) ∧ ((hartOf st236 9).st = HState.ready) ∧ (coreRuns st236 9 = true) ∧ ((Instr.instructionRetire 9, HolOp.std) ∈
      [(Instr.instructionRetire 9, HolOp.std), (Instr.clean 9, HolOp.clean), (Instr.invalidate 9, HolOp.inval), (Instr.cleanAndInvalidate 9,
      HolOp.flush), (Instr.wfe 9, HolOp.wfe), (Instr.evsig 9, HolOp.evsig), (Instr.fork 9, HolOp.fork), (Instr.joinW 9, HolOp.joinW), (Instr.joinX 9,
      HolOp.joinX), (Instr.tsreadNs 9, HolOp.tsNs), (Instr.tsreadHi 9, HolOp.tsHi), (Instr.bcopy 9, HolOp.bcopy), (Instr.bfill 9, HolOp.bfill),
      (Instr.bcrc 9, HolOp.bcrc)]) ∧ (fetchAt st236 9 (hartOf st236 9) = (Sum.inl ft0, st237)) ∧ (holOp (hartOf st236 9) ft0.w = HolOp.std) ∧
      (mayIssue st236 9 ft0.w = true) ∧ (HolOp.std ∈ [HolOp.std, HolOp.clean, HolOp.inval, HolOp.flush])) ∧
    ((9 < 128) ∧ ((hartOf st238 9).st = HState.ready) ∧ (coreRuns st238 9 = true) ∧ ((Instr.clean 9, HolOp.clean) ∈ [(Instr.instructionRetire 9,
      HolOp.std), (Instr.clean 9, HolOp.clean), (Instr.invalidate 9, HolOp.inval), (Instr.cleanAndInvalidate 9, HolOp.flush), (Instr.wfe 9,
      HolOp.wfe), (Instr.evsig 9, HolOp.evsig), (Instr.fork 9, HolOp.fork), (Instr.joinW 9, HolOp.joinW), (Instr.joinX 9, HolOp.joinX),
      (Instr.tsreadNs 9, HolOp.tsNs), (Instr.tsreadHi 9, HolOp.tsHi), (Instr.bcopy 9, HolOp.bcopy), (Instr.bfill 9, HolOp.bfill), (Instr.bcrc 9,
      HolOp.bcrc)]) ∧ (fetchAt st238 9 (hartOf st238 9) = (Sum.inl ft1, st239)) ∧ (holOp (hartOf st238 9) ft1.w = HolOp.clean) ∧ (mayIssue st238 9
      ft1.w = true) ∧ (HolOp.clean ∈ [HolOp.std, HolOp.clean, HolOp.inval, HolOp.flush])) ∧
    ((9 < 128) ∧ ((hartOf st240 9).st = HState.ready) ∧ (coreRuns st240 9 = true) ∧ ((Instr.invalidate 9, HolOp.inval) ∈ [(Instr.instructionRetire 9,
      HolOp.std), (Instr.clean 9, HolOp.clean), (Instr.invalidate 9, HolOp.inval), (Instr.cleanAndInvalidate 9, HolOp.flush), (Instr.wfe 9,
      HolOp.wfe), (Instr.evsig 9, HolOp.evsig), (Instr.fork 9, HolOp.fork), (Instr.joinW 9, HolOp.joinW), (Instr.joinX 9, HolOp.joinX),
      (Instr.tsreadNs 9, HolOp.tsNs), (Instr.tsreadHi 9, HolOp.tsHi), (Instr.bcopy 9, HolOp.bcopy), (Instr.bfill 9, HolOp.bfill), (Instr.bcrc 9,
      HolOp.bcrc)]) ∧ (fetchAt st240 9 (hartOf st240 9) = (Sum.inl ft2, st241)) ∧ (holOp (hartOf st240 9) ft2.w = HolOp.inval) ∧ (mayIssue st240 9
      ft2.w = true) ∧ (HolOp.inval ∈ [HolOp.std, HolOp.clean, HolOp.inval, HolOp.flush])) ∧
    ((9 < 128) ∧ ((hartOf st242 9).st = HState.ready) ∧ (coreRuns st242 9 = true) ∧ ((Instr.cleanAndInvalidate 9, HolOp.flush) ∈
      [(Instr.instructionRetire 9, HolOp.std), (Instr.clean 9, HolOp.clean), (Instr.invalidate 9, HolOp.inval), (Instr.cleanAndInvalidate 9,
      HolOp.flush), (Instr.wfe 9, HolOp.wfe), (Instr.evsig 9, HolOp.evsig), (Instr.fork 9, HolOp.fork), (Instr.joinW 9, HolOp.joinW), (Instr.joinX 9,
      HolOp.joinX), (Instr.tsreadNs 9, HolOp.tsNs), (Instr.tsreadHi 9, HolOp.tsHi), (Instr.bcopy 9, HolOp.bcopy), (Instr.bfill 9, HolOp.bfill),
      (Instr.bcrc 9, HolOp.bcrc)]) ∧ (fetchAt st242 9 (hartOf st242 9) = (Sum.inl ft3, st243)) ∧ (holOp (hartOf st242 9) ft3.w = HolOp.flush) ∧
      (mayIssue st242 9 ft3.w = true) ∧ (HolOp.flush ∈ [HolOp.std, HolOp.clean, HolOp.inval, HolOp.flush])) ∧
    ((9 < 128) ∧ ((hartOf st236 9).st = HState.ready) ∧ (coreRuns st236 9 = true) ∧ ((Instr.wfe 9, HolOp.wfe) ∈ [(Instr.instructionRetire 9,
      HolOp.std), (Instr.clean 9, HolOp.clean), (Instr.invalidate 9, HolOp.inval), (Instr.cleanAndInvalidate 9, HolOp.flush), (Instr.wfe 9,
      HolOp.wfe), (Instr.evsig 9, HolOp.evsig), (Instr.fork 9, HolOp.fork), (Instr.joinW 9, HolOp.joinW), (Instr.joinX 9, HolOp.joinX),
      (Instr.tsreadNs 9, HolOp.tsNs), (Instr.tsreadHi 9, HolOp.tsHi), (Instr.bcopy 9, HolOp.bcopy), (Instr.bfill 9, HolOp.bfill), (Instr.bcrc 9,
      HolOp.bcrc)]) ∧ (fetchAt st236 9 (hartOf st236 9) = (Sum.inl ft0, st237)) ∧ (holOp (hartOf st236 9) ft0.w ≠ HolOp.wfe ∨ mayIssue st236 9 ft0.w =
      false)) ∧
    ((9 < 128) ∧ ((hartOf st244 9).st = HState.ready) ∧ (coreRuns st244 9 = true) ∧ ((Instr.instructionRetire 9, HolOp.std) ∈
      [(Instr.instructionRetire 9, HolOp.std), (Instr.clean 9, HolOp.clean), (Instr.invalidate 9, HolOp.inval), (Instr.cleanAndInvalidate 9,
      HolOp.flush), (Instr.wfe 9, HolOp.wfe), (Instr.evsig 9, HolOp.evsig), (Instr.fork 9, HolOp.fork), (Instr.joinW 9, HolOp.joinW), (Instr.joinX 9,
      HolOp.joinX), (Instr.tsreadNs 9, HolOp.tsNs), (Instr.tsreadHi 9, HolOp.tsHi), (Instr.bcopy 9, HolOp.bcopy), (Instr.bfill 9, HolOp.bfill),
      (Instr.bcrc 9, HolOp.bcrc)]) ∧ (fetchAt st244 9 (hartOf st244 9) = (Sum.inr 1342177280, st244)) ∧ (HolOp.std = HolOp.std) ∧ (mayIssue st244 9 0
      = true)) ∧
    ((9 < 128) ∧ ((hartOf st244 9).st = HState.ready) ∧ (coreRuns st244 9 = true) ∧ ((Instr.wfe 9, HolOp.wfe) ∈ [(Instr.instructionRetire 9,
      HolOp.std), (Instr.clean 9, HolOp.clean), (Instr.invalidate 9, HolOp.inval), (Instr.cleanAndInvalidate 9, HolOp.flush), (Instr.wfe 9,
      HolOp.wfe), (Instr.evsig 9, HolOp.evsig), (Instr.fork 9, HolOp.fork), (Instr.joinW 9, HolOp.joinW), (Instr.joinX 9, HolOp.joinX),
      (Instr.tsreadNs 9, HolOp.tsNs), (Instr.tsreadHi 9, HolOp.tsHi), (Instr.bcopy 9, HolOp.bcopy), (Instr.bfill 9, HolOp.bfill), (Instr.bcrc 9,
      HolOp.bcrc)]) ∧ (fetchAt st244 9 (hartOf st244 9) = (Sum.inr 1342177280, st244)) ∧ (HolOp.wfe ≠ HolOp.std)) ∧
    ((exeOk.trap = none)) ∧
    ((exeIll.trap = some (2, 5)) ∧ (2 < 2 ^ 63)) ∧
    ((9 / 8 = 9 / 8) ∧ (mayIssue (issue up 9 5243027 0 8 exeOk) 9 6291731 = true)) ∧
    ((31 ≠ iRd 5243027)) ∧
    ((11 ≠ iRd 44401971)) := by
  refine ⟨?_, ?_, ?_, ?_, ?_, ?_, ?_, ?_, ?_, ?_, ?_, ?_⟩ <;> decide +kernel

/-- Hypotheses of `Obligations.WaitsAndInterrupts` that hold together, clause by clause. -/
theorem witness_waitsAndInterrupts :
    ((9 < 128) ∧ (coreRuns st245 9 = true) ∧ ((hartOf st245 9).st = HState.ready) ∧ (fetchAt st245 9 (hartOf st245 9) = (Sum.inl ft4, st246)) ∧ (holOp
      (hartOf st245 9) ft4.w = HolOp.wfe) ∧ (mayIssue st245 9 ft4.w = true) ∧ (wfeTake (List.foldl wakeOne st246 (waiters st246)) (hartOf st245 9) (if
      bit (List.getD (hartOf st245 9).x (iRs1 ft4.w) 0) 8 = true then anyLine else List.getD (hartOf st245 9).x (iRs1 ft4.w) 0 % 256) = some (200,
      5))) ∧
    ((9 < 128) ∧ (coreRuns st247 9 = true) ∧ ((hartOf st247 9).st = HState.ready) ∧ (fetchAt st247 9 (hartOf st247 9) = (Sum.inl ft5, st248)) ∧ (holOp
      (hartOf st247 9) ft5.w = HolOp.wfe) ∧ (mayIssue st247 9 ft5.w = true) ∧ (wfeTake (List.foldl wakeOne st248 (waiters st248)) (hartOf st247 9) (if
      bit (List.getD (hartOf st247 9).x (iRs1 ft5.w) 0) 8 = true then anyLine else List.getD (hartOf st247 9).x (iRs1 ft5.w) 0 % 256) = none)) ∧
    ((9 < 128) ∧ (coreRuns st249 9 = true) ∧ ((hartOf st249 9).st = HState.waitEvent) ∧ (wfeTake st249 (hartOf st249 9) (hartOf st249 9).waitArg =
      some (200, 5)) ∧ (∀ (o : Nat × Hart), o ∈ st249.hol.harts → o.snd.st = HState.waitEvent → wantsLine o.snd o.snd.waitArg (200, 5).fst = true →
      (hartOf st249 9).waitAt < o.snd.waitAt ∨ (hartOf st249 9).waitAt = o.snd.waitAt ∧ 9 ≤ o.fst)) ∧
    ((9 < 128) ∧ (coreRuns st250 9 = true) ∧ ((hartOf st250 9).st = HState.waitEvent) ∧ ((hartOf st250 9).waitEnd = some 5) ∧ (5 < cycleAt st250.clk)
      ∧ (wfeTake st250 (hartOf st250 9) (hartOf st250 9).waitArg = none)) ∧
    ((9 < 128) ∧ (coreRuns st251 9 = true) ∧ ((hartOf st251 9).st = HState.ready ∨ (hartOf st251 9).st = HState.waitEvent ∨ (hartOf st251 9).st =
      HState.waitJoin) ∧ (Nat.land (mipOf st251 9 (hartOf st251 9)) (csrOf (hartOf st251 9) 772) ≠ 0) ∧ ((hartOf st251 9).user = true ∨ bit (csrOf
      (hartOf st251 9) 768) mieBit = true)) ∧
    ((9 < 128) ∧ (coreRuns st252 9 = true) ∧ ((hartOf st252 9).st = HState.ready ∨ (hartOf st252 9).st = HState.waitEvent ∨ (hartOf st252 9).st =
      HState.waitJoin) ∧ (Nat.land (mipOf st252 9 (hartOf st252 9)) (csrOf (hartOf st252 9) 772) ≠ 0) ∧ ((hartOf st252 9).user = true ∨ bit (csrOf
      (hartOf st252 9) 768) mieBit = true)) ∧
    ((9 < 128) ∧ (st253.boot.mgmtUp = true) ∧ ((hartOf st253 9).st ≠ HState.idle) ∧ ((hartOf st253 9).st ≠ HState.halted)) ∧
    ((9 < 128) ∧ (st254.boot.mgmtUp = true) ∧ ((hartOf st254 9).st ≠ HState.idle) ∧ ((hartOf st254 9).st = HState.halted) ∧ ((hartOf st254 9).was =
      HState.ready)) := by
  refine ⟨?_, ?_, ?_, ?_, ?_, ?_, ?_, ?_⟩ <;> decide +kernel

/-- Hypotheses of `Obligations.ThreadInstructions` that hold together, clause by clause. -/
theorem witness_threadInstructions :
    ((9 < 128) ∧ ((hartOf st255 9).st = HState.ready) ∧ (coreRuns st255 9 = true) ∧ (fetchAt st255 9 (hartOf st255 9) = (Sum.inl ft6, st256)) ∧
      (mayIssue st255 9 ft6.w = true) ∧ (holOp (hartOf st255 9) ft6.w = HolOp.evsig)) ∧
    ((9 < 128) ∧ ((hartOf st257 9).st = HState.ready) ∧ (coreRuns st257 9 = true) ∧ (fetchAt st257 9 (hartOf st257 9) = (Sum.inl ft7, st258)) ∧
      (mayIssue st257 9 ft7.w = true) ∧ (holOp (hartOf st257 9) ft7.w = HolOp.fork) ∧ (List.find? (forkFree st258 (hartOf st257 9).user) (forkOrder 9)
      = some 8) ∧ (iRd ft7.w ≠ 0) ∧ (List.length (hartOf st257 9).x = 32)) ∧
    ((9 < 128) ∧ ((hartOf st259 9).st = HState.ready) ∧ (coreRuns st259 9 = true) ∧ (fetchAt st259 9 (hartOf st259 9) = (Sum.inl ft8, st260)) ∧
      (mayIssue st259 9 ft8.w = true) ∧ (holOp (hartOf st259 9) ft8.w = HolOp.fork) ∧ (List.find? (forkFree st260 (hartOf st259 9).user) (forkOrder 9)
      = none)) ∧
    ((9 < 128) ∧ ((hartOf st261 9).st = HState.ready) ∧ (coreRuns st261 9 = true) ∧ (fetchAt st261 9 (hartOf st261 9) = (Sum.inl ft9, st262)) ∧
      (mayIssue st261 9 ft9.w = true) ∧ (holOp (hartOf st261 9) ft9.w = HolOp.joinW) ∧ (128 ≤ List.getD (hartOf st261 9).x (iRs1 ft9.w) 0 % 256 ∨
      List.getD (hartOf st261 9).x (iRs1 ft9.w) 0 ≠ (hartOf st262 (List.getD (hartOf st261 9).x (iRs1 ft9.w) 0 % 256)).gen * 256 + List.getD (hartOf
      st261 9).x (iRs1 ft9.w) 0 % 256)) ∧
    ((9 < 128) ∧ ((hartOf st263 9).st = HState.ready) ∧ (coreRuns st263 9 = true) ∧ (fetchAt st263 9 (hartOf st263 9) = (Sum.inl ft10, st264)) ∧
      (mayIssue st263 9 ft10.w = true) ∧ (holOp (hartOf st263 9) ft10.w = HolOp.joinW) ∧ (List.getD (hartOf st263 9).x (iRs1 ft10.w) 0 % 256 < 128) ∧
      (List.getD (hartOf st263 9).x (iRs1 ft10.w) 0 = (hartOf st264 (List.getD (hartOf st263 9).x (iRs1 ft10.w) 0 % 256)).gen * 256 + List.getD
      (hartOf st263 9).x (iRs1 ft10.w) 0 % 256) ∧ (isContained st264 (Cunit.core (List.getD (hartOf st263 9).x (iRs1 ft10.w) 0 % 256 / 8)) = false) ∧
      ((hartOf st264 (List.getD (hartOf st263 9).x (iRs1 ft10.w) 0 % 256)).st = HState.idle) ∧ ((hartOf st264 (List.getD (hartOf st263 9).x (iRs1
      ft10.w) 0 % 256)).exitV = some 99)) ∧
    ((9 < 128) ∧ ((hartOf st265 9).st = HState.ready) ∧ (coreRuns st265 9 = true) ∧ (fetchAt st265 9 (hartOf st265 9) = (Sum.inl ft11, st266)) ∧
      (mayIssue st265 9 ft11.w = true) ∧ (holOp (hartOf st265 9) ft11.w = HolOp.joinW) ∧ (List.getD (hartOf st265 9).x (iRs1 ft11.w) 0 % 256 < 128) ∧
      (List.getD (hartOf st265 9).x (iRs1 ft11.w) 0 = (hartOf st266 (List.getD (hartOf st265 9).x (iRs1 ft11.w) 0 % 256)).gen * 256 + List.getD
      (hartOf st265 9).x (iRs1 ft11.w) 0 % 256) ∧ (isContained st266 (Cunit.core (List.getD (hartOf st265 9).x (iRs1 ft11.w) 0 % 256 / 8)) = false) ∧
      ((hartOf st266 (List.getD (hartOf st265 9).x (iRs1 ft11.w) 0 % 256)).st ≠ HState.idle)) ∧
    ((9 < 128) ∧ ((hartOf st267 9).st = HState.ready) ∧ (coreRuns st267 9 = true) ∧ (fetchAt st267 9 (hartOf st267 9) = (Sum.inl ft12, st268)) ∧
      (mayIssue st267 9 ft12.w = true) ∧ (holOp (hartOf st267 9) ft12.w = HolOp.joinX)) ∧
    ((9 < 128) ∧ ((hartOf st269 9).st = HState.ready) ∧ (coreRuns st269 9 = true) ∧ (fetchAt st269 9 (hartOf st269 9) = (Sum.inl ft13, st270)) ∧
      (mayIssue st269 9 ft13.w = true) ∧ (holOp (hartOf st269 9) ft13.w = HolOp.tsNs)) ∧
    ((9 < 128) ∧ ((hartOf st271 9).st = HState.ready) ∧ (coreRuns st271 9 = true) ∧ (fetchAt st271 9 (hartOf st271 9) = (Sum.inl ft14, st272)) ∧
      (mayIssue st271 9 ft14.w = true) ∧ (holOp (hartOf st271 9) ft14.w = HolOp.tsHi)) ∧
    ((9 < 128) ∧ ((hartOf st273 9).st = HState.ready) ∧ (coreRuns st273 9 = true) ∧ (fetchAt st273 9 (hartOf st273 9) = (Sum.inl ft15, st274)) ∧
      (holOp (hartOf st273 9) ft15.w = HolOp.bcopy) ∧ (mayIssue st273 9 ft15.w = true) ∧ (List.getD (hartOf st273 9).x (iRd ft15.w) 0 = 0) ∧
      ((Instr.bcopy 9, HolOp.bcopy) ∈ [(Instr.bcopy 9, HolOp.bcopy), (Instr.bfill 9, HolOp.bfill), (Instr.bcrc 9, HolOp.bcrc)])) ∧
    ((9 < 128) ∧ ((hartOf st275 9).st = HState.ready) ∧ (coreRuns st275 9 = true) ∧ (fetchAt st275 9 (hartOf st275 9) = (Sum.inl ft16, st276)) ∧
      (holOp (hartOf st275 9) ft16.w = HolOp.bcopy) ∧ (mayIssue st275 9 ft16.w = true) ∧ (List.getD (hartOf st275 9).x (iRd ft16.w) 0 ≠ 0) ∧
      (HolOp.bcopy = HolOp.bcopy) ∧ ((bulkLoad st276 9 (hartOf st275 9) (List.getD (hartOf st275 9).x (iRs2 ft16.w) 0) (element (List.getD (hartOf
      st275 9).x (iRs1 ft16.w) 0) (List.getD (hartOf st275 9).x (iRd ft16.w) 0))).bytes = some (toLE 16 (xhol 0 2 1 5 3))) ∧ ((bulkStore (bulkLoad
      st276 9 (hartOf st275 9) (List.getD (hartOf st275 9).x (iRs2 ft16.w) 0) (element (List.getD (hartOf st275 9).x (iRs1 ft16.w) 0) (List.getD
      (hartOf st275 9).x (iRd ft16.w) 0))).s 9 (hartOf st275 9) (List.getD (hartOf st275 9).x (iRs1 ft16.w) 0) (toLE 16 (xhol 0 2 1 5 3))).bytes =
      some [])) ∧
    ((9 < 128) ∧ ((hartOf st277 9).st = HState.ready) ∧ (coreRuns st277 9 = true) ∧ (fetchAt st277 9 (hartOf st277 9) = (Sum.inl ft17, st278)) ∧
      (holOp (hartOf st277 9) ft17.w = HolOp.bcopy) ∧ (mayIssue st277 9 ft17.w = true) ∧ (List.getD (hartOf st277 9).x (iRd ft17.w) 0 ≠ 0) ∧
      (HolOp.bcopy = HolOp.bcopy) ∧ ((bulkLoad st278 9 (hartOf st277 9) (List.getD (hartOf st277 9).x (iRs2 ft17.w) 0) (element (List.getD (hartOf
      st277 9).x (iRs1 ft17.w) 0) (List.getD (hartOf st277 9).x (iRd ft17.w) 0))).bytes = some (toLE 16 (xhol 0 2 1 5 3))) ∧ ((bulkStore (bulkLoad
      st278 9 (hartOf st277 9) (List.getD (hartOf st277 9).x (iRs2 ft17.w) 0) (element (List.getD (hartOf st277 9).x (iRs1 ft17.w) 0) (List.getD
      (hartOf st277 9).x (iRd ft17.w) 0))).s 9 (hartOf st277 9) (List.getD (hartOf st277 9).x (iRs1 ft17.w) 0) (toLE 16 (xhol 0 2 1 5 3))).bytes =
      none)) ∧
    ((9 < 128) ∧ ((hartOf st279 9).st = HState.ready) ∧ (coreRuns st279 9 = true) ∧ (fetchAt st279 9 (hartOf st279 9) = (Sum.inl ft18, st280)) ∧
      (holOp (hartOf st279 9) ft18.w = HolOp.bfill) ∧ (mayIssue st279 9 ft18.w = true) ∧ (List.getD (hartOf st279 9).x (iRd ft18.w) 0 ≠ 0) ∧
      (HolOp.bfill = HolOp.bfill) ∧ ((bulkStore st280 9 (hartOf st279 9) (List.getD (hartOf st279 9).x (iRs1 ft18.w) 0) (List.map (fun k ↦ List.getD
      (toLE 8 (List.getD (hartOf st279 9).x (iRs2 ft18.w) 0)) ((List.getD (hartOf st279 9).x (iRs1 ft18.w) 0 + k) % 8) 0) (List.range (element
      (List.getD (hartOf st279 9).x (iRs1 ft18.w) 0) (List.getD (hartOf st279 9).x (iRd ft18.w) 0))))).bytes = some [])) ∧
    ((9 < 128) ∧ ((hartOf st281 9).st = HState.ready) ∧ (coreRuns st281 9 = true) ∧ (fetchAt st281 9 (hartOf st281 9) = (Sum.inl ft19, st282)) ∧
      (holOp (hartOf st281 9) ft19.w = HolOp.bcrc) ∧ (mayIssue st281 9 ft19.w = true) ∧ (List.getD (hartOf st281 9).x (iRd ft19.w) 0 ≠ 0) ∧
      (HolOp.bcrc = HolOp.bcrc) ∧ ((bulkLoad st282 9 (hartOf st281 9) (List.getD (hartOf st281 9).x (iRs1 ft19.w) 0) (element (List.getD (hartOf st281
      9).x (iRs1 ft19.w) 0) (List.getD (hartOf st281 9).x (iRd ft19.w) 0))).bytes = some (toLE 8 (xhol 2 2 1 5 3)))) ∧
    ((List.find? (fun x ↦ x.line == 5) st283.hol.cache = some { line := 5, data := List.replicate 64 1, dirty := true })) := by
  refine ⟨?_, ?_, ?_, ?_, ?_, ?_, ?_, ?_, ?_, ?_, ?_, ?_, ?_, ?_, ?_⟩ <;> decide +kernel

/-- Hypotheses of `Obligations.StoresCountersAndTimes` that hold together, clause by clause. -/
theorem witness_storesCountersAndTimes :
    ((33554436 < 33554433 ∨ 33554433 + List.length [0, 9, 0] ≤ 33554436)) ∧
    ((State.memWf st284)) ∧
    ((81985529216486895 < 2 ^ 64)) ∧
    ((5 < 2 ^ 48) ∧ (6 < 2 ^ 48) ∧ (5 ≠ 6) ∧ ((5 + 2 ^ 47) % 2 ^ 48 ≠ 6)) ∧
    ((4294967295 < 2 ^ 32) ∧ (0 < 2 ^ 32) ∧ (4294967295 ≠ 0) ∧ ((4294967295 + 2 ^ 31) % 2 ^ 32 ≠ 0)) :=
  ⟨by decide +kernel,
    by unfold State.memWf; decide +kernel,
    by decide +kernel,
    by decide +kernel,
    by decide +kernel⟩
end
end Sys2Proof.Tests
end

