-- ==== Sys2Proof/Proofs/Heads.lean ====
section
/-!
SUPPORT. The list of heads: what a head's record reads after it is replaced or removed, and the operations that leave every record
alone.
-/
namespace Sys2Proof.Machine

/-! ### A head's record -/

theorem pktOf_id {s : State} {id : Nat} {k : Pkt} (h : pktOf s id = some k) : k.id = id := by
  simpa using List.find?_some h

theorem pktOf_congr {s t : State} (h : t.net.pkts = s.net.pkts) (id : Nat) : pktOf t id = pktOf s id := by
  unfold pktOf
  rw [h]

theorem pktOf_putPkt {s : State} {p k : Pkt} (h : pktOf s p.id = some k) : pktOf (putPkt s p) p.id = some p := by
  have same : ((fun q : Pkt => q.id == p.id) ∘ fun q => if q.id == p.id then p else q) = fun q => q.id == p.id := by
    funext q
    by_cases hq : q.id = p.id <;> simp [hq]
  have hk : (k.id == p.id) = true := beq_iff_eq.2 (pktOf_id h)
  unfold pktOf at h
  simp only [pktOf, putPkt]
  rw [List.find?_map, same, h, Option.map_some, if_pos hk]

theorem pktOf_delPkt (s : State) (id : Nat) : pktOf (delPkt s id) id = none := by
  simp [pktOf, delPkt, List.find?_eq_none]

/-- R414: a head whose tail is in leaves no record when it is dropped. -/
theorem pktOf_dropGone {s : State} {p : Pkt} (ht : p.tail = true) : pktOf (dropGone s p) p.id = none := by
  simp [dropGone, headGone, ht, pktOf_delPkt]

/-! ### Operations that leave every head's record alone -/

theorem foldl_pkts {α : Type} (f : State → α → State) (hf : ∀ a x, (f a x).net.pkts = a.net.pkts) (l : List α) (s : State) :
    (l.foldl f s).net.pkts = s.net.pkts := by
  induction l generalizing s with
  | nil => rfl
  | cons x r ih => exact (ih _).trans (hf s x)

@[simp] theorem notify_pkts (s : State) (page src sev : Nat) : (notify s page src sev).net.pkts = s.net.pkts := by
  unfold notify intSend
  dsimp only
  split
  · rfl
  · split <;> rfl

@[simp] theorem resetClass_pkts (s : State) (page src : Nat) : (resetClass s page src).net.pkts = s.net.pkts := by
  unfold resetClass
  dsimp only
  split <;> simp only [fset_net]

@[simp] theorem graveStop_pkts (s : State) (page src : Nat) : (graveStop s page src).net.pkts = s.net.pkts := by
  unfold graveStop
  dsimp only
  split <;> simp only [fset_net]

@[simp] theorem severe_pkts (s : State) (page src sev : Nat) : (severe s page src sev).net.pkts = s.net.pkts := by
  unfold severe
  dsimp only
  split <;> split <;> simp only [graveStop_pkts, resetClass_pkts]

/-- R456: containment of a lane moves flowlet buckets only. -/
@[simp] theorem beginContain_pkts (s : State) (u : Cunit) : (beginContain s u).net.pkts = s.net.pkts := by
  unfold beginContain
  dsimp only
  split
  · rfl
  · cases u with
    | lane j =>
      refine foldl_pkts _ (fun a sl => ?_) _ _
      split <;> rfl
    | _ => rfl

@[simp] theorem fire_pkts (s : State) (page src : Nat) : (fire s page src).net.pkts = s.net.pkts := by
  unfold fire
  dsimp only
  split
  · rw [severe_pkts]
    split
    · rw [foldl_pkts _ beginContain_pkts, notify_pkts]
    · exact notify_pkts s page src _
  · rfl

@[simp] theorem takeInj_pkts (s : State) (page src : Nat) : (takeInj s page src).2.net.pkts = s.net.pkts := by
  rw [takeInj_cfg]

/-- A check keeps the records when its two counters do. -/
theorem eccCheck_pkts (s : State) (page c u : Nat) (cntC cntU : State → State)
    (hc : ∀ a, (cntC a).net.pkts = a.net.pkts) (hu : ∀ a, (cntU a).net.pkts = a.net.pkts) :
    (eccCheck s page c u cntC cntU).2.net.pkts = s.net.pkts := by
  unfold eccCheck
  dsimp only
  split <;> split <;> simp only [fire_pkts, takeInj_pkts, hc, hu]

@[simp] theorem sliceEvt_pkts (s : State) (sl e : Nat) : (sliceEvt s sl e).net.pkts = s.net.pkts := by
  refine foldl_pkts _ (fun a k => ?_) _ s
  dsimp only
  split
  · rw [bump_net]
  · rfl

@[simp] theorem prsCount_pkts (s : State) (p : Pkt) (c : Nat) : (prsCount s p c).net.pkts = s.net.pkts := by
  unfold prsCount
  split <;> rw [bump_net]

end Sys2Proof.Machine
end

