-- ==== Sys2Proof/Proofs/ParseGraph.lean ====
section
/-!
SUPPORT. The parse of a head (R117-R133): what a step and an end leave in its record, the effect of the five commands that carry a head
to its result, and the statement that they complete.
-/
namespace Sys2Proof.Machine

/-! ### One step of the parser (R119) -/

/-- The head has taken one more step, as the same head. -/
def OneStepOn (p q : Pkt) : Prop := q.id = p.id ∧ q.steps = p.steps + 1

theorem parseFail_oneStepOn (p : Pkt) (reason : Nat) : OneStepOn p (parseFail p reason) := ⟨rfl, rfl⟩

theorem extract_keeps (s : State) (p : Pkt) (k : Nat) :
    (extract s p k).2.id = p.id ∧ (extract s p k).2.steps = p.steps := by
  unfold extract
  dsimp only
  repeat' split
  all_goals exact ⟨rfl, rfl⟩

/-- The extractions of a node (R125), up to the first that fails, take no step. -/
theorem extractions_keep (s : State) (l : List Nat) (a : Nat × Pkt) :
    (l.foldl (fun (a : Nat × Pkt) k => if a.1 ≠ 0 then a else extract s a.2 k) a).2.id = a.2.id ∧
    (l.foldl (fun (a : Nat × Pkt) k => if a.1 ≠ 0 then a else extract s a.2 k) a).2.steps = a.2.steps := by
  induction l generalizing a with
  | nil => exact ⟨rfl, rfl⟩
  | cons k r ih =>
    rw [List.foldl_cons]
    split
    · exact ih a
    · obtain ⟨hid, hsteps⟩ := ih (extract s a.2 k)
      obtain ⟨eid, esteps⟩ := extract_keeps s a.2 k
      exact ⟨hid.trans eid, hsteps.trans esteps⟩

theorem OneStepOn.ite {p a b : Pkt} {c : Prop} [Decidable c] (ha : OneStepOn p a) (hb : OneStepOn p b) :
    OneStepOn p (if c then a else b) := by
  split
  · exact ha
  · exact hb

/-- Table 4-1: whichever action of a node fails, and if none does, the step counts as taken. -/
theorem nodeActions_oneStepOn (s : State) (p : Pkt) : OneStepOn p (nodeActions s p) := by
  obtain ⟨hid, hsteps⟩ := extractions_keep s (List.range 4) (0, p)
  unfold nodeActions
  dsimp only
  -- actions 3 to 8: each test that fails ends the parse
  iterate 8 refine .ite (parseFail_oneStepOn p _) ?_
  -- actions 9 to 12: extraction, slot and next node
  refine .ite ⟨hid, congrArg (· + 1) hsteps⟩ ?_
  split <;> split <;> exact ⟨hid, congrArg (· + 1) hsteps⟩

/-- A step replaces the head's record alone, by one that has taken the step; beyond 24 steps it fails for reason 2 (R119, R132). -/
theorem parseStep_puts (s : State) (p : Pkt) : ∃ u q, parseStep s p = putPkt u q ∧ u.net.pkts = s.net.pkts ∧ OneStepOn p q
    ∧ (24 ≤ p.steps → q.mal = 2) := by
  unfold parseStep
  split
  · exact ⟨s, parseFail p 2, rfl, rfl, parseFail_oneStepOn p 2, fun _ => rfl⟩
  next hlt =>
    have hecc := eccCheck_pkts s (pageOf .prs p.slice 0) 2 3 (fun a => bump a .prs p.slice 3 1 12 0) id
      (fun a => congrArg (·.pkts) (bump_net a _ _ _ _ _ _)) (fun _ => rfl)
    dsimp only
    split
    · exact ⟨_, _, rfl, hecc, parseFail_oneStepOn p 8, fun h => absurd h hlt⟩
    · split
      · exact ⟨_, _, rfl, hecc, parseFail_oneStepOn p 6, fun h => absurd h hlt⟩
      · exact ⟨_, _, rfl, hecc, nodeActions_oneStepOn _ p, fun h => absurd h hlt⟩

/-- The record of a head after its step. -/
theorem pktOf_parseStep {s : State} {id : Nat} {k : Pkt} (h : pktOf s id = some k) :
    ∃ q, pktOf (parseStep s k) id = some q ∧ q.steps = k.steps + 1 ∧ (24 ≤ k.steps → q.mal = 2) := by
  obtain ⟨u, q, hput, hpkts, ⟨hid, hsteps⟩, hmal⟩ := parseStep_puts s k
  obtain rfl : q.id = id := hid.trans (pktOf_id h)
  refine ⟨q, ?_, hsteps, hmal⟩
  rw [hput]
  exact pktOf_putPkt ((pktOf_congr hpkts _).trans h)

/-! ### The end of a parse (R131) -/

/-- The record of a head whose parse ended well: its key vector, with the metadata, from this clock on. -/
theorem pktOf_parseEnd {s : State} {id : Nat} {k : Pkt} (h : pktOf s id = some k) (hmal : k.mal = 0) :
    pktOf (parseEnd s k) id = some { k with kv := keyVector k k.kv, stage := .parsed, since := s.clk } := by
  have counted : (if k.extHit then bump (sliceEvt (prsCount s k 0) k.slice 1) .prs k.slice 3 1 10 0
      else sliceEvt (prsCount s k 0) k.slice 1).net.pkts = s.net.pkts := by
    split <;> simp only [bump_net, sliceEvt_pkts, prsCount_pkts]
  obtain rfl := pktOf_id h
  unfold parseEnd
  dsimp only
  rw [if_neg (by omega), if_pos hmal]
  exact pktOf_putPkt (p := { k with kv := keyVector k k.kv, stage := .parsed, since := s.clk })
    ((pktOf_congr counted _).trans h)

/-! ### What the commands do when their moment has come -/

section
variable {id : Nat} {k : Pkt} {s : State} (hrun : running s = true) (hk : pktOf s id = some k)
include hrun hk

/-- R117: a step of the parser, in its stage of 4 core clocks. -/
theorem exec_parseStep (hstage : k.stage = .parsing) (hend : k.endOk = false) (hmal : k.mal = 0) (hin : k.since < s.clk)
    (hat : k.since + 4 * k.steps ≤ s.clk) : exec (.parseStep id) s = run true s (parseStep s k) := by
  change execParseStep id s = _
  simp [execParseStep, hrun, hk, hstage, hend, hmal, hin, hat]

/-- R117: the head leaves the parser 96 core clocks after it entered. -/
theorem exec_parseEnd (hstage : k.stage = .parsing) (hend : k.endOk = true) (hat : k.since + 96 ≤ s.clk) :
    exec (.parseEnd id) s = run true s (parseEnd s k) := by
  change execParseEnd id s = _
  simp [execParseEnd, hrun, hk, hstage, hend, hat]

/-- R141: a parsed head leaves classification 64 core clocks later. -/
theorem exec_classify (hstage : k.stage = .parsed) (hat : k.since + 64 ≤ s.clk) :
    exec (.classify id) s = run true s (classified s k) := by
  change execClassify id s = _
  simp [execClassify, hrun, hk, hstage, hat]

/-- R172, R38 and Table 16-3: a contained pair refuses the head or drops a short frame known bad; any other pair looks it up. -/
theorem exec_forwardingLookup (hstage : k.stage = .classified) (hat : k.since + 64 ≤ s.clk) :
    exec (.forwardingLookup id) s = run true s
      (if isShut s (.pair (k.slice / 2)) then
        if k.tail && k.fcsBad && decide (k.data.length ≤ 256) then dropGone s { k with staged := false }
        else refuse s k 10 none
      else if (lookup s k).1 = .memErr then dropHead (lookup s k).2 k 6
      else forwarded (lookup s k).2 k (lookup s k).1) := by
  change execForwardingLookup id s = _
  simp [execForwardingLookup, hrun, hk, hstage, hat]

end

/-- R137: a millisecond after the last, the next sweep begins. -/
theorem exec_graphSweep {s : State} (hrun : running s = true) (hdue : passedNs s s.tbl.graphAt 1000000 = true) :
    ∃ t, exec .graphSweep s = .next t ∧ t.tbl.graphAt = s.clk := by
  change ∃ t, execGraphSweep s = .next t ∧ t.tbl.graphAt = s.clk
  unfold execGraphSweep
  rw [hdue, hrun]
  exact ⟨_, rfl, rfl⟩

/-! ### The statement -/

/-- Settles O28: each command's guard holds at the clock stated, and its effect is the operation's. -/
theorem headsAdvance : Obligations.HeadsAdvance := by
  unfold Obligations.HeadsAdvance
  refine ⟨fun id k s hrun => ⟨?_, ?_, exec_graphSweep hrun⟩, fun id k s hrun hk hat => ⟨?_, ?_, ?_, ?_, ?_⟩⟩
  · intro hk hstage hend hmal hin hat
    exact ⟨_, exec_parseStep hrun hk hstage hend hmal hin hat, rfl, pktOf_parseStep hk⟩
  · intro hk hstage hend hmal hat
    exact ⟨_, exec_parseEnd hrun hk hstage hend hat, pktOf_parseEnd hk hmal⟩
  · intro hstage
    exact ⟨_, exec_classify hrun hk hstage hat, rfl⟩
  · intro hstage hshut hgood
    rw [exec_forwardingLookup hrun hk hstage hat, if_pos hshut, hgood]
    exact ⟨_, rfl, rfl⟩
  · intro hstage hshut hbad
    have htail : k.tail = true := (Bool.and_eq_true_iff.1 (Bool.and_eq_true_iff.1 hbad).1).1
    obtain rfl := pktOf_id hk
    rw [exec_forwardingLookup hrun hk hstage hat, if_pos hshut, if_pos hbad]
    exact ⟨_, rfl, pktOf_dropGone (p := { k with staged := false }) htail⟩
  · intro hstage hopen herr
    rw [exec_forwardingLookup hrun hk hstage hat, hopen, herr]
    exact ⟨_, rfl, rfl⟩
  · intro hstage hopen herr
    rw [exec_forwardingLookup hrun hk hstage hat, hopen, if_neg (by decide), if_neg herr]
    exact ⟨_, rfl, rfl⟩

end Sys2Proof.Machine
end

