-- ==== Sys2Proof/Proofs/Fields.lean ====
section
/-!
SUPPORT. What a field of a register reads after the device has set it (R8), what a command that keeps the queue and the clock answers,
and what a check without an armed injection does (R58).
-/
namespace Sys2Proof.Machine

/-! ### Bits of a number -/

/-- The bits that were replaced read as the value put there; the 32 bits of a word keep them. -/
theorem bitsOf_putBits (v x : Nat) {hi lo : Nat} (hlo : lo ≤ hi) (hhi : hi < 32) :
    bitsOf (putBits v hi lo x % 2 ^ 32) hi lo = x % 2 ^ (hi + 1 - lo) := by
  have split32 : 2 ^ 32 = 2 ^ lo * 2 ^ (32 - lo) := by rw [← Nat.pow_add]; congr 1; omega
  have field : 2 ^ (hi + 1 - lo) ∣ 2 ^ (32 - lo) := Nat.pow_dvd_pow 2 (by omega)
  unfold putBits bitsOf
  -- what is left of the number without its field: the part above it and the part below it
  generalize 2 ^ (hi + 1 - lo) = w at field ⊢
  have rest : v - v / 2 ^ lo % w * 2 ^ lo = v % 2 ^ lo + 2 ^ lo * (w * (v / 2 ^ lo / w)) := by
    have low := Nat.mod_add_div v (2 ^ lo)
    have high := Nat.mod_add_div (v / 2 ^ lo) w
    have whole : v = v % 2 ^ lo + (2 ^ lo * (w * (v / 2 ^ lo / w)) + v / 2 ^ lo % w * 2 ^ lo) := by
      calc v = v % 2 ^ lo + 2 ^ lo * (v / 2 ^ lo) := low.symm
        _ = v % 2 ^ lo + 2 ^ lo * (v / 2 ^ lo % w + w * (v / 2 ^ lo / w)) := by rw [high]
        _ = _ := by rw [Nat.mul_add, Nat.mul_comm (2 ^ lo) (v / 2 ^ lo % w), Nat.add_comm (v / 2 ^ lo % w * 2 ^ lo)]
    omega
  have shifted : (v % 2 ^ lo + 2 ^ lo * (w * (v / 2 ^ lo / w)) + x % w * 2 ^ lo) / 2 ^ lo
      = w * (v / 2 ^ lo / w) + x % w := by
    rw [Nat.mul_comm (x % w), Nat.add_assoc, ← Nat.mul_add, Nat.add_mul_div_left _ _ (Nat.two_pow_pos lo),
      Nat.div_eq_of_lt (Nat.mod_lt v (Nat.two_pow_pos lo)), Nat.zero_add]
  rw [rest, split32, Nat.mod_mul_right_div_self, Nat.mod_mod_of_dvd _ field, shifted, Nat.mul_add_mod, Nat.mod_mod]

/-- A single bit, cleared. -/
theorem bit_putBits_zero (v : Nat) {n : Nat} (hn : n < 32) : bit (putBits v n n 0 % 2 ^ 32) n = false := by
  have h := bitsOf_putBits v 0 (Nat.le_refl n) hn
  simp only [bitsOf, Nat.add_sub_cancel_left, Nat.pow_one, Nat.zero_mod] at h
  unfold bit
  rw [h]
  rfl

/-! ### Fields -/

/-- A field that the device set reads as the value set. -/
theorem fget_fset_same (s : State) (f : Fld) (i n v : Nat) (hlo : f.lo ≤ f.hi) (hhi : f.hi < 32) :
    fget (fset s f i n v) f i n = v % 2 ^ (f.hi + 1 - f.lo) := by
  unfold fget fset
  rw [actW_setAct_same, BitVec.toNat_ofNat]
  exact bitsOf_putBits _ v hlo hhi

/-- Setting a field changes the registers alone. -/
theorem fset_cfg (s : State) (f : Fld) (i n v : Nat) : fset s f i n v = { s with cfg := (fset s f i n v).cfg } := rfl

/-! ### Answers -/

theorem run_kept {s u : State} (hpending : u.pending = s.pending) (hclk : u.clk = s.clk) : run true s u = .next u := by
  unfold run
  rw [← hpending, ← hclk]
  rfl

/-! ### Checks without an injection (R58) -/

theorem takeInj_idle {s : State} {page : Nat} (h : bitsOf (actW s (regKey page 0x20)).toNat 5 4 = 0) (src : Nat) :
    takeInj s page src = (false, s) := by
  unfold takeInj
  exact if_pos (Or.inl h)

theorem eccCheck_idle {s : State} {page : Nat} (h : bitsOf (actW s (regKey page 0x20)).toNat 5 4 = 0) (c u : Nat)
    (cntC cntU : State → State) : eccCheck s page c u cntC cntU = (false, s) := by
  simp [eccCheck, takeInj_idle h]

end Sys2Proof.Machine
end

