-- ==== Sys2Proof/Proofs/ClassifierUpkeep.lean ====
section
/-!
SUPPORT. The upkeep of the classifier (R155-R168): the quarantine words, the fetch of a routine as the tables see it, the effect of the
five commands when their moment has come, and the statement that they complete.
-/
namespace Sys2Proof.Machine

/-! ### Quarantine words -/

theorem quarW_setQuar_zero (s : State) (page k : Nat) : quarW (setQuar s page k 0) page k = 0 := by
  unfold quarW setQuar
  rw [actW_setAct_same]
  rfl

/-- BANK_STAT is not a quarantine word. -/
theorem quarW_showQuar (s : State) (page k : Nat) : quarW (showQuar s page) page k = quarW s page k := by
  have apart : quarKey page k ≠ regKey page 0x100 := by unfold quarKey regKey; omega
  unfold quarW showQuar
  rw [actW_setAct_other _ apart]

theorem showQuar_tbl (s : State) (page : Nat) : (showQuar s page).tbl = s.tbl := setAct_tbl _ _ _

/-! ### The fetch of a routine (R476) -/

theorem FaultOnly.tbl {s t : State} (h : FaultOnly s t) : t.tbl = s.tbl := by rw [h]

theorem showOkra_tbl (s : State) (i : Nat) : (showOkra s i).tbl = s.tbl := by
  unfold showOkra
  rw [fsetB_tbl, fset_tbl]

/-- Of the tables, a fetch changes the control stores only: it may clear a sequencer's hooks. -/
theorem okraFetch_tbl (s : State) (i : Nat) :
    (okraFetch s i).2.tbl = { s.tbl with okr := (okraFetch s i).2.tbl.okr } := by
  have inj (a : State) (page src : Nat) : (takeInj a page src).2.tbl = a.tbl := (takeInj_faultOnly a page src).tbl
  have fired (a : State) (page src : Nat) : (fire a page src).tbl = a.tbl := (fire_faultOnly a page src).tbl
  unfold okraFetch
  dsimp only
  -- the three checks: base corrected, patch uncorrectable, base uncorrectable
  split <;> split <;> split <;> simp only [inj, fired, bump_tbl, showOkra_tbl, putOkra, fset_tbl]

/-! ### What the commands do when their moment has come -/

/-- The state with a repair no longer waiting. -/
def dropRepair (s : State) (r : Repair) : State := { s with tbl := { s.tbl with repairs := s.tbl.repairs.erase r } }

/-- What a reload that reads back as written does (R157, R158): a slot is free again, an entry without one no longer excluded. -/
def reloaded (s : State) (page slot : Nat) (r : Repair) : State :=
  if slot < 4 then showQuar (setQuar (dropRepair s r) page slot 0) page
  else { s with tbl := { s.tbl with
    repairs := s.tbl.repairs.erase r
    excluded := s.tbl.excluded.erase (page, r.half, r.entry) } }

/-- What the end of a bank's copy does (R155): SYNC is clear and the copy forgotten. -/
def syncEnded (s : State) (page : Nat) : State :=
  let k := regKey page 0x100
  let u := setAct s k (BitVec.ofNat 32 (putBits (actW s k).toNat 24 24 0))
  { u with tbl := { u.tbl with syncs := storeDel page (storeDel (page + 4096) u.tbl.syncs) } }

theorem syncEnded_pending (s : State) (page : Nat) : (syncEnded s page).pending = s.pending := by
  simp only [syncEnded, setAct_pending]

theorem syncEnded_clk (s : State) (page : Nat) : (syncEnded s page).clk = s.clk := by
  simp only [syncEnded, setAct_clk]

/-- SYNC is a matter of the registers, not of the tables. -/
theorem bankSyncing_withTbl (s : State) (x : TblSt) (page : Nat) : bankSyncing { s with tbl := x } page = bankSyncing s page := rfl

theorem bankSyncing_syncEnded (s : State) (page : Nat) : bankSyncing (syncEnded s page) page = false := by
  rw [syncEnded, bankSyncing_withTbl, bankSyncing, actW_setAct_same, BitVec.toNat_ofNat]
  exact bit_putBits_zero _ (by decide)

theorem syncs_syncEnded (s : State) (page : Nat) : storeFind (syncEnded s page).tbl.syncs page = none :=
  storeFind_del_same page _

section
variable {page : Nat} {s : State} (hlo : 320 ≤ page) (hhi : page < 448)
include hlo hhi

/-- R157: the routine was fetched and the row read back as written. -/
theorem exec_reloadAttempt {slot : Nat} {r : Repair} (hrun : running s = true) (hslot : slot < 5)
    (hr : (s.tbl.repairs.find? fun r => r.page == page && r.slot == slot) = some r)
    (hfetch : (okraFetch s (bankSlice page / 2)).1 = true) :
    exec (.reloadAttempt page slot true) s = run true s (reloaded (okraFetch s (bankSlice page / 2)).2 page slot r) := by
  change execReloadAttempt page slot true s = _
  simp only [execReloadAttempt, hr, hrun, hfetch, hlo, hhi, hslot]
  rfl

/-- R160: a difference found with no injection armed, while no repair of the pair waits. -/
theorem exec_radishScrub {entry : Nat} (hrun : running s = true) (hentry : entry < 2048)
    (hrepairs : ∀ r ∈ s.tbl.repairs, bankSlice r.page / 2 ≠ bankSlice page / 2) (hsync : bankSyncing s page = false)
    (haside : setAside s page (activeHalf s page) entry = false) (hfetch : okraFetch s (bankSlice page / 2) = (true, s))
    (hinj : bitsOf (actW s (regKey page 0x20)).toNat 5 4 = 0) :
    exec (.radishScrub page entry true) s = run true s (fire (rdhCount s page 6) page 4) := by
  have free : (s.tbl.repairs.any fun r => bankSlice r.page / 2 == bankSlice page / 2) = false := by
    simpa [List.any_eq_false] using hrepairs
  change execRadishScrub page entry true s = _
  simp [execRadishScrub, free, hrun, hsync, haside, hfetch, eccCheck_idle hinj, takeInj_idle hinj, hlo, hhi, hentry]

/-- R155: the copy begins, and its clock is kept. -/
theorem exec_bankSync (hrun : running s = true) (hasked : (storeFind s.tbl.syncs page).isSome = true)
    (hidle : storeFind s.tbl.syncs (page + 4096) = none)
    (hheads : oldHeadsDone s page [bankSlice page] [.parsing, .parsed] = true) :
    ∃ t, exec (.bankSync page) s = .next t ∧ storeFind t.tbl.syncs (page + 4096) = some s.clk := by
  change ∃ t, execBankSync page s = .next t ∧ _
  unfold execBankSync
  rw [hrun, hasked, hidle, hheads, decide_eq_true hlo, decide_eq_true hhi]
  exact ⟨_, rfl, storeFind_put_same _ _ _⟩

/-- R155: 256 core clocks later the copy has ended. -/
theorem exec_bankSyncEnd {since : Nat} (hsince : storeFind s.tbl.syncs (page + 4096) = some since) (hdue : since + 256 ≤ s.clk) :
    exec (.bankSyncEnd page) s = .next (syncEnded s page) := by
  change execBankSyncEnd page s = _
  rw [← run_kept (syncEnded_pending s page) (syncEnded_clk s page)]
  unfold execBankSyncEnd
  rw [hsince, decide_eq_true hlo, decide_eq_true hhi]
  dsimp only
  rw [if_pos hdue]
  rfl

end

/-- R168: no head of the previous epoch is left in or before classification of the pair. -/
theorem exec_oldReadersClear {k : Nat} {s : State} (hk : k < 4) (hold : fget s treStatOldReaders k 0 = 1)
    (hheads : oldHeadsDone s (pageOf .tre k 0) [2 * k, 2 * k + 1] [.parsing, .parsed] = true) :
    exec (.oldReadersClear k) s = .next (fset s treStatOldReaders k 0 0) := by
  change execOldReadersClear k s = _
  rw [← run_kept (fset_pending s _ _ _ _) (fset_clk s _ _ _ _)]
  simp [execOldReadersClear, hk, hold, hheads]

/-! ### The statement -/

/-- Settles O29: each command's guard holds under the conditions stated, and what it leaves reads as stated. -/
theorem classifierUpkeep : Obligations.ClassifierUpkeep := by
  unfold Obligations.ClassifierUpkeep
  intro page s hlo hhi hrun
  refine ⟨?_, ?_, ?_, ?_, ?_, ?_⟩
  · intro slot r hslot hr hfetch
    refine ⟨_, exec_reloadAttempt hlo hhi hrun (by omega) hr hfetch, ?_, ?_⟩
    · dsimp only
      rw [reloaded, if_pos hslot, showQuar_tbl, setQuar, setAct_tbl, dropRepair, okraFetch_tbl]
    · change quarW (reloaded _ page slot r) page slot = 0
      rw [reloaded, if_pos hslot, quarW_showQuar, quarW_setQuar_zero]
  · intro r hr hfetch
    refine ⟨_, exec_reloadAttempt hlo hhi hrun (by decide) hr (by rw [hfetch]), ?_⟩
    rw [hfetch]
    rfl
  · intro entry hentry hrepairs hsync haside hfetch hinj
    exact ⟨_, exec_radishScrub hlo hhi hrun hentry hrepairs hsync haside hfetch hinj, rfl⟩
  · exact exec_bankSync hlo hhi hrun
  · intro since hsince hdue
    exact ⟨_, exec_bankSyncEnd hlo hhi hsince hdue, bankSyncing_syncEnded s page, syncs_syncEnded s page⟩
  · intro k hk hold hheads
    exact ⟨_, exec_oldReadersClear hk hold hheads, fset_cfg _ _ _ _ _, fget_fset_same s _ k 0 0 (by decide) (by decide)⟩

end Sys2Proof.Machine
end

