-- ==== Sys2Proof/Proofs/Policers.lean ====
section
/-!
SUPPORT. Policers (R236, R237): what each colour of Table 7-6 says of the buckets, what it debits, and the bound of a refill; and the
statement that no debit overdraws.
-/
namespace Sys2Proof.Machine

/-! ### Colours of Table 7-6 -/

theorem polColour_mode_one (pc c p len : Nat) :
    polColour 1 pc c p len = if pc = 0 ∧ len ≤ p ∧ len ≤ c then 0 else if pc ≠ 2 ∧ len ≤ p then 1 else 2 := rfl

theorem polColour_mode_ge_two (n pc c p len : Nat) :
    polColour (n + 2) pc c p len = if pc = 0 ∧ len ≤ c then 0 else if pc ≠ 2 ∧ len ≤ p then 1 else 2 := rfl

/-- A chain of two tests that answers green has passed the first. -/
theorem first_of_green {a b : Prop} [Decidable a] [Decidable b] (h : (if a then 0 else if b then 1 else 2) = 0) : a := by
  by_cases ha : a
  · exact ha
  · rw [if_neg ha] at h
    by_cases hb : b
    · exact absurd ((if_pos hb).symm.trans h) Nat.one_ne_zero
    · exact absurd ((if_neg hb).symm.trans h) (by decide)

/-- A chain of two tests that answers yellow has passed the second. -/
theorem second_of_yellow {a b : Prop} [Decidable a] [Decidable b] (h : (if a then 0 else if b then 1 else 2) = 1) : b := by
  by_cases ha : a
  · exact absurd ((if_pos ha).symm.trans h) Nat.zero_ne_one
  · rw [if_neg ha] at h
    by_cases hb : b
    · exact hb
    · exact absurd ((if_neg hb).symm.trans h) (by decide)

/-- Outside MODE 0, green asks for the C bucket, and in MODE 1 for the P bucket too. -/
theorem polColour_green {mode : Nat} (hmode : mode ≠ 0) {pc c p len : Nat} (h : polColour mode pc c p len = 0) :
    pc = 0 ∧ len ≤ c ∧ (mode = 1 → len ≤ p) := by
  match mode, hmode with
  | 1, _ =>
    rw [polColour_mode_one] at h
    obtain ⟨hpc, hp, hc⟩ := first_of_green h
    exact ⟨hpc, hc, fun _ => hp⟩
  | n + 2, _ =>
    rw [polColour_mode_ge_two] at h
    obtain ⟨hpc, hc⟩ := first_of_green h
    exact ⟨hpc, hc, fun hone => absurd hone (by omega)⟩

/-- Yellow asks for the second bucket, and MODE 0 never answers it. -/
theorem polColour_yellow {mode pc c p len : Nat} (h : polColour mode pc c p len = 1) : mode ≠ 0 ∧ len ≤ p := by
  match mode with
  | 0 => exact absurd h Nat.zero_ne_one
  | 1 =>
    rw [polColour_mode_one] at h
    obtain ⟨_, hp⟩ := second_of_yellow h
    exact ⟨Nat.one_ne_zero, hp⟩
  | n + 2 =>
    rw [polColour_mode_ge_two] at h
    obtain ⟨_, hp⟩ := second_of_yellow h
    exact ⟨Nat.succ_ne_zero _, hp⟩

/-! ### Debits of Table 7-6 -/

theorem polDebit_green {mode : Nat} (hmode : mode ≠ 0) (c p len : Nat) :
    polDebit mode 0 c p len = (c - len, if mode = 1 then p - len else p) := by
  match mode, hmode with
  | 1, _ => rfl
  | n + 2, _ => exact congrArg (Prod.mk (c - len)) (if_neg (by omega)).symm

theorem polDebit_yellow {mode : Nat} (hmode : mode ≠ 0) (c p len : Nat) : polDebit mode 1 c p len = (c, p - len) := by
  match mode, hmode with
  | 1, _ => rfl
  | n + 2, _ => rfl

theorem polDebit_red (mode c p len : Nat) : polDebit mode 2 c p len = (c, p) := by
  match mode with
  | 0 => rfl
  | 1 => rfl
  | n + 2 => rfl

/-! ### Refills (R236) -/

theorem polRefill_le_depth (mode cir pir cbs pbs n c p : Nat) :
    (polRefill mode cir pir cbs pbs n c p).1 ≤ cbs ∧ (polRefill mode cir pir cbs pbs n c p).2 ≤ pbs := by
  unfold polRefill
  dsimp only
  split
  · exact ⟨Nat.le_refl _, Nat.le_refl _⟩
  · split <;> exact ⟨Nat.min_le_left _ _, Nat.min_le_left _ _⟩

/-! ### The statement -/

/-- Settles O34: each colour says which buckets hold the length, and those are the ones it debits; a refill is clipped to the depth. -/
theorem meterNeverOverdraws : Obligations.MeterNeverOverdraws := by
  unfold Obligations.MeterNeverOverdraws
  intro mode pc c p len cir pir cbs pbs n _
  refine ⟨fun hmode h => ?_, fun h => ?_, fun _ => polDebit_red mode c p len, polRefill_le_depth mode cir pir cbs pbs n c p⟩
  · obtain ⟨hpc, hc, hp⟩ := polColour_green hmode h
    rw [polDebit_green hmode]
    refine ⟨hpc, hc, Nat.sub_add_cancel hc, fun hone => ⟨hp hone, ?_⟩, fun htwo => ?_⟩
    · rw [if_pos hone]
      exact Nat.sub_add_cancel (hp hone)
    · rw [if_neg (by omega)]
  · obtain ⟨hmode, hp⟩ := polColour_yellow h
    exact ⟨hp, polDebit_yellow hmode c p len⟩

end Sys2Proof.Machine
end

