-- ==== Sys2Proof/Proofs/MeterAndGate.lean ====
section
/-!
SUPPORT. A head at stage 7 and at the gate (R233, R243, R257): the effect of POLICE and of ADMISSION_VERDICT on a head that waits for
them, and the statement that they complete.
-/
namespace Sys2Proof.Machine

/-! ### POLICE -/

section
variable {id : Nat} {k : Pkt} {s : State} (hrun : running s = true) (hk : pktOf s id = some k) (hstage : k.stage = .forwarded)
include hrun hk hstage

/-- R233: a head without POLICE_EN goes to the gate on this clock. -/
theorem exec_police_unmetered (hpol : k.res.policer = none) :
    exec (.police id) s = .next (putPkt s { k with stage := .metered, since := s.clk }) := by
  change execPolice id s = _
  rw [← run_kept (putPkt_pending s _) (putPkt_clk s _)]
  simp only [execPolice, hrun, hk, hstage, hpol, BEq.rfl, Bool.and_true, if_true]

/-- R233: a head with a policer is metered by it. -/
theorem exec_police_metered {i : Nat} (hpol : k.res.policer = some i) : exec (.police id) s = run true s (meter s k i) := by
  change execPolice id s = _
  simp only [execPolice, hrun, hk, hstage, hpol, BEq.rfl, Bool.and_true, if_true]

end

/-! ### The verdict on a head (R257) -/

section
variable {id : Nat} {k : Pkt} {u : State} (hk : pktOf u id = some k) (hready : gateReady k = true)
include hk hready

/-- R38: a short frame known bad is neither refused nor accepted. -/
theorem verdictOn_short_bad (hbad : (k.tail && k.fcsBad && decide (k.data.length ≤ 256)) = true) :
    verdictOn u id = dropGone u { k with staged := false } := by
  simp only [verdictOn, hk, hready, hbad, if_true]

theorem verdictOn_gate (hgood : (k.tail && k.fcsBad && decide (k.data.length ≤ 256)) = false) : verdictOn u id = atGate u k := by
  simp only [verdictOn, hk, hready, hgood, if_true, Bool.false_eq_true, if_false]

end

/-! ### ADMISSION_VERDICT -/

/-- R255: the head's turn comes after the releases, the re-steers and the heads before it. -/
theorem exec_admissionVerdict {id : Nat} {k : Pkt} {s : State} (hrun : running s = true) (hk : pktOf s id = some k)
    (hready : gateReady k = true) :
    exec (.admissionVerdict id) s
      = run true s (verdictOn ((headsBefore s k).foldl verdictOn ((resteersDue s).foldl resteerSlice (releases s))) id) := by
  change execAdmissionVerdict id s = _
  simp only [execAdmissionVerdict, hk, hrun, hready, Bool.and_true, if_true]

/-! ### The statement -/

/-- Settles O33: each command's guard holds for a head that waits for it, and its effect is that of the meter or of the verdict. -/
theorem headsMeterAndGate : Obligations.HeadsMeterAndGate := by
  unfold Obligations.HeadsMeterAndGate
  refine ⟨fun id k s hrun hk hstage => ⟨?_, ?_⟩, fun id k k' s u hrun hk hready hu hk' hready' => ⟨?_, ?_⟩⟩
  · intro hpol
    obtain rfl := pktOf_id hk
    exact ⟨_, exec_police_unmetered hrun hk hstage hpol, rfl,
      pktOf_putPkt (p := { k with stage := .metered, since := s.clk }) hk⟩
  · intro i hpol
    exact ⟨_, exec_police_metered hrun hk hstage hpol, rfl⟩
  · intro hbad
    have htail : k'.tail = true := (Bool.and_eq_true_iff.1 (Bool.and_eq_true_iff.1 hbad).1).1
    rw [exec_admissionVerdict hrun hk hready, ← hu, verdictOn_short_bad hk' hready' hbad]
    obtain rfl := pktOf_id hk'
    exact ⟨_, rfl, pktOf_dropGone (p := { k' with staged := false }) htail, rfl⟩
  · intro hgood
    rw [exec_admissionVerdict hrun hk hready, ← hu, verdictOn_gate hk' hready' hgood]
    exact ⟨_, rfl, rfl⟩

end Sys2Proof.Machine
end

