-- ==== Sys2Proof/Proofs/RegisterWrites.lean ====
section
/-!
SUPPORT. The write of a register by a command (R51-R54, R61-R64): the page and the register it names, what reaches the register when
nothing refuses or holds the write, and what the register's word reads afterwards.
-/
namespace Sys2Proof.Machine

/-! ### Pages of the directory (Table 2-1) -/

/-- No two rows of the directory share a page. -/
theorem pageDir_disjoint : ∀ a ∈ pageDir, ∀ b ∈ pageDir, a = b ∨ a.base + a.insts * a.pages ≤ b.base
    ∨ b.base + b.insts * b.pages ≤ a.base := by decide

/-- A page within a row's range is that row's. -/
theorem pageRow_of_mem {r : DirRow} {page : Nat} (hr : r ∈ pageDir) (hlo : r.base ≤ page)
    (hhi : page < r.base + r.insts * r.pages) : pageRow page = some r := by
  unfold pageRow
  cases hfind : pageDir.find? fun r => decide (r.base ≤ page) && decide (page < r.base + r.insts * r.pages) with
  | none =>
    have hout := List.find?_eq_none.1 hfind r hr
    simp [hlo, hhi] at hout
  | some x =>
    have hx := List.find?_some hfind
    rw [Bool.and_eq_true, decide_eq_true_eq, decide_eq_true_eq] at hx
    rcases pageDir_disjoint x (List.mem_of_find?_eq_some hfind) r hr with hsame | hbelow | habove
    · rw [hsame]
    · omega
    · omega

section
variable {b : Blk} {i pn : Nat} (hrow : rowOf b ∈ pageDir) (hfirst : (rowOf b).first ≤ i)
  (hinst : i < (rowOf b).first + (rowOf b).insts) (hpn : pn < (rowOf b).pages)

include hrow hfirst hinst hpn in
theorem pageRow_pageOf : pageRow (pageOf b i pn) = some (rowOf b) := by
  have hlast : (i - (rowOf b).first) * (rowOf b).pages + (rowOf b).pages ≤ (rowOf b).insts * (rowOf b).pages := by
    rw [← Nat.succ_mul]
    exact Nat.mul_le_mul_right _ (by omega)
  exact pageRow_of_mem hrow (by unfold pageOf; omega) (by unfold pageOf; omega)

include hfirst hpn in
theorem instOf_pageOf : instOf (rowOf b) (pageOf b i pn) = i := by
  have hoff : pageOf b i pn - (rowOf b).base = pn + (i - (rowOf b).first) * (rowOf b).pages := by unfold pageOf; omega
  rw [instOf, hoff, Nat.add_mul_div_right _ _ (by omega), Nat.div_eq_of_lt hpn]
  omega

include hpn in
theorem pnumOf_pageOf : pnumOf (rowOf b) (pageOf b i pn) = pn := by
  have hoff : pageOf b i pn - (rowOf b).base = pn + (i - (rowOf b).first) * (rowOf b).pages := by unfold pageOf; omega
  rw [pnumOf, hoff, Nat.add_mul_mod_self_right, Nat.mod_eq_of_lt hpn]

end

/-- The register at an offset of the body of a page of a block. -/
def bodyReg (b : Blk) (pn off : Nat) : Option (Reg × Nat) :=
  ((regsOf b).find? fun g => (g.page == pn || g.page == 255) && decide (g.off ≤ off) && decide (off < g.off + g.count * g.stride)
    && decide ((off - g.off) % g.stride = 0)).map fun g => (g, (off - g.off) / g.stride)

theorem regAt_body {page off : Nat} {r : DirRow} (hrow : pageRow page = some r) (hoff : 0x100 ≤ off) :
    regAt page off = bodyReg r.blk (pnumOf r page) off := by
  have hbody : ¬off < 0x100 := by omega
  simp only [regAt, bodyReg, hrow, hbody, if_false, decide_false, Bool.false_or]

/-! ### The state a write leaves -/

/-- Of a state, only the registers have changed. -/
def RegsOnly (s t : State) : Prop := t = { s with cfg := t.cfg }

theorem RegsOnly.trans {s t u : State} (h : RegsOnly s t) (k : RegsOnly t u) : RegsOnly s u := by
  unfold RegsOnly at *
  rw [k, h]

theorem RegsOnly.foldl {α : Type} (f : State → α → State) (hf : ∀ s a, RegsOnly s (f s a)) (l : List α) (s : State) :
    RegsOnly s (l.foldl f s) := by
  induction l generalizing s with
  | nil => rfl
  | cons a r ih => exact (hf s a).trans (ih _)

theorem oset_regsOnly (s : State) (b : Blk) (i pn obj idx w v : Nat) : RegsOnly s (oset s b i pn obj idx w v) := rfl

theorem plainWrite_regsOnly (s : State) (page off : Nat) (keyed : Bool) (v : Nat) :
    RegsOnly s (plainWrite s page off keyed v) := by
  unfold plainWrite
  split
  · rfl
  · split
    · rfl
    · dsimp only
      split <;> rfl

theorem actW_setAct_self (s : State) (k k' : Nat) : actW (setAct s k (actW s k)) k' = actW s k' := by
  by_cases h : k' = k
  · rw [h, actW_setAct_same]
  · rw [actW_setAct_other s h]

/-- Words set to zero one after the other read as zero, every other word as before. -/
theorem actW_foldl_zero {α : Type} (key : α → Nat) (l : List α) (s : State) (k : Nat) :
    actW (l.foldl (fun a x => setAct a (key x) 0) s) k = if k ∈ l.map key then 0 else actW s k := by
  induction l generalizing s with
  | nil => rfl
  | cons x r ih =>
    rw [List.foldl_cons, ih]
    by_cases hk : k = key x
    · simp [hk]
    · simp [hk]

/-- A field below the one set keeps its value. -/
theorem bitsOf_putBits_below (v x : Nat) {hi lo hi' lo' : Nat} (hlo : lo ≤ 32) (hlo' : lo' ≤ hi' + 1) (hbelow : hi' < lo) :
    bitsOf (putBits v hi lo x % 2 ^ 32) hi' lo' = bitsOf v hi' lo' := by
  have hfield : bitsOf v hi lo * 2 ^ lo ≤ v :=
    Nat.le_trans (Nat.mul_le_mul_right _ (Nat.mod_le _ _)) (Nat.div_mul_le_self v _)
  have hlow : putBits v hi lo x % 2 ^ 32 % 2 ^ lo = v % 2 ^ lo := by
    rw [Nat.mod_mod_of_dvd _ (Nat.pow_dvd_pow 2 hlo), putBits, Nat.add_mul_mod_self_right, Nat.mul_comm,
      Nat.sub_mul_mod (by rwa [Nat.mul_comm])]
  have hpart : ∀ n, bitsOf n hi' lo' = n % 2 ^ lo % 2 ^ (hi' + 1) / 2 ^ lo' := by
    intro n
    rw [Nat.mod_mod_of_dvd _ (Nat.pow_dvd_pow 2 hbelow), bitsOf, ← Nat.mod_mul_right_div_self, ← Nat.pow_add,
      Nat.add_sub_cancel' hlo']
  rw [hpart, hpart, hlow]

/-- A register none of whose fields takes the write keeps every active word. -/
theorem actW_plainWrite_of_kept {s : State} {page off v : Nat} {keyed : Bool} {g : Reg × Nat} (hreg : regAt page off = some g)
    (hkept : ∀ old, writeWord g.1.flds keyed old v = old) (k : Nat) : actW (plainWrite s page off keyed v) k = actW s k := by
  simp only [plainWrite, hreg]
  split
  · rfl
  · rw [hkept, BitVec.ofNat_toNat, BitVec.setWidth_eq]
    split
    · rw [actW_setShd, actW_setAct_self]
    · exact actW_setAct_self s _ k

/-! ### The write itself -/

/-- R54: with no host write ahead of it and none done before its turn, a command's write is made as it stands. -/
theorem commandWrite_of_busFree {c : Instr} {s : State} {req : Requester} {page off be : Nat} {v : Word}
    (hw : writeOf c = some (req, page, off, be, v)) (hdue : writeDue s c = true) (hfree : busFree s req page off = true) :
    commandWrite s c = oneWrite s req page off be v := by
  unfold commandWrite busWrite
  cases req with
  | host =>
    have hearly : s.pg.early = 0 := by simpa [busFree] using hfree
    simp [hw, hdue, hearly]
  | holtarun =>
    have hahead : (hostAhead page off s.pending).drop s.pg.early = [] := by simpa [busFree] using hfree
    simp [hw, hdue, hahead]

/-- R52, R61: a whole write at the body of a ready page locks the page again and reaches the register. -/
theorem oneWrite_body {s : State} {req : Requester} {page off : Nat} (hreq : reqHere s req = true)
    (hready : pageReady s page = true) (hlo : 0x100 ≤ off) (hhi : off < 4096) (halign : off % 4 = 0) (v : Word) :
    oneWrite s req page off 15 v = bodyWrite (setLock s req page false) page off (isUnlocked s req page) v.toNat := by
  have hthere : ¬(reqHere s req = false ∨ pageReady s page = false ∨ 4096 ≤ off) := by simp [hreq, hready, hhi]
  unfold oneWrite
  rw [if_neg hthere]
  dsimp only
  rw [if_neg (by omega), if_neg (by omega), if_neg (by omega)]

/-- A write of a value at the body of page `pn` of unit `i` of a block reaches register element `g`, and no rule refuses it, holds it or
trims its value, whatever the state. -/
structure Accepted (b : Blk) (i pn off v : Nat) (g : Reg × Nat) : Prop where
  row : rowOf b ∈ pageDir := by decide
  inst : (rowOf b).first ≤ i ∧ i < (rowOf b).first + (rowOf b).insts
  page : pn < (rowOf b).pages := by decide
  body : 0x100 ≤ off ∧ off < 4096 ∧ off % 4 = 0 := by decide
  reg : bodyReg (rowOf b).blk pn off = some g := by rfl
  /-- The block has no register that stands on some of its pages only, and no rule of its own before the fields. -/
  plain : (rowOf b).blk ∉ [.gze, .tel, .lek, .chd, .glb, .dmac] := by decide
  legal : reservedIn g.1.flds v = false
  value : ∀ s, valueBad s (rowOf b) i pn off v = false := by intro; rfl
  free : ∀ s, writeHeld s (rowOf b) pn (pageOf b i pn) off v = false := by intro; rfl
  whole : ∀ s, writeValue s (rowOf b) i pn off v = v := by intro; rfl
  left : ∀ s, leftBad s (rowOf b) i pn off g.2 = false := by intro; rfl

theorem Accepted.pageRow_eq {b : Blk} {i pn off v : Nat} {g : Reg × Nat} (h : Accepted b i pn off v g) :
    pageRow (pageOf b i pn) = some (rowOf b) := pageRow_pageOf h.row h.inst.1 h.inst.2 h.page

theorem Accepted.regAt_eq {b : Blk} {i pn off v : Nat} {g : Reg × Nat} (h : Accepted b i pn off v g) :
    regAt (pageOf b i pn) off = some g := by
  rw [regAt_body h.pageRow_eq h.body.1, pnumOf_pageOf h.page, h.reg]

theorem regThere_of_plain {page off : Nat} {r : DirRow} (hrow : pageRow page = some r)
    (hplain : r.blk ∉ [Blk.gze, .tel, .lek, .chd, .glb, .dmac]) : regThere page off = true := by
  simp only [regThere, hrow]
  split <;> simp_all

theorem bodyWrite_accepted {b : Blk} {i pn off v : Nat} {g : Reg × Nat} (h : Accepted b i pn off v g) (s : State) (keyed : Bool) :
    bodyWrite s (pageOf b i pn) off keyed v
      = writeEffect s (plainWrite s (pageOf b i pn) off keyed v) (rowOf b) i pn (pageOf b i pn) off g.2 keyed v := by
  have hglb : (rowOf b).blk ≠ .glb := fun e => h.plain (by rw [e]; decide)
  have hdmac : (rowOf b).blk ≠ .dmac := fun e => h.plain (by rw [e]; decide)
  simp [bodyWrite, h.pageRow_eq, h.regAt_eq, regThere_of_plain h.pageRow_eq h.plain, instOf_pageOf h.inst.1 h.page, pnumOf_pageOf h.page,
    h.legal, h.value, h.free, h.whole, h.left, hglb, hdmac]

/-! ### Values a register takes whole -/

/-- A field whose legal values are all that its bits can hold has no reserved encoding (R53). -/
theorem reservedIn_eq_false {fl : List Fld} (h : ∀ f ∈ fl, f.min = 0 ∧ f.max + 1 = 2 ^ (f.hi + 1 - f.lo)) (v : Nat) :
    reservedIn fl v = false := by
  rw [reservedIn, List.any_eq_false]
  intro f hf
  obtain ⟨hmin, hmax⟩ := h f hf
  have hbits : bitsOf v f.hi f.lo < 2 ^ (f.hi + 1 - f.lo) := Nat.mod_lt _ (Nat.two_pow_pos _)
  have hin : ¬bitsOf v f.hi f.lo < f.min ∧ ¬f.max < bitsOf v f.hi f.lo := by omega
  simp [hin]

/-- The bit that a command's write sets (log entry 22). -/
theorem bit_withBits (v : Word) {n : Nat} (hn : n < 32) : bit (withBits v n n 1).toNat n = true := by
  have h := bitsOf_putBits v.toNat 1 (Nat.le_refl n) hn
  rw [bitsOf, Nat.add_sub_cancel_left, Nat.pow_one] at h
  rw [withBits, BitVec.toNat_ofNat, bit, h]
  rfl

/-! ### A command that is a write -/

/-- The state once the fields of the register have taken a command's write, before the register does anything else. -/
def written (s : State) (req : Requester) (page off : Nat) (v : Word) : State :=
  plainWrite (setLock s req page false) page off (isUnlocked s req page) v.toNat

theorem written_frame (s : State) (req : Requester) (page off : Nat) (v : Word) :
    written s req page off v = { s with cfg := (written s req page off v).cfg, pg := (written s req page off v).pg } := by
  have h : RegsOnly (setLock s req page false) (written s req page off v) := plainWrite_regsOnly _ _ _ _ _
  rw [h]
  rfl

theorem actW_written_of_kept {s : State} {req : Requester} {page off : Nat} {v : Word} {g : Reg × Nat}
    (hreg : regAt page off = some g) (hkept : ∀ keyed old, writeWord g.1.flds keyed old v.toNat = old) (k : Nat) :
    actW (written s req page off v) k = actW s k :=
  actW_plainWrite_of_kept hreg (hkept _) k

/-- A command's accepted write has its register's effect. -/
theorem commandWrite_accepted {c : Instr} {s : State} {req : Requester} {b : Blk} {i pn off : Nat} {v : Word} {g : Reg × Nat}
    (hw : writeOf c = some (req, pageOf b i pn, off, 15, v)) (hdue : writeDue s c = true) (hacc : Accepted b i pn off v.toNat g)
    (hreq : reqHere s req = true) (hready : pageReady s (pageOf b i pn) = true) (hfree : busFree s req (pageOf b i pn) off = true) :
    commandWrite s c = writeEffect (setLock s req (pageOf b i pn) false) (written s req (pageOf b i pn) off v) (rowOf b) i pn
      (pageOf b i pn) off g.2 (isUnlocked s req (pageOf b i pn)) v.toNat := by
  obtain ⟨hlo, hhi, halign⟩ := hacc.body
  rw [commandWrite_of_busFree hw hdue hfree, oneWrite_body hreq hready hlo hhi halign, bodyWrite_accepted hacc, written]

end Sys2Proof.Machine
end

