-- ==== Sys2Proof/Proofs/RegisterCommands.lean ====
section
/-!
SUPPORT. Registers whose write does something at once (R270, R330, R403): the effect of CHK_CTL_GO, LOG_CLR and EV_SIG, and the
statement that they complete.
-/
namespace Sys2Proof.Machine

/-! ### The three registers take their writes -/

theorem evSig_accepted (v : Nat) : Accepted .holx 16 0 0x108 v (⟨0, 0x108, 0x4, 1, 0x0, [holxEvSigLine]⟩, 0) where
  inst := by decide
  legal := reservedIn_eq_false (by decide) _

theorem chkCtl_accepted {sl : Nat} (hsl : sl < 8) (v : Nat) :
    Accepted .lgr sl 0 0x100 v (⟨0, 0x100, 0x4, 1, 0x6, [lgrChkCtlFlipEn, lgrChkCtlQuiescentEn, lgrChkCtlGo]⟩, 0) where
  inst := ⟨Nat.zero_le sl, hsl⟩
  legal := reservedIn_eq_false (by decide) _

theorem logClr_accepted {i : Nat} (hi : i < 192) (v : Nat) :
    Accepted .hch i 0 0x10C v (⟨0, 0x10c, 0x4, 1, 0x0, [hchLogClrClear]⟩, 0) where
  inst := ⟨Nat.zero_le i, hi⟩
  legal := reservedIn_eq_false (by decide) _

/-! ### EV_SIG (R403) -/

/-- The state after a write of EV_SIG: a software line it names has a pulse. -/
def signalled (s : State) (req : Requester) (v : Word) : State :=
  let w := written s req (pageOf .holx 16 0) 0x108 v
  if 192 ≤ v.toNat % 256 then pulse w (v.toNat % 256) else w

theorem signalled_frame (s : State) (req : Requester) (v : Word) :
    signalled s req v
      = { s with cfg := (signalled s req v).cfg, pg := (signalled s req v).pg, ev := (signalled s req v).ev } := by
  unfold signalled
  dsimp only
  rw [written_frame]
  split <;> rfl

theorem actW_signalled (s : State) (req : Requester) (v : Word) (k : Nat) : actW (signalled s req v) k = actW s k := by
  have hw := actW_written_of_kept (s := s) (req := req) (v := v) (evSig_accepted v.toNat).regAt_eq (fun _ _ => rfl) k
  unfold signalled
  dsimp only
  split <;> exact hw

theorem signalled_ev_software {v : Word} (hline : 192 ≤ v.toNat % 256) (s : State) (req : Requester) :
    (signalled s req v).ev
      = storeSet 0 (v.toNat % 256) (min 65535 (storeGet 0 s.ev (v.toNat % 256) + 1)) s.ev := by
  simp only [signalled, hline, if_true, pulse]
  rw [written_frame]

theorem signalled_ev_other {v : Word} (hline : v.toNat % 256 < 192) (s : State) (req : Requester) :
    (signalled s req v).ev = s.ev := by
  have hhard : ¬192 ≤ v.toNat % 256 := by omega
  simp only [signalled, hhard, if_false]
  rw [written_frame]

theorem writeEffect_evSig (s t : State) (page n v : Nat) (keyed : Bool) :
    writeEffect s t (rowOf .holx) 16 0 page 0x108 n keyed v = if 192 ≤ v % 256 then pulse t (v % 256) else t := rfl

theorem exec_evSig {req : Requester} {s : State} (hreq : reqHere s req = true) (hready : pageReady s (pageOf .holx 16 0) = true)
    (hfree : busFree s req (pageOf .holx 16 0) 0x108 = true) (v : Word) :
    exec (.evSig req v) s = .next (signalled s req v) := by
  change execEvSig req v s = _
  rw [execEvSig, commandWrite_accepted rfl rfl (evSig_accepted v.toNat) hreq hready hfree, writeEffect_evSig]
  exact run_kept (u := signalled s req v) (by rw [signalled_frame]) (by rw [signalled_frame])

/-! ### CHK_CTL_GO (R270) -/

/-- The state after a write of CHK_CTL with GO: a check of the slice is due, with what it takes at this clock. -/
def checkAsked (s : State) (req : Requester) (sl : Nat) (v : Word) : State :=
  let w := written s req (pageOf .lgr sl 0) 0x100 (withBits v 0 0 1)
  { w with net := { w.net with checks := w.net.checks ++ [checkNow w sl 3] } }

theorem checkAsked_frame (s : State) (req : Requester) (sl : Nat) (v : Word) :
    checkAsked s req sl v = { s with
      cfg := (checkAsked s req sl v).cfg
      pg := (checkAsked s req sl v).pg
      net := { s.net with
        checks := s.net.checks ++ [checkNow (written s req (pageOf .lgr sl 0) 0x100 (withBits v 0 0 1)) sl 3] } } := by
  unfold checkAsked
  dsimp only
  generalize hc : checkNow _ _ _ = c
  rw [written_frame]

theorem writeEffect_chkCtl {v : Nat} (hgo : bit v 0 = true) (s t : State) (sl page n : Nat) (keyed : Bool) :
    writeEffect s t (rowOf .lgr) sl 0 page 0x100 n keyed v
      = { t with net := { t.net with checks := t.net.checks ++ [checkNow t sl 3] } } := if_pos ⟨rfl, hgo⟩

theorem exec_chkCtlGo {req : Requester} {sl : Nat} {s : State} (hsl : sl < 8) (hreq : reqHere s req = true)
    (hready : pageReady s (pageOf .lgr sl 0) = true) (hfree : busFree s req (pageOf .lgr sl 0) 0x100 = true) (v : Word) :
    exec (.chkCtlGo req sl v) s = .next (checkAsked s req sl v) := by
  have hgo : bit (withBits v 0 0 1).toNat 0 = true := bit_withBits v (by decide)
  change execChkCtlGo req sl v s = _
  rw [execChkCtlGo, commandWrite_accepted rfl rfl (chkCtl_accepted hsl (withBits v 0 0 1).toNat) hreq hready hfree,
    decide_eq_true hsl, writeEffect_chkCtl hgo]
  exact run_kept (u := checkAsked s req sl v) (by rw [checkAsked_frame]) (by rw [checkAsked_frame])

/-! ### LOG_CLR (R330) -/

/-- The state after a write of LOG_CLR with CLEAR. -/
def logCleared (s : State) (req : Requester) (i : Nat) (v : Word) : State :=
  logClear (written s req (pageOf .hch i 0) 0x10C (withBits v 0 0 1)) i

theorem logClear_regsOnly (s : State) (i : Nat) : RegsOnly s (logClear s i) :=
  RegsOnly.trans (t := fset (fset s hchLogStatCount i 0 0) hchLogStatLost i 0 0) rfl
    (RegsOnly.foldl _ (fun a _ => oset_regsOnly a _ _ _ _ _ _ _) _ _)

theorem logCleared_frame (s : State) (req : Requester) (i : Nat) (v : Word) :
    logCleared s req i v = { s with cfg := (logCleared s req i v).cfg, pg := (logCleared s req i v).pg } := by
  have h : RegsOnly (written s req (pageOf .hch i 0) 0x10C (withBits v 0 0 1)) (logCleared s req i v) := logClear_regsOnly _ _
  rw [h, written_frame]

theorem writeEffect_logClr {v : Nat} (hclear : bit v 0 = true) (s t : State) (i page n : Nat) (keyed : Bool) :
    writeEffect s t (rowOf .hch) i 0 page 0x10C n keyed v = logClear t i := if_pos ⟨rfl, rfl, hclear⟩

theorem exec_logClr {req : Requester} {i : Nat} {s : State} (hi : i < 192) (hreq : reqHere s req = true)
    (hready : pageReady s (pageOf .hch i 0) = true) (hfree : busFree s req (pageOf .hch i 0) 0x10C = true) (v : Word) :
    exec (.logClr req i v) s = .next (logCleared s req i v) := by
  have hclear : bit (withBits v 0 0 1).toNat 0 = true := bit_withBits v (by decide)
  change execLogClr req i v s = _
  rw [execLogClr, commandWrite_accepted rfl rfl (logClr_accepted hi (withBits v 0 0 1).toNat) hreq hready hfree,
    decide_eq_true hi, writeEffect_logClr hclear]
  exact run_kept (u := logCleared s req i v) (by rw [logCleared_frame]) (by rw [logCleared_frame])

/-- Keys of the words of a channel's error log. -/
def logKeys (i : Nat) : List Nat := (List.range 64).map fun n => objKey (pageOf .hch i 1) 1 (n / 4) (n % 4)

theorem mem_logKeys (i : Nat) {k w : Nat} (hk : k < 16) (hw : w < 4) : objKey (pageOf .hch i 1) 1 k w ∈ logKeys i := by
  refine List.mem_map.2 ⟨4 * k + w, List.mem_range.2 (by omega), ?_⟩
  congr 1 <;> omega

/-- LOG_STAT is a register, and a register's key is no object's. -/
theorem logStat_notin_logKeys (i : Nat) : fldKey hchLogStatCount i 0 ∉ logKeys i := by
  have hkey : fldKey hchLogStatCount i 0 = (2048 + i * 3) * 4096 + 0x108 := rfl
  rw [logKeys, List.mem_map, hkey]
  rintro ⟨n, _, hn⟩
  unfold objKey at hn
  omega

theorem actW_logClear (s : State) (i k : Nat) :
    actW (logClear s i) k
      = if k ∈ logKeys i then 0 else actW (fset (fset s hchLogStatCount i 0 0) hchLogStatLost i 0 0) k :=
  actW_foldl_zero _ _ _ _

theorem oget_logClear (s : State) (i : Nat) {k w : Nat} (hk : k < 16) (hw : w < 4) : oget (logClear s i) .hch i 1 1 k w = 0 := by
  rw [oget, actW_logClear, if_pos (mem_logKeys i hk hw)]
  rfl

theorem fget_logClear_count (s : State) (i : Nat) : fget (logClear s i) hchLogStatCount i 0 = 0 := by
  have hkey : fldKey hchLogStatLost i 0 = fldKey hchLogStatCount i 0 := rfl
  rw [fget, actW_logClear, if_neg (logStat_notin_logKeys i), fset, hkey, actW_setAct_same, BitVec.toNat_ofNat,
    bitsOf_putBits_below _ _ (by decide) (by decide) (by decide)]
  exact fget_fset_same s hchLogStatCount i 0 0 (by decide) (by decide)

theorem fget_logClear_lost (s : State) (i : Nat) : fget (logClear s i) hchLogStatLost i 0 = 0 := by
  have hkey : fldKey hchLogStatLost i 0 = fldKey hchLogStatCount i 0 := rfl
  rw [fget, actW_logClear, hkey, if_neg (logStat_notin_logKeys i), ← hkey]
  exact fget_fset_same _ hchLogStatLost i 0 0 (by decide) (by decide)

/-! ### The statement -/

/-- Settles O15: each write is accepted, and its register's effect is the one stated. -/
theorem registerCommands : Obligations.RegisterCommands := by
  unfold Obligations.RegisterCommands
  refine ⟨fun req v s hreq hready hfree => ?_, fun req sl v s hsl hreq hready hfree => ?_,
    fun req i v s hi hreq hready hfree => ?_⟩
  · refine ⟨_, exec_evSig hreq hready hfree v, signalled_frame s req v, actW_signalled s req v, fun hline => ?_,
      fun hline => signalled_ev_other hline s req⟩
    rw [signalled_ev_software hline]
    exact ⟨storeGet_set_same _ _ _ _, fun l hl => storeGet_set_other _ _ _ hl _⟩
  · exact ⟨_, _, exec_chkCtlGo hsl hreq hready hfree v, checkAsked_frame s req sl v, rfl, rfl⟩
  · exact ⟨_, exec_logClr hi hreq hready hfree v, logCleared_frame s req i v, fget_logClear_count _ i, fget_logClear_lost _ i,
      fun k w hk hw => oget_logClear _ i hk hw⟩

end Sys2Proof.Machine
end

