-- ==== Sys2Proof/Proofs/Keeper.lean ====
section
/-!
SUPPORT. The keeper (R250, R257, R264, R270): what an acceptance says of the queue and the deadline, what a sweep and the end of a carry
do, and the refutation of the statement about all of them, whose clause on the conservation check leaves out its injection (R463).
-/
namespace Sys2Proof.Machine

/-! ### Acceptance (R257) -/

/-- A test that refuses was not met by a head that was not refused. -/
theorem passed_of_not_refused {c : Prop} [Decidable c] {r : Nat} {x w : Verdict} (h : (if c then .no r else x) = w)
    (hw : ∀ n, w ≠ .no n) : ¬c ∧ x = w := by
  by_cases hc : c
  · exact absurd ((if_pos hc).symm.trans h).symm (hw r)
  · exact ⟨hc, (if_neg hc).symm.trans h⟩

section
variable {s : State} {p : Pkt} {port cls len g d dl sf v : Nat}

/-- What every accepted head has passed, whatever its path. -/
theorem decideUni_open {w : Verdict} (h : decideUni s p port cls len g d dl sf = w) (hw : ∀ n, w ≠ .no n) :
    d ≠ 0 ∧ queueOn s port cls = true ∧ (queue s port cls).lost = false ∧ (queue s port cls).rate ≠ 0 := by
  obtain ⟨hd, h⟩ := passed_of_not_refused h hw
  obtain ⟨_, h⟩ := passed_of_not_refused h hw
  obtain ⟨hon, h⟩ := passed_of_not_refused h hw
  obtain ⟨hlost, h⟩ := passed_of_not_refused h hw
  obtain ⟨hrate, _⟩ := passed_of_not_refused h hw
  exact ⟨hd, eq_true_of_ne_false hon, eq_false_of_ne_true hlost, hrate⟩

/-- The two paths of an acceptance: on chip with the cells and a descriptor free and nothing spilled, or through Burlap where the queue
may spill and at least 4 µs remain; on either the virtual finish time is not later than the deadline. -/
theorem decideUni_path {w : Verdict} (h : decideUni s p port cls len g d dl sf = w) (hw : ∀ n, w ≠ .no n) :
    (∃ v, w = .on v ∧ (queue s port cls).spill = false
      ∧ ownerFits s (sliceOf port) (8 * (port % 48) + cls) (cellsOf len) = true ∧ descOn s (sliceOf port) < 131072
      ∧ later v dl = false
      ∧ v = vftOf s port cls (tbOn s p.ep port cls sf) (admBits len g (admQ s p.ep port cls 1 % 256)))
    ∨ ∃ v, w = .brl v ∧ bit (admQ s p.ep port cls 1) 8 = true ∧ 4000 ≤ d ∧ later v dl = false
      ∧ descBrl s (sliceOf port) < fgetP s p.ep admDescBrlLimitLimit (sliceOf port) 0 := by
  unfold decideUni at h
  dsimp only at h
  -- the five tests of `decideUni_open`
  iterate 5 replace h := (passed_of_not_refused h hw).2
  split at h
  case isTrue hon =>
    obtain ⟨hlater, rfl⟩ := passed_of_not_refused h hw
    simp only [Bool.and_eq_true, Bool.not_eq_true', decide_eq_true_eq] at hon
    obtain ⟨⟨⟨hspill, _⟩, hroom⟩, hdesc⟩ := hon
    exact .inl ⟨_, rfl, hspill, hroom, hdesc, eq_false_of_ne_true hlater, rfl⟩
  case isFalse =>
    split at h
    case isTrue hbrl =>
      obtain ⟨hlater, rfl⟩ := passed_of_not_refused h hw
      simp only [Bool.and_eq_true, decide_eq_true_eq] at hbrl
      obtain ⟨⟨⟨hspill, htime⟩, hdesc⟩, _⟩ := hbrl
      exact .inr ⟨_, rfl, hspill, htime, eq_false_of_ne_true hlater, hdesc⟩
    case isFalse =>
      -- neither path is open: what is left gives a reason of refusal
      exfalso
      repeat' split at h
      all_goals exact hw _ h.symm

end

/-! ### KEEPER_SWEEP (R250) -/

section
variable {α : Type}

/-- Entries changed under their keys are found changed. -/
theorem storeFind_map {f : Nat × α → Nat × α} (hf : ∀ e, (f e).1 = e.1) (st : Store α) (k : Nat) :
    storeFind (st.map f) k = (storeFind st k).map fun v => (f (k, v)).2 := by
  induction st with
  | nil => rfl
  | cons e r ih =>
    obtain ⟨j, v⟩ := e
    have hhead : f (j, v) = (j, (f (j, v)).2) := Prod.ext (hf _) rfl
    rw [List.map_cons, hhead]
    by_cases hj : j = k
    · simp [storeFind, hj]
    · simp [storeFind, hj, ih]

theorem storeSorted_map {f : Nat × α → Nat × α} (hf : ∀ e, (f e).1 = e.1) {st : Store α} (h : storeSorted st = true) :
    storeSorted (st.map f) = true := by
  induction st with
  | nil => rfl
  | cons e r ih =>
    obtain ⟨habove, hr⟩ := (storeSorted_cons e r).1 h
    refine (storeSorted_cons _ _).2 ⟨fun x hx => ?_, ih hr⟩
    obtain ⟨y, hy, rfl⟩ := List.mem_map.1 hx
    rw [hf, hf]
    exact habove y hy

theorem storeFind_of_above {k : Nat} {st : Store α} (h : storeAbove k st) : storeFind st k = none := by
  induction st with
  | nil => rfl
  | cons e r ih =>
    have hne : e.1 ≠ k := Nat.ne_of_gt (h e List.mem_cons_self)
    simp only [storeFind, hne, if_false]
    exact ih fun x hx => h x (List.mem_cons_of_mem _ hx)

/-- Dropping the entries that read as an unlisted key reads changes no value. -/
theorem storeGet_filter_default [DecidableEq α] (d : α) {st : Store α} (h : storeSorted st = true) (k : Nat) :
    storeGet d (st.filter fun e => e.2 != d) k = storeGet d st k := by
  induction st with
  | nil => rfl
  | cons e r ih =>
    obtain ⟨habove, hr⟩ := (storeSorted_cons e r).1 h
    have ih := ih hr
    unfold storeGet at ih ⊢
    by_cases hv : e.2 = d
    · rw [List.filter_cons_of_neg (by simp [hv]), ih]
      by_cases hk : e.1 = k
      · subst hk
        simp [storeFind, storeFind_of_above habove, hv]
      · simp [storeFind, hk]
    · rw [List.filter_cons_of_pos (by simp [hv])]
      by_cases hk : e.1 = k
      · simp [storeFind, hk]
      · simp only [storeFind, hk, if_false]
        exact ih

end

/-- What a sweep does with the entry of a queue. -/
def sweepEntry (s : State) (sl : Nat) (e : Nat × QueueSt) : Nat × QueueSt :=
  if e.1 / 432 = sl ∧ e.1 % 9 < 8 ∧ e.2.idle = false ∧ later (admNow s) e.2.v = true then (e.1, { e.2 with idle := true }) else e

theorem sweepEntry_key (s : State) (sl : Nat) (e : Nat × QueueSt) : (sweepEntry s sl e).1 = e.1 := by
  unfold sweepEntry
  split <;> rfl

/-- A class queue of the slice whose V has passed becomes idle. -/
theorem sweepEntry_class (s : State) {sl port c : Nat} (hport : sliceOf port = sl) (hc : c < 8) (q : QueueSt) :
    (sweepEntry s sl (qKey port c, q)).2 = { q with idle := q.idle || later (admNow s) q.v } := by
  have hslice : qKey port c / 432 = sl := by unfold sliceOf at hport; unfold qKey; omega
  have hclass : qKey port c % 9 < 8 := by unfold qKey; omega
  unfold sweepEntry
  by_cases hbusy : q.idle = false ∧ later (admNow s) q.v = true
  · rw [if_pos ⟨hslice, hclass, hbusy⟩, hbusy.1, hbusy.2]
    rfl
  · rw [if_neg fun h => hbusy h.2.2]
    have hkept : (q.idle || later (admNow s) q.v) = q.idle := by
      cases hidle : q.idle
      · simpa [hidle] using hbusy
      · rfl
    rw [hkept]

/-- The state after a sweep of a slice. -/
def swept (s : State) (sl : Nat) : State :=
  { s with net := { s.net with
      keptAt := storePut sl s.clk s.net.keptAt
      queues := (s.net.queues.map (sweepEntry s sl)).filter fun e => e.2 != queueReset } }

/-- A millisecond after the last, the slice is swept. -/
theorem exec_keeperSweep {s : State} {sl : Nat} (hsl : sl < 8) (hrun : running s = true)
    (hdue : passedNs s (storeGet 0 s.net.keptAt sl) 1000000 = true) : exec (.keeperSweep sl) s = .next (swept s sl) := by
  change execKeeperSweep sl s = _
  rw [execKeeperSweep, decide_eq_true hsl, hrun, hdue]
  rfl

/-- After a sweep no class queue of the slice whose V has passed is busy, and nothing else of a queue has changed. -/
theorem queue_swept {s : State} (hsorted : storeSorted s.net.queues = true) {sl port c : Nat} (hport : sliceOf port = sl) (hc : c < 8) :
    queue (swept s sl) port c
      = { queue s port c with idle := (queue s port c).idle || later (admNow s) (queue s port c).v } := by
  have hkey := sweepEntry_key s sl
  simp only [queue, swept]
  rw [storeGet_filter_default _ (storeSorted_map hkey hsorted), storeGet, storeFind_map hkey]
  simp only [storeGet, sweepEntry_class s hport hc]
  cases storeFind s.net.queues (qKey port c) <;> rfl

/-! ### CARRY_END (R264) -/

/-- The carry of a class queue ends at its V. -/
theorem exec_carryEnd {s : State} {port cls v r : Nat} (hport : port < 384) (hcls : cls < 8)
    (hcarry : (queue s port cls).carry = some (v, r)) (hdue : later v (admNow s) = false) :
    exec (.carryEnd port cls) s = .next (putQueue s port cls { queue s port cls with carry := none }) := by
  change execCarryEnd port cls s = _
  simp only [execCarryEnd, hport, hcls, hcarry, hdue, decide_true, Bool.and_self, Bool.false_eq_true, if_false]
  exact run_kept (putQueue_pending _ _ _ _) (putQueue_clk _ _ _ _)

/-! ### CONSERVATION_CHECK under an injection (R270, R463) -/

/-- A conservation check of slice 0 that found a difference of one. -/
def offByOne : Check := ⟨0, 3, 0, 1, 0, false⟩

/-- After reset that check is due, and INJECT of the slice's ledger page holds one corruption for source 0 (SRC 0, MODE 1). -/
def injectedCheck : State :=
  setAct { State.reset with net := { netStart with checks := [offByOne] } } (regKey (pageOf .lgr 0 0) 0x20) 0x10

/-- R463: the checker sees the difference with bit 0 inverted, which is none. -/
theorem injectedCheck_no_imbalance {t : State} (h : exec (.conservationCheck 0) injectedCheck = .next t) :
    fget t lgrChkStatImbalance 0 0 = 0 := by
  obtain rfl := Host.Outcome.next.inj h
  rfl

/-- Refutes O35: an injection armed for the checker of the ledger hides a difference of one, so the check that finds it sets no
IMBALANCE. -/
theorem not_admissionMeetsDeadlines : ¬ Obligations.AdmissionMeetsDeadlines := by
  unfold Obligations.AdmissionMeetsDeadlines
  rintro ⟨_, hsweeps⟩
  obtain ⟨_, _, hcheck⟩ := hsweeps injectedCheck
  obtain ⟨t, hexec, _, _, _, himbalance⟩ := hcheck 0 offByOne (by decide) (by decide)
  have hclear := injectedCheck_no_imbalance hexec
  rw [himbalance rfl (by decide)] at hclear
  exact absurd hclear (by decide)

end Sys2Proof.Machine
end

