-- ==== Sys2Proof/Proofs/Twill.lean ====
section
/-!
SUPPORT. Twill (R276-R279, R285): what a freed cell and a firing can change, what moves out of a stage-A queue and into a lane's, the
end of an imbalance window, and the statement that each end moves once in a clock.
-/
namespace Sys2Proof.Machine

/-! ### What a firing and a freed cell change -/

/-- Of the network part, a firing has changed flowlet buckets and transmissions only. -/
def FiredNet (s t : State) : Prop := t.net = { s.net with flowlet := t.net.flowlet, ports := t.net.ports }

theorem FiredNet.of_net {s t : State} (h : t.net = s.net) : FiredNet s t := by
  unfold FiredNet
  rw [h]

theorem FiredNet.trans {s t u : State} (h : FiredNet s t) (k : FiredNet t u) : FiredNet s u := by
  unfold FiredNet at *
  rw [k, h]

theorem FiredNet.foldl {α : Type} (f : State → α → State) (hf : ∀ s a, FiredNet s (f s a)) (l : List α) (s : State) :
    FiredNet s (l.foldl f s) := by
  induction l generalizing s with
  | nil => rfl
  | cons a r ih => exact (hf s a).trans (ih _)

@[simp] theorem notify_net (s : State) (page src sev : Nat) : (notify s page src sev).net = s.net := by
  unfold notify intSend
  dsimp only
  split
  · rfl
  · split <;> rfl

@[simp] theorem resetClass_net (s : State) (page src : Nat) : (resetClass s page src).net = s.net := by
  unfold resetClass
  dsimp only
  split <;> simp only [fset_net]

theorem graveStop_firedNet (s : State) (page src : Nat) : FiredNet s (graveStop s page src) := by
  unfold graveStop FiredNet
  dsimp only
  split <;> simp only [fset_net]

theorem severe_firedNet (s : State) (page src sev : Nat) : FiredNet s (severe s page src sev) := by
  have hreset : FiredNet s (if 3 ≤ sev then resetClass s page src else s) := .of_net (by split <;> simp only [resetClass_net])
  unfold severe
  dsimp only
  split
  · exact hreset.trans (graveStop_firedNet _ _ _)
  · exact hreset

theorem beginContain_firedNet (s : State) (u : Cunit) : FiredNet s (beginContain s u) := by
  unfold beginContain
  dsimp only
  split
  · rfl
  · cases u with
    | lane j =>
      refine FiredNet.trans (t := { s with flt := { s.flt with containing := s.flt.containing ++ [(.lane j, s.clk)] } }) rfl ?_
      refine FiredNet.foldl _ (fun a sl => ?_) _ _
      split <;> rfl
    | _ => rfl

theorem fire_firedNet (s : State) (page src : Nat) : FiredNet s (fire s page src) := by
  unfold fire
  dsimp only
  split
  · refine FiredNet.trans (.of_net (notify_net s page src (sevOf s page src))) (FiredNet.trans ?_ (severe_firedNet _ _ _ _))
    split
    · exact FiredNet.foldl _ beginContain_firedNet _ _
    · exact .of_net rfl
  · exact .of_net rfl

/-- Of a state, only what a fault changes and what holds cells in an egress slice have changed: chains, owners' use, queues and their
Burlap blocks. -/
def FreesOnly (s t : State) : Prop := t = { s with
  cfg := t.cfg, pg := t.pg, flt := t.flt, out := t.out
  net := { s.net with flowlet := t.net.flowlet, ports := t.net.ports, chains := t.net.chains, used := t.net.used,
                      queues := t.net.queues, blocks := t.net.blocks } }

theorem FreesOnly.trans {s t u : State} (h : FreesOnly s t) (k : FreesOnly t u) : FreesOnly s u := by
  unfold FreesOnly at *
  rw [k, h]

theorem fire_freesOnly (s : State) (page src : Nat) : FreesOnly s (fire s page src) := by
  have hnet : FiredNet s (fire s page src) := fire_firedNet s page src
  have hrest : FaultOnly s (fire s page src) := fire_faultOnly s page src
  generalize fire s page src = t at hnet hrest
  have hkept : t.net = { s.net with flowlet := t.net.flowlet, ports := t.net.ports, chains := t.net.chains, used := t.net.used,
                                    queues := t.net.queues, blocks := t.net.blocks } := by
    unfold FiredNet at hnet
    rw [hnet]
  unfold FreesOnly
  rw [← hkept]
  exact hrest

/-- R296: references given up free cells, and an underflow fires. -/
theorem dropRefs_freesOnly (s : State) (pkt es pass first stop : Nat) : FreesOnly s (dropRefs s pkt es pass first stop) := by
  unfold dropRefs
  split
  · rfl
  · dsimp only
    split
    · rfl
    · refine FreesOnly.trans ?_ (fire_freesOnly _ _ _)
      rfl

theorem leaveStream_freesOnly (s : State) (port cls : Nat) (pick : SpillCell → Bool) :
    FreesOnly s (leaveStream s port cls pick) := by
  unfold leaveStream
  dsimp only
  split <;> rfl

theorem leaveOld_freesOnly (s : State) (it : Item) (idx : Option Nat) : FreesOnly s (leaveOld s it idx) := by
  unfold leaveOld
  split
  · rfl
  · split
    · exact (dropRefs_freesOnly s _ _ _ _ _).trans rfl
    · split
      · rfl
      · exact leaveStream_freesOnly _ _ _ _

theorem cellLeft_freesOnly (s : State) (t : Tag) : FreesOnly s (cellLeft s t) := by
  unfold cellLeft
  split
  · exact leaveOld_freesOnly _ _ _
  · rfl

/-! ### One cell leaves a stage-A queue (R278, R279) -/

/-- A stage-A queue. -/
def stageQueue (s : State) (sl lane kind : Nat) : Option StageA :=
  s.net.stageA.find? fun q => q.slice == sl && q.lane == lane && q.kind == kind

/-- A stage-A queue's list once the cell at its front has left. -/
def dropFront (sl lane kind : Nat) (q : StageA) : StageA :=
  if q.slice = sl ∧ q.lane = lane ∧ q.kind = kind then { q with cells := q.cells.drop 1 } else q

/-- A cell as it reaches its lane: one clock later, seven from the other die (R277). -/
def arriving (s : State) (sl lane : Nat) (t : Tag) : Tag :=
  { t with ready := s.clk + 1 + (if dieOf sl = dieOf lane then 0 else 6) }

/-- The state once a cell has moved from the front of its stage-A queue to its lane's queue. -/
def cellMoved (s : State) (sl lane kind : Nat) (t : Tag) : State :=
  let k := lane * 8 + t.es
  { s with net := { s.net with
    stageA := s.net.stageA.map (dropFront sl (if kind = 0 then 8 else lane) kind)
    laneQ := storePut k (laneInsert (storeGet [] s.net.laneQ k) (arriving s sl lane t)) s.net.laneQ } }

/-- The same with the counters, and with a re-steered cell gone from the slice it came from. -/
def cellSent (s : State) (sl lane kind : Nat) (t : Tag) : State :=
  let s1 := twlCount (bump (cellMoved s sl lane kind t) .gze sl 0 2 (if kind = 0 then 5 else if kind = 1 then 3 else 4) 0)
    lane t.es 0 1
  if kind = 0 then cellLeft s1 t else s1

theorem mem_laneInsert {l : List Tag} {t c : Tag} : c ∈ laneInsert l t ↔ c = t ∨ c ∈ l := by
  simp only [laneInsert, List.mem_append, List.mem_cons, List.mem_filter, decide_eq_true_eq]
  constructor
  · rintro (⟨hc, _⟩ | rfl | ⟨hc, _⟩)
    · exact .inr hc
    · exact .inl rfl
    · exact .inr hc
  · rintro (rfl | hc)
    · exact .inr (.inl rfl)
    · rcases Nat.lt_or_ge t.ready c.ready with hafter | hbefore
      · exact .inr (.inr ⟨hc, hafter⟩)
      · exact .inl ⟨hc, hbefore⟩

theorem stageQueue_dropFront {s t : State} {sl lane kind : Nat} (ht : t.net.stageA = s.net.stageA.map (dropFront sl lane kind))
    (sl' lane' : Nat) {k : Nat} (hk : k ≠ kind) :
    stageQueue t sl' lane' k = stageQueue s sl' lane' k := by
  have hkey : ((fun q : StageA => q.slice == sl' && q.lane == lane' && q.kind == k) ∘ dropFront sl lane kind)
      = fun q => q.slice == sl' && q.lane == lane' && q.kind == k := by
    funext q
    unfold dropFront
    dsimp only [Function.comp]
    split <;> rfl
  unfold stageQueue
  rw [ht, List.find?_map, hkey]
  cases hfound : s.net.stageA.find? fun q => q.slice == sl' && q.lane == lane' && q.kind == k with
  | none => rfl
  | some q =>
    have hq := List.find?_some hfound
    simp only [Bool.and_eq_true, beq_iff_eq] at hq
    have hother : ¬(q.slice = sl ∧ q.lane = lane ∧ q.kind = kind) := fun h => hk (hq.2.symm.trans h.2.2)
    rw [Option.map_some, dropFront, if_neg hother]

/-- Between two states, nothing but cells of one kind has moved at the ingress ends of Twill: the clock, the marks, the rooms the lanes
have shown and the queues of the other kinds are the same, and no cell has left a lane. -/
structure SentOnly (kind : Nat) (s t : State) : Prop where
  clk : t.clk = s.clk
  marks : t.net.xferAt = s.net.xferAt
  room : ∀ sl lane es, laneRoom t sl lane es = laneRoom s sl lane es
  others : ∀ sl lane k, k ≠ kind → stageQueue t sl lane k = stageQueue s sl lane k
  lanes : ∀ k c, c ∈ storeGet [] s.net.laneQ k → c ∈ storeGet [] t.net.laneQ k

theorem SentOnly.refl (kind : Nat) (s : State) : SentOnly kind s s :=
  ⟨rfl, rfl, fun _ _ _ => rfl, fun _ _ _ _ => rfl, fun _ _ h => h⟩

theorem SentOnly.trans {kind : Nat} {s t u : State} (h : SentOnly kind s t) (k : SentOnly kind t u) : SentOnly kind s u where
  clk := k.clk.trans h.clk
  marks := k.marks.trans h.marks
  room sl lane es := (k.room sl lane es).trans (h.room sl lane es)
  others sl lane j hj := (k.others sl lane j hj).trans (h.others sl lane j hj)
  lanes j c hc := k.lanes j c (h.lanes j c hc)

theorem FreesOnly.sentOnly {s t : State} (h : FreesOnly s t) (kind : Nat) : SentOnly kind s t := by
  rw [h]
  exact ⟨rfl, rfl, fun _ _ _ => rfl, fun _ _ _ _ => rfl, fun _ _ h => h⟩

theorem storeGet_put_other {α : Type} (d v : α) {k k' : Nat} (h : k' ≠ k) (st : Store α) :
    storeGet d (storePut k v st) k' = storeGet d st k' := by
  rw [storeGet, storeFind_put_other h, storeGet]

theorem cellMoved_sentOnly (s : State) (sl lane kind : Nat) (t : Tag) : SentOnly kind s (cellMoved s sl lane kind t) where
  clk := rfl
  marks := rfl
  room _ _ _ := rfl
  others sl' lane' _ hk := stageQueue_dropFront rfl sl' lane' hk
  lanes k c hc := by
    unfold cellMoved
    dsimp only
    by_cases hkey : k = lane * 8 + t.es
    · subst hkey
      rw [storeGet_put_same]
      exact mem_laneInsert.2 (.inr hc)
    · rwa [storeGet_put_other _ _ hkey]

theorem mem_cellMoved (s : State) (sl lane kind : Nat) (t : Tag) :
    arriving s sl lane t ∈ storeGet [] (cellMoved s sl lane kind t).net.laneQ (lane * 8 + t.es) := by
  unfold cellMoved
  dsimp only
  rw [storeGet_put_same]
  exact mem_laneInsert.2 (.inl rfl)

/-- After its move a cell's state changes by counters, and by what a re-steered cell frees. -/
theorem cellMoved_cellSent (s : State) (sl lane kind : Nat) (t : Tag) :
    FreesOnly (cellMoved s sl lane kind t) (cellSent s sl lane kind t) := by
  unfold cellSent
  dsimp only
  split
  · refine FreesOnly.trans ?_ (cellLeft_freesOnly _ _)
    rfl
  · rfl

theorem cellSent_sentOnly (s : State) (sl lane kind : Nat) (t : Tag) : SentOnly kind s (cellSent s sl lane kind t) :=
  (cellMoved_sentOnly s sl lane kind t).trans ((cellMoved_cellSent s sl lane kind t).sentOnly kind)

theorem mem_cellSent (s : State) (sl lane kind : Nat) (t : Tag) :
    arriving s sl lane t ∈ storeGet [] (cellSent s sl lane kind t).net.laneQ (lane * 8 + t.es) :=
  ((cellMoved_cellSent s sl lane kind t).sentOnly kind).lanes _ _ (mem_cellMoved s sl lane kind t)

/-! ### Several cells leave -/

/-- A queue with a move left lets its front cell go, or keeps what it has. -/
theorem sendA_succ (n : Nat) (s : State) (sl lane kind : Nat) :
    sendA (n + 1) s sl lane kind = (n + 1, s)
      ∨ ∃ t, sendA (n + 1) s sl lane kind = sendA n (cellSent s sl lane kind t) sl lane kind := by
  rw [sendA]
  dsimp only
  split
  · exact .inl rfl
  case h_2 t _ =>
    split
    · exact .inl rfl
    · exact .inr ⟨t, rfl⟩

theorem sendA_sentOnly (n : Nat) (s : State) (sl lane kind : Nat) : SentOnly kind s (sendA n s sl lane kind).2 := by
  induction n generalizing s with
  | zero => exact .refl kind s
  | succ n ih =>
    rcases sendA_succ n s sl lane kind with hkept | ⟨t, hsent⟩
    · rw [hkept]
      exact .refl kind s
    · rw [hsent]
      exact (cellSent_sentOnly s sl lane kind t).trans (ih _)

theorem sendA_none {s : State} {sl lane kind : Nat}
    (h : (stageQueue s sl (if kind = 0 then 8 else lane) kind).bind (·.cells.head?) = none) (n : Nat) :
    sendA n s sl lane kind = (n, s) := by
  cases n with
  | zero => rfl
  | succ n =>
    unfold stageQueue at h
    simp only [sendA, h]

/-- R279: a front cell that is in the queue, and whose lane has shown room, is in the lane's queue afterwards. -/
theorem mem_sendA {s : State} {sl lane kind : Nat} {t : Tag}
    (hfront : (stageQueue s sl (if kind = 0 then 8 else lane) kind).bind (·.cells.head?) = some t) (hready : t.ready ≤ s.clk)
    (hroom : laneRoom s sl lane t.es = true) (n : Nat) :
    arriving s sl lane t ∈ storeGet [] (sendA (n + 1) s sl lane kind).2.net.laneQ (lane * 8 + t.es) := by
  have hgo : ¬(s.clk < t.ready ∨ laneRoom s sl lane t.es = false) := by simp [hroom, hready]
  have hsent : sendA (n + 1) s sl lane kind = sendA n (cellSent s sl lane kind t) sl lane kind := by
    unfold stageQueue at hfront
    simp only [sendA, hfront]
    exact if_neg hgo
  rw [hsent]
  exact (sendA_sentOnly n _ sl lane kind).lanes _ _ (mem_cellSent s sl lane kind t)

/-! ### STAGE_A_TRANSFER (R276-R279) -/

/-- The lane that a slice is connected to on this clock. -/
def laneOfSlot (s : State) (sl : Nat) : Nat := (sl + slotNow s) % 8

/-- The connected lane has taken up to four cells: re-steer, unicast, multicast. -/
def slotSent (s : State) (sl lane : Nat) : State :=
  let r := sendA 1 s sl lane 0
  let u := sendA (3 + r.1) r.2 sl lane 1
  (sendA u.1 u.2 sl lane 2).2

/-- Where a replay stalls the crossing, a stall is counted for each egress slice that cells wait for. -/
def stallsCounted (s : State) (sl lane : Nat) (t : State) : State :=
  if stalled s sl lane then (List.range 8).foldl (fun a es =>
    if s.net.stageA.any fun q => q.slice == sl && (q.lane == lane || q.kind == 0) && q.cells.any (·.es == es)
    then twlCount a lane es 2 1 else a) t
  else t

theorem stallsCounted_net (s : State) (sl lane : Nat) (t : State) : (stallsCounted s sl lane t).net = t.net := by
  unfold stallsCounted
  split
  · generalize List.range 8 = l
    induction l generalizing t with
    | nil => rfl
    | cons es r ih =>
      rw [List.foldl_cons, ih]
      split <;> rfl
  · rfl

/-- With no cell in the slice's queues no stall is counted. -/
theorem stallsCounted_empty {s : State} {sl : Nat} (h : ∀ q ∈ s.net.stageA, q.slice = sl → q.cells = []) (lane : Nat) (t : State) :
    stallsCounted s sl lane t = t := by
  have hnone : ∀ es, (s.net.stageA.any fun q => q.slice == sl && (q.lane == lane || q.kind == 0) && q.cells.any (·.es == es))
      = false := by
    intro es
    rw [List.any_eq_false]
    intro q hq hwaits
    simp only [Bool.and_eq_true, beq_iff_eq] at hwaits
    obtain ⟨⟨hslice, _⟩, hcells⟩ := hwaits
    rw [h q hq hslice] at hcells
    exact absurd hcells Bool.false_ne_true
  have hfold : ∀ l : List Nat, l.foldl (fun a _ => a) t = t := by
    intro l
    induction l with
    | nil => rfl
    | cons _ _ ih => exact ih
  unfold stallsCounted
  simp only [hnone, Bool.false_eq_true, if_false, hfold, ite_self]

/-- The mark of a clock. -/
def marked (s : State) (k : Nat) : State := { s with net := { s.net with xferAt := storePut k s.clk s.net.xferAt } }

theorem oncePerClk_first {s : State} {k : Nat} (h : storeFind s.net.xferAt k ≠ some s.clk) :
    oncePerClk s k = (true, marked s k) := if_neg h

theorem oncePerClk_again {s : State} {k : Nat} (h : storeFind s.net.xferAt k = some s.clk) : oncePerClk s k = (false, s) := if_pos h

theorem exec_stageATransfer {s : State} {n : Nat} (hn : n < 8) (hrun : running s = true)
    (hfirst : storeFind s.net.xferAt n ≠ some s.clk) :
    exec (.stageATransfer n) s = .next { stallsCounted s n (laneOfSlot s n) (slotSent (marked s n) n (laneOfSlot s n)) with
      pending := s.pending, clk := s.clk } := by
  change execStageATransfer n s = _
  rw [execStageATransfer, decide_eq_true hn, hrun, oncePerClk_first hfirst]
  rfl

theorem exec_stageATransfer_again {s : State} {n : Nat} (hn : n < 8) (hdone : storeFind s.net.xferAt n = some s.clk) :
    exec (.stageATransfer n) s = .next s := by
  change execStageATransfer n s = _
  rw [execStageATransfer, decide_eq_true hn, oncePerClk_again hdone]
  dsimp only
  rw [if_pos (Or.inr rfl)]
  exact run_kept rfl rfl

/-- A transfer keeps the marks of the clock. -/
theorem slotSent_marks (s : State) (sl lane : Nat) : (slotSent s sl lane).net.xferAt = s.net.xferAt :=
  (sendA_sentOnly _ _ sl lane 2).marks.trans ((sendA_sentOnly _ _ sl lane 1).marks.trans (sendA_sentOnly _ _ sl lane 0).marks)

/-- A slice with nothing queued moves nothing. -/
theorem slotSent_empty {s : State} {sl : Nat} (h : ∀ q ∈ s.net.stageA, q.slice = sl → q.cells = []) (lane : Nat) :
    slotSent s sl lane = s := by
  have hnone : ∀ lane kind, (stageQueue s sl lane kind).bind (·.cells.head?) = none := by
    intro lane kind
    cases hq : stageQueue s sl lane kind with
    | none => rfl
    | some q =>
      have hkey := List.find?_some hq
      simp only [Bool.and_eq_true, beq_iff_eq] at hkey
      have hempty := h q (List.mem_of_find?_eq_some hq) hkey.1.1
      rw [Option.bind_some, hempty]
      rfl
  simp only [slotSent, sendA_none (hnone _ _)]

/-- The unicast cell at the front, in its queue and with room shown, is in the lane's queue after the transfer, whatever else moved. -/
theorem mem_slotSent {s : State} {sl lane : Nat} {q : StageA} {c : Tag} {rest : List Tag}
    (hq : stageQueue s sl lane 1 = some q) (hcells : q.cells = c :: rest) (hready : c.ready ≤ s.clk)
    (hroom : laneRoom s sl lane c.es = true) :
    arriving s sl lane c ∈ storeGet [] (slotSent s sl lane).net.laneQ (lane * 8 + c.es) := by
  -- the re-steered cell that goes first leaves the unicast queue, the clock and the room as they are
  have hfirst : SentOnly 0 s (sendA 1 s sl lane 0).2 := sendA_sentOnly 1 s sl lane 0
  have hfront : (stageQueue (sendA 1 s sl lane 0).2 sl lane 1).bind (·.cells.head?) = some c := by
    rw [hfirst.others sl lane 1 (by decide), hq, Option.bind_some, hcells]
    rfl
  have hmoved := mem_sendA (kind := 1) hfront (by rw [hfirst.clk]; exact hready) (by rw [hfirst.room]; exact hroom)
    (2 + (sendA 1 s sl lane 0).1)
  have hsame : arriving (sendA 1 s sl lane 0).2 sl lane c = arriving s sl lane c := by rw [arriving, hfirst.clk, arriving]
  have hcount : 2 + (sendA 1 s sl lane 0).1 + 1 = 3 + (sendA 1 s sl lane 0).1 := by omega
  rw [hsame, hcount] at hmoved
  exact (sendA_sentOnly _ _ sl lane 2).lanes _ _ hmoved

/-! ### STAGE_B_TRANSFER (R277, R290) -/

theorem exec_stageBTransfer_again {s : State} {n : Nat} (hn : n < 8) (hrun : running s = true)
    (hdone : storeFind (arrivals s).net.xferAt (8 + n) = some (arrivals s).clk) :
    exec (.stageBTransfer n) s = .next { arrivals s with pending := s.pending, clk := s.clk } := by
  change execStageBTransfer n s = _
  simp only [execStageBTransfer, decide_eq_true hn, hrun, oncePerClk_again hdone]
  rfl

theorem exec_stageBTransfer {s : State} {n : Nat} (hn : n < 8) (hrun : running s = true)
    (hfirst : storeFind (arrivals s).net.xferAt (8 + n) ≠ some (arrivals s).clk) (hopen : stalled s n (laneOfSlot s n) = false) :
    exec (.stageBTransfer n) s = .next { sendB 4 (oncePerClk (arrivals s) (8 + n)).2 n (laneOfSlot s n) with
      pending := s.pending, clk := s.clk } := by
  unfold laneOfSlot at *
  change execStageBTransfer n s = _
  simp only [execStageBTransfer, decide_eq_true hn, hrun, oncePerClk_first hfirst, hopen]
  rfl

/-! ### IMBALANCE_WINDOW (R285) -/

/-- The lanes below `n` that a test picks, as a bit map. -/
def bitmap (p : Nat → Bool) (n : Nat) : Nat := ((List.range n).filter p).foldl (fun a j => a + 2 ^ j) 0

theorem bitmap_succ (p : Nat → Bool) (n : Nat) : bitmap p (n + 1) = if p n then 2 ^ n + bitmap p n else bitmap p n := by
  unfold bitmap
  rw [List.range_succ, List.filter_append, List.foldl_append]
  cases hp : p n <;> simp [hp, Nat.add_comm]

theorem bitmap_lt (p : Nat → Bool) (n : Nat) : bitmap p n < 2 ^ n := by
  induction n with
  | zero => exact Nat.one_pos
  | succ n ih =>
    rw [bitmap_succ, Nat.pow_succ]
    split <;> omega

theorem testBit_bitmap (p : Nat → Bool) {n j : Nat} (hj : j < n) : (bitmap p n).testBit j = p j := by
  induction n with
  | zero => omega
  | succ n ih =>
    rw [bitmap_succ]
    rcases Nat.lt_succ_iff_lt_or_eq.1 hj with hlow | rfl
    · split
      · rw [Nat.testBit_two_pow_add_gt hlow, ih hlow]
      · exact ih hlow
    · have htop : (bitmap p j).testBit j = false := Nat.testBit_lt_two_pow (bitmap_lt p j)
      split
      next hp => rw [Nat.testBit_two_pow_add_eq, htop, hp, Bool.not_false]
      next hp => rw [htop, eq_false_of_ne_true hp]

theorem bit_eq_testBit (v n : Nat) : bit v n = v.testBit n := by
  rw [Nat.testBit_eq_decide_div_mod_eq]
  rfl

/-- Keys deleted one after the other are gone, and every other key is as before. -/
theorem storeFind_foldl_del {α β : Type} (key : β → Nat) (l : List β) (st : Store α) (k : Nat) :
    storeFind (l.foldl (fun m b => storeDel (key b) m) st) k = if k ∈ l.map key then none else storeFind st k := by
  induction l generalizing st with
  | nil => rfl
  | cons b r ih =>
    rw [List.foldl_cons, ih]
    by_cases hk : k = key b
    · simp [hk, storeFind_del_same]
    · simp [hk, storeFind_del_other]

/-- A lane's average occupancy over the window was more than IMB_THRESH above the mean of the eight. -/
def laneHot (s : State) (sl j : Nat) : Bool :=
  decide ((List.range 8).foldl (fun a j => a + storeGet 0 s.net.occSum (8 * sl + j)) 0
    + 8 * fget s gzeImbCfgImbThresh sl 0 * (s.clk - storeGet 0 s.net.occAt sl) < 8 * storeGet 0 s.net.occSum (8 * sl + j))

/-- The state after the end of a window, with the lanes that buckets move to. -/
def windowClosed (s : State) (sl : Nat) (cool : Store Nat) : State :=
  let s1 := fset s gzeStatHot sl 0 (bitmap (laneHot s sl) 8)
  { s1 with net := { s1.net with
    cool := cool
    occSum := (List.range 8).foldl (fun m j => storeDel (8 * sl + j) m) s1.net.occSum
    occAt := storePut sl s.clk s1.net.occAt } }

theorem exec_imbalanceWindow {s : State} {sl : Nat} (hsl : sl < 8) (hrun : running s = true)
    (hdue : passedNs s (storeGet 0 s.net.occAt sl) (fget s gzeImbCfgImbWinNs sl 0) = true) :
    ∃ cool, exec (.imbalanceWindow sl) s = .next (windowClosed s sl cool) := by
  change ∃ cool, execImbalanceWindow sl s = _
  simp only [execImbalanceWindow, decide_eq_true hsl, hrun, hdue]
  exact ⟨_, rfl⟩

theorem occSum_windowClosed (s : State) (sl : Nat) (cool : Store Nat) {j : Nat} (hj : j < 8) :
    storeGet 0 (windowClosed s sl cool).net.occSum (8 * sl + j) = 0 := by
  have hmem : 8 * sl + j ∈ (List.range 8).map (8 * sl + ·) := List.mem_map.2 ⟨j, List.mem_range.2 hj, rfl⟩
  unfold windowClosed
  dsimp only
  rw [storeGet, storeFind_foldl_del, if_pos hmem]
  rfl

theorem hot_windowClosed (s : State) (sl : Nat) (cool : Store Nat) {j : Nat} (hj : j < 8) :
    bit (fget (windowClosed s sl cool) gzeStatHot sl 0) j = laneHot s sl j := by
  have hfield : fget (windowClosed s sl cool) gzeStatHot sl 0 = bitmap (laneHot s sl) 8 :=
    (fget_fset_same s gzeStatHot sl 0 (bitmap (laneHot s sl) 8) (by decide) (by decide)).trans (Nat.mod_eq_of_lt (bitmap_lt _ 8))
  rw [hfield, bit_eq_testBit, testBit_bitmap _ hj]

/-! ### The statement -/

/-- Settles O36: a transfer that marks the clock keeps the mark and only adds to the lanes' queues; a second one finds the mark; and a
window's end sets HOT to the lanes it finds hot. -/
theorem twillMovesOncePerClock : Obligations.TwillMovesOncePerClock := by
  unfold Obligations.TwillMovesOncePerClock
  refine ⟨fun n s hn hrun => ⟨fun hfirst => ?_, exec_stageATransfer_again hn, fun hdone => ?_, fun hfirst hopen => ?_⟩,
    fun sl s hsl hrun hdue => ?_⟩
  · have hexec := exec_stageATransfer hn hrun hfirst
    refine ⟨⟨_, hexec, ?_⟩, fun hempty => ⟨_, hexec, ?_⟩, fun q c rest hq hcells hready hroom => ⟨_, hexec, ?_⟩⟩
    · dsimp only
      rw [stallsCounted_net, slotSent_marks]
      exact storeFind_put_same _ _ _
    · rw [stallsCounted_empty hempty, slotSent_empty (s := marked s n) hempty, oncePerClk_first hfirst]
    · dsimp only
      rw [stallsCounted_net]
      exact mem_slotSent (s := marked s n) hq hcells hready hroom
  · exact ⟨_, exec_stageBTransfer_again hn hrun hdone, rfl⟩
  · exact ⟨_, exec_stageBTransfer hn hrun hfirst hopen, rfl⟩
  · obtain ⟨cool, hexec⟩ := exec_imbalanceWindow hsl hrun hdue
    exact ⟨_, hexec, storeGet_put_same _ _ _ _, fun j hj => occSum_windowClosed s sl cool hj,
      fun j hj => hot_windowClosed s sl cool hj, rfl⟩

end Sys2Proof.Machine
end

