-- ==== Sys2Proof/Proofs/Spill.lean ====
section
/-!
SUPPORT. Copies, spill and prefetch (R298-R305, R327, R328): the end of an item, what a request leaves in Burlap's list, how a response
ends, and the statement that the eight commands complete.
-/
namespace Sys2Proof.Machine

/-! ### The end of an item (R268) -/

theorem itemOf_id {s : State} {id : Nat} {x : Item} (h : itemOf s id = some x) : x.id = id := by
  simpa using List.find?_some h

theorem itemOf_congr {s t : State} (h : t.net.items = s.net.items) (id : Nat) : itemOf t id = itemOf s id := by
  unfold itemOf
  rw [h]

@[simp] theorem idleIfEmpty_items (s : State) (port c : Nat) : (idleIfEmpty s port c).net.items = s.net.items := by
  unfold idleIfEmpty
  split <;> rfl

@[simp] theorem quiescent_items (s : State) (sl : Nat) : (quiescent s sl).net.items = s.net.items := by
  unfold quiescent
  split <;> split <;> rfl

/-- An item that has ended is no longer an item; after a SEV4 stop none ends (R272). -/
theorem itemOf_dispose {s : State} (hstop : s.flt.stopped = false) (it : Item) (disp reason : Nat) (out : Option Nat) :
    itemOf (dispose s it disp reason out) it.id = none := by
  have hgoes : ¬s.flt.stopped = true := by rw [hstop]; exact Bool.false_ne_true
  unfold dispose
  rw [if_neg hgoes]
  extract_lets s0 s1 s2 s3 s4 inLater s5 s6 net6 s7 s8 s9
  have hgone : itemOf s7 it.id = none := by simp [itemOf, s7, List.find?_eq_none]
  have hlast : s9.net.items = s8.net.items := by
    unfold s9
    split
    · rfl
    · split <;> rfl
  rw [itemOf_congr (quiescent_items s9 it.islice), itemOf_congr hlast, itemOf_congr (idleIfEmpty_items s7 it.port it.cls), hgone]

theorem itemOf_fail {s : State} (hstop : s.flt.stopped = false) (it : Item) (reason : Nat) : itemOf (fail s it reason) it.id = none := by
  unfold fail
  refine itemOf_dispose ?_ it 2 reason none
  split
  · rw [bump_flt, hstop]
  · exact hstop

theorem not_stopped_of_running {s : State} (h : running s = true) : s.flt.stopped = false := by
  unfold running at h
  simp only [Bool.and_eq_true, Bool.not_eq_true'] at h
  exact h.2

/-! ### Multicast (R298-R300) -/

theorem foldl_flt {α : Type} (f : State → α → State) (hf : ∀ a x, (f a x).flt = a.flt) (l : List α) (s : State) :
    (l.foldl f s).flt = s.flt := by
  induction l generalizing s with
  | nil => rfl
  | cons x r ih => exact (ih _).trans (hf s x)

/-- Copies that are enqueued cause no fault. -/
@[simp] theorem enqueueCopies_flt (s : State) (pkt es : Nat) : (enqueueCopies s pkt es).flt = s.flt := by
  unfold enqueueCopies
  split
  · rfl
  · split
    · refine foldl_flt _ (fun a it => ?_) _ s
      split <;> rfl
    · rfl

theorem exec_replicationPass_last {s : State} {id es : Nat} {c : Chain} (hes : es < 8) (hc : chainOf s id es 0 = some c)
    (hengine : c.engine = true) (hrefs : ∀ x ∈ c.cells, x.ref = 1) (hlast : c.later = []) :
    exec (.replicationPass id es) s
      = .next { dropRefs s id es 0 0 c.cells.length with pending := s.pending, clk := s.clk } := by
  have hone : (c.cells.any fun x => x.ref != 1) = false := by
    rw [List.any_eq_false]
    intro x hx
    simp [hrefs x hx]
  change execReplicationPass id es s = _
  simp only [execReplicationPass, decide_eq_true hes, hc, hengine, hone, hlast]
  rfl

theorem exec_residueReexamine {s : State} {es : Nat} (hes : es < 8) (hrun : running s = true) :
    exec (.residueReexamine es) s = .next { residueAgain s es with pending := s.pending, clk := s.clk } := by
  change execResidueReexamine es s = _
  rw [execResidueReexamine, decide_eq_true hes, hrun]
  rfl

/-- R300: what becomes of a copy at its deadline, once the copies with a ready port have been enqueued. -/
def residueEnd (s : State) (it : Nat) (x : Item) : State :=
  match itemOf (enqueueCopies s x.pkt x.es) it with
  | none => enqueueCopies s x.pkt x.es
  | some y =>
    if y.place = .residue then fail (bump (enqueueCopies s x.pkt x.es) .bpm x.es 1 3 2 0) y 4 else enqueueCopies s x.pkt x.es

theorem exec_multicastResidueExpired {s : State} {it : Nat} {x : Item} (hrun : running s = true) (hx : itemOf s it = some x)
    (hplace : x.place = .residue) (hdue : later x.dl (admOf (tbNow s)) = false) :
    exec (.multicastResidueExpired it) s = .next { residueEnd s it x with pending := s.pending, clk := s.clk } := by
  have hexpired : ¬(x.place ≠ .residue ∨ later x.dl (admOf (tbNow s)) = true ∨ running s = false) := by simp [hplace, hdue, hrun]
  change execMulticastResidueExpired it s = _
  simp only [execMulticastResidueExpired, hx, if_neg hexpired]
  rfl

/-- The copy has a ready port and is queued, or it fails. -/
theorem residueEnd_not_residue {s : State} (hstop : s.flt.stopped = false) (it : Nat) (x : Item) {y : Item}
    (hy : itemOf (residueEnd s it x) it = some y) : y.place ≠ .residue := by
  unfold residueEnd at hy
  split at hy
  next hnone => exact absurd (hnone.symm.trans hy) (by simp)
  next z hz =>
    split at hy
    next =>
      have hfailed := itemOf_fail (s := bump (enqueueCopies s x.pkt x.es) .bpm x.es 1 3 2 0) (by simp [hstop]) z 4
      rw [itemOf_id hz, hy] at hfailed
      cases hfailed
    next hplace =>
      obtain rfl := Option.some.inj (hz.symm.trans hy)
      exact hplace

/-! ### Staging and the timeout (R301, R305) -/

theorem exec_stagingFlush {s : State} {p cls : Nat} {b : Nat × Nat} (hp : p < 384) (hcls : cls < 8)
    (hdue : ((queue s p cls).staging.find? fun b => passedNs s b.2 (fget s bpmSpillCfgFlushNs (sliceOf p) 0)) = some b) :
    exec (.stagingFlush p cls) s
      = .next { writeBlock s p cls b.1 ((queue s p cls).stream.filter fun c => c.pos / 8 == b.1 && c.st == .staged) with
          pending := s.pending, clk := s.clk } := by
  change execStagingFlush p cls s = _
  simp only [execStagingFlush, decide_eq_true hp, decide_eq_true hcls, hdue]
  rfl

theorem exec_externalReadTimeout {s : State} {it : Nat} {x : Item} (hrun : running s = true) (hx : itemOf s it = some x)
    (hreading : ((queue s x.port x.cls).stream.any fun c => c.item == it && c.st == .reading) = true)
    (hdue : later x.dl (admOf (tbNow s)) = false) (hnow : s.pending.any (endsNow s x) = false) :
    ∃ t, exec (.externalReadTimeout it) s = .next t ∧ t.net = (fail s x 9).net := by
  change ∃ t, execExternalReadTimeout it s = _ ∧ _
  simp only [execExternalReadTimeout, hx, hreading, hdue, hrun, hnow]
  exact ⟨_, rfl, rfl⟩

/-! ### Responses (R305, R327, R328) -/

section
variable {s : State} {r : BReq} (hlate : r.late = false) (hheld : r.held = false) (hissued : r.issued = true)

include hlate hheld hissued

/-- A write whose column command has issued ends with its code. -/
theorem respondTo_write (hwrite : r.write = true) (errs : List (Nat × Nat)) :
    respondTo s r ⟨errs, false⟩ = finish s r r.code [] := by
  simp [respondTo, hlate, hheld, hissued, hwrite]

theorem respondTo_read (hwrite : r.write = false) (hcode : r.code < 4) (errs : List (Nat × Nat)) :
    respondTo s r ⟨errs, false⟩ = readBack s r errs false := by
  simp [respondTo, hlate, hheld, hissued, hwrite, Nat.not_le.2 hcode]

theorem respondTo_parity (hcode : r.code < 4) (errs : List (Nat × Nat)) : respondTo s r ⟨errs, true⟩ = parityError s r := by
  simp [respondTo, hlate, hheld, hissued, Nat.not_le.2 hcode]

end

theorem exec_spillWriteResponse {s : State} {id : Nat} {r : BReq} (hrun : running s = true)
    (hr : (s.hbm.reqs.find? fun r => r.id == id && inner r && r.who == 0) = some r) (parity : Bool) :
    exec (.spillWriteResponse id parity) s
      = .next { respondTo s r ⟨[], parity⟩ with pending := s.pending, clk := s.clk } := by
  change execSpillWriteResponse id parity s = _
  simp only [execSpillWriteResponse, hr, hrun]
  rfl

theorem exec_prefetchReturn {s : State} {id : Nat} {r : BReq} (hrun : running s = true)
    (hr : (s.hbm.reqs.find? fun r => r.id == id && inner r && r.who == 1) = some r) (back : ReadBits) :
    exec (.prefetchReturn id back) s = .next { respondTo s r back with pending := s.pending, clk := s.clk } := by
  change execPrefetchReturn id back s = _
  simp only [execPrefetchReturn, hr, hrun]
  rfl

/-- R305: after a good response the spill write is answered and no longer outstanding, and nothing else has changed. -/
theorem finish_spill_good {s : State} {r : BReq} (hinner : inner r = true) (hwho : r.who = 0) (hgood : r.code < 2) :
    finish s r r.code [] = { s with
      hbm := { s.hbm with reqs := s.hbm.reqs.filter fun x => x.id != r.id }
      out := s.out ++ [Emit.hbm r.chan (8 + r.code) (r.id * 16)] } := by
  have htag : r.tag ≠ [] := by
    intro hempty
    simp [inner, hempty] at hinner
  unfold finish
  rw [if_pos ⟨hwho, htag⟩, spillEnd, if_pos hgood, respond, hwho]
  rfl

/-! ### Requests of Burlap (R317, R322) -/

theorem accepted_reqs (s : State) (r : BReq) : (accepted s r).hbm.reqs = s.hbm.reqs := by
  unfold accepted scrubMark
  dsimp only
  split
  · split <;> rfl
  · rfl

theorem regionErr_faultOnly (s : State) : FaultOnly s (regionErr s) :=
  (bump_faultOnly s _ _ _ _ _ _).trans (fireLow_faultOnly _ _ _)

/-- A request that is made joins the list, whatever its code. -/
theorem enqueue_reqs (s : State) (r : BReq) : (enqueue s r).hbm.reqs = s.hbm.reqs ++ [r] := by
  unfold enqueue
  dsimp only
  split
  · rw [(regionErr_faultOnly _).hbm]
  · split
    · rfl
    · rw [accepted_reqs]

/-- Requests made one after the other join the list in order, and what holds of each one as it is made holds of all. -/
theorem reqs_foldl_enqueue {α : Type} (req : State → α → BReq) {P : BReq → Prop} (hP : ∀ a x, P (req a x)) (l : List α)
    (s : State) :
    ∃ rs, (l.foldl (fun a x => enqueue a (req a x)) s).hbm.reqs = s.hbm.reqs ++ rs ∧ rs.length = l.length ∧ ∀ r ∈ rs, P r := by
  induction l generalizing s with
  | nil => exact ⟨[], (List.append_nil _).symm, rfl, fun _ h => absurd h List.not_mem_nil⟩
  | cons x l ih =>
    obtain ⟨rs, hreqs, hlength, hall⟩ := ih (enqueue s (req s x))
    refine ⟨req s x :: rs, ?_, congrArg (· + 1) hlength, List.forall_mem_cons.2 ⟨hP s x, hall⟩⟩
    rw [List.foldl_cons, hreqs, enqueue_reqs, List.append_assoc, List.singleton_append]

/-! ### PREFETCH_READ_ISSUE (R303) -/

/-- The written cells of the block that a queue (key and state) wants next. -/
def blockCells (e : Nat × QueueSt) : List SpillCell :=
  e.2.stream.filter fun c => c.pos / 8 == (nextBlock e.2).getD 0 && c.st == .burlap

/-- The read of one piece of that block. -/
def pieceRead (s : State) (e : Nat × QueueSt) (a : State) (k : Nat) : BReq :=
  let blk := (nextBlock e.2).getD 0
  newReq a 1 (((e.2.blks.find? fun b => b.1 == blk).elim 0 (·.2)) * 2048 + k * pieceLen s) (pieceLen s) false []
    ([e.1 / 9, e.1 % 9, blk]
      ++ ((blockCells e).filter fun c => c.pos % 8 / (pieceLen s / 256) == k).map fun c => c.pos % 8)

/-- The state once the clock is marked and the cells of the block are being read. -/
def blockAsked (s : State) (es : Nat) (e : Nat × QueueSt) : State :=
  putQueue (marked s (16 + es)) (e.1 / 9) (e.1 % 9)
    { e.2 with stream := e.2.stream.map fun (c : SpillCell) => if (blockCells e).contains c then { c with st := .reading } else c }

/-- The state once the reads of the block are made. -/
def blockRead (s : State) (es : Nat) (e : Nat × QueueSt) : State :=
  (List.range (8 / (pieceLen s / 256))).foldl (fun a k => enqueue a (pieceRead s e a k)) (blockAsked s es e)

theorem exec_prefetchReadIssue {s : State} {es : Nat} {e : Nat × QueueSt} (hes : es < 8) (hrun : running s = true)
    (hfirst : storeFind s.net.xferAt (16 + es) ≠ some s.clk) (hroom : poolUsed s es + 8 ≤ fget s bpmPfPoolCells es 0)
    (he : (s.net.queues.find? fun e => e.1 / 432 == es && e.1 % 9 != 8 && wantsBlock s es e.2 && (nextBlock e.2).isSome) = some e) :
    exec (.prefetchReadIssue es) s = .next { blockRead s es e with pending := s.pending, clk := s.clk } := by
  change execPrefetchReadIssue es s = _
  simp only [execPrefetchReadIssue, decide_eq_true hes, hrun, oncePerClk_first hfirst, Nat.not_lt.2 hroom, he]
  rfl

/-- Every read of a block is one of the prefetcher's, of one piece. -/
theorem reqs_blockRead (s : State) (es : Nat) (e : Nat × QueueSt) :
    ∃ rs, (blockRead s es e).hbm.reqs = s.hbm.reqs ++ rs ∧ rs.length = 8 / (pieceLen s / 256)
      ∧ ∀ r ∈ rs, r.who = 1 ∧ r.len = pieceLen s ∧ r.write = false ∧ inner r = true := by
  obtain ⟨rs, hreqs, hlength, hall⟩ := reqs_foldl_enqueue (pieceRead s e)
    (P := fun r => r.who = 1 ∧ r.len = pieceLen s ∧ r.write = false ∧ inner r = true) (fun _ _ => ⟨rfl, rfl, rfl, rfl⟩)
    (List.range (8 / (pieceLen s / 256))) (blockAsked s es e)
  exact ⟨rs, hreqs, hlength.trans List.length_range, hall⟩

/-! ### The statement -/

/-- Settles O37: a failed item is an item no more, a response ends as the request's kind and code say, and a block's reads join
Burlap's list. -/
theorem copiesAndSpill : Obligations.CopiesAndSpill := by
  unfold Obligations.CopiesAndSpill
  refine ⟨fun s hrun => ⟨?_, ?_, ?_, ?_, ?_⟩, fun s hrun => ⟨?_, ?_, ?_⟩⟩
  · intro id es c hes hc hengine hrefs hlast
    exact ⟨_, exec_replicationPass_last hes hc hengine hrefs hlast, rfl⟩
  · intro es hes
    exact ⟨_, exec_residueReexamine hes hrun, rfl⟩
  · intro it x hx hplace hdue
    exact ⟨_, exec_multicastResidueExpired hrun hx hplace hdue,
      fun y hy => residueEnd_not_residue (not_stopped_of_running hrun) it x hy⟩
  · intro p cls b hp hcls hdue
    exact ⟨_, exec_stagingFlush hp hcls hdue, rfl⟩
  · intro it x hx hreading hdue hnow
    obtain ⟨t, hexec, hnet⟩ := exec_externalReadTimeout hrun hx hreading hdue hnow
    refine ⟨t, hexec, ?_⟩
    rw [itemOf_congr (s := fail s x 9) (by rw [hnet]), ← itemOf_id hx]
    exact itemOf_fail (not_stopped_of_running hrun) x 9
  · intro id r hr hlate hheld hissued hwrite
    have hexec := exec_spillWriteResponse hrun hr
    have hkey := List.find?_some hr
    simp only [Bool.and_eq_true, beq_iff_eq] at hkey
    obtain ⟨⟨rfl, hinner⟩, hwho⟩ := hkey
    refine ⟨⟨_, hexec false, ?_, fun hgood => ?_⟩, fun hcode => ⟨_, hexec true, ?_⟩⟩
    · rw [respondTo_write hlate hheld hissued hwrite]
    · rw [respondTo_write hlate hheld hissued hwrite, finish_spill_good hinner hwho hgood]
    · rw [respondTo_parity hlate hheld hissued hcode]
  · intro id errs r hr hlate hheld hissued hwrite hcode
    have hexec := exec_prefetchReturn hrun hr
    refine ⟨⟨_, hexec ⟨errs, false⟩, ?_⟩, ⟨_, hexec ⟨errs, true⟩, ?_⟩⟩
    · rw [respondTo_read hlate hheld hissued hwrite hcode]
    · rw [respondTo_parity hlate hheld hissued hcode]
  · intro es e hes hfirst hroom he
    exact ⟨_, exec_prefetchReadIssue hes hrun hfirst hroom he, reqs_blockRead s es e⟩

end Sys2Proof.Machine
end
